-- ==== Sys2Proof/Word.lean ====
section
/-! DEFINITION. The machine's words and its plainest arithmetic (spec/00_scope.md R1, R5). -/

namespace Sys2Proof

/-- One byte of memory. -/
abbrev Byte := BitVec 8

/-- A 64-bit scalar register, address or quad. -/
abbrev Word := BitVec 64

/-- A register number of an encoding. -/
abbrev Reg := BitVec 5

/-- One vector, or mask, register at the largest VLEN (R10). -/
abbrev VReg := BitVec 16384

/-- A hart identifier: isle [12:10], classroom [9:5], core [4:2], hart [1:0] (R8). -/
abbrev HartId := BitVec 13

/-- The context number of PARTID with its partition: what names a context in the package (R390). -/
structure CtxRef where
  part : BitVec 3
  ctx  : BitVec 16
  deriving DecidableEq, Repr

/-- The isle of a hart identifier (R8). -/
def HartId.isle (h : HartId) : Nat := (h >>> 10).toNat
/-- The classroom of the package a hart stands in: isle and classroom fields together (R8). -/
def HartId.classroom (h : HartId) : Nat := (h >>> 5).toNat
/-- The core of the package a hart stands in: every field above the hart field (R8). -/
def HartId.core (h : HartId) : Nat := (h >>> 2).toNat
/-- The hart's slot in its core (R8). -/
def HartId.slot (h : HartId) : Nat := h.toNat % 4

/-- One bit of a word as a number. -/
def bit01 (b : Bool) : Nat := if b then 1 else 0

end Sys2Proof
end

