-- ==== Sys2Proof/Syntax/Fields.lean ====
section
/-! DEFINITION. What the arguments of an instruction are made of: field groups of the encodings, and the data that the
steps without an encoding carry. -/

namespace Sys2Proof

/-- The width code of sext and zext (R154): byte, half, word. -/
inductive ExtWidth where
  | b | h | w
  deriving DecidableEq, Repr

/-- The fields of a W instruction that are not its class or operation (R144). -/
structure WFields where
  vd     : Reg
  vs1    : Reg
  vs2    : Reg
  vs3    : Reg
  mr     : BitVec 3
  me     : Bool
  orient : Bool
  s1     : Bool
  desc   : BitVec 4
  imm    : BitVec 16
  deriving DecidableEq, Repr

/-- Where a register write of the outside lands: a status register of a hart, or an offset of the management window
(R139, R421). -/
inductive RegLoc where
  | status (hid : HartId) (n : BitVec 12)
  | window (offset : Nat)
  deriving DecidableEq, Repr

/-- A link of the package: a causeway port, or the straits between two isles (R424, R426). -/
inductive Link where
  | causeway (port : BitVec 5)
  | straits (a b : BitVec 3)
  deriving DecidableEq, Repr

/-- A channel between two isles: what the home isle `home` sends to the isle `isle` (R426). -/
structure Channel where
  home : BitVec 3
  isle : BitVec 3
  deriving DecidableEq, Repr

/-- What the scrubber finds in a word it reads (R406). -/
inductive ScrubFinding where
  | clean | correctable | uncorrectable
  deriving DecidableEq, Repr

/-- One partition block as tutor firmware loads it (R428): SIZE, BASE and up to four pool windows in GiB. -/
structure PartLoad where
  size    : BitVec 2
  base    : BitVec 3
  windows : List (BitVec 16 × BitVec 16)
  ports   : BitVec 18
  deriving DecidableEq, Repr

/-- What tutor firmware loads at step 4 of R431: partition blocks (an absent one is unused); for each isle IPMAP, STVEC of its harts,
the firmware ratio, the scrub period, firmware's power limit and the shoal's reserve in lines; and the pool extents it enumerated
(base and size in bytes). -/
structure FwLoad where
  parts   : List (BitVec 3 × PartLoad)
  ipmap   : List Word
  stvec   : List Word
  fwr     : List (BitVec 8)
  scrub   : List (BitVec 32)
  watts   : List Nat
  reserve : List Nat
  extents : List (Nat × Nat)
  deriving DecidableEq, Repr

/-- The operations of the W format by name (R148, and the image kinds of R352). -/
inductive WOp where
  | vadd | vsub | vrsub | vand | vor | vxor | vsll | vsrl
  | vsra | vmin | vmax | vminu | vmaxu | vmul | vmulh | vmulhu
  | vmacc | vsadd | vssub | vsaddu | vssubu | vsel | vabsd | vmv
  | vwadd | vwaddu | vwmul | vwmulu | vwmacc | vnsrl | vnclip | vnclipu
  | vfadd | vfsub | vfmul | vfdiv | vfsqrt | vfmin | vfmax | vfabs
  | vfneg | vfma | vfms | vfnma | vfnms | vfwma | vfcvt | vfcvtI
  | vicvtF | vsf | vcmp | vfcmp | vredsum | vredmax | vredmin | vredmaxu
  | vredminu | vredand | vredor | vfredsum | vfredtree | vfredmax | vfredmin | vscan
  | vfscan | vslideup | vslidedown | vgather | vcompress | vexpand | vbcast | vins
  | vext | vidx | mand | mor | mxor | mandn | mnot | mcount
  | mfirst | mall | mmov | vld | vlds | vldx | vldff | vldd
  | vst | vsts | vstx | vstxu | vstd | vamoAdd | vamoAnd | vamoOr
  | vamoXor | vamoMin | vamoMax | vamoSwap | vamoFadd | vamoAddDesc | vamoAndDesc | vamoOrDesc
  | vamoXorDesc | vamoMinDesc | vamoMaxDesc | vamoSwapDesc | vamoFaddDesc | mtld | mtrel | mast
  | maz | mald | mmac | mmacs | mmacx | mdrain | mloc | mfix
  | mretry | mcksum | ecmd | ewait | epoll | apush | apop | afetch
  | aprobe | swbegin | swnext | swcommit | swend | rtget | rtset | vsave
  | vsaveMsk | vsaveMx | vsaveCtl | vrest | vrestMsk | vrestMx | vrestCtl | lgrant
  deriving DecidableEq, Repr

end Sys2Proof
end

