-- ==== Sys2Proof/Syntax.lean ====
section
/-! DEFINITION. The instructions and the steps of spec/opcode_table.json, one constructor a row: the C, S and H
instructions, the W instructions (each with the fields of R144), and the steps that no word encodes, whose arguments are
the data the outside gives them. -/

namespace Sys2Proof

/-- One constructor per row of spec/opcode_table.json, in the table's order. -/
inductive Instr where
  /-- Compact move: g[rd] receives g[LD]. (R134) -/
  | cMv (d : Reg)
  /-- Compact add of g[LD] and g[f5] into g[rd]. (R134) -/
  | cAdd (d f : Reg)
  /-- Compact subtract g[LD] minus g[f5] into g[rd]. (R134) -/
  | cSub (d f : Reg)
  /-- Compact add of g[LD] and a signed 5-bit immediate. (R134) -/
  | cAddi (d : Reg) (imm : BitVec 5)
  /-- Compact bitwise and of g[LD] and g[f5]. (R134) -/
  | cAnd (d f : Reg)
  /-- Compact bitwise or of g[LD] and g[f5]. (R134) -/
  | cOr (d f : Reg)
  /-- Compact bitwise xor of g[LD] and g[f5]. (R134) -/
  | cXor (d f : Reg)
  /-- Compact left shift of g[LD] by an unsigned 5-bit amount. (R134) -/
  | cSlli (d : Reg) (amt : BitVec 5)
  /-- Compact arithmetic right shift of g[LD] by an unsigned 5-bit amount. (R134) -/
  | cSrai (d : Reg) (amt : BitVec 5)
  /-- Compact 64-bit load from g[LD] plus 8 times uimm5. (R134) -/
  | cLd (d : Reg) (off : BitVec 5)
  /-- Compact 64-bit store of g[rd] to g[LD] plus 8 times uimm5. (R134) -/
  | cSt (s : Reg) (off : BitVec 5)
  /-- Compact load of a signed 5-bit immediate into g[rd]. (R134) -/
  | cLi (d : Reg) (imm : BitVec 5)
  /-- Compact branch taken when g[LD] is zero. (R134) -/
  | cBeqz (off : BitVec 10)
  /-- Compact branch taken when g[LD] is not zero. (R134) -/
  | cBnez (off : BitVec 10)
  /-- Compact unconditional jump by off10 halfwords. (R134) -/
  | cJ (off : BitVec 10)
  /-- Integer add of two registers, 64-bit or w form. (R154) -/
  | add (d a b : Reg) (w : Bool)
  /-- Integer subtract of two registers. (R154) -/
  | sub (d a b : Reg) (w : Bool)
  /-- Bitwise and of two registers. (R154) -/
  | and (d a b : Reg) (w : Bool)
  /-- Bitwise or of two registers. (R154) -/
  | or (d a b : Reg) (w : Bool)
  /-- Bitwise xor of two registers. (R154) -/
  | xor (d a b : Reg) (w : Bool)
  /-- Logical left shift by a register amount. (R154) -/
  | sll (d a b : Reg) (w : Bool)
  /-- Logical right shift by a register amount. (R154) -/
  | srl (d a b : Reg) (w : Bool)
  /-- Arithmetic right shift by a register amount. (R154) -/
  | sra (d a b : Reg) (w : Bool)
  /-- Set 1 when the first operand is less, signed. (R154) -/
  | slt (d a b : Reg) (w : Bool)
  /-- Set 1 when the first operand is less, unsigned. (R154) -/
  | sltu (d a b : Reg) (w : Bool)
  /-- Signed minimum of two registers. (R154) -/
  | min (d a b : Reg) (w : Bool)
  /-- Signed maximum of two registers. (R154) -/
  | max (d a b : Reg) (w : Bool)
  /-- Unsigned minimum of two registers. (R154) -/
  | minu (d a b : Reg) (w : Bool)
  /-- Unsigned maximum of two registers. (R154) -/
  | maxu (d a b : Reg) (w : Bool)
  /-- Low bits of the product of two registers. (R154) -/
  | mul (d a b : Reg) (w : Bool)
  /-- High 64 bits of the signed 128-bit product. (R154) -/
  | mulh (d a b : Reg)
  /-- High 64 bits of the unsigned 128-bit product. (R154) -/
  | mulhu (d a b : Reg)
  /-- Signed division rounded towards zero, never trapping. (R155) -/
  | div (d a b : Reg) (w : Bool)
  /-- Unsigned division, never trapping. (R155) -/
  | divu (d a b : Reg) (w : Bool)
  /-- Signed remainder with the sign of the dividend. (R155) -/
  | rem (d a b : Reg) (w : Bool)
  /-- Unsigned remainder. (R155) -/
  | remu (d a b : Reg) (w : Bool)
  /-- Rotate left by a register amount. (R154) -/
  | rol (d a b : Reg) (w : Bool)
  /-- Rotate right by a register amount. (R154) -/
  | ror (d a b : Reg) (w : Bool)
  /-- Count leading zeros of a register. (R154) -/
  | clz (d a : Reg) (w : Bool)
  /-- Count trailing zeros of a register. (R154) -/
  | ctz (d a : Reg) (w : Bool)
  /-- Count the one bits of a register. (R154) -/
  | popc (d a : Reg) (w : Bool)
  /-- Sign-extend the low 8, 16 or 32 bits of a register. (R154) -/
  | sext (d a : Reg) (n : ExtWidth)
  /-- Zero-extend the low 8, 16 or 32 bits of a register. (R154) -/
  | zext (d a : Reg) (n : ExtWidth)
  /-- Add a sign-extended 12-bit immediate. (R156) -/
  | addi (d a : Reg) (imm : BitVec 12)
  /-- Bitwise and with an immediate. (R156) -/
  | andi (d a : Reg) (imm : BitVec 12)
  /-- Bitwise or with an immediate. (R156) -/
  | ori (d a : Reg) (imm : BitVec 12)
  /-- Bitwise xor with an immediate. (R156) -/
  | xori (d a : Reg) (imm : BitVec 12)
  /-- Set 1 when less than an immediate, signed. (R156) -/
  | slti (d a : Reg) (imm : BitVec 12)
  /-- Set 1 when less than an immediate, unsigned. (R156) -/
  | sltiu (d a : Reg) (imm : BitVec 12)
  /-- Add an immediate at 32 bits and sign-extend. (R156) -/
  | addiw (d a : Reg) (imm : BitVec 12)
  /-- Logical left shift by an immediate amount. (R157) -/
  | slli (d a : Reg) (w : Bool) (amt : BitVec 6)
  /-- Logical right shift by an immediate amount. (R157) -/
  | srli (d a : Reg) (w : Bool) (amt : BitVec 6)
  /-- Arithmetic right shift by an immediate amount. (R157) -/
  | srai (d a : Reg) (w : Bool) (amt : BitVec 6)
  /-- Load imm20 shifted left by 12, sign-extended. (R158) -/
  | ldhi (d : Reg) (imm : BitVec 20)
  /-- Write pc plus a signed byte offset. (R158) -/
  | pcadd (d : Reg) (imm : BitVec 20)
  /-- Load one byte, sign-extended. (R161) -/
  | ldB (d a : Reg) (imm : BitVec 12)
  /-- Load two bytes, sign-extended. (R161) -/
  | ldH (d a : Reg) (imm : BitVec 12)
  /-- Load four bytes, sign-extended. (R161) -/
  | ldW (d a : Reg) (imm : BitVec 12)
  /-- Load eight bytes. (R161) -/
  | ldD (d a : Reg) (imm : BitVec 12)
  /-- Load one byte, zero-extended. (R161) -/
  | ldBu (d a : Reg) (imm : BitVec 12)
  /-- Load two bytes, zero-extended. (R161) -/
  | ldHu (d a : Reg) (imm : BitVec 12)
  /-- Load four bytes, zero-extended. (R161) -/
  | ldWu (d a : Reg) (imm : BitVec 12)
  /-- Store the low byte of a register. (R161) -/
  | stB (s a : Reg) (imm : BitVec 12)
  /-- Store the low two bytes of a register. (R161) -/
  | stH (s a : Reg) (imm : BitVec 12)
  /-- Store the low four bytes of a register. (R161) -/
  | stW (s a : Reg) (imm : BitVec 12)
  /-- Store eight bytes of a register. (R161) -/
  | stD (s a : Reg) (imm : BitVec 12)
  /-- Store one byte with release at device scope. (R161) -/
  | stRelB (s a : Reg) (imm : BitVec 12)
  /-- Store two bytes with release. (R161) -/
  | stRelH (s a : Reg) (imm : BitVec 12)
  /-- Store four bytes with release. (R161) -/
  | stRelW (s a : Reg) (imm : BitVec 12)
  /-- Store eight bytes with release. (R161) -/
  | stRelD (s a : Reg) (imm : BitVec 12)
  /-- Load four bytes, sign-extended, with acquire. (R161) -/
  | ldAcqW (d a : Reg) (imm : BitVec 12)
  /-- Load eight bytes with acquire. (R161) -/
  | ldAcqD (d a : Reg) (imm : BitVec 12)
  /-- Load four bytes, zero-extended, with acquire. (R161) -/
  | ldAcqWu (d a : Reg) (imm : BitVec 12)
  /-- Atomic add at the home slice, returning the old value. (R162) -/
  | amoAdd (d a b : Reg) (dw acq rel : Bool)
  /-- Atomic bitwise and at the home slice. (R162) -/
  | amoAnd (d a b : Reg) (dw acq rel : Bool)
  /-- Atomic bitwise or at the home slice. (R162) -/
  | amoOr (d a b : Reg) (dw acq rel : Bool)
  /-- Atomic bitwise xor at the home slice. (R162) -/
  | amoXor (d a b : Reg) (dw acq rel : Bool)
  /-- Atomic signed minimum. (R162) -/
  | amoMin (d a b : Reg) (dw acq rel : Bool)
  /-- Atomic signed maximum. (R162) -/
  | amoMax (d a b : Reg) (dw acq rel : Bool)
  /-- Atomic unsigned minimum. (R162) -/
  | amoMinu (d a b : Reg) (dw acq rel : Bool)
  /-- Atomic unsigned maximum. (R162) -/
  | amoMaxu (d a b : Reg) (dw acq rel : Bool)
  /-- Atomic swap of memory and a register. (R162) -/
  | amoSwap (d a b : Reg) (dw acq rel : Bool)
  /-- Atomic compare-and-swap against g[rd]. (R162) -/
  | amoCas (d a b : Reg) (dw acq rel : Bool)
  /-- Atomic floating add in fp32 or fp64 rounded to nearest. (R164) -/
  | amoFadd (d a b : Reg) (dw acq rel : Bool)
  /-- Branch when two registers are equal. (R166) -/
  | bEq (a b : Reg) (imm : BitVec 12)
  /-- Branch when two registers differ. (R166) -/
  | bNe (a b : Reg) (imm : BitVec 12)
  /-- Branch when less, signed. (R166) -/
  | bLt (a b : Reg) (imm : BitVec 12)
  /-- Branch when greater or equal, signed. (R166) -/
  | bGe (a b : Reg) (imm : BitVec 12)
  /-- Branch when less, unsigned. (R166) -/
  | bLtu (a b : Reg) (imm : BitVec 12)
  /-- Branch when greater or equal, unsigned. (R166) -/
  | bGeu (a b : Reg) (imm : BitVec 12)
  /-- Jump and link to pc plus twice imm20. (R167) -/
  | jal (d : Reg) (imm : BitVec 20)
  /-- Jump and link to a register plus offset. (R167) -/
  | jalr (d a : Reg) (imm : BitVec 12)
  /-- Open a hardware loop frame over the level's sub-range of the count. (R30) -/
  | loop (k : BitVec 3) (a : Reg) (len : BitVec 12)
  /-- Order every earlier access of both streams before later ones at a scope. (R103) -/
  | fence (scope : BitVec 3)
  /-- Order earlier scalar accesses before later vector-class accesses. (R104) -/
  | orderSv
  /-- Order earlier vector-class accesses before later scalar accesses. (R104) -/
  | orderVs
  /-- Fence that joins the device-wide total order by one token round. (R106) -/
  | fenceSc (scope : BitVec 3)
  /-- Order earlier stores before later fetches and empty the loop buffer. (R102) -/
  | fenceI
  /-- Scalar floating add. (R170) -/
  | fadd (d a b : Reg) (rm : BitVec 3) (single : Bool)
  /-- Scalar floating subtract. (R170) -/
  | fsub (d a b : Reg) (rm : BitVec 3) (single : Bool)
  /-- Scalar floating multiply. (R170) -/
  | fmul (d a b : Reg) (rm : BitVec 3) (single : Bool)
  /-- Scalar floating divide. (R170) -/
  | fdiv (d a b : Reg) (rm : BitVec 3) (single : Bool)
  /-- Scalar floating square root. (R170) -/
  | fsqrt (d a : Reg) (rm : BitVec 3) (single : Bool)
  /-- Scalar floating minimum. (R171) -/
  | fmin (d a b : Reg) (single : Bool)
  /-- Scalar floating maximum. (R171) -/
  | fmax (d a b : Reg) (single : Bool)
  /-- Scalar conversion selected by a code in rs2. (R174) -/
  | fcvt (d a : Reg) (code : Reg) (rm : BitVec 3) (single : Bool)
  /-- Scalar floating comparison writing 1 or 0. (R172) -/
  | fcmp (d a b : Reg) (cond : BitVec 3) (single : Bool)
  /-- Write the class code and sign of a floating operand. (R173) -/
  | fclass (d a : Reg) (single : Bool)
  /-- Fused multiply-add a times b plus c. (R175) -/
  | fma (d a b c : Reg) (rm : BitVec 2) (single : Bool)
  /-- Fused multiply-subtract a times b minus c. (R175) -/
  | fms (d a b c : Reg) (rm : BitVec 2) (single : Bool)
  /-- Fused negated multiply-add. (R175) -/
  | fnma (d a b c : Reg) (rm : BitVec 2) (single : Bool)
  /-- Fused negated multiply-subtract. (R175) -/
  | fnms (d a b c : Reg) (rm : BitVec 2) (single : Bool)
  /-- Software trap to the supervisor, or a firmware or registrar call from supervisor mode. (R176) -/
  | trap (code : BitVec 12)
  /-- Breakpoint: halt under debug or trap to the supervisor. (R177) -/
  | brk
  /-- Return from the innermost user-level event or supervisor trap. (R42) -/
  | eret
  /-- End the hart's share: release, wait for engine commands, free the hart. (R34) -/
  | waitEnd
  /-- Stop scalar issue until a user-level event is delivered. (R179) -/
  | waitEvent
  /-- Read a status register into a g register. (R180) -/
  | rdsr (d : Reg) (n : BitVec 12)
  /-- Write a g register into a status register. (R180) -/
  | wrsr (n : BitVec 12) (s : Reg)
  /-- Exchange a status register with a g register. (R180) -/
  | xchsr (d : Reg) (n : BitVec 12) (s : Reg)
  /-- Take the lane grant and set VL from the requested length. (R186) -/
  | setvl (d a : Reg)
  /-- Set VL while refusing any pending reclaim for the strip. (R44) -/
  | setvlK (d a : Reg)
  /-- Write VTYPE[11:0], recompute VLMAX and clip VL. (R188) -/
  | settype (d : Reg) (imm : BitVec 12)
  /-- Acquire or release the core's matrix unit and grant a tile shape. (R235) -/
  | settile (d a : Reg)
  /-- Grant a tile shape, in classroom mode when all eight units are free. (R235) -/
  | settileC (d a : Reg)
  /-- Load 64 bytes into a descriptor register. (R224) -/
  | dset (n : BitVec 4) (a : Reg) (imm : BitVec 12)
  /-- Read one quad of a descriptor register. (R224) -/
  | dget (d : Reg) (n : BitVec 4) (q : BitVec 3)
  /-- Store a descriptor register to 64 bytes of memory. (R224) -/
  | dput (n : BitVec 4) (a : Reg) (imm : BitVec 12)
  /-- Raise a watermark cell's PUB to a value, with release. (R227) -/
  | wmpub (k : BitVec 4) (a : Reg)
  /-- Read a watermark cell's published value. (R227) -/
  | wmrd (d : Reg) (k : BitVec 4)
  /-- Wait until PUB reaches a value, or arm a watermark reach. (R229) -/
  | wmwait (k : BitVec 4) (a : Reg)
  /-- Submit a 64-byte launch record to the partition's registrar. (R182) -/
  | launch (d a : Reg) (imm : BitVec 12)
  /-- Convoy header announcing two to six chained W instructions. (R143) -/
  | convoy (nm2 u0 u1 u2 u3 u4 u5 : BitVec 3)
  /-- Vector integer add. (R198) -/
  | vadd (f : WFields)
  /-- Vector integer subtract. (R198) -/
  | vsub (f : WFields)
  /-- Vector reverse subtract. (R198) -/
  | vrsub (f : WFields)
  /-- Vector bitwise and. (R198) -/
  | vand (f : WFields)
  /-- Vector bitwise or. (R198) -/
  | vor (f : WFields)
  /-- Vector bitwise xor. (R198) -/
  | vxor (f : WFields)
  /-- Vector logical left shift. (R198) -/
  | vsll (f : WFields)
  /-- Vector logical right shift. (R198) -/
  | vsrl (f : WFields)
  /-- Vector arithmetic right shift. (R198) -/
  | vsra (f : WFields)
  /-- Vector signed minimum. (R198) -/
  | vmin (f : WFields)
  /-- Vector signed maximum. (R198) -/
  | vmax (f : WFields)
  /-- Vector unsigned minimum. (R198) -/
  | vminu (f : WFields)
  /-- Vector unsigned maximum. (R198) -/
  | vmaxu (f : WFields)
  /-- Vector low product. (R198) -/
  | vmul (f : WFields)
  /-- Vector high signed product. (R198) -/
  | vmulh (f : WFields)
  /-- Vector high unsigned product. (R198) -/
  | vmulhu (f : WFields)
  /-- Vector integer multiply-accumulate. (R198) -/
  | vmacc (f : WFields)
  /-- Vector signed saturating add. (R198) -/
  | vsadd (f : WFields)
  /-- Vector signed saturating subtract. (R198) -/
  | vssub (f : WFields)
  /-- Vector unsigned saturating add. (R198) -/
  | vsaddu (f : WFields)
  /-- Vector unsigned saturating subtract. (R198) -/
  | vssubu (f : WFields)
  /-- Vector select by a mask. (R198) -/
  | vsel (f : WFields)
  /-- Vector absolute difference. (R198) -/
  | vabsd (f : WFields)
  /-- Vector move. (R198) -/
  | vmv (f : WFields)
  /-- Widening signed add. (R199) -/
  | vwadd (f : WFields)
  /-- Widening unsigned add. (R199) -/
  | vwaddu (f : WFields)
  /-- Widening signed multiply. (R199) -/
  | vwmul (f : WFields)
  /-- Widening unsigned multiply. (R199) -/
  | vwmulu (f : WFields)
  /-- Widening multiply-accumulate. (R199) -/
  | vwmacc (f : WFields)
  /-- Narrowing logical right shift. (R199) -/
  | vnsrl (f : WFields)
  /-- Narrowing signed rounding clip. (R199) -/
  | vnclip (f : WFields)
  /-- Narrowing unsigned rounding clip. (R199) -/
  | vnclipu (f : WFields)
  /-- Vector floating add. (R200) -/
  | vfadd (f : WFields)
  /-- Vector floating subtract. (R200) -/
  | vfsub (f : WFields)
  /-- Vector floating multiply. (R200) -/
  | vfmul (f : WFields)
  /-- Vector floating divide. (R200) -/
  | vfdiv (f : WFields)
  /-- Vector floating square root. (R200) -/
  | vfsqrt (f : WFields)
  /-- Vector floating minimum. (R200) -/
  | vfmin (f : WFields)
  /-- Vector floating maximum. (R200) -/
  | vfmax (f : WFields)
  /-- Vector floating absolute value. (R200) -/
  | vfabs (f : WFields)
  /-- Vector floating negation. (R200) -/
  | vfneg (f : WFields)
  /-- Vector fused multiply-add. (R201) -/
  | vfma (f : WFields)
  /-- Vector fused multiply-subtract. (R201) -/
  | vfms (f : WFields)
  /-- Vector fused negated multiply-add. (R201) -/
  | vfnma (f : WFields)
  /-- Vector fused negated multiply-subtract. (R201) -/
  | vfnms (f : WFields)
  /-- Vector widening fused multiply-add. (R201) -/
  | vfwma (f : WFields)
  /-- Vector float-to-float conversion, including stochastic and error-feedback rounding. (R202) -/
  | vfcvt (f : WFields)
  /-- Vector float-to-integer conversion. (R202) -/
  | vfcvtI (f : WFields)
  /-- Vector integer-to-float conversion. (R202) -/
  | vicvtF (f : WFields)
  /-- Vector special function exp2, log2, rcp, rsqrt, sin, cos or tanh. (R203) -/
  | vsf (f : WFields)
  /-- Vector integer comparison into a mask. (R204) -/
  | vcmp (f : WFields)
  /-- Vector floating comparison into a mask. (R204) -/
  | vfcmp (f : WFields)
  /-- Integer sum reduction. (R206) -/
  | vredsum (f : WFields)
  /-- Signed maximum reduction. (R206) -/
  | vredmax (f : WFields)
  /-- Signed minimum reduction. (R206) -/
  | vredmin (f : WFields)
  /-- Unsigned maximum reduction. (R206) -/
  | vredmaxu (f : WFields)
  /-- Unsigned minimum reduction. (R206) -/
  | vredminu (f : WFields)
  /-- Bitwise and reduction. (R206) -/
  | vredand (f : WFields)
  /-- Bitwise or reduction. (R206) -/
  | vredor (f : WFields)
  /-- Ordered floating sum reduction. (R71) -/
  | vfredsum (f : WFields)
  /-- Pairwise tree floating sum reduction. (R71) -/
  | vfredtree (f : WFields)
  /-- Floating maximum reduction. (R71) -/
  | vfredmax (f : WFields)
  /-- Floating minimum reduction. (R71) -/
  | vfredmin (f : WFields)
  /-- Integer running-sum scan. (R207) -/
  | vscan (f : WFields)
  /-- Floating running-sum scan. (R207) -/
  | vfscan (f : WFields)
  /-- Slide elements up by an amount. (R208) -/
  | vslideup (f : WFields)
  /-- Slide elements down by an amount. (R208) -/
  | vslidedown (f : WFields)
  /-- Register gather by index. (R209) -/
  | vgather (f : WFields)
  /-- Pack active elements to the bottom. (R210) -/
  | vcompress (f : WFields)
  /-- Unpack consecutive elements into active positions. (R210) -/
  | vexpand (f : WFields)
  /-- Broadcast a scalar or element 0. (R208) -/
  | vbcast (f : WFields)
  /-- Insert a scalar at one element. (R208) -/
  | vins (f : WFields)
  /-- Extract one element to a scalar register. (R208) -/
  | vext (f : WFields)
  /-- Write each element's index. (R208) -/
  | vidx (f : WFields)
  /-- Mask and. (R205) -/
  | mand (f : WFields)
  /-- Mask or. (R205) -/
  | mor (f : WFields)
  /-- Mask xor. (R205) -/
  | mxor (f : WFields)
  /-- Mask and-not. (R205) -/
  | mandn (f : WFields)
  /-- Mask not. (R205) -/
  | mnot (f : WFields)
  /-- Count set mask bits below vl. (R205) -/
  | mcount (f : WFields)
  /-- Index of the first set mask bit. (R205) -/
  | mfirst (f : WFields)
  /-- Test that every mask bit below vl is set. (R205) -/
  | mall (f : WFields)
  /-- Mask move. (R205) -/
  | mmov (f : WFields)
  /-- Unit-stride vector load. (R214) -/
  | vld (f : WFields)
  /-- Strided vector load. (R214) -/
  | vlds (f : WFields)
  /-- Indexed vector gather load. (R214) -/
  | vldx (f : WFields)
  /-- Fault-first load that shortens VL at a later fault. (R216) -/
  | vldff (f : WFields)
  /-- Descriptor-addressed load, row, column or rate mode. (R219) -/
  | vldd (f : WFields)
  /-- Unit-stride vector store. (R215) -/
  | vst (f : WFields)
  /-- Strided vector store. (R215) -/
  | vsts (f : WFields)
  /-- Ordered indexed scatter store. (R215) -/
  | vstx (f : WFields)
  /-- Unordered indexed scatter store. (R215) -/
  | vstxu (f : WFields)
  /-- Descriptor-addressed store. (R219) -/
  | vstd (f : WFields)
  /-- Indexed vector atomic add. (R221) -/
  | vamoAdd (f : WFields)
  /-- Indexed vector atomic and. (R221) -/
  | vamoAnd (f : WFields)
  /-- Indexed vector atomic or. (R221) -/
  | vamoOr (f : WFields)
  /-- Indexed vector atomic xor. (R221) -/
  | vamoXor (f : WFields)
  /-- Indexed vector atomic signed minimum. (R221) -/
  | vamoMin (f : WFields)
  /-- Indexed vector atomic signed maximum. (R221) -/
  | vamoMax (f : WFields)
  /-- Indexed vector atomic swap. (R221) -/
  | vamoSwap (f : WFields)
  /-- Indexed memory-side floating add, optionally stochastic. (R222) -/
  | vamoFadd (f : WFields)
  /-- Descriptor-addressed vector atomic add. (R221) -/
  | vamoAddDesc (f : WFields)
  /-- Descriptor-addressed vector atomic and. (R221) -/
  | vamoAndDesc (f : WFields)
  /-- Descriptor-addressed vector atomic or. (R221) -/
  | vamoOrDesc (f : WFields)
  /-- Descriptor-addressed vector atomic xor. (R221) -/
  | vamoXorDesc (f : WFields)
  /-- Descriptor-addressed vector atomic minimum. (R221) -/
  | vamoMinDesc (f : WFields)
  /-- Descriptor-addressed vector atomic maximum. (R221) -/
  | vamoMaxDesc (f : WFields)
  /-- Descriptor-addressed vector atomic swap. (R221) -/
  | vamoSwapDesc (f : WFields)
  /-- Descriptor-addressed memory-side floating add. (R222) -/
  | vamoFaddDesc (f : WFields)
  /-- Load a tile register by pinning its window's lines. (R239) -/
  | mtld (f : WFields)
  /-- Free a tile register and remove its pins. (R241) -/
  | mtrel (f : WFields)
  /-- Store an accumulator tile to memory. (R243) -/
  | mast (f : WFields)
  /-- Zero an accumulator and its checkpoint, checksums and log. (R243) -/
  | maz (f : WFields)
  /-- Load an accumulator from memory and checkpoint it. (R243) -/
  | mald (f : WFields)
  /-- Dense tile multiply-accumulate with checksum update and log entry. (R244) -/
  | mmac (f : WFields)
  /-- 8-of-24 structured sparse multiply-accumulate. (R245) -/
  | mmacs (f : WFields)
  /-- Scaled binary8 multiply-accumulate. (R246) -/
  | mmacx (f : WFields)
  /-- Compare checksums; pass and checkpoint, or fail and raise a checksum fault. (R249) -/
  | mdrain (f : WFields)
  /-- Read an accumulator's fix record. (R251) -/
  | mloc (f : WFields)
  /-- Apply the fix record to one accumulator element. (R252) -/
  | mfix (f : WFields)
  /-- Restore from the checkpoint and replay the log. (R253) -/
  | mretry (f : WFields)
  /-- Copy a checksum vector into a vector register group. (R254) -/
  | mcksum (f : WFields)
  /-- Release and submit a batch of engine command records. (R279) -/
  | ecmd (f : WFields)
  /-- Wait for named command positions and acquire their accesses. (R292) -/
  | ewait (f : WFields)
  /-- Report which named command positions are not pending. (R293) -/
  | epoll (f : WFields)
  /-- Push a vector onto the activation stack. (R297) -/
  | apush (f : WFields)
  /-- Pop the top activation-stack entry. (R298) -/
  | apop (f : WFields)
  /-- Read the popped entry into a vector group. (R299) -/
  | afetch (f : WFields)
  /-- Report popped-entry validity, arrival and stack depth. (R300) -/
  | aprobe (f : WFields)
  /-- Open a sweep and build its timetable. (R266) -/
  | swbegin (f : WFields)
  /-- Draw and open the next member of the open sweep. (R268) -/
  | swnext (f : WFields)
  /-- Commit the open member and apply the rate rule. (R270) -/
  | swcommit (f : WFields)
  /-- Wait for every commit, publish the sweep, optionally retire the set. (R271) -/
  | swend (f : WFields)
  /-- Read a member's rate-table entry. (R272) -/
  | rtget (f : WFields)
  /-- Write a member's rate-table entry when allowed. (R272) -/
  | rtset (f : WFields)
  /-- Save one vector register image. (R355) -/
  | vsave (f : WFields)
  /-- Save the mask registers and mf. (R355) -/
  | vsaveMsk (f : WFields)
  /-- Save the matrix state image. (R355) -/
  | vsaveMx (f : WFields)
  /-- Save the control state image. (R355) -/
  | vsaveCtl (f : WFields)
  /-- Restore one vector register from an image saved at a given G. (R355) -/
  | vrest (f : WFields)
  /-- Restore the mask registers and mf. (R355) -/
  | vrestMsk (f : WFields)
  /-- Restore the matrix state, waiting for the matrix unit. (R355) -/
  | vrestMx (f : WFields)
  /-- Restore control state and merge engine completions posted while out. (R391) -/
  | vrestCtl (f : WFields)
  /-- Take a lane-group grant of up to a requested count. (R354) -/
  | lgrant (f : WFields)
  /-- Registrar service 0x010: suspend the saved context and free the hart. (R389) -/
  | yield
  /-- Registrar service 0x011: cancel the named launch. (R392) -/
  | cancelLaunch
  /-- Firmware service 0x000: write version and identity certificate. (R436) -/
  | firmwareVersion
  /-- Firmware service 0x001: write the isle's telemetry counters. (R436) -/
  | firmwareTelemetry
  /-- wrsr of VTYPE writes bits [13:0], recomputes VLMAX and clips VL. (R188) -/
  | vtypeWrite (v : Word)
  /-- A write of VL stores min(value, VLMAX). (R184) -/
  | vlWrite (v : Word)
  /-- Switch between native and compatibility mode unless progress or parked state stands. (R348) -/
  | modeWrite (v : Word)
  /-- Change the context's translation root for later accesses. (R358) -/
  | ptrootWrite (v : Word)
  /-- Firmware enables a bank-drop entry and starts its migration. (R403) -/
  | hdropWrite (n : BitVec 3) (v : Word)
  /-- Write of a register field without behaviour of its own. (R2) -/
  | registerWrite (r : RegLoc) (v : Word)
  /-- A pending asynchronous cause is taken at a stop point once allowed. (R344) -/
  | asyncTrapTaken (progress : List Nat)
  /-- Deliver one raised source of a user-level cause to the handler. (R41) -/
  | userEventDelivery
  /-- Host posts one 64-byte launch record to a partition's launch port. (R380) -/
  | launchPortWrite (offset : Nat) (data : List Byte)
  /-- Registrar places a ready entry's harts on placeable slots. (R385) -/
  | placement (part : BitVec 3)
  /-- 20,000 cycles pass after a mark without a yielding setvl; the victim is pre-empted. (R44) -/
  | reclaimDeadline (hid : HartId)
  /-- When every placed hart has ended, completion is published with release. (R34) -/
  | launchComplete (part : BitVec 3) (lid : BitVec 32)
  /-- Copy engine performs an accepted nested-loop copy. (R285) -/
  | copyCommand (own : CtxRef) (k : BitVec 8)
  /-- Spill engine binds or unbinds the hart's stack record. (R295) -/
  | stackBind (own : CtxRef) (k : BitVec 8)
  /-- Schedule step SOP 3: DST chunk from SRC or the identity. (R289) -/
  | collectiveInitialise (own : CtxRef) (k : BitVec 8)
  /-- Schedule step SOP 0: send a chunk to a peer's window. (R289) -/
  | collectiveSend (own : CtxRef) (k : BitVec 8)
  /-- Schedule step SOP 1: write a received chunk. (R289) -/
  | collectiveReceive (own : CtxRef) (k : BitVec 8) (incoming : Option (List Byte))
  /-- Schedule step SOP 2: combine a received chunk into DST in order. (R289) -/
  | collectiveReceiveReduce (own : CtxRef) (k : BitVec 8) (incoming : Option (List Byte))
  /-- Schedule step SOP 4: exchange tokens with a peer. (R289) -/
  | collectiveToken (own : CtxRef) (k : BitVec 8)
  /-- A receive step waits longer than TIMEOUT; the rank is lost. (R291) -/
  | collectiveTimeout (own : CtxRef) (k : BitVec 8)
  /-- An engine receives an abort and ends its command with status 4. (R291) -/
  | collectiveAbort (isle : BitVec 3) (collid : BitVec 32) (rank : BitVec 8)
  /-- A command held on a residency fault resumes when the page arrives. (R283) -/
  | engineFaultResume (own : CtxRef) (k : BitVec 8)
  /-- The popped entry's lines arrive; arrived is set and apop arrival raised. (R298) -/
  | apopArrival (own : CtxRef)
  /-- Spill engine writes back and evicts entries far below the top. (R301) -/
  | spillWriteback (own : CtxRef)
  /-- Spill engine brings back the entry at slot DEPTH minus KEEP. (R301) -/
  | spillBringBack (own : CtxRef)
  /-- A write to a table line wakes parked entries, which walk again and drain in order. (R372) -/
  | parkedEntryWake (line : BitVec 52)
  /-- A write held in a pin queue performs once no pin remains on the line. (R121) -/
  | pinnedWritePerform (line : BitVec 52)
  /-- A held tagged load element issues once a publication covers it. (R228) -/
  | taggedElementIssue (hid : HartId)
  /-- An armed reach is met and cause 4 is raised. (R442) -/
  | watermarkReach (hid : HartId)
  /-- A scalar store leaves the store buffer and writes through to its slice. (R76) -/
  | storeBufferDrain (hid : HartId)
  /-- A visitor slice applies a home's square invalidation. (R94) -/
  | squareInvalidation (chan : Channel)
  /-- A visitor slice receives a line fill from the home. (R94) -/
  | visitorFill (isle : BitVec 3) (line : BitVec 52) (col : Option (BitVec 2)) (core : Option (BitVec 11))
  /-- The fence.sc token arrives at an isle, which applies pending invalidations and passes it on. (R106) -/
  | fenceTokenArrival (part : BitVec 3)
  /-- Host SnpData answered at the line's home slice. (R420) -/
  | snpData (line : BitVec 52)
  /-- Host SnpInv answered at the line's home slice. (R420) -/
  | snpInv (line : BitVec 52)
  /-- Host SnpCur answered at the line's home slice. (R420) -/
  | snpCur (line : BitVec 52)
  /-- A flit lost to a link error is resent by link-level replay. (R424) -/
  | flitReplay (link : Link)
  /-- After 16 failed replays or 50 micros without lock a port declares its peer unreachable. (R424) -/
  | peerUnreachable (port : BitVec 5)
  /-- An unreachable straits link raises cause 35 at the two isles. (R426) -/
  | straitsLinkLost (a b : BitVec 3)
  /-- Scrubber reads and corrects SRAM words each period. (R406) -/
  | scrub (addr : BitVec 52) (found : ScrubFinding)
  /-- Move one 2 KiB block from a dropped home to its substitute. (R404) -/
  | migrateBlock
  /-- Harness arms an error-injection record. (R407) -/
  | injectionRecordWrite (part : BitVec 3) (n : BitVec 4) (record : BitVec 256)
  /-- DCTL.HREQ halts the hart at its stop point. (R410) -/
  | haltRequest (hid : HartId)
  /-- DCTL.RESUME continues the hart at DPC, stepping if STEP is set. (R410) -/
  | debugResume (hid : HartId) (step stepk : Bool)
  /-- DDATA read returns the register DSEL selects. (R412) -/
  | debugRegisterRead (hid : HartId) (dsel : Word)
  /-- DDATA write sets the selected register of a halted hart. (R412) -/
  | debugRegisterWrite (hid : HartId) (dsel v : Word)
  /-- Power-on or device reset starts the tutors' boot ROM. (R431) -/
  | deviceReset
  /-- Host writes BSTAT.GO; tutors load and verify the image. (R431) -/
  | bootGo
  /-- All eight tutors pass; BSTAT.STATE becomes 1. (R431) -/
  | bootComplete (fw : FwLoad)
  /-- Hardware lowers the isle's clock ratio when a fixed limit is reached. (R434) -/
  | fixedLimitReached (isle : BitVec 3) (ratio : Nat)
  /-- The hardware ratio recovers by 1/256 each 100 micros. (R434) -/
  | ratioRecovery (isle : BitVec 3)
  /-- A verified policy image takes effect at a period boundary. (R434) -/
  | policyImageUpdate (addr : BitVec 52) (len : Nat)
  /-- Loss of power ends all activity and every field loses its value. (R4) -/
  | powerOff
  /-- Firmware writes CLKR.FWR, changing the ratio in force and writing a resync record with SUB 2. (R434) -/
  | clkrWrite (isle : BitVec 3) (v : Word)
  /-- The isle's reference counter restarts after a stop and a resync record with SUB 3 is written. (R419) -/
  | referenceCounterRestart (isle : BitVec 3)
  /-- A causeway or straits port loses lock on its link and starts the 50 micros unreachable count. (R424) -/
  | lockLost (link : Link)
  /-- A port regains lock before the 50 micros limit and resumes carrying flits. (R424) -/
  | lockRegained (link : Link)
  /-- A launch is cancelled through the management window. (R392) -/
  | managementWindowCancel (part : BitVec 3) (lid : BitVec 32)
  /-- A signed command accepted by the running firmware raises the fused rollback floor. (R432) -/
  | rollbackFloorRaise (version : BitVec 32)
  /-- SerDes calibration runs in a schedule's calibration slots, or in idle time when no schedule runs. (R437) -/
  | serdesCalibration (link : Link)
  /-- A dynamic capacity extent is released, and later accesses to it take the access fault. (R422) -/
  | extentRelease (base size : Nat)
  deriving DecidableEq, Repr

end Sys2Proof
end

