-- ==== Sys2Proof/Machine/WideTable.lean ====
section
/-! DEFINITION. The W instructions as data: for each, its class and operation codes, what each field names, which options
its chapter accepts, what its imm16 assigns, how its registers may overlap and how it chains (R144-R148, R194, R195, and the
field tables of the instruction chapters). Decoding, the header rules of R143 and the checks of R439 all read these rows. -/

namespace Sys2Proof

/-- What a register field of a W instruction names (R145). `zero`: the field is not used. `amount`: a g register when
S1 = 1, not used when S1 = 0 (R208). -/
inductive FieldUse where
  | zero | vec | mask | tile | acc | scalar | amount
  deriving DecidableEq, Repr

/-- Whether an option (S1, the mask) is refused, accepted or required (R145). -/
inductive Allow where
  | never | no | may | must
  deriving DecidableEq, Repr

/-- Whether the vd field is read or written as a register of its file. -/
inductive VdAccess where
  | none | read | write | both
  deriving DecidableEq, Repr

/-- How many vector registers a vector operand spans: L, 2L, one, or as the destination width of VCVT or `vfwma` gives
(R189, R199, R201, R202). -/
inductive Span where
  | group | wide | single | cvt | fwma
  deriving DecidableEq, Repr

/-- The rows of R194. `cvt`: by the two widths of the conversion. -/
inductive Overlap where
  | any | widen | narrow | reduce | permute | cvt
  deriving DecidableEq, Repr

/-- The chaining kinds of R195. `bcast`: whole when S1 = 0, none when S1 = 1. -/
inductive Chain where
  | elem | whole | indivisible | none | bcast
  deriving DecidableEq, Repr

/-- What imm16 assigns (R146). -/
inductive ImmUse where
  | zero | any | vfp | fmt | fwma | cvt (sLo sHi dLo dHi : Nat) | vsf | vcmp | vfcmp | slide | vld | vldff | vldd | vst | vstd
  | amoFadd | mtld | mmac (lo hi : Nat) | sel | retire | entry | kind (k : Nat)
  deriving DecidableEq, Repr

/-- One row of the table. -/
structure WSpec where
  op8 : Nat
  func8 : Nat
  vd : FieldUse
  vs1 : FieldUse
  vs2 : FieldUse
  vs3 : FieldUse
  s1 : Allow
  mask : Allow
  imm : ImmUse
  desc : Bool := false
  orient : Bool := false
  vdAcc : VdAccess := .none
  vdSpan : Span := .group
  vs1Span : Span := .group
  vs2Span : Span := .group
  vs3Span : Span := .group
  overlap : Overlap := .any
  inKind : Chain := .elem
  outKind : Chain := .elem
  deriving DecidableEq, Repr

/-- A row with every later entry at its default. -/
def row (op8 func8 : Nat) (vd vs1 vs2 vs3 : FieldUse) (s1 mask : Allow) (imm : ImmUse) : WSpec :=
  { op8 := op8, func8 := func8, vd := vd, vs1 := vs1, vs2 := vs2, vs3 := vs3, s1 := s1, mask := mask, imm := imm }

/-- The row of each W operation. -/
def WOp.spec : WOp → WSpec
  | .vadd => { row 0x01 0x00 .vec .vec .vec .zero .may .may .zero with vdAcc := .write }
  | .vsub => { row 0x01 0x01 .vec .vec .vec .zero .may .may .zero with vdAcc := .write }
  | .vrsub => { row 0x01 0x02 .vec .vec .vec .zero .may .may .zero with vdAcc := .write }
  | .vand => { row 0x01 0x03 .vec .vec .vec .zero .may .may .zero with vdAcc := .write }
  | .vor => { row 0x01 0x04 .vec .vec .vec .zero .may .may .zero with vdAcc := .write }
  | .vxor => { row 0x01 0x05 .vec .vec .vec .zero .may .may .zero with vdAcc := .write }
  | .vsll => { row 0x01 0x06 .vec .vec .vec .zero .may .may .zero with vdAcc := .write }
  | .vsrl => { row 0x01 0x07 .vec .vec .vec .zero .may .may .zero with vdAcc := .write }
  | .vsra => { row 0x01 0x08 .vec .vec .vec .zero .may .may .zero with vdAcc := .write }
  | .vmin => { row 0x01 0x09 .vec .vec .vec .zero .may .may .zero with vdAcc := .write }
  | .vmax => { row 0x01 0x0a .vec .vec .vec .zero .may .may .zero with vdAcc := .write }
  | .vminu => { row 0x01 0x0b .vec .vec .vec .zero .may .may .zero with vdAcc := .write }
  | .vmaxu => { row 0x01 0x0c .vec .vec .vec .zero .may .may .zero with vdAcc := .write }
  | .vmul => { row 0x01 0x0d .vec .vec .vec .zero .may .may .zero with vdAcc := .write }
  | .vmulh => { row 0x01 0x0e .vec .vec .vec .zero .may .may .zero with vdAcc := .write }
  | .vmulhu => { row 0x01 0x0f .vec .vec .vec .zero .may .may .zero with vdAcc := .write }
  | .vmacc => { row 0x01 0x10 .vec .vec .vec .vec .may .may .zero with vdAcc := .write }
  | .vsadd => { row 0x01 0x11 .vec .vec .vec .zero .may .may .zero with vdAcc := .write }
  | .vssub => { row 0x01 0x12 .vec .vec .vec .zero .may .may .zero with vdAcc := .write }
  | .vsaddu => { row 0x01 0x13 .vec .vec .vec .zero .may .may .zero with vdAcc := .write }
  | .vssubu => { row 0x01 0x14 .vec .vec .vec .zero .may .may .zero with vdAcc := .write }
  | .vsel => { row 0x01 0x15 .vec .vec .vec .zero .may .must .zero with vdAcc := .write }
  | .vabsd => { row 0x01 0x16 .vec .vec .vec .zero .may .may .zero with vdAcc := .write }
  | .vmv => { row 0x01 0x17 .vec .vec .zero .zero .may .may .zero with vdAcc := .write }
  | .vwadd => { row 0x02 0x00 .vec .vec .vec .zero .may .may .zero with vdAcc := .write, vdSpan := .wide, overlap := .widen }
  | .vwaddu => { row 0x02 0x01 .vec .vec .vec .zero .may .may .zero with vdAcc := .write, vdSpan := .wide, overlap := .widen }
  | .vwmul => { row 0x02 0x02 .vec .vec .vec .zero .may .may .zero with vdAcc := .write, vdSpan := .wide, overlap := .widen }
  | .vwmulu => { row 0x02 0x03 .vec .vec .vec .zero .may .may .zero with vdAcc := .write, vdSpan := .wide, overlap := .widen }
  | .vwmacc => { row 0x02 0x04 .vec .vec .vec .vec .may .may .zero with vdAcc := .write, vdSpan := .wide, vs3Span := .wide, overlap := .widen }
  | .vnsrl => { row 0x02 0x05 .vec .vec .vec .zero .may .may .zero with vdAcc := .write, vs2Span := .wide, overlap := .narrow }
  | .vnclip => { row 0x02 0x06 .vec .vec .vec .zero .may .may .zero with vdAcc := .write, vs2Span := .wide, overlap := .narrow }
  | .vnclipu => { row 0x02 0x07 .vec .vec .vec .zero .may .may .zero with vdAcc := .write, vs2Span := .wide, overlap := .narrow }
  | .vfadd => { row 0x03 0x00 .vec .vec .vec .zero .may .may .vfp with vdAcc := .write }
  | .vfsub => { row 0x03 0x01 .vec .vec .vec .zero .may .may .vfp with vdAcc := .write }
  | .vfmul => { row 0x03 0x02 .vec .vec .vec .zero .may .may .vfp with vdAcc := .write }
  | .vfdiv => { row 0x03 0x03 .vec .vec .vec .zero .may .may .vfp with vdAcc := .write }
  | .vfsqrt => { row 0x03 0x04 .vec .zero .vec .zero .never .may .vfp with vdAcc := .write }
  | .vfmin => { row 0x03 0x05 .vec .vec .vec .zero .may .may .fmt with vdAcc := .write }
  | .vfmax => { row 0x03 0x06 .vec .vec .vec .zero .may .may .fmt with vdAcc := .write }
  | .vfabs => { row 0x03 0x07 .vec .zero .vec .zero .never .may .fmt with vdAcc := .write }
  | .vfneg => { row 0x03 0x08 .vec .zero .vec .zero .never .may .fmt with vdAcc := .write }
  | .vfma => { row 0x04 0x00 .vec .vec .vec .vec .may .may .vfp with vdAcc := .write }
  | .vfms => { row 0x04 0x01 .vec .vec .vec .vec .may .may .vfp with vdAcc := .write }
  | .vfnma => { row 0x04 0x02 .vec .vec .vec .vec .may .may .vfp with vdAcc := .write }
  | .vfnms => { row 0x04 0x03 .vec .vec .vec .vec .may .may .vfp with vdAcc := .write }
  | .vfwma => { row 0x04 0x04 .vec .vec .vec .vec .may .may .fwma with vdAcc := .write, vdSpan := .fwma, vs3Span := .fwma, overlap := .widen }
  | .vfcvt => { row 0x05 0x00 .vec .zero .vec .zero .never .may (.cvt 0 4 0 4) with vdAcc := .write, vdSpan := .cvt, overlap := .cvt }
  | .vfcvtI => { row 0x05 0x01 .vec .zero .vec .zero .never .may (.cvt 0 4 5 12) with vdAcc := .write, vdSpan := .cvt, overlap := .cvt }
  | .vicvtF => { row 0x05 0x02 .vec .zero .vec .zero .never .may (.cvt 5 12 0 4) with vdAcc := .write, vdSpan := .cvt, overlap := .cvt }
  | .vsf => { row 0x06 0x00 .vec .zero .vec .zero .never .may .vsf with vdAcc := .write }
  | .vcmp => { row 0x07 0x00 .mask .vec .vec .zero .may .may .vcmp with vdAcc := .write }
  | .vfcmp => { row 0x07 0x01 .mask .vec .vec .zero .may .may .vfcmp with vdAcc := .write }
  | .vredsum => { row 0x08 0x00 .vec .vec .vec .zero .never .may .zero with vdAcc := .write, vdSpan := .single, vs1Span := .single, overlap := .reduce, outKind := .whole }
  | .vredmax => { row 0x08 0x01 .vec .vec .vec .zero .never .may .zero with vdAcc := .write, vdSpan := .single, vs1Span := .single, overlap := .reduce, outKind := .whole }
  | .vredmin => { row 0x08 0x02 .vec .vec .vec .zero .never .may .zero with vdAcc := .write, vdSpan := .single, vs1Span := .single, overlap := .reduce, outKind := .whole }
  | .vredmaxu => { row 0x08 0x03 .vec .vec .vec .zero .never .may .zero with vdAcc := .write, vdSpan := .single, vs1Span := .single, overlap := .reduce, outKind := .whole }
  | .vredminu => { row 0x08 0x04 .vec .vec .vec .zero .never .may .zero with vdAcc := .write, vdSpan := .single, vs1Span := .single, overlap := .reduce, outKind := .whole }
  | .vredand => { row 0x08 0x05 .vec .vec .vec .zero .never .may .zero with vdAcc := .write, vdSpan := .single, vs1Span := .single, overlap := .reduce, outKind := .whole }
  | .vredor => { row 0x08 0x06 .vec .vec .vec .zero .never .may .zero with vdAcc := .write, vdSpan := .single, vs1Span := .single, overlap := .reduce, outKind := .whole }
  | .vfredsum => { row 0x08 0x07 .vec .vec .vec .zero .never .may .vfp with vdAcc := .write, vdSpan := .single, vs1Span := .single, overlap := .reduce, outKind := .whole }
  | .vfredtree => { row 0x08 0x08 .vec .vec .vec .zero .never .may .vfp with vdAcc := .write, vdSpan := .single, vs1Span := .single, overlap := .reduce, inKind := .indivisible, outKind := .indivisible }
  | .vfredmax => { row 0x08 0x09 .vec .vec .vec .zero .never .may .vfp with vdAcc := .write, vdSpan := .single, vs1Span := .single, overlap := .reduce, outKind := .whole }
  | .vfredmin => { row 0x08 0x0a .vec .vec .vec .zero .never .may .vfp with vdAcc := .write, vdSpan := .single, vs1Span := .single, overlap := .reduce, outKind := .whole }
  | .vscan => { row 0x08 0x0b .vec .vec .vec .zero .never .may .zero with vdAcc := .write, vs1Span := .single }
  | .vfscan => { row 0x08 0x0c .vec .vec .vec .zero .never .may .vfp with vdAcc := .write, vs1Span := .single }
  | .vslideup => { row 0x09 0x00 .vec .amount .vec .zero .may .may .slide with vdAcc := .write, overlap := .permute, inKind := .whole }
  | .vslidedown => { row 0x09 0x01 .vec .amount .vec .zero .may .may .slide with vdAcc := .write, overlap := .permute, inKind := .whole }
  | .vgather => { row 0x09 0x02 .vec .vec .vec .zero .never .may .zero with vdAcc := .write, overlap := .permute, inKind := .whole }
  | .vcompress => { row 0x09 0x03 .vec .zero .vec .zero .never .may .zero with vdAcc := .write, overlap := .permute, outKind := .whole }
  | .vexpand => { row 0x09 0x04 .vec .zero .vec .zero .never .may .zero with vdAcc := .write, overlap := .permute }
  | .vbcast => { row 0x09 0x05 .vec .vec .zero .zero .may .may .zero with vdAcc := .write, vs1Span := .single, inKind := .bcast }
  | .vins => { row 0x09 0x06 .vec .scalar .zero .zero .must .no .any with vdAcc := .write, inKind := .indivisible, outKind := .indivisible }
  | .vext => { row 0x09 0x07 .scalar .zero .vec .zero .never .no .any with inKind := .indivisible, outKind := .indivisible }
  | .vidx => { row 0x09 0x08 .vec .zero .zero .zero .never .may .zero with vdAcc := .write }
  | .mand => { row 0x0a 0x00 .mask .mask .mask .zero .never .no .zero with vdAcc := .write, inKind := .indivisible, outKind := .indivisible }
  | .mor => { row 0x0a 0x01 .mask .mask .mask .zero .never .no .zero with vdAcc := .write, inKind := .indivisible, outKind := .indivisible }
  | .mxor => { row 0x0a 0x02 .mask .mask .mask .zero .never .no .zero with vdAcc := .write, inKind := .indivisible, outKind := .indivisible }
  | .mandn => { row 0x0a 0x03 .mask .mask .mask .zero .never .no .zero with vdAcc := .write, inKind := .indivisible, outKind := .indivisible }
  | .mnot => { row 0x0a 0x04 .mask .zero .mask .zero .never .no .zero with vdAcc := .write, inKind := .indivisible, outKind := .indivisible }
  | .mcount => { row 0x0a 0x05 .scalar .zero .mask .zero .never .no .zero with inKind := .indivisible, outKind := .indivisible }
  | .mfirst => { row 0x0a 0x06 .scalar .zero .mask .zero .never .no .zero with inKind := .indivisible, outKind := .indivisible }
  | .mall => { row 0x0a 0x07 .scalar .zero .mask .zero .never .no .zero with inKind := .indivisible, outKind := .indivisible }
  | .mmov => { row 0x0a 0x08 .mask .zero .mask .zero .never .no .zero with vdAcc := .write, inKind := .indivisible, outKind := .indivisible }
  | .vld => { row 0x10 0x00 .vec .zero .zero .scalar .never .may .vld with orient := true, vdAcc := .write }
  | .vlds => { row 0x10 0x01 .vec .scalar .zero .scalar .must .may .vld with orient := true, vdAcc := .write }
  | .vldx => { row 0x10 0x02 .vec .zero .vec .scalar .never .may .vld with orient := true, vdAcc := .write, overlap := .permute }
  | .vldff => { row 0x10 0x03 .vec .zero .zero .scalar .never .may .vldff with orient := true, vdAcc := .write }
  | .vldd => { row 0x10 0x04 .vec .zero .zero .scalar .never .may .vldd with desc := true, orient := true, vdAcc := .write }
  | .vst => { row 0x11 0x00 .vec .zero .zero .scalar .never .may .vst with orient := true, vdAcc := .read, outKind := .none }
  | .vsts => { row 0x11 0x01 .vec .scalar .zero .scalar .must .may .vst with orient := true, vdAcc := .read, outKind := .none }
  | .vstx => { row 0x11 0x02 .vec .zero .vec .scalar .never .may .vst with orient := true, vdAcc := .read, outKind := .none }
  | .vstxu => { row 0x11 0x03 .vec .zero .vec .scalar .never .may .vst with orient := true, vdAcc := .read, outKind := .none }
  | .vstd => { row 0x11 0x04 .vec .zero .zero .scalar .never .may .vstd with desc := true, orient := true, vdAcc := .read, outKind := .none }
  | .vamoAdd => { row 0x12 0x00 .vec .vec .vec .scalar .never .may .zero with orient := true, vdAcc := .write, overlap := .permute }
  | .vamoAnd => { row 0x12 0x01 .vec .vec .vec .scalar .never .may .zero with orient := true, vdAcc := .write, overlap := .permute }
  | .vamoOr => { row 0x12 0x02 .vec .vec .vec .scalar .never .may .zero with orient := true, vdAcc := .write, overlap := .permute }
  | .vamoXor => { row 0x12 0x03 .vec .vec .vec .scalar .never .may .zero with orient := true, vdAcc := .write, overlap := .permute }
  | .vamoMin => { row 0x12 0x04 .vec .vec .vec .scalar .never .may .zero with orient := true, vdAcc := .write, overlap := .permute }
  | .vamoMax => { row 0x12 0x05 .vec .vec .vec .scalar .never .may .zero with orient := true, vdAcc := .write, overlap := .permute }
  | .vamoSwap => { row 0x12 0x06 .vec .vec .vec .scalar .never .may .zero with orient := true, vdAcc := .write, overlap := .permute }
  | .vamoFadd => { row 0x12 0x07 .zero .vec .vec .scalar .never .may .amoFadd with orient := true, outKind := .none }
  | .vamoAddDesc => { row 0x12 0x10 .vec .vec .zero .scalar .never .may .zero with desc := true, orient := true, vdAcc := .write, overlap := .permute }
  | .vamoAndDesc => { row 0x12 0x11 .vec .vec .zero .scalar .never .may .zero with desc := true, orient := true, vdAcc := .write, overlap := .permute }
  | .vamoOrDesc => { row 0x12 0x12 .vec .vec .zero .scalar .never .may .zero with desc := true, orient := true, vdAcc := .write, overlap := .permute }
  | .vamoXorDesc => { row 0x12 0x13 .vec .vec .zero .scalar .never .may .zero with desc := true, orient := true, vdAcc := .write, overlap := .permute }
  | .vamoMinDesc => { row 0x12 0x14 .vec .vec .zero .scalar .never .may .zero with desc := true, orient := true, vdAcc := .write, overlap := .permute }
  | .vamoMaxDesc => { row 0x12 0x15 .vec .vec .zero .scalar .never .may .zero with desc := true, orient := true, vdAcc := .write, overlap := .permute }
  | .vamoSwapDesc => { row 0x12 0x16 .vec .vec .zero .scalar .never .may .zero with desc := true, orient := true, vdAcc := .write, overlap := .permute }
  | .vamoFaddDesc => { row 0x12 0x17 .zero .vec .zero .scalar .never .may .amoFadd with desc := true, orient := true, outKind := .none }
  | .mtld => { row 0x20 0x00 .tile .zero .zero .scalar .never .no .mtld with desc := true, orient := true, vdAcc := .write, inKind := .indivisible, outKind := .indivisible }
  | .mtrel => { row 0x20 0x01 .tile .zero .zero .zero .never .no .zero with vdAcc := .write, inKind := .indivisible, outKind := .indivisible }
  | .mast => { row 0x20 0x02 .acc .zero .zero .scalar .never .no .zero with desc := true, orient := true, vdAcc := .read, inKind := .indivisible, outKind := .indivisible }
  | .maz => { row 0x20 0x03 .acc .zero .zero .zero .never .no .zero with vdAcc := .write, inKind := .indivisible, outKind := .indivisible }
  | .mald => { row 0x20 0x04 .acc .zero .zero .scalar .never .no .zero with desc := true, orient := true, vdAcc := .write, inKind := .indivisible, outKind := .indivisible }
  | .mmac => { row 0x21 0x00 .acc .tile .tile .zero .never .no (.mmac 0 5) with vdAcc := .both, inKind := .indivisible, outKind := .indivisible }
  | .mmacs => { row 0x21 0x01 .acc .tile .tile .tile .never .no (.mmac 2 5) with vdAcc := .both, inKind := .indivisible, outKind := .indivisible }
  | .mmacx => { row 0x21 0x02 .acc .tile .tile .zero .never .no (.mmac 4 4) with vdAcc := .both, inKind := .indivisible, outKind := .indivisible }
  | .mdrain => { row 0x22 0x00 .acc .zero .zero .zero .never .no .zero with vdAcc := .both, inKind := .indivisible, outKind := .indivisible }
  | .mloc => { row 0x22 0x01 .scalar .acc .zero .scalar .never .no .zero with inKind := .indivisible, outKind := .indivisible }
  | .mfix => { row 0x22 0x02 .acc .zero .zero .zero .never .no .zero with vdAcc := .both, inKind := .indivisible, outKind := .indivisible }
  | .mretry => { row 0x22 0x03 .acc .zero .zero .zero .never .no .zero with vdAcc := .both, inKind := .indivisible, outKind := .indivisible }
  | .mcksum => { row 0x22 0x04 .vec .acc .zero .zero .never .no .sel with vdAcc := .write, inKind := .indivisible, outKind := .indivisible }
  | .ecmd => { row 0x30 0x00 .mask .zero .vec .zero .never .may .zero with vdAcc := .write, inKind := .whole, outKind := .indivisible }
  | .ewait => { row 0x31 0x00 .zero .zero .mask .zero .never .no .zero with inKind := .indivisible, outKind := .indivisible }
  | .epoll => { row 0x31 0x01 .mask .zero .mask .zero .never .no .zero with vdAcc := .write, inKind := .indivisible, outKind := .indivisible }
  | .apush => { row 0x32 0x00 .vec .zero .zero .scalar .never .no .zero with vdAcc := .read, outKind := .none }
  | .apop => { row 0x32 0x01 .scalar .zero .zero .zero .never .no .zero with inKind := .indivisible, outKind := .indivisible }
  | .afetch => { row 0x32 0x02 .vec .zero .zero .zero .never .no .zero with vdAcc := .write }
  | .aprobe => { row 0x32 0x03 .scalar .zero .zero .zero .never .no .zero with inKind := .indivisible, outKind := .indivisible }
  | .swbegin => { row 0x33 0x00 .scalar .scalar .zero .scalar .must .no .zero with inKind := .indivisible, outKind := .indivisible }
  | .swnext => { row 0x33 0x01 .scalar .scalar .zero .zero .must .no .zero with inKind := .indivisible, outKind := .indivisible }
  | .swcommit => { row 0x33 0x02 .scalar .zero .zero .zero .never .no .zero with inKind := .indivisible, outKind := .indivisible }
  | .swend => { row 0x33 0x03 .scalar .scalar .zero .zero .must .no .retire with inKind := .indivisible, outKind := .indivisible }
  | .rtget => { row 0x33 0x04 .scalar .scalar .zero .scalar .must .no .zero with inKind := .indivisible, outKind := .indivisible }
  | .rtset => { row 0x33 0x05 .scalar .scalar .zero .scalar .must .no .entry with inKind := .indivisible, outKind := .indivisible }
  | .vsave => { row 0x3f 0x00 .vec .zero .zero .scalar .never .no (.kind 0) with vdAcc := .read, inKind := .indivisible, outKind := .indivisible }
  | .vsaveMsk => { row 0x3f 0x00 .zero .zero .zero .scalar .never .no (.kind 1) with inKind := .indivisible, outKind := .indivisible }
  | .vsaveMx => { row 0x3f 0x00 .zero .zero .zero .scalar .never .no (.kind 2) with inKind := .indivisible, outKind := .indivisible }
  | .vsaveCtl => { row 0x3f 0x00 .zero .zero .zero .scalar .never .no (.kind 3) with inKind := .indivisible, outKind := .indivisible }
  | .vrest => { row 0x3f 0x01 .vec .scalar .zero .scalar .must .no (.kind 0) with vdAcc := .write, inKind := .indivisible, outKind := .indivisible }
  | .vrestMsk => { row 0x3f 0x01 .zero .zero .zero .scalar .never .no (.kind 1) with inKind := .indivisible, outKind := .indivisible }
  | .vrestMx => { row 0x3f 0x01 .zero .zero .zero .scalar .never .no (.kind 2) with inKind := .indivisible, outKind := .indivisible }
  | .vrestCtl => { row 0x3f 0x01 .zero .zero .zero .scalar .never .no (.kind 3) with inKind := .indivisible, outKind := .indivisible }
  | .lgrant => { row 0x3f 0x02 .scalar .scalar .zero .zero .must .no .zero with inKind := .indivisible, outKind := .indivisible }

/-- The instruction of a W operation with its fields. (Lean compiles no constructor numbered above 243, so this and what
calls it is evaluated by the kernel only.) -/
noncomputable def WOp.instr (op : WOp) (f : WFields) : Instr :=
  match op with
  | .vadd => .vadd f
  | .vsub => .vsub f
  | .vrsub => .vrsub f
  | .vand => .vand f
  | .vor => .vor f
  | .vxor => .vxor f
  | .vsll => .vsll f
  | .vsrl => .vsrl f
  | .vsra => .vsra f
  | .vmin => .vmin f
  | .vmax => .vmax f
  | .vminu => .vminu f
  | .vmaxu => .vmaxu f
  | .vmul => .vmul f
  | .vmulh => .vmulh f
  | .vmulhu => .vmulhu f
  | .vmacc => .vmacc f
  | .vsadd => .vsadd f
  | .vssub => .vssub f
  | .vsaddu => .vsaddu f
  | .vssubu => .vssubu f
  | .vsel => .vsel f
  | .vabsd => .vabsd f
  | .vmv => .vmv f
  | .vwadd => .vwadd f
  | .vwaddu => .vwaddu f
  | .vwmul => .vwmul f
  | .vwmulu => .vwmulu f
  | .vwmacc => .vwmacc f
  | .vnsrl => .vnsrl f
  | .vnclip => .vnclip f
  | .vnclipu => .vnclipu f
  | .vfadd => .vfadd f
  | .vfsub => .vfsub f
  | .vfmul => .vfmul f
  | .vfdiv => .vfdiv f
  | .vfsqrt => .vfsqrt f
  | .vfmin => .vfmin f
  | .vfmax => .vfmax f
  | .vfabs => .vfabs f
  | .vfneg => .vfneg f
  | .vfma => .vfma f
  | .vfms => .vfms f
  | .vfnma => .vfnma f
  | .vfnms => .vfnms f
  | .vfwma => .vfwma f
  | .vfcvt => .vfcvt f
  | .vfcvtI => .vfcvtI f
  | .vicvtF => .vicvtF f
  | .vsf => .vsf f
  | .vcmp => .vcmp f
  | .vfcmp => .vfcmp f
  | .vredsum => .vredsum f
  | .vredmax => .vredmax f
  | .vredmin => .vredmin f
  | .vredmaxu => .vredmaxu f
  | .vredminu => .vredminu f
  | .vredand => .vredand f
  | .vredor => .vredor f
  | .vfredsum => .vfredsum f
  | .vfredtree => .vfredtree f
  | .vfredmax => .vfredmax f
  | .vfredmin => .vfredmin f
  | .vscan => .vscan f
  | .vfscan => .vfscan f
  | .vslideup => .vslideup f
  | .vslidedown => .vslidedown f
  | .vgather => .vgather f
  | .vcompress => .vcompress f
  | .vexpand => .vexpand f
  | .vbcast => .vbcast f
  | .vins => .vins f
  | .vext => .vext f
  | .vidx => .vidx f
  | .mand => .mand f
  | .mor => .mor f
  | .mxor => .mxor f
  | .mandn => .mandn f
  | .mnot => .mnot f
  | .mcount => .mcount f
  | .mfirst => .mfirst f
  | .mall => .mall f
  | .mmov => .mmov f
  | .vld => .vld f
  | .vlds => .vlds f
  | .vldx => .vldx f
  | .vldff => .vldff f
  | .vldd => .vldd f
  | .vst => .vst f
  | .vsts => .vsts f
  | .vstx => .vstx f
  | .vstxu => .vstxu f
  | .vstd => .vstd f
  | .vamoAdd => .vamoAdd f
  | .vamoAnd => .vamoAnd f
  | .vamoOr => .vamoOr f
  | .vamoXor => .vamoXor f
  | .vamoMin => .vamoMin f
  | .vamoMax => .vamoMax f
  | .vamoSwap => .vamoSwap f
  | .vamoFadd => .vamoFadd f
  | .vamoAddDesc => .vamoAddDesc f
  | .vamoAndDesc => .vamoAndDesc f
  | .vamoOrDesc => .vamoOrDesc f
  | .vamoXorDesc => .vamoXorDesc f
  | .vamoMinDesc => .vamoMinDesc f
  | .vamoMaxDesc => .vamoMaxDesc f
  | .vamoSwapDesc => .vamoSwapDesc f
  | .vamoFaddDesc => .vamoFaddDesc f
  | .mtld => .mtld f
  | .mtrel => .mtrel f
  | .mast => .mast f
  | .maz => .maz f
  | .mald => .mald f
  | .mmac => .mmac f
  | .mmacs => .mmacs f
  | .mmacx => .mmacx f
  | .mdrain => .mdrain f
  | .mloc => .mloc f
  | .mfix => .mfix f
  | .mretry => .mretry f
  | .mcksum => .mcksum f
  | .ecmd => .ecmd f
  | .ewait => .ewait f
  | .epoll => .epoll f
  | .apush => .apush f
  | .apop => .apop f
  | .afetch => .afetch f
  | .aprobe => .aprobe f
  | .swbegin => .swbegin f
  | .swnext => .swnext f
  | .swcommit => .swcommit f
  | .swend => .swend f
  | .rtget => .rtget f
  | .rtset => .rtset f
  | .vsave => .vsave f
  | .vsaveMsk => .vsaveMsk f
  | .vsaveMx => .vsaveMx f
  | .vsaveCtl => .vsaveCtl f
  | .vrest => .vrest f
  | .vrestMsk => .vrestMsk f
  | .vrestMx => .vrestMx f
  | .vrestCtl => .vrestCtl f
  | .lgrant => .lgrant f

/-- The W operation and fields of an instruction, if it is of the W format. -/
def Instr.wide : Instr → Option (WOp × WFields)
  | .vadd f => some (.vadd, f)
  | .vsub f => some (.vsub, f)
  | .vrsub f => some (.vrsub, f)
  | .vand f => some (.vand, f)
  | .vor f => some (.vor, f)
  | .vxor f => some (.vxor, f)
  | .vsll f => some (.vsll, f)
  | .vsrl f => some (.vsrl, f)
  | .vsra f => some (.vsra, f)
  | .vmin f => some (.vmin, f)
  | .vmax f => some (.vmax, f)
  | .vminu f => some (.vminu, f)
  | .vmaxu f => some (.vmaxu, f)
  | .vmul f => some (.vmul, f)
  | .vmulh f => some (.vmulh, f)
  | .vmulhu f => some (.vmulhu, f)
  | .vmacc f => some (.vmacc, f)
  | .vsadd f => some (.vsadd, f)
  | .vssub f => some (.vssub, f)
  | .vsaddu f => some (.vsaddu, f)
  | .vssubu f => some (.vssubu, f)
  | .vsel f => some (.vsel, f)
  | .vabsd f => some (.vabsd, f)
  | .vmv f => some (.vmv, f)
  | .vwadd f => some (.vwadd, f)
  | .vwaddu f => some (.vwaddu, f)
  | .vwmul f => some (.vwmul, f)
  | .vwmulu f => some (.vwmulu, f)
  | .vwmacc f => some (.vwmacc, f)
  | .vnsrl f => some (.vnsrl, f)
  | .vnclip f => some (.vnclip, f)
  | .vnclipu f => some (.vnclipu, f)
  | .vfadd f => some (.vfadd, f)
  | .vfsub f => some (.vfsub, f)
  | .vfmul f => some (.vfmul, f)
  | .vfdiv f => some (.vfdiv, f)
  | .vfsqrt f => some (.vfsqrt, f)
  | .vfmin f => some (.vfmin, f)
  | .vfmax f => some (.vfmax, f)
  | .vfabs f => some (.vfabs, f)
  | .vfneg f => some (.vfneg, f)
  | .vfma f => some (.vfma, f)
  | .vfms f => some (.vfms, f)
  | .vfnma f => some (.vfnma, f)
  | .vfnms f => some (.vfnms, f)
  | .vfwma f => some (.vfwma, f)
  | .vfcvt f => some (.vfcvt, f)
  | .vfcvtI f => some (.vfcvtI, f)
  | .vicvtF f => some (.vicvtF, f)
  | .vsf f => some (.vsf, f)
  | .vcmp f => some (.vcmp, f)
  | .vfcmp f => some (.vfcmp, f)
  | .vredsum f => some (.vredsum, f)
  | .vredmax f => some (.vredmax, f)
  | .vredmin f => some (.vredmin, f)
  | .vredmaxu f => some (.vredmaxu, f)
  | .vredminu f => some (.vredminu, f)
  | .vredand f => some (.vredand, f)
  | .vredor f => some (.vredor, f)
  | .vfredsum f => some (.vfredsum, f)
  | .vfredtree f => some (.vfredtree, f)
  | .vfredmax f => some (.vfredmax, f)
  | .vfredmin f => some (.vfredmin, f)
  | .vscan f => some (.vscan, f)
  | .vfscan f => some (.vfscan, f)
  | .vslideup f => some (.vslideup, f)
  | .vslidedown f => some (.vslidedown, f)
  | .vgather f => some (.vgather, f)
  | .vcompress f => some (.vcompress, f)
  | .vexpand f => some (.vexpand, f)
  | .vbcast f => some (.vbcast, f)
  | .vins f => some (.vins, f)
  | .vext f => some (.vext, f)
  | .vidx f => some (.vidx, f)
  | .mand f => some (.mand, f)
  | .mor f => some (.mor, f)
  | .mxor f => some (.mxor, f)
  | .mandn f => some (.mandn, f)
  | .mnot f => some (.mnot, f)
  | .mcount f => some (.mcount, f)
  | .mfirst f => some (.mfirst, f)
  | .mall f => some (.mall, f)
  | .mmov f => some (.mmov, f)
  | .vld f => some (.vld, f)
  | .vlds f => some (.vlds, f)
  | .vldx f => some (.vldx, f)
  | .vldff f => some (.vldff, f)
  | .vldd f => some (.vldd, f)
  | .vst f => some (.vst, f)
  | .vsts f => some (.vsts, f)
  | .vstx f => some (.vstx, f)
  | .vstxu f => some (.vstxu, f)
  | .vstd f => some (.vstd, f)
  | .vamoAdd f => some (.vamoAdd, f)
  | .vamoAnd f => some (.vamoAnd, f)
  | .vamoOr f => some (.vamoOr, f)
  | .vamoXor f => some (.vamoXor, f)
  | .vamoMin f => some (.vamoMin, f)
  | .vamoMax f => some (.vamoMax, f)
  | .vamoSwap f => some (.vamoSwap, f)
  | .vamoFadd f => some (.vamoFadd, f)
  | .vamoAddDesc f => some (.vamoAddDesc, f)
  | .vamoAndDesc f => some (.vamoAndDesc, f)
  | .vamoOrDesc f => some (.vamoOrDesc, f)
  | .vamoXorDesc f => some (.vamoXorDesc, f)
  | .vamoMinDesc f => some (.vamoMinDesc, f)
  | .vamoMaxDesc f => some (.vamoMaxDesc, f)
  | .vamoSwapDesc f => some (.vamoSwapDesc, f)
  | .vamoFaddDesc f => some (.vamoFaddDesc, f)
  | .mtld f => some (.mtld, f)
  | .mtrel f => some (.mtrel, f)
  | .mast f => some (.mast, f)
  | .maz f => some (.maz, f)
  | .mald f => some (.mald, f)
  | .mmac f => some (.mmac, f)
  | .mmacs f => some (.mmacs, f)
  | .mmacx f => some (.mmacx, f)
  | .mdrain f => some (.mdrain, f)
  | .mloc f => some (.mloc, f)
  | .mfix f => some (.mfix, f)
  | .mretry f => some (.mretry, f)
  | .mcksum f => some (.mcksum, f)
  | .ecmd f => some (.ecmd, f)
  | .ewait f => some (.ewait, f)
  | .epoll f => some (.epoll, f)
  | .apush f => some (.apush, f)
  | .apop f => some (.apop, f)
  | .afetch f => some (.afetch, f)
  | .aprobe f => some (.aprobe, f)
  | .swbegin f => some (.swbegin, f)
  | .swnext f => some (.swnext, f)
  | .swcommit f => some (.swcommit, f)
  | .swend f => some (.swend, f)
  | .rtget f => some (.rtget, f)
  | .rtset f => some (.rtset, f)
  | .vsave f => some (.vsave, f)
  | .vsaveMsk f => some (.vsaveMsk, f)
  | .vsaveMx f => some (.vsaveMx, f)
  | .vsaveCtl f => some (.vsaveCtl, f)
  | .vrest f => some (.vrest, f)
  | .vrestMsk f => some (.vrestMsk, f)
  | .vrestMx f => some (.vrestMx, f)
  | .vrestCtl f => some (.vrestCtl, f)
  | .lgrant f => some (.lgrant, f)
  | _ => none

/-- The W operation of a class, an operation code and, for VPRIV, the image kind (R147, R148, R352). -/
def wOpOf (op8 func8 kind : Nat) : Option WOp :=
  match op8, func8, kind with
  | 0x01, 0x00, _ => some .vadd
  | 0x01, 0x01, _ => some .vsub
  | 0x01, 0x02, _ => some .vrsub
  | 0x01, 0x03, _ => some .vand
  | 0x01, 0x04, _ => some .vor
  | 0x01, 0x05, _ => some .vxor
  | 0x01, 0x06, _ => some .vsll
  | 0x01, 0x07, _ => some .vsrl
  | 0x01, 0x08, _ => some .vsra
  | 0x01, 0x09, _ => some .vmin
  | 0x01, 0x0a, _ => some .vmax
  | 0x01, 0x0b, _ => some .vminu
  | 0x01, 0x0c, _ => some .vmaxu
  | 0x01, 0x0d, _ => some .vmul
  | 0x01, 0x0e, _ => some .vmulh
  | 0x01, 0x0f, _ => some .vmulhu
  | 0x01, 0x10, _ => some .vmacc
  | 0x01, 0x11, _ => some .vsadd
  | 0x01, 0x12, _ => some .vssub
  | 0x01, 0x13, _ => some .vsaddu
  | 0x01, 0x14, _ => some .vssubu
  | 0x01, 0x15, _ => some .vsel
  | 0x01, 0x16, _ => some .vabsd
  | 0x01, 0x17, _ => some .vmv
  | 0x02, 0x00, _ => some .vwadd
  | 0x02, 0x01, _ => some .vwaddu
  | 0x02, 0x02, _ => some .vwmul
  | 0x02, 0x03, _ => some .vwmulu
  | 0x02, 0x04, _ => some .vwmacc
  | 0x02, 0x05, _ => some .vnsrl
  | 0x02, 0x06, _ => some .vnclip
  | 0x02, 0x07, _ => some .vnclipu
  | 0x03, 0x00, _ => some .vfadd
  | 0x03, 0x01, _ => some .vfsub
  | 0x03, 0x02, _ => some .vfmul
  | 0x03, 0x03, _ => some .vfdiv
  | 0x03, 0x04, _ => some .vfsqrt
  | 0x03, 0x05, _ => some .vfmin
  | 0x03, 0x06, _ => some .vfmax
  | 0x03, 0x07, _ => some .vfabs
  | 0x03, 0x08, _ => some .vfneg
  | 0x04, 0x00, _ => some .vfma
  | 0x04, 0x01, _ => some .vfms
  | 0x04, 0x02, _ => some .vfnma
  | 0x04, 0x03, _ => some .vfnms
  | 0x04, 0x04, _ => some .vfwma
  | 0x05, 0x00, _ => some .vfcvt
  | 0x05, 0x01, _ => some .vfcvtI
  | 0x05, 0x02, _ => some .vicvtF
  | 0x06, 0x00, _ => some .vsf
  | 0x07, 0x00, _ => some .vcmp
  | 0x07, 0x01, _ => some .vfcmp
  | 0x08, 0x00, _ => some .vredsum
  | 0x08, 0x01, _ => some .vredmax
  | 0x08, 0x02, _ => some .vredmin
  | 0x08, 0x03, _ => some .vredmaxu
  | 0x08, 0x04, _ => some .vredminu
  | 0x08, 0x05, _ => some .vredand
  | 0x08, 0x06, _ => some .vredor
  | 0x08, 0x07, _ => some .vfredsum
  | 0x08, 0x08, _ => some .vfredtree
  | 0x08, 0x09, _ => some .vfredmax
  | 0x08, 0x0a, _ => some .vfredmin
  | 0x08, 0x0b, _ => some .vscan
  | 0x08, 0x0c, _ => some .vfscan
  | 0x09, 0x00, _ => some .vslideup
  | 0x09, 0x01, _ => some .vslidedown
  | 0x09, 0x02, _ => some .vgather
  | 0x09, 0x03, _ => some .vcompress
  | 0x09, 0x04, _ => some .vexpand
  | 0x09, 0x05, _ => some .vbcast
  | 0x09, 0x06, _ => some .vins
  | 0x09, 0x07, _ => some .vext
  | 0x09, 0x08, _ => some .vidx
  | 0x0a, 0x00, _ => some .mand
  | 0x0a, 0x01, _ => some .mor
  | 0x0a, 0x02, _ => some .mxor
  | 0x0a, 0x03, _ => some .mandn
  | 0x0a, 0x04, _ => some .mnot
  | 0x0a, 0x05, _ => some .mcount
  | 0x0a, 0x06, _ => some .mfirst
  | 0x0a, 0x07, _ => some .mall
  | 0x0a, 0x08, _ => some .mmov
  | 0x10, 0x00, _ => some .vld
  | 0x10, 0x01, _ => some .vlds
  | 0x10, 0x02, _ => some .vldx
  | 0x10, 0x03, _ => some .vldff
  | 0x10, 0x04, _ => some .vldd
  | 0x11, 0x00, _ => some .vst
  | 0x11, 0x01, _ => some .vsts
  | 0x11, 0x02, _ => some .vstx
  | 0x11, 0x03, _ => some .vstxu
  | 0x11, 0x04, _ => some .vstd
  | 0x12, 0x00, _ => some .vamoAdd
  | 0x12, 0x01, _ => some .vamoAnd
  | 0x12, 0x02, _ => some .vamoOr
  | 0x12, 0x03, _ => some .vamoXor
  | 0x12, 0x04, _ => some .vamoMin
  | 0x12, 0x05, _ => some .vamoMax
  | 0x12, 0x06, _ => some .vamoSwap
  | 0x12, 0x07, _ => some .vamoFadd
  | 0x12, 0x10, _ => some .vamoAddDesc
  | 0x12, 0x11, _ => some .vamoAndDesc
  | 0x12, 0x12, _ => some .vamoOrDesc
  | 0x12, 0x13, _ => some .vamoXorDesc
  | 0x12, 0x14, _ => some .vamoMinDesc
  | 0x12, 0x15, _ => some .vamoMaxDesc
  | 0x12, 0x16, _ => some .vamoSwapDesc
  | 0x12, 0x17, _ => some .vamoFaddDesc
  | 0x20, 0x00, _ => some .mtld
  | 0x20, 0x01, _ => some .mtrel
  | 0x20, 0x02, _ => some .mast
  | 0x20, 0x03, _ => some .maz
  | 0x20, 0x04, _ => some .mald
  | 0x21, 0x00, _ => some .mmac
  | 0x21, 0x01, _ => some .mmacs
  | 0x21, 0x02, _ => some .mmacx
  | 0x22, 0x00, _ => some .mdrain
  | 0x22, 0x01, _ => some .mloc
  | 0x22, 0x02, _ => some .mfix
  | 0x22, 0x03, _ => some .mretry
  | 0x22, 0x04, _ => some .mcksum
  | 0x30, 0x00, _ => some .ecmd
  | 0x31, 0x00, _ => some .ewait
  | 0x31, 0x01, _ => some .epoll
  | 0x32, 0x00, _ => some .apush
  | 0x32, 0x01, _ => some .apop
  | 0x32, 0x02, _ => some .afetch
  | 0x32, 0x03, _ => some .aprobe
  | 0x33, 0x00, _ => some .swbegin
  | 0x33, 0x01, _ => some .swnext
  | 0x33, 0x02, _ => some .swcommit
  | 0x33, 0x03, _ => some .swend
  | 0x33, 0x04, _ => some .rtget
  | 0x33, 0x05, _ => some .rtset
  | 0x3f, 0x00, 0 => some .vsave
  | 0x3f, 0x00, 1 => some .vsaveMsk
  | 0x3f, 0x00, 2 => some .vsaveMx
  | 0x3f, 0x00, 3 => some .vsaveCtl
  | 0x3f, 0x01, 0 => some .vrest
  | 0x3f, 0x01, 1 => some .vrestMsk
  | 0x3f, 0x01, 2 => some .vrestMx
  | 0x3f, 0x01, 3 => some .vrestCtl
  | 0x3f, 0x02, _ => some .lgrant
  | _, _, _ => none

/-- The unit codes of R141. -/
def unitOf (op8 : Nat) : Option Nat :=
  if op8 = 0x10 ∨ op8 = 0x11 ∨ op8 = 0x12 ∨ op8 = 0x20 then some 0
  else if op8 = 0x01 ∨ op8 = 0x02 ∨ op8 = 0x07 ∨ op8 = 0x0A then some 1
  else if 0x03 ≤ op8 ∧ op8 ≤ 0x06 then some 2
  else if op8 = 0x08 ∨ op8 = 0x09 then some 3
  else if op8 = 0x21 ∨ op8 = 0x22 then some 4
  else if 0x30 ≤ op8 ∧ op8 ≤ 0x33 then some 5
  else none

end Sys2Proof
end

