-- ==== Sys2Proof/WellFormed.lean ====
section
/-! DEFINITION. The field rules of chapter 07 that a term of `Instr` can break: what an encoding must satisfy beyond having a
constructor (R134, R138, R139, R145, R146). Each breach has a name; a breach is an illegal-instruction exception (R149). -/

namespace Sys2Proof

/-- Why an encoding is refused (R149). -/
inductive DecodeError where
  /-- The parcel 0x0000 (R129). -/
  | zeroParcel
  /-- Fewer bytes than the first parcel announces (R129). -/
  | tooShort
  /-- An unallocated op4, major opcode, f3, f7, op8 or func8 (R134, R138, R147, R148). -/
  | unallocated
  /-- A field that must be zero is not (R134, R138, R141, R145). -/
  | mustBeZero
  /-- A rounding code that the row marks illegal (R138, R146). -/
  | rounding
  /-- A conversion or width code outside its range (R138, R146). -/
  | code
  /-- An unassigned status register number (R139). -/
  | statusNumber
  /-- A register field above the last register of its file (R145). -/
  | registerNumber
  /-- S1 set or clear against the chapter (R145). -/
  | scalarSource
  /-- ME or MR against the chapter (R145). -/
  | mask
  /-- desc set on an instruction without a descriptor (R145). -/
  | descriptor
  /-- orient set on an instruction without a memory access (R145). -/
  | orientation
  /-- imm16 breaks its class's layout (R146). -/
  | immediate
  /-- A loop index above 5 or an empty body (R138). -/
  | loopOperand
  /-- A watermark number of 0 (R138). -/
  | watermark
  /-- A w-form shift by 32 or more (R138). -/
  | shiftAmount
  /-- A scope above 5 (R102). -/
  | scope
  deriving DecidableEq, Repr

/-- The assigned status register numbers (R139, R435). -/
def assignedStatus (n : Nat) : Bool :=
  n ≤ 0x016 || n == 0x018 || n == 0x019 || (0x020 ≤ n && n ≤ 0x025) || (0x028 ≤ n && n ≤ 0x02D) || n == 0x030
    || (0x040 ≤ n && n ≤ 0x04F) || (0x100 ≤ n && n ≤ 0x10F) || (0x200 ≤ n && n ≤ 0x208) || (0x210 ≤ n && n ≤ 0x212)

/-- A rounding field of a form that takes the four static modes or the dynamic one (R138, R146). -/
def roundingOk (r : Nat) : Bool := r ≤ 3 || r == 7

/-- A register field against what it names (R145). -/
def FieldUse.defect (u : FieldUse) (s1 : Bool) (r : Reg) : Option DecodeError :=
  match u with
  | .zero => if r = 0 then none else some .mustBeZero
  | .vec | .scalar => none
  | .mask | .tile => if r.toNat ≤ 7 then none else some .registerNumber
  | .acc => if r.toNat ≤ 1 then none else some .registerNumber
  | .amount => if s1 ∨ r = 0 then none else some .mustBeZero

/-- imm16 against its class's layout (R146). -/
def ImmUse.ok (u : ImmUse) (s1 : Bool) (n : Nat) : Bool :=
  let fmt := n / 16 % 16
  let rm := n / 256 % 8
  match u with
  | .zero => n == 0
  | .any | .vld => true
  | .vfp => n < 2048 && n % 16 == 0 && roundingOk rm && fmt ≤ 4
  | .fmt => n < 256 && n % 16 == 0 && fmt ≤ 4
  | .fwma => n < 2048 && n % 16 == 0 && roundingOk rm && 1 ≤ fmt && fmt ≤ 4
  | .cvt sLo sHi dLo dHi => n < 4096 && rm != 6 && sLo ≤ fmt && fmt ≤ sHi && dLo ≤ n % 16 && n % 16 ≤ dHi
  | .vsf => n < 2048 && roundingOk rm && fmt ≤ 4 && n % 16 ≤ 6
  | .vcmp => n ≤ 5
  | .vfcmp => n < 256 && n % 16 ≤ 3 && fmt ≤ 4
  | .slide => !s1 || n == 0
  | .vldff | .vst => n < 4096
  | .vldd => n % 2048 == 0
  | .vstd => n == 0 || n == 2048
  | .amoFadd => n % 4 != 3
  | .mtld => n < 3
  | .mmac lo hi => lo ≤ n && n ≤ hi
  | .sel => n < 4
  | .retire => n < 2
  | .entry => n < 16
  | .kind k => n == k

/-- The first breach of R145 and R146 in the fields of a W operation. -/
def WFields.defect (op : WOp) (f : WFields) : Option DecodeError :=
  let sp := op.spec
  (sp.vd.defect f.s1 f.vd).orElse fun _ => (sp.vs1.defect f.s1 f.vs1).orElse fun _ =>
  (sp.vs2.defect f.s1 f.vs2).orElse fun _ => (sp.vs3.defect f.s1 f.vs3).orElse fun _ =>
  if (sp.s1 = .must ∧ ¬ f.s1) ∨ (sp.s1 ≠ .must ∧ sp.s1 ≠ .may ∧ f.s1) then some .scalarSource
  else if (¬ f.me ∧ f.mr ≠ 0) ∨ (sp.mask = .must ∧ ¬ f.me) ∨ (sp.mask ≠ .must ∧ sp.mask ≠ .may ∧ f.me) then some .mask
  else if f.desc ≠ 0 ∧ ¬ sp.desc then some .descriptor
  else if f.orient ∧ ¬ sp.orient then some .orientation
  else if ¬ sp.imm.ok f.s1 f.imm.toNat then some .immediate
  else if op = .mtld ∧ f.imm ≠ 0 ∧ f.vd.toNat % 2 = 1 then some .immediate
  else if op = .mloc ∧ f.vd = f.vs3 then some .registerNumber
  else none

/-- The first rule of chapter 07 that an instruction breaks, or none. The steps that no word encodes break none. -/
def Instr.defect (i : Instr) : Option DecodeError :=
  match i with
  | .cMv d => if d = 0 then some .zeroParcel else none
  | .slli _ _ w amt | .srli _ _ w amt | .srai _ _ w amt => if w ∧ 32 ≤ amt.toNat then some .shiftAmount else none
  | .loop k _ len => if 5 < k.toNat ∨ len = 0 then some .loopOperand else none
  | .fence k | .fenceSc k => if 5 < k.toNat then some .scope else none
  | .fadd _ _ _ rm _ | .fsub _ _ _ rm _ | .fmul _ _ _ rm _ | .fdiv _ _ _ rm _ | .fsqrt _ _ rm _ =>
    if roundingOk rm.toNat then none else some .rounding
  | .fcvt _ _ c rm _ => if ¬ roundingOk rm.toNat then some .rounding else if 6 < c.toNat then some .code else none
  | .fcmp _ _ _ c _ => if 2 < c.toNat then some .code else none
  | .trap c => if c = 0x000 ∨ c = 0x001 ∨ c = 0x010 ∨ c = 0x011 then some .code else none
  | .rdsr _ n | .wrsr n _ | .xchsr _ n _ => if assignedStatus n.toNat then none else some .statusNumber
  | .wmpub k _ | .wmrd _ k | .wmwait k _ => if k = 0 then some .watermark else none
  | i => match i.wide with
    | some (op, f) => f.defect op
    | none => none

/-- A well-formed instruction breaks no field rule. (A trap with one of the four service codes that the table names is
written with that service's own constructor.) -/
def Instr.wf (i : Instr) : Bool := i.defect.isNone

end Sys2Proof
end

