-- ==== Sys2Proof/Decode.lean ====
section
/-! DEFINITION. From bits to instructions and back (chapter 07). An encoding is a number: bit 0 is the least significant bit
of its first parcel. Decoding splits it into fields once, names the instruction, and then applies the field rules of
`WellFormed`. The encoder follows, from the same field tables. -/

namespace Sys2Proof

/-- Length in bytes that the first parcel announces (R129). -/
def lengthOf (parcel : Nat) : Nat :=
  match parcel % 4 with
  | 0 => 2
  | 2 => 8
  | _ => 4

/-- The fields of an S word (R136). -/
structure SParts where
  maj : Nat
  rd  : Nat
  rs1 : Nat
  f3  : Nat
  rs2 : Nat
  f7  : Nat
  deriving DecidableEq, Repr

/-- The fields of an S word (R136). -/
def unpackS (w : Nat) : SParts :=
  { maj := w / 2^2 % 32, rd := w / 2^7 % 32, rs1 := w / 2^12 % 32, f3 := w / 2^17 % 8, rs2 := w / 2^20 % 32,
    f7 := w / 2^25 % 128 }

/-- The S word of its fields (R136). -/
def packS (p : SParts) : Nat :=
  1 + p.maj * 2^2 + p.rd * 2^7 + p.rs1 * 2^12 + p.f3 * 2^17 + p.rs2 * 2^20 + p.f7 * 2^25

/-- imm12 (R136). -/
def SParts.imm12 (p : SParts) : Nat := p.rs2 + p.f7 * 32
/-- imm20 (R136). -/
def SParts.imm20 (p : SParts) : Nat := p.rs1 + p.f3 * 32 + p.rs2 * 256 + p.f7 * 8192

/-- A register number of a field. -/
def regOf (n : Nat) : Reg := BitVec.ofNat 5 n

/-- The W fields of an encoding (R144). -/
def unpackW (w : Nat) : WFields :=
  { vd := regOf (w / 2^10), vs1 := regOf (w / 2^15), vs2 := regOf (w / 2^20), vs3 := regOf (w / 2^25),
    mr := BitVec.ofNat 3 (w / 2^30), me := w / 2^33 % 2 == 1, orient := w / 2^34 % 2 == 1, s1 := w / 2^35 % 2 == 1,
    desc := BitVec.ofNat 4 (w / 2^36), imm := BitVec.ofNat 16 (w / 2^48) }

/-- The encoding of W fields with a class and an operation (R144). -/
def packW (op8 func8 : Nat) (f : WFields) : Nat :=
  2 + op8 * 2^2 + f.vd.toNat * 2^10 + f.vs1.toNat * 2^15 + f.vs2.toNat * 2^20 + f.vs3.toNat * 2^25 + f.mr.toNat * 2^30
    + bit01 f.me * 2^33 + bit01 f.orient * 2^34 + bit01 f.s1 * 2^35 + f.desc.toNat * 2^36 + func8 * 2^40 + f.imm.toNat * 2^48

/-- A C parcel (R133, R134). -/
def decodeC (w : Nat) : Except DecodeError Instr :=
  let f5 := w / 2^11 % 32
  let rd := w / 2^6 % 32
  let d := regOf rd
  let f := regOf f5
  let off := BitVec.ofNat 10 (rd + f5 * 32)
  match w / 4 % 16 with
  | 0 => if f5 = 0 then .ok (.cMv d) else .error .mustBeZero
  | 1 => .ok (.cAdd d f)
  | 2 => .ok (.cSub d f)
  | 3 => .ok (.cAddi d f)
  | 4 => .ok (.cAnd d f)
  | 5 => .ok (.cOr d f)
  | 6 => .ok (.cXor d f)
  | 7 => .ok (.cSlli d f)
  | 8 => .ok (.cSrai d f)
  | 9 => .ok (.cLd d f)
  | 10 => .ok (.cSt d f)
  | 11 => .ok (.cLi d f)
  | 12 => .ok (.cBeqz off)
  | 13 => .ok (.cBnez off)
  | 14 => .ok (.cJ off)
  | _ => .error .unallocated

/-- Major 0x00, OPR (R138, R154). -/
def decodeOpr (p : SParts) : Except DecodeError Instr :=
  let d := regOf p.rd
  let a := regOf p.rs1
  let b := regOf p.rs2
  let w := p.f3 % 2 == 1
  if 2 ≤ p.f3 then .error .mustBeZero else
  match p.f7 with
  | 0x00 => .ok (.add d a b w)
  | 0x01 => .ok (.sub d a b w)
  | 0x02 => .ok (.and d a b w)
  | 0x03 => .ok (.or d a b w)
  | 0x04 => .ok (.xor d a b w)
  | 0x05 => .ok (.sll d a b w)
  | 0x06 => .ok (.srl d a b w)
  | 0x07 => .ok (.sra d a b w)
  | 0x08 => .ok (.slt d a b w)
  | 0x09 => .ok (.sltu d a b w)
  | 0x0A => .ok (.min d a b w)
  | 0x0B => .ok (.max d a b w)
  | 0x0C => .ok (.minu d a b w)
  | 0x0D => .ok (.maxu d a b w)
  | 0x0E => .ok (.mul d a b w)
  | 0x0F => if w then .error .mustBeZero else .ok (.mulh d a b)
  | 0x10 => if w then .error .mustBeZero else .ok (.mulhu d a b)
  | 0x11 => .ok (.div d a b w)
  | 0x12 => .ok (.divu d a b w)
  | 0x13 => .ok (.rem d a b w)
  | 0x14 => .ok (.remu d a b w)
  | 0x15 => .ok (.rol d a b w)
  | 0x16 => .ok (.ror d a b w)
  | 0x17 => if p.rs2 = 0 then .ok (.clz d a w) else .error .mustBeZero
  | 0x18 => if p.rs2 = 0 then .ok (.ctz d a w) else .error .mustBeZero
  | 0x19 => if p.rs2 = 0 then .ok (.popc d a w) else .error .mustBeZero
  | 0x1A => if w then .error .mustBeZero else
    match p.rs2 with
    | 0 => .ok (.sext d a .b) | 1 => .ok (.sext d a .h) | 2 => .ok (.sext d a .w) | _ => .error .code
  | 0x1B => if w then .error .mustBeZero else
    match p.rs2 with
    | 0 => .ok (.zext d a .b) | 1 => .ok (.zext d a .h) | 2 => .ok (.zext d a .w) | _ => .error .code
  | _ => .error .unallocated

/-- Major 0x01, OPI (R138, R156, R157). -/
def decodeOpi (p : SParts) : Except DecodeError Instr :=
  let d := regOf p.rd
  let a := regOf p.rs1
  let imm := BitVec.ofNat 12 p.imm12
  let w := p.imm12 / 512 % 2 == 1
  let amt := BitVec.ofNat 6 p.imm12
  match p.f3 with
  | 0 => .ok (.addi d a imm)
  | 1 => .ok (.andi d a imm)
  | 2 => .ok (.ori d a imm)
  | 3 => .ok (.xori d a imm)
  | 4 => .ok (.slti d a imm)
  | 5 => .ok (.sltiu d a imm)
  | 7 => .ok (.addiw d a imm)
  | _ =>
    if p.imm12 / 64 % 8 ≠ 0 then .error .mustBeZero else
    match p.imm12 / 1024 with
    | 0 => .ok (.slli d a w amt)
    | 1 => .ok (.srli d a w amt)
    | 2 => .ok (.srai d a w amt)
    | _ => .error .unallocated

/-- Majors 0x04 to 0x06: loads and stores (R138, R161). -/
def decodeAccess (p : SParts) : Except DecodeError Instr :=
  let d := regOf p.rd
  let a := regOf p.rs1
  let imm := BitVec.ofNat 12 p.imm12
  match p.maj, p.f3 with
  | 4, 0 => .ok (.ldB d a imm)
  | 4, 1 => .ok (.ldH d a imm)
  | 4, 2 => .ok (.ldW d a imm)
  | 4, 3 => .ok (.ldD d a imm)
  | 4, 4 => .ok (.ldBu d a imm)
  | 4, 5 => .ok (.ldHu d a imm)
  | 4, 6 => .ok (.ldWu d a imm)
  | 5, 0 => .ok (.stB d a imm)
  | 5, 1 => .ok (.stH d a imm)
  | 5, 2 => .ok (.stW d a imm)
  | 5, 3 => .ok (.stD d a imm)
  | 5, 4 => .ok (.stRelB d a imm)
  | 5, 5 => .ok (.stRelH d a imm)
  | 5, 6 => .ok (.stRelW d a imm)
  | 5, 7 => .ok (.stRelD d a imm)
  | 6, 2 => .ok (.ldAcqW d a imm)
  | 6, 3 => .ok (.ldAcqD d a imm)
  | 6, 6 => .ok (.ldAcqWu d a imm)
  | _, _ => .error .unallocated

/-- Major 0x07, amo (R138). -/
def decodeAmo (p : SParts) : Except DecodeError Instr :=
  let d := regOf p.rd
  let a := regOf p.rs1
  let b := regOf p.rs2
  let dw := p.f3 % 2 == 1
  let q := p.f3 / 2 % 2 == 1
  let l := p.f3 / 4 % 2 == 1
  match p.f7 with
  | 0 => .ok (.amoAdd d a b dw q l)
  | 1 => .ok (.amoAnd d a b dw q l)
  | 2 => .ok (.amoOr d a b dw q l)
  | 3 => .ok (.amoXor d a b dw q l)
  | 4 => .ok (.amoMin d a b dw q l)
  | 5 => .ok (.amoMax d a b dw q l)
  | 6 => .ok (.amoMinu d a b dw q l)
  | 7 => .ok (.amoMaxu d a b dw q l)
  | 8 => .ok (.amoSwap d a b dw q l)
  | 9 => .ok (.amoCas d a b dw q l)
  | 10 => .ok (.amoFadd d a b dw q l)
  | _ => .error .unallocated

/-- Major 0x08, b: the rd field holds rs1 and the rs1 field rs2 (R136, R138). -/
def decodeBranch (p : SParts) : Except DecodeError Instr :=
  let a := regOf p.rd
  let b := regOf p.rs1
  let imm := BitVec.ofNat 12 p.imm12
  match p.f3 with
  | 0 => .ok (.bEq a b imm)
  | 1 => .ok (.bNe a b imm)
  | 4 => .ok (.bLt a b imm)
  | 5 => .ok (.bGe a b imm)
  | 6 => .ok (.bLtu a b imm)
  | 7 => .ok (.bGeu a b imm)
  | _ => .error .unallocated

/-- Major 0x0C: fences (R102). -/
def decodeFence (p : SParts) : Except DecodeError Instr :=
  let k := BitVec.ofNat 3 p.imm12
  if p.rd ≠ 0 ∨ p.rs1 ≠ 0 ∨ 8 ≤ p.imm12 then .error .mustBeZero else
  match p.f3 with
  | 0 => .ok (.fence k)
  | 1 => if p.imm12 = 0 then .ok .orderSv else .error .scope
  | 2 => if p.imm12 = 0 then .ok .orderVs else .error .scope
  | 3 => .ok (.fenceSc k)
  | 4 => if p.imm12 = 0 then .ok .fenceI else .error .scope
  | _ => .error .unallocated

/-- Major 0x0D, fp (R138, R170). -/
def decodeFp (p : SParts) : Except DecodeError Instr :=
  let d := regOf p.rd
  let a := regOf p.rs1
  let b := regOf p.rs2
  let rm := BitVec.ofNat 3 p.f3
  let sg := p.f7 / 64 == 1
  match p.f7 % 64 with
  | 0 => .ok (.fadd d a b rm sg)
  | 1 => .ok (.fsub d a b rm sg)
  | 2 => .ok (.fmul d a b rm sg)
  | 3 => .ok (.fdiv d a b rm sg)
  | 4 => if p.rs2 = 0 then .ok (.fsqrt d a rm sg) else .error .mustBeZero
  | 5 => if p.f3 = 0 then .ok (.fmin d a b sg) else .error .rounding
  | 6 => if p.f3 = 0 then .ok (.fmax d a b sg) else .error .rounding
  | 7 => .ok (.fcvt d a b rm sg)
  | 8 => .ok (.fcmp d a b rm sg)
  | 9 => if p.rs2 = 0 ∧ p.f3 = 0 then .ok (.fclass d a sg) else .error .mustBeZero
  | _ => .error .unallocated

/-- Major 0x0E, fma (R136, R138). -/
def decodeFma (p : SParts) : Except DecodeError Instr :=
  let d := regOf p.rd
  let a := regOf p.rs1
  let b := regOf p.rs2
  let c := regOf p.f7
  let rm := BitVec.ofNat 2 p.f3
  let sg := p.f3 / 4 == 1
  match p.f7 / 32 with
  | 0 => .ok (.fma d a b c rm sg)
  | 1 => .ok (.fms d a b c rm sg)
  | 2 => .ok (.fnma d a b c rm sg)
  | _ => .ok (.fnms d a b c rm sg)

/-- Major 0x0F, sys (R138, R176-R180). A trap word with one of the four service codes of the table is that service. -/
def decodeSys (p : SParts) : Except DecodeError Instr :=
  let d := regOf p.rd
  let a := regOf p.rs1
  let n := BitVec.ofNat 12 p.imm12
  match p.f3 with
  | 0 =>
    if p.rd ≠ 0 ∨ p.rs1 ≠ 0 then .error .mustBeZero else
    match p.imm12 with
    | 0x000 => .ok .firmwareVersion
    | 0x001 => .ok .firmwareTelemetry
    | 0x010 => .ok .yield
    | 0x011 => .ok .cancelLaunch
    | _ => .ok (.trap n)
  | 1 => if p.rd = 0 ∧ p.rs1 = 0 ∧ p.imm12 = 0 then .ok .brk else .error .mustBeZero
  | 2 => if p.rd = 0 ∧ p.rs1 = 0 ∧ p.imm12 = 0 then .ok .eret else .error .mustBeZero
  | 3 =>
    if p.rd ≠ 0 ∨ p.rs1 ≠ 0 then .error .mustBeZero else
    match p.imm12 with
    | 0 => .ok .waitEnd
    | 1 => .ok .waitEvent
    | _ => .error .unallocated
  | 4 => if p.rs1 = 0 then .ok (.rdsr d n) else .error .mustBeZero
  | 5 => if p.rd = 0 then .ok (.wrsr n a) else .error .mustBeZero
  | 6 => .ok (.xchsr d n a)
  | _ => .error .unallocated

/-- Majors 0x10 to 0x13: vcfg, desc, wm, launch (R138). -/
def decodeConfig (p : SParts) : Except DecodeError Instr :=
  let d := regOf p.rd
  let a := regOf p.rs1
  let imm := BitVec.ofNat 12 p.imm12
  let k := BitVec.ofNat 4 p.imm12
  match p.maj, p.f3 with
  | 0x10, 0 => if p.imm12 = 0 then .ok (.setvl d a) else .error .mustBeZero
  | 0x10, 1 => if p.imm12 = 0 then .ok (.setvlK d a) else .error .mustBeZero
  | 0x10, 2 => if p.rs1 = 0 then .ok (.settype d imm) else .error .mustBeZero
  | 0x10, 3 => if p.imm12 = 0 then .ok (.settile d a) else .error .mustBeZero
  | 0x10, 4 => if p.imm12 = 0 then .ok (.settileC d a) else .error .mustBeZero
  | 0x11, 0 => if p.rd < 16 then .ok (.dset (BitVec.ofNat 4 p.rd) a imm) else .error .registerNumber
  | 0x11, 1 => if 16 ≤ p.rs1 then .error .mustBeZero else
    if p.imm12 < 8 then .ok (.dget d (BitVec.ofNat 4 p.rs1) (BitVec.ofNat 3 p.imm12)) else .error .immediate
  | 0x11, 2 => if p.rd < 16 then .ok (.dput (BitVec.ofNat 4 p.rd) a imm) else .error .registerNumber
  | 0x12, 0 => if p.rd = 0 ∧ p.imm12 < 16 then .ok (.wmpub k a) else .error .mustBeZero
  | 0x12, 1 => if p.rs1 = 0 ∧ p.imm12 < 16 then .ok (.wmrd d k) else .error .mustBeZero
  | 0x12, 2 => if p.rd = 0 ∧ p.imm12 < 16 then .ok (.wmwait k a) else .error .mustBeZero
  | 0x13, 0 => .ok (.launch d a imm)
  | _, _ => .error .unallocated

/-- An S word by its major opcode (R138). -/
def decodeS (p : SParts) : Except DecodeError Instr :=
  let d := regOf p.rd
  let a := regOf p.rs1
  let imm := BitVec.ofNat 12 p.imm12
  let imm20 := BitVec.ofNat 20 p.imm20
  match p.maj with
  | 0x00 => decodeOpr p
  | 0x01 => decodeOpi p
  | 0x02 => .ok (.ldhi d imm20)
  | 0x03 => .ok (.pcadd d imm20)
  | 0x04 | 0x05 | 0x06 => decodeAccess p
  | 0x07 => decodeAmo p
  | 0x08 => decodeBranch p
  | 0x09 => .ok (.jal d imm20)
  | 0x0A => if p.f3 = 0 then .ok (.jalr d a imm) else .error .unallocated
  | 0x0B => if p.f3 = 0 ∧ p.rd < 8 then .ok (.loop (BitVec.ofNat 3 p.rd) a imm) else .error .mustBeZero
  | 0x0C => decodeFence p
  | 0x0D => decodeFp p
  | 0x0E => decodeFma p
  | 0x0F => decodeSys p
  | 0x10 | 0x11 | 0x12 | 0x13 => decodeConfig p
  | _ => .error .unallocated

/-- A convoy header word; which unit codes may stand together is judged with the slots (R141, R143). -/
def decodeH (w : Nat) : Except DecodeError Instr :=
  let u (k : Nat) : BitVec 3 := BitVec.ofNat 3 (w / 2^k)
  if w / 2^23 % 512 ≠ 0 then .error .mustBeZero
  else .ok (.convoy (u 2) (u 5) (u 8) (u 11) (u 14) (u 17) (u 20))

/-- The W operation and fields of an encoding, with the rules of R145 and R146 applied (R144-R148). -/
def decodeW (w : Nat) : Except DecodeError (WOp × WFields) :=
  match wOpOf (w / 2^2 % 256) (w / 2^40 % 256) (w / 2^48 % 4) with
  | none => .error .unallocated
  | some op =>
    let f := unpackW w
    match f.defect op with
    | some e => .error e
    | none => .ok (op, f)

/-- A decoded encoding: an instruction, or a W operation with its fields. -/
inductive Decoded where
  | plain (i : Instr)
  | wide (op : WOp) (f : WFields)
  deriving DecidableEq, Repr

/-- The instruction that a decoded encoding stands for. -/
noncomputable def Decoded.instr : Decoded → Instr
  | .plain i => i
  | .wide op f => op.instr f

/-- Decode one encoding, whose length its first parcel has announced (R129). -/
def decodeWord (w : Nat) : Except DecodeError Decoded :=
  let checked (r : Except DecodeError Instr) : Except DecodeError Decoded :=
    match r with
    | .error e => .error e
    | .ok i => match i.defect with
      | some e => .error e
      | none => .ok (.plain i)
  match w % 4 with
  | 0 => if w % 2^16 = 0 then .error .zeroParcel else checked (decodeC w)
  | 1 => checked (decodeS (unpackS w))
  | 2 => match decodeW w with
    | .error e => .error e
    | .ok (op, f) => .ok (.wide op f)
  | _ => checked (decodeH w)

/-- Little-endian value of bytes (R1). -/
def leNat : List Byte → Nat
  | [] => 0
  | b :: bs => b.toNat + 256 * leNat bs

/-- The `n` low bytes of a number, lowest first (R1). -/
def leBytes : Nat → Nat → List Byte
  | 0, _ => []
  | n + 1, w => BitVec.ofNat 8 w :: leBytes n (w / 256)

/-- Decode the instruction at the head of a byte list; the rest of the list follows it. -/
def decodeBytes (bs : List Byte) : Except DecodeError (Decoded × List Byte) :=
  match bs with
  | b0 :: b1 :: _ =>
    let n := lengthOf (leNat [b0, b1])
    if bs.length < n then .error .tooShort
    else match decodeWord (leNat (bs.take n)) with
      | .error e => .error e
      | .ok d => .ok (d, bs.drop n)
  | _ => .error .tooShort

/-- The instruction read from an encoding of `nbits` bits with zeros above. -/
noncomputable def decodeTableWord (nbits w : Nat) : Option Instr :=
  match decodeBytes (leBytes 8 (w % 2 ^ nbits)) with
  | .ok (d, _) => some d.instr
  | .error _ => none

/-- The C parcel of its fields (R133). -/
def packC (op rd f5 : Nat) : Nat := op * 4 + rd * 64 + f5 * 2048

/-- An S-R word. -/
def encR (maj f7 f3 : Nat) (d a b : Reg) : Nat := packS ⟨maj, d.toNat, a.toNat, f3, b.toNat, f7⟩
/-- An S-I or S-ST word. -/
def encI (maj f3 : Nat) (d a : Reg) (imm : Nat) : Nat := packS ⟨maj, d.toNat, a.toNat, f3, imm % 32, imm / 32⟩
/-- An S-U or S-J word. -/
def encU (maj : Nat) (d : Reg) (imm : Nat) : Nat :=
  packS ⟨maj, d.toNat, imm % 32, imm / 32 % 8, imm / 256 % 32, imm / 8192⟩
/-- An amo word. -/
def encAmo (f7 : Nat) (d a b : Reg) (dw q l : Bool) : Nat := encR 0x07 f7 (bit01 dw + 2 * bit01 q + 4 * bit01 l) d a b
/-- An fp word. -/
def encFp (op : Nat) (d a b : Reg) (rm : Nat) (sg : Bool) : Nat := encR 0x0D (op + 64 * bit01 sg) rm d a b
/-- An fma word. -/
def encFma (op : Nat) (d a b c : Reg) (rm : BitVec 2) (sg : Bool) : Nat :=
  encR 0x0E (c.toNat + 32 * op) (rm.toNat + 4 * bit01 sg) d a b
/-- The width code of sext and zext. -/
def ExtWidth.code : ExtWidth → Reg
  | .b => 0
  | .h => 1
  | .w => 2

/-- The encoding of an instruction as a number, from the field tables of R133, R136, R141 and R144; none for a step that no
word encodes. -/
def encodeNat (i : Instr) : Option Nat :=
  match i with
  | .cMv d => some (packC 0 d.toNat 0)
  | .cAdd d f => some (packC 1 d.toNat f.toNat)
  | .cSub d f => some (packC 2 d.toNat f.toNat)
  | .cAddi d m => some (packC 3 d.toNat m.toNat)
  | .cAnd d f => some (packC 4 d.toNat f.toNat)
  | .cOr d f => some (packC 5 d.toNat f.toNat)
  | .cXor d f => some (packC 6 d.toNat f.toNat)
  | .cSlli d m => some (packC 7 d.toNat m.toNat)
  | .cSrai d m => some (packC 8 d.toNat m.toNat)
  | .cLd d m => some (packC 9 d.toNat m.toNat)
  | .cSt d m => some (packC 10 d.toNat m.toNat)
  | .cLi d m => some (packC 11 d.toNat m.toNat)
  | .cBeqz o => some (packC 12 (o.toNat % 32) (o.toNat / 32))
  | .cBnez o => some (packC 13 (o.toNat % 32) (o.toNat / 32))
  | .cJ o => some (packC 14 (o.toNat % 32) (o.toNat / 32))
  | .add d a b w => some (encR 0x00 0x00 (bit01 w) d a b)
  | .sub d a b w => some (encR 0x00 0x01 (bit01 w) d a b)
  | .and d a b w => some (encR 0x00 0x02 (bit01 w) d a b)
  | .or d a b w => some (encR 0x00 0x03 (bit01 w) d a b)
  | .xor d a b w => some (encR 0x00 0x04 (bit01 w) d a b)
  | .sll d a b w => some (encR 0x00 0x05 (bit01 w) d a b)
  | .srl d a b w => some (encR 0x00 0x06 (bit01 w) d a b)
  | .sra d a b w => some (encR 0x00 0x07 (bit01 w) d a b)
  | .slt d a b w => some (encR 0x00 0x08 (bit01 w) d a b)
  | .sltu d a b w => some (encR 0x00 0x09 (bit01 w) d a b)
  | .min d a b w => some (encR 0x00 0x0a (bit01 w) d a b)
  | .max d a b w => some (encR 0x00 0x0b (bit01 w) d a b)
  | .minu d a b w => some (encR 0x00 0x0c (bit01 w) d a b)
  | .maxu d a b w => some (encR 0x00 0x0d (bit01 w) d a b)
  | .mul d a b w => some (encR 0x00 0x0e (bit01 w) d a b)
  | .mulh d a b => some (encR 0x00 0x0f 0 d a b)
  | .mulhu d a b => some (encR 0x00 0x10 0 d a b)
  | .div d a b w => some (encR 0x00 0x11 (bit01 w) d a b)
  | .divu d a b w => some (encR 0x00 0x12 (bit01 w) d a b)
  | .rem d a b w => some (encR 0x00 0x13 (bit01 w) d a b)
  | .remu d a b w => some (encR 0x00 0x14 (bit01 w) d a b)
  | .rol d a b w => some (encR 0x00 0x15 (bit01 w) d a b)
  | .ror d a b w => some (encR 0x00 0x16 (bit01 w) d a b)
  | .clz d a w => some (encR 0x00 0x17 (bit01 w) d a 0)
  | .ctz d a w => some (encR 0x00 0x18 (bit01 w) d a 0)
  | .popc d a w => some (encR 0x00 0x19 (bit01 w) d a 0)
  | .sext d a n => some (encR 0x00 0x1a 0 d a n.code)
  | .zext d a n => some (encR 0x00 0x1b 0 d a n.code)
  | .addi d a m => some (encI 0x01 0 d a m.toNat)
  | .andi d a m => some (encI 0x01 1 d a m.toNat)
  | .ori d a m => some (encI 0x01 2 d a m.toNat)
  | .xori d a m => some (encI 0x01 3 d a m.toNat)
  | .slti d a m => some (encI 0x01 4 d a m.toNat)
  | .sltiu d a m => some (encI 0x01 5 d a m.toNat)
  | .addiw d a m => some (encI 0x01 7 d a m.toNat)
  | .slli d a w m => some (encI 0x01 6 d a (m.toNat + 512 * bit01 w + 0))
  | .srli d a w m => some (encI 0x01 6 d a (m.toNat + 512 * bit01 w + 1024))
  | .srai d a w m => some (encI 0x01 6 d a (m.toNat + 512 * bit01 w + 2048))
  | .ldhi d m => some (encU 0x02 d m.toNat)
  | .pcadd d m => some (encU 0x03 d m.toNat)
  | .ldB d a m => some (encI 0x04 0 d a m.toNat)
  | .ldH d a m => some (encI 0x04 1 d a m.toNat)
  | .ldW d a m => some (encI 0x04 2 d a m.toNat)
  | .ldD d a m => some (encI 0x04 3 d a m.toNat)
  | .ldBu d a m => some (encI 0x04 4 d a m.toNat)
  | .ldHu d a m => some (encI 0x04 5 d a m.toNat)
  | .ldWu d a m => some (encI 0x04 6 d a m.toNat)
  | .stB s a m => some (encI 0x05 0 s a m.toNat)
  | .stH s a m => some (encI 0x05 1 s a m.toNat)
  | .stW s a m => some (encI 0x05 2 s a m.toNat)
  | .stD s a m => some (encI 0x05 3 s a m.toNat)
  | .stRelB s a m => some (encI 0x05 4 s a m.toNat)
  | .stRelH s a m => some (encI 0x05 5 s a m.toNat)
  | .stRelW s a m => some (encI 0x05 6 s a m.toNat)
  | .stRelD s a m => some (encI 0x05 7 s a m.toNat)
  | .ldAcqW d a m => some (encI 0x06 2 d a m.toNat)
  | .ldAcqD d a m => some (encI 0x06 3 d a m.toNat)
  | .ldAcqWu d a m => some (encI 0x06 6 d a m.toNat)
  | .amoAdd d a b dw q l => some (encAmo 0 d a b dw q l)
  | .amoAnd d a b dw q l => some (encAmo 1 d a b dw q l)
  | .amoOr d a b dw q l => some (encAmo 2 d a b dw q l)
  | .amoXor d a b dw q l => some (encAmo 3 d a b dw q l)
  | .amoMin d a b dw q l => some (encAmo 4 d a b dw q l)
  | .amoMax d a b dw q l => some (encAmo 5 d a b dw q l)
  | .amoMinu d a b dw q l => some (encAmo 6 d a b dw q l)
  | .amoMaxu d a b dw q l => some (encAmo 7 d a b dw q l)
  | .amoSwap d a b dw q l => some (encAmo 8 d a b dw q l)
  | .amoCas d a b dw q l => some (encAmo 9 d a b dw q l)
  | .amoFadd d a b dw q l => some (encAmo 10 d a b dw q l)
  | .bEq a b m => some (encI 0x08 0 a b m.toNat)
  | .bNe a b m => some (encI 0x08 1 a b m.toNat)
  | .bLt a b m => some (encI 0x08 4 a b m.toNat)
  | .bGe a b m => some (encI 0x08 5 a b m.toNat)
  | .bLtu a b m => some (encI 0x08 6 a b m.toNat)
  | .bGeu a b m => some (encI 0x08 7 a b m.toNat)
  | .jal d m => some (encU 0x09 d m.toNat)
  | .jalr d a m => some (encI 0x0A 0 d a m.toNat)
  | .loop k a m => some (encI 0x0B 0 (k.setWidth 5) a m.toNat)
  | .fence k => some (encI 0x0C 0 0 0 k.toNat)
  | .orderSv => some (encI 0x0C 1 0 0 0)
  | .orderVs => some (encI 0x0C 2 0 0 0)
  | .fenceSc k => some (encI 0x0C 3 0 0 k.toNat)
  | .fenceI => some (encI 0x0C 4 0 0 0)
  | .fadd d a b rm sg => some (encFp 0 d a b rm.toNat sg)
  | .fsub d a b rm sg => some (encFp 1 d a b rm.toNat sg)
  | .fmul d a b rm sg => some (encFp 2 d a b rm.toNat sg)
  | .fdiv d a b rm sg => some (encFp 3 d a b rm.toNat sg)
  | .fsqrt d a rm sg => some (encFp 4 d a 0 rm.toNat sg)
  | .fmin d a b sg => some (encFp 5 d a b 0 sg)
  | .fmax d a b sg => some (encFp 6 d a b 0 sg)
  | .fcvt d a c rm sg => some (encFp 7 d a c rm.toNat sg)
  | .fcmp d a b c sg => some (encFp 8 d a b c.toNat sg)
  | .fclass d a sg => some (encFp 9 d a 0 0 sg)
  | .fma d a b c rm sg => some (encFma 0 d a b c rm sg)
  | .fms d a b c rm sg => some (encFma 1 d a b c rm sg)
  | .fnma d a b c rm sg => some (encFma 2 d a b c rm sg)
  | .fnms d a b c rm sg => some (encFma 3 d a b c rm sg)
  | .trap c => some (encI 0x0F 0 0 0 c.toNat)
  | .firmwareVersion => some (encI 0x0F 0 0 0 0x000)
  | .firmwareTelemetry => some (encI 0x0F 0 0 0 0x001)
  | .yield => some (encI 0x0F 0 0 0 0x010)
  | .cancelLaunch => some (encI 0x0F 0 0 0 0x011)
  | .brk => some (encI 0x0F 1 0 0 0)
  | .eret => some (encI 0x0F 2 0 0 0)
  | .waitEnd => some (encI 0x0F 3 0 0 0)
  | .waitEvent => some (encI 0x0F 3 0 0 1)
  | .rdsr d n => some (encI 0x0F 4 d 0 n.toNat)
  | .wrsr n s => some (encI 0x0F 5 0 s n.toNat)
  | .xchsr d n s => some (encI 0x0F 6 d s n.toNat)
  | .setvl d a => some (encI 0x10 0 d a 0)
  | .setvlK d a => some (encI 0x10 1 d a 0)
  | .settype d m => some (encI 0x10 2 d 0 m.toNat)
  | .settile d a => some (encI 0x10 3 d a 0)
  | .settileC d a => some (encI 0x10 4 d a 0)
  | .dset n a m => some (encI 0x11 0 (n.setWidth 5) a m.toNat)
  | .dget d n q => some (encI 0x11 1 d (n.setWidth 5) q.toNat)
  | .dput n a m => some (encI 0x11 2 (n.setWidth 5) a m.toNat)
  | .wmpub k a => some (encI 0x12 0 0 a k.toNat)
  | .wmrd d k => some (encI 0x12 1 d 0 k.toNat)
  | .wmwait k a => some (encI 0x12 2 0 a k.toNat)
  | .launch d a m => some (encI 0x13 0 d a m.toNat)
  | .convoy n u0 u1 u2 u3 u4 u5 =>
    some (3 + n.toNat * 2^2 + u0.toNat * 2^5 + u1.toNat * 2^8 + u2.toNat * 2^11 + u3.toNat * 2^14 + u4.toNat * 2^17
      + u5.toNat * 2^20)
  | i => match i.wide with
    | some (op, f) => some (packW op.spec.op8 op.spec.func8 f)
    | none => none

/-- The bytes of an instruction, first parcel first (R129); no bytes for a step that no word encodes. -/
def encode (i : Instr) : List Byte :=
  match encodeNat i with
  | some w => leBytes (lengthOf w) w
  | none => []

end Sys2Proof
end

