-- ==== Sys2Proof/Config.lean ====
section
/-! DEFINITION. What the manual leaves open: free values, with no body, so that nothing can be proved of them,
and what a particular device has fused. Each is named in the assumption log. -/

namespace Sys2Proof.Config

/-- TIME as read after `n` steps (R181: 1 GHz ticks; the manual gives no duration of a step). Free value. -/
opaque timeAt : Nat → Word
/-- CYCLE as read after `n` steps (R181). Free value. -/
opaque cycleAt : Nat → Word
/-- A fresh choice among unordered outcomes (R108, `vstxu`). Free value. -/
opaque freeChoice : Nat → Nat
/-- The address that an orientation fault reports through a descriptor with no element (R91, R310), by the step it is taken in.
Free value. -/
opaque openAddress : Nat → Word
/-- One byte of what firmware service 0x000 writes (R436 gives no layout): the device's identity certificate and the version, by version
and byte offset. Free value. -/
opaque versionByte : BitVec 32 → Nat → Byte
/-- One byte of what firmware service 0x001 writes (R436 gives no layout), by the isle's telemetry counters and byte offset. Free
value. -/
opaque telemetryByte : List Nat → Nat → Byte
/-- One byte of the part of a save image that the manual calls not architectural (R355). Free value. -/
opaque imageByte : Nat → Nat → Byte
/-- The timing measurements of a profile sample: CPE, TLBM and CONF (R418). Free value. -/
opaque profileTiming : Nat → Word
/-- The rollback floor that is fused into the device (R432). -/
opaque fusedFloor : BitVec 32
/-- The device's ECDSA P-384 public key, whose digest is fused (R432). -/
opaque ecdsaKey : Nat × Nat
/-- The device's LMS public key, whose digest is fused (R432): its identifier and its root. -/
opaque lmsKey : List Byte × List Byte

end Sys2Proof.Config
end

