-- ==== Sys2Proof/Machine/State.lean ====
section
/-! DEFINITION. The state of the package as plain data. `State.h` is the hart whose turn it is; every other resident hart
stands in `State.others`. INVENTORY.md lists each field with the rule that names it and its reset value. -/

namespace Sys2Proof.Machine

/-- Why the machine stops. -/
inductive Fault where
  /-- Raised by `step` when the device has no power and no power-on is due: loss of power ends all activity (R4). Safe. -/
  | poweredOff
  deriving DecidableEq, Repr

/-- Why a step has no meaning. -/
inductive Refusal where
  /-- Raised by an arm of `exec` whose instruction has no meaning yet; the argument is its mnemonic. Safe. -/
  | notModelled (mnemonic : String)
  deriving DecidableEq, Repr

/-- What a level of the loop table makes of a `loop` (R27, R30). -/
inductive LoopKind where
  | temporal | cores | isles
  deriving DecidableEq, Repr

/-- An active hardware loop frame (R30): the loop register, the address of the body and the address after it. -/
structure Frame where
  k     : BitVec 3
  start : Word
  stop  : Word
  deriving DecidableEq, Repr

/-- The scalar registers of a hart and what steers its scalar stream (R18, R30, R135, R140, R413). `frames` holds the active
loop frames, innermost first. -/
structure Scalar where
  g      : Vector Word 32
  pc     : Word
  ldn    : Reg
  lc     : Vector Word 6
  lx     : Vector Word 6
  frames : List Frame
  corr   : BitVec 32
  larg   : Word
  wpa    : Vector Word 8
  wpc    : Vector Word 8
  fflags : BitVec 5
  frm    : BitVec 3
  srseed : BitVec 16
  srstep : BitVec 16
  deriving DecidableEq, Repr

/-- User-level events (R38-R41): the shadow g24-g31, the registers, and the raised sources of each cause. -/
structure Events where
  shadow    : Vector Word 8
  vec       : Word
  epc       : Word
  info      : BitVec 32
  ldn       : Reg
  code      : BitVec 4
  inHandler : Bool
  mask      : BitVec 4
  engine    : List Nat
  apop      : List Nat
  checksum  : List Nat
  reach     : List Nat
  /-- Halted at `wait` for an event (R179). -/
  waiting   : Bool
  deriving DecidableEq, Repr

/-- Vector registers and configuration (R24, R25, R66, R183, R184, R189, R224, R231). -/
structure Vec where
  v      : Vector VReg 32
  m      : Vector VReg 8
  mf     : VReg
  d      : Vector (BitVec 512) 16
  vl     : BitVec 15
  vstart : BitVec 15
  vtype  : BitVec 14
  cpv0   : Word
  cpv1   : Word
  efr    : Word
  deriving DecidableEq, Repr

/-- An accumulator's tag (R242). -/
inductive AccTag where
  | fp64 | fp32 | int32
  deriving DecidableEq, Repr

/-- A loaded tile register (R238, R240). `elems` holds, row by row, the physical address that each window element was pinned
at; `none` where the descriptor is empty (R91). -/
structure Tile where
  desc   : BitVec 512
  origin : Word
  orient : Bool
  kind   : BitVec 2
  rows   : Nat
  cols   : Nat
  ctype  : Nat
  elems  : List (Option Nat)
  deriving DecidableEq, Repr

/-- One entry of an accumulator's log (R244-R246): the tiles, format, shape and VTYPE[12:8], and for `mmacx` the physical
address of the scale of each element of A and of B, pinned with the entry. -/
structure LogEntry where
  a      : Nat
  b      : Nat
  msk    : Option Nat
  fmt    : Nat
  tshape : BitVec 49
  b8     : BitVec 5
  scaleA : Option (List (Option Nat))
  scaleB : Option (List (Option Nat))
  deriving DecidableEq, Repr

/-- The checksum state of an accumulator (R247): expected column and row sums with their bounds. An index at or beyond a
list's length stands for zero. -/
structure Sums where
  col  : List Word
  row  : List Word
  colB : List Word
  rowB : List Word
  deriving DecidableEq, Repr

/-- An accumulator (R242). One 32 KiB array per core of the grant (R255). -/
structure Accum where
  tag    : Option AccTag
  elems  : Vector (BitVec 262144) 8
  sums   : Sums
  ckElem : Vector (BitVec 262144) 8
  ckSums : Sums
  log    : List LogEntry
  fix    : Option (Nat × Nat × Word)
  deriving DecidableEq, Repr

/-- How a context holds matrix units (R234, R235). -/
inductive UnitHold where
  | none | core | classroom
  deriving DecidableEq, Repr

/-- The matrix state of a context (R256). -/
structure Matrix where
  tiles  : Vector (Option Tile) 8
  acc    : Vector Accum 2
  tshape : BitVec 49
  mtol   : BitVec 24
  scb    : Vector Word 2
  scs    : Vector (BitVec 6) 2
  ncol   : BitVec 10
  nrow   : BitVec 8
  la     : Bool
  pf     : Vector Bool 2
  hold   : UnitHold
  deriving DecidableEq, Repr

/-- Supervisor registers (R337-R342, R349, R350, R353, R358, R368, R390). -/
structure Supervisor where
  sup      : Bool
  sldn     : Reg
  shrunk   : Bool
  pprv     : Bool
  pae      : Bool
  ae       : Bool
  scause   : BitVec 17
  sepc     : Word
  sval     : Word
  slane    : Word
  sscratch : Word
  stvec    : Word
  ptroot   : Word
  lid      : BitVec 32
  ctx      : BitVec 16
  part     : BitVec 3
  vdirty   : BitVec 43
  va       : Bool
  mxa      : Bool
  compat   : Bool
  fbase    : BitVec 44
  fmore    : Bool
  fcount   : BitVec 5
  lgMap    : BitVec 4
  deriving DecidableEq, Repr

/-- A hart's open sweep member (R268): the physical address of the set record, its virtual address, m and n. -/
structure OpenMember where
  recPa : Nat
  va  : Word
  m   : Nat
  n   : Nat
  deriving DecidableEq, Repr

/-- The popped entry of a stack binding (R298). -/
structure Popped where
  off     : Word
  count   : Nat
  sew     : Nat
  slot    : Nat
  arrived : Bool
  deriving DecidableEq, Repr

/-- A completion that an engine has posted (R278, R391): the position, its EV, and the binding that a bind record leaves. -/
structure Posted where
  pos  : Nat
  ev   : Bool
  bind : Option (Option Word)
  deriving DecidableEq, Repr

/-- A convoy that has begun and not ended (R23, R185, R196): its header's address, the progress it stands at, the g registers that
its complete slots have written with what the convoy reads in their place, which slots are complete, and the slot whose elements stand
in mf (R231). -/
structure Begun where
  pc   : Word
  ps   : List Nat
  olds : List (Reg × Word)
  fin  : List Bool
  mf   : Option Nat
  deriving DecidableEq, Repr

/-- What binds a suspended context to where it resumes, beyond its pins and parked entries (R391): the lane groups that its saved progress was
made with, and that its TSHAPE.C takes all eight matrix units. -/
structure Ties where
  needG : Option Nat
  whole : Bool
  deriving DecidableEq, Repr

/-- Control state that the context carries (R29, R30, R229, R268, R278, R295), with its launch's PRIO and LANES. `lastG` is the lane groups
it held at the end of its last `setvl` (R43); `ties` stands from a resumption until its saved vector and matrix state is back (R391). `posted` holds
the completions since the control state was last saved (R391); `touched` the addresses that the memory instruction under way has touched
(R418). -/
structure Control where
  isles   : Nat
  isleIx  : Nat
  harts   : Nat
  hartIx  : Nat
  kinds   : List (BitVec 3 × LoopKind)
  prio    : Nat
  lanes   : Nat
  lastG   : Nat
  ties    : Ties
  member  : Option OpenMember
  stack   : Option Word
  popped  : Option Popped
  pending : List Nat
  posted  : List Posted
  wm      : Vector Word 16
  armed   : List (Nat × Word)
  begun   : Option Begun
  touched : List Word
  deriving DecidableEq, Repr

/-- An asynchronous cause that stands pending at a hart (R344, R372, R401, R415). -/
structure AsyncCause where
  code : Nat
  sub  : Nat
  sval : Word
  /-- The absent pages of cause 34, with the engine's SRC and WR (R369). -/
  batch : List (Word × Nat × Nat × Bool)
  deriving DecidableEq, Repr

/-- What a request carries with it: CORR and the element (R417), and the tick at which its address was translated (R365). -/
structure Origin where
  corr : BitVec 32
  elem : Nat
  tick : Nat
  deriving DecidableEq, Repr

/-- A scalar store that has not left its hart's store buffer (R76, R111), with the address space and mode that it was made in. -/
structure BufStore where
  pa    : Nat
  bytes : List Byte
  sq    : BitVec 2
  va    : Word
  pc    : Word
  root  : Word
  sup   : Bool
  org   : Origin
  deriving DecidableEq, Repr

/-- A scalar load that has been issued and checked, and has yet to perform (R107, R160): its destination, how the bytes are extended, and
where it reads. -/
structure LateLoad where
  d      : Reg
  signed : Bool
  n      : Nat
  pa     : Nat
  va     : Word
  pc     : Word
  org    : Origin
  deriving DecidableEq, Repr

/-- A single or convoy of the vector queue (R306): its W instructions, when it was placed, what it takes from the state in force then
(R185), its progress, the table entries that its addresses were translated through (R336, R365), and the elements, by slot, that have
performed ahead of that progress (R108). -/
structure Queued where
  slots  : List (WOp × WFields)
  tick   : Nat
  sc     : Scalar
  vl     : BitVec 15
  vtype  : BitVec 14
  vstart : BitVec 15
  cpv0   : Word
  cpv1   : Word
  begun  : Option Begun
  tables : List (Nat × Word)
  ahead  : List (Nat × Nat)
  deriving DecidableEq, Repr

/-- A word under ECC (R399, R401): of a g register or of its shadow, of a descriptor, vector, mask or fault-mask register by word number, of
an accumulator or of its checkpoint. -/
inductive BadWord where
  | g (r : Nat)
  | shadow (r : Nat)
  | d (r k : Nat)
  | v (r k : Nat)
  | m (r k : Nat)
  | mf (k : Nat)
  | acc (a k : Nat)
  | check (a k : Nat)
  deriving DecidableEq, Repr

/-- The loop buffer of a hart (R11, R32): the address of the body it holds, and its bytes. -/
structure LoopBuf where
  start : Word
  bytes : List Byte
  deriving DecidableEq, Repr

/-- The debug block of a hart and the counters of profiling and injection (R408-R412, R418). `run` is the step that RESUME
armed: an instruction (false) or an element (true); `hreq` a halt that is due, with its reason. `stalled` is the model's own: the last turn left the instruction waiting. -/
structure Debug where
  hen      : Bool
  step     : Bool
  stepk    : Bool
  prof     : BitVec 2
  halted   : Bool
  reason   : BitVec 4
  dpc      : Word
  dsel     : Word
  run      : Option Bool
  hreq     : Option (BitVec 4)
  sample   : Nat
  mmacs    : Nat
  mirrored : Nat
  stalled  : Bool
  deriving DecidableEq, Repr

/-- A hart and the context it holds. -/
structure Hart where
  hid   : HartId
  /-- The hart holds a context (R385). -/
  live  : Bool
  sc    : Scalar
  ev    : Events
  vec   : Vec
  mx    : Matrix
  su    : Supervisor
  ct    : Control
  dbg   : Debug
  pend  : List AsyncCause
  /-- The target of a reclaim mark (R387). -/
  mark  : Option Nat
  /-- Scalar stores in the store buffer, oldest first. -/
  buf   : List BufStore
  /-- The vector queue, oldest first (R306). -/
  queue : List Queued
  /-- The table entries that the queued instruction now performing was translated through, and when; the model's own. -/
  held   : List (Nat × Word)
  heldAt : Option Nat
  /-- Scalar loads issued and yet to perform, oldest first (R107). -/
  loads  : List LateLoad
  /-- Rounds of the token that a `fence.sc` of the hart still waits for (R106). -/
  fence : Option Nat
  loop  : Option LoopBuf
  /-- Register words with one wrong bit, and those that cannot be corrected (R399, R401). -/
  weak  : List BadWord
  bad   : List BadWord
  deriving DecidableEq, Repr

/-- The context a hart holds. -/
def Hart.own (h : Hart) : CtxRef := ⟨h.su.part, h.su.ctx⟩

/-- A line copy in a scalar L1 (R76). -/
structure L1Line where
  core  : Nat
  line  : Nat
  bytes : List Byte
  deriving DecidableEq, Repr

/-- A line copy in a visitor slice (R93): the address of the line (of a column line, of its top element), the layout under which
it was filled, whether it is a column line, and its 64 bytes in line order. -/
structure VisitorLine where
  isle  : Nat
  line  : Nat
  sq    : BitVec 2
  col   : Bool
  bytes : List Byte
  deriving DecidableEq, Repr

/-- An invalidation on its way from a home to an isle (R94, R426): the bytes `base` to `base + size - 1`, and the context whose write it
follows, which reads those bytes only after it has been applied (R99, R107). -/
structure Inval where
  home : Nat
  isle : Nat
  base : Nat
  size : Nat
  own  : Option CtxRef
  deriving DecidableEq, Repr

/-- A pin on a line (R240): a tile register's, or the scale pin of a log entry of an accumulator (R246). -/
structure Pin where
  line : Nat
  own  : CtxRef
  tile : Option Nat
  acc  : Option Nat
  deriving DecidableEq, Repr

/-- What a home does with a request that writes (R96): a store of bytes, or a memory-side add in a format, with saturation, the
random bits of stochastic rounding if any, and the addend (R222); or a store of bytes that are written poisoned (R400). -/
inductive HomeOp where
  | store (bytes : List Byte)
  | add (fmt : Nat) (sat : Bool) (rb : Option Nat) (addend : Word)
  | spoil (bytes : List Byte)
  deriving DecidableEq, Repr

/-- Who made a request: a hart for its context with the pc of the access; an engine or rate unit of an isle, and of a classroom if it
belongs to one, for the hart that issued its command; the registrar of a partition; or the host. -/
inductive Source where
  | hart (hid : HartId) (own : CtxRef) (pc : Word) (sup : Bool)
  | engine (isle : Nat) (classroom : Option Nat) (hid : HartId) (own : CtxRef)
  | registrar
  | host
  deriving DecidableEq, Repr

/-- A write held in the pin queue (R121), in arrival order; `vec` for one of the vector stream. -/
structure PinWait where
  vec  : Bool
  pa   : Nat
  va   : Word
  sq   : BitVec 2
  src  : Source
  root : Word
  op   : HomeOp
  org  : Origin
  deriving DecidableEq, Repr

/-- An entry of a core's replay queue (R371), in parking order. `line` is the table line whose entry had V = 0; `weak` lists its words with
one wrong bit (R399). -/
structure Parked where
  hid      : HartId
  own      : CtxRef
  va       : Word
  data     : List Byte
  elem     : Nat
  root     : Word
  sup      : Bool
  pc       : Word
  col      : Bool
  level    : Nat
  line     : Nat
  reported : Bool
  corr     : BitVec 32
  weak     : List Nat
  deriving DecidableEq, Repr

/-- A matrix unit (R234): its holder, its last holder, and the contexts that wait for it in order. -/
structure MatrixUnit where
  core    : Nat
  holder  : Option CtxRef
  last    : Option CtxRef
  waiters : List CtxRef
  deriving DecidableEq, Repr

/-- A member open in a sweep (R268, R269): measured elements and the greatest change so far (fp64). -/
structure Visit where
  own      : CtxRef
  m        : Nat
  n        : Nat
  measured : List Nat
  delta    : Word
  deriving DecidableEq, Repr

/-- An active rated set (R267): its record's physical address and the layout of its page, its address space (the PTROOT that activated it), the four
planes' BASE and STRIDE, MSZ and COUNT, the members committed in the open sweep, and the open members. `pages` gives the frame and the
leaf entry of each 64 KiB page of its planes and its rate table, as `swbegin` translated them (R266, R364). -/
structure RatedSet where
  recPa     : Nat
  recSq     : BitVec 2
  part      : BitVec 3
  root      : Word
  base      : Vector Word 4
  stride    : Vector Nat 4
  msz       : Nat
  count     : Nat
  rtab      : Word
  pages     : List (Nat × Nat × Word)
  committed : List Nat
  visits    : List Visit
  deriving DecidableEq, Repr

/-- Which engine holds a command (R278, R280). -/
inductive Engine where
  | copy (classroom : Nat)
  | collective (isle : Nat)
  | spill (isle : Nat)
  deriving DecidableEq, Repr

/-- How a command ends (R281): its status, address and rank, and the binding that a bind record leaves. -/
structure Ending where
  status : Nat
  addr   : Word
  rank   : Nat
  bind   : Option (Option Word)
  deriving DecidableEq, Repr

/-- A command an engine has accepted (R278-R289). `prog` counts completed steps; `held` is the residency fault it waits on. Of a copy,
or of the current step of a collective, `taken` holds the elements that have been read and wait to be written or sent, with their poison,
`copied` lists those written, and `spoilt` is the first poisoned source by element and address (R285, R286, R400). `token`: the token of
the current step has been sent (R289). `ending`: all is done but the completion record (R282). `weak` lists its words with one wrong bit
(R399). -/
structure Command where
  own    : CtxRef
  pos    : Nat
  engine : Engine
  hid    : HartId
  record : BitVec 512
  root   : Word
  sup    : Bool
  corr   : BitVec 32
  prog   : Nat
  sched  : List (Word × Word)
  ranks  : Nat
  myRank : Nat
  held   : Option Word
  taken  : List (Nat × Nat × Bool)
  copied : List Nat
  spoilt : Option (Nat × Word)
  token  : Bool
  ending : Option Ending
  weak   : List Nat
  deriving DecidableEq, Repr

/-- A receive window (R289, R425): the command that reserved it, its number, its length in elements, and what has arrived: the
sender's LEN and the bytes. -/
structure Window where
  own  : CtxRef
  pos  : Nat
  isle : Nat
  win  : Nat
  peer : Nat
  len  : Nat
  size : Nat
  full : Option (Nat × List Byte)
  deriving DecidableEq, Repr

/-- A message given to a causeway link (R291, R424): the port, the collective, the peer's rank and window, the sender's LEN and
the bytes; or an abort with the rank it names. -/
structure Sent where
  port   : Nat
  collid : BitVec 32
  peer   : Nat
  win    : Nat
  len    : Nat
  bytes  : List Byte
  abort  : Option Nat
  deriving DecidableEq, Repr

/-- What a causeway port has brought from a peer: that it has reserved a window, or a token (R289, R320). -/
structure PeerWord where
  port   : Nat
  collid : BitVec 32
  peer   : Nat
  win    : Nat
  deriving DecidableEq, Repr

/-- A stack entry that the spill engine has written back to the pool (R301). -/
structure Spilled where
  own  : CtxRef
  slot : Nat
  deriving DecidableEq, Repr

/-- A partition block (R428), with the causeway ports that firmware assigns to the partition. -/
structure PartBlock where
  size  : BitVec 2
  base  : BitVec 3
  lroot : Word
  win   : Vector (BitVec 16 × BitVec 16) 4
  ports : BitVec 18
  deriving DecidableEq, Repr

/-- An accepted launch (R377-R383), in acceptance order. `harts` counts the placed harts that have not ended; `fin` once its
completion has been published. `producer` and `named` give the launches of R381 and R382 by their place in the list; a complete launch
stays listed. -/
structure Launch where
  part      : BitVec 3
  lid       : BitVec 32
  record    : BitVec 512
  root      : Word
  kinds     : List (BitVec 3 × LoopKind)
  isleCnt   : Option Nat
  coreCnt   : Option Nat
  cells     : List (Nat × Word × Nat)
  depCell   : Option Nat
  producer  : Option Nat
  named     : Option Nat
  placed    : Bool
  cancelled : Bool
  fin       : Bool
  harts     : Nat
  deriving DecidableEq, Repr

/-- A suspended context (R389, R391): what binds it to a grant, a classroom, eight free matrix units, or a hart slot; its control
state with the completions posted while it is out; the causes pending at it; and its counts of R408. -/
structure Suspended where
  own     : CtxRef
  lid     : BitVec 32
  prio    : Nat
  lanes   : Nat
  pc      : Word
  scratch : Word
  needG   : Option Nat
  pinned  : Option Nat
  whole   : Bool
  parked  : Option HartId
  root    : Word
  ct      : Control
  pend    : List AsyncCause
  mmacs    : Nat
  mirrored : Nat
  deriving DecidableEq, Repr

/-- What the registrar reserves for an entry (R387): the launch it belongs to, the context if it is a suspended one, the hart that it frees
or shrinks, and the lane groups that this gives. -/
structure Reserve where
  part   : BitVec 3
  lid    : BitVec 32
  ctx    : Option (BitVec 16)
  hid    : HartId
  groups : BitVec 4
  deriving DecidableEq, Repr

/-- An armed injection record (R407). -/
structure Injection where
  part   : BitVec 3
  n      : BitVec 4
  record : BitVec 256
  deriving DecidableEq, Repr

/-- A trace stream (R416, R419): control block, tick of its last record, the records dropped so far, and TRD as the last of them was
dropped. -/
structure Trace where
  base    : Word
  size    : Word
  twr     : Word
  trd     : Word
  last    : Option Word
  dropped : Nat
  full    : Word
  deriving DecidableEq, Repr

/-- The clock of an isle (R434, R435): FWR as stored, the hardware ratio in 1/256 steps, whether a limit holds it down, and firmware's own
power limit in watts. -/
structure Clock where
  fwr   : BitVec 8
  hw    : Nat
  hold  : Bool
  watts : Nat
  deriving DecidableEq, Repr

/-- A causeway port or straits link (R424, R426). -/
structure LinkState where
  locked  : Bool
  replays : Nat
  lost    : Bool
  deriving DecidableEq, Repr

/-- The boot block and what boot leaves (R431, R432). `floor` is the rollback floor once it has been raised. -/
structure Boot where
  go       : Bool
  running  : Bool
  isle     : BitVec 3
  reason   : BitVec 4
  imgAddr  : Word
  imgLen   : Word
  verified : Bool
  version  : BitVec 32
  floor    : Option (BitVec 32)
  deriving DecidableEq, Repr

/-- The telemetry counters of an isle (R80, R379, R380, R397, R399, R436). -/
structure Telemetry where
  reportDrops : Nat
  portDrops   : Nat
  mirrorRetry : Nat
  corrected   : Nat
  shoalOver   : Nat
  deriving DecidableEq, Repr

/-- What a save image of kind 2 or 3 holds (R355). A matrix image keeps the core that its accumulators' parts stood on. -/
inductive Image where
  | matrix (core : Nat) (mx : Matrix)
  | control (ct : Control) (ev : Events) (sc : Scalar)
  deriving DecidableEq, Repr

/-- A host snoop's answer (R400, R420): the line, its bytes, and whether a word of it is poisoned. -/
structure SnoopAnswer where
  line   : Nat
  bytes  : List Byte
  poison : Bool
  deriving DecidableEq, Repr

/-- A line of a page with SH = 1 that the shoal of an isle holds (R80): the mappings by which it was touched (partition, PTROOT, address),
and whether it is resident, or over the reserve and so an ordinary line. -/
structure ShoalLine where
  isle : Nat
  line : Nat
  maps : List (BitVec 3 × Word × Word)
  kept : Bool
  deriving DecidableEq, Repr

/-- A table write that is not performed at device scope while an access translated through the old entry has yet to perform (R365): who
wrote, whether an engine did so for it, whose access it is, and when it was translated. -/
structure Remap where
  writer : CtxRef
  engine : Bool
  who    : CtxRef
  tick   : Nat
  deriving DecidableEq, Repr

/-- The memory system beyond the homes' bytes. `poison` and `weak` list words by address / 8: those that cannot be corrected, and those
with one wrong bit (R399). `code` holds the lines of the L1 instruction caches (R11). -/
structure Caches where
  poison   : List Nat
  weak     : List Nat
  code     : List L1Line
  shoal    : List ShoalLine
  remaps   : List Remap
  l1       : List L1Line
  visitor  : List VisitorLine
  chan     : List Inval
  pins     : List Pin
  pinQueue : List PinWait
  parked   : List Parked
  snoops   : List SnoopAnswer
  deriving DecidableEq, Repr

/-- Units that act on their own: matrix units, rate units, engines. -/
structure Units where
  matrix  : List MatrixUnit
  sets    : List RatedSet
  cmds    : List Command
  windows : List Window
  sent    : List Sent
  ready   : List PeerWord
  tokens  : List PeerWord
  binds   : List (CtxRef × Nat)
  spilled : List Spilled
  images  : List Image
  deriving DecidableEq, Repr

/-- A ready entry that the registrar could not place, and must place before anything else of its priority or below (R384): its launch, and
the context of a suspended one. -/
structure Stuck where
  part : BitVec 3
  lid  : BitVec 32
  ctx  : Option (BitVec 16)
  deriving DecidableEq, Repr

/-- The registrars of the eight partitions. -/
structure Registrar where
  parts     : Vector PartBlock 8
  launches  : List Launch
  suspended : List Suspended
  reserve   : List Reserve
  stuck     : List Stuck
  nextLid   : Vector (BitVec 32) 8
  nextCtx   : Vector (BitVec 16) 8
  deriving DecidableEq, Repr

/-- Firmware, links, trace and the rest of the package. -/
structure Device where
  power   : Bool
  boot    : Boot
  extents : List (Nat × Nat)
  hdrop   : Vector Word 8
  hmig    : Word
  moved   : List Nat
  clock   : Vector Clock 8
  scrubp  : Vector (BitVec 32) 8
  tstate  : BitVec 8
  ipmap   : Vector Word 8
  inject  : List Injection
  trace   : Vector Trace 8
  port    : Vector LinkState 18
  straits : List ((BitVec 3 × BitVec 3) × LinkState)
  token   : Vector (BitVec 3) 8
  tele    : Vector Telemetry 8
  /-- Lines that each shoal keeps for pages with SH = 1 (R80). -/
  reserve : Vector Nat 8
  /-- The tick of the last device reset (R140). -/
  since   : Nat
  /-- STVEC as firmware loads it into every hart of an isle (R431). -/
  stvecFw : Vector Word 8
  deriving DecidableEq, Repr

/-- What comes from outside a hart's stream and is no step of the opcode table. -/
inductive Outside where
  /-- The host writes its memory at a host physical address (R420). -/
  | hostWrite (addr : BitVec 48) (bytes : List Byte)
  /-- A pool port returns a line with CXL poison (R399, R422). -/
  | cxlPoison (line : BitVec 52)
  /-- Dynamic capacity is added to the pool (R422). -/
  | extentAdd (base size : Nat)
  /-- A tutor fails at step 3 or 4 of the boot, on its isle (R431). -/
  | tutorFailure (isle : BitVec 3) (reason : BitVec 4)
  /-- Firmware changes the block of a partition that holds no accepted launch (R428). -/
  | partitionChange (part : BitVec 3) (load : Option PartLoad)
  /-- Firmware sets its power limit on an isle, or the shoal's reserve (R434, R80). -/
  | powerLimit (isle : BitVec 3) (watts : Nat)
  | shoalReserve (isle : BitVec 3) (lines : Nat)
  /-- A shoal evicts a line that it need not keep (R80). -/
  | shoalEvict (isle : BitVec 3) (line : BitVec 52)
  /-- A flit that was resent is acknowledged (R424). -/
  | flitAcknowledged (link : Link)
  /-- One bit of a word goes wrong: of memory, or of a register (R399). -/
  | memoryError (addr : BitVec 52)
  | registerError (hid : HartId) (w : BadWord)
  /-- One bit of a word of a replay-queue entry, or of a command in an engine queue, goes wrong (R399, R401). -/
  | replayError (n k : Nat)
  | commandError (n k : Nat)
  /-- The registrar's state of a partition cannot be corrected (R401). -/
  | registrarError (part : BitVec 3)
  /-- An L1 instruction cache receives the line of an address of a hart, or the hart's loop buffer its innermost body (R11, R32). -/
  | codeFill (hid : HartId) (va : Word)
  | loopFill (hid : HartId)
  /-- A causeway port brings a peer's token, or word that the peer has reserved a window (R289, R424). -/
  | peerToken (w : PeerWord)
  | peerReady (w : PeerWord)
  deriving DecidableEq, Repr

/-- Who moves next, as given from outside. -/
inductive Turn where
  /-- A hart's turn: the instruction at its pc runs. -/
  | run (hid : HartId)
  /-- A hart's turn in which a W instruction or convoy is placed in the vector queue (R306). -/
  | ahead (hid : HartId)
  /-- A hart's turn in which a scalar load is issued and performs later (R107, R160). -/
  | late (hid : HartId)
  /-- A load that has been issued performs. -/
  | load (hid : HartId) (k : Nat)
  /-- A store leaves its hart's buffer ahead of older ones, to other addresses (R107). -/
  | store (hid : HartId) (k : Nat)
  /-- An entry of a hart's vector queue goes on, up to given progress of its slots (all of it where none is given). -/
  | vector (hid : HartId) (k : Nat) (progress : List Nat)
  /-- An element of a slot of an entry performs ahead of those before it (R108). -/
  | element (hid : HartId) (k slot e : Nat)
  /-- One of the steps that no word encodes. -/
  | event (i : Instr)
  | outside (o : Outside)
  deriving DecidableEq, Repr

/-- Physical memory at the homes: (address, byte) pairs, addresses rising, no byte 0 listed. -/
abbrev Memory := List Host.Cell

/-- The package. A hart that stands in neither `h` nor `others` holds no context. `agenda`, `tick` and `free` are the model's own: the turns to come, the steps counted, and the counter of free
choices. -/
structure State where
  h      : Hart
  others : List Hart
  mem    : Memory
  ca     : Caches
  un     : Units
  rg     : Registrar
  dev    : Device
  agenda : List Turn
  tick   : Nat
  free   : Nat
  deriving DecidableEq, Repr

/-- Accumulator at reset and when a unit passes to another context (R234). -/
def Accum.zero : Accum :=
  { tag := none, elems := Vector.replicate 8 0, sums := ⟨[], [], [], []⟩, ckElem := Vector.replicate 8 0,
    ckSums := ⟨[], [], [], []⟩, log := [], fix := none }

/-- Matrix state of a context that holds nothing (R33). -/
def Matrix.zero : Matrix :=
  { tiles := Vector.replicate 8 none, acc := Vector.replicate 2 Accum.zero, tshape := 0, mtol := 0,
    scb := Vector.replicate 2 0, scs := Vector.replicate 2 0, ncol := 0, nrow := 0, la := false,
    pf := Vector.replicate 2 false, hold := .none }

/-- The scalar registers of R33 with everything zero. -/
def Scalar.zero : Scalar :=
  { g := Vector.replicate 32 0, pc := 0, ldn := 0, lc := Vector.replicate 6 0, lx := Vector.replicate 6 0, frames := [],
    corr := 0, larg := 0, wpa := Vector.replicate 8 0, wpc := Vector.replicate 8 0, fflags := 0, frm := 0, srseed := 0,
    srstep := 0 }

/-- User-level event state of R33. -/
def Events.zero : Events :=
  { shadow := Vector.replicate 8 0, vec := 0, epc := 0, info := 0, ldn := 0, code := 0, inHandler := false, mask := 0,
    engine := [], apop := [], checksum := [], reach := [], waiting := false }

/-- Vector state of R33. -/
def Vec.zero : Vec :=
  { v := Vector.replicate 32 0, m := Vector.replicate 8 0, mf := 0, d := Vector.replicate 16 0, vl := 0, vstart := 0,
    vtype := 0, cpv0 := 0, cpv1 := 0, efr := 0 }

/-- Supervisor registers with every field zero, in user mode. -/
def Supervisor.zero : Supervisor :=
  { sup := false, sldn := 0, shrunk := false, pprv := false, pae := false, ae := false, scause := 0, sepc := 0, sval := 0,
    slane := 0, sscratch := 0, stvec := 0, ptroot := 0, lid := 0, ctx := 0, part := 0, vdirty := 0, va := false, mxa := false,
    compat := false, fbase := 0, fmore := false, fcount := 0, lgMap := 0 }

/-- Control state of a context with nothing bound. -/
def Control.zero : Control :=
  { isles := 0, isleIx := 0, harts := 0, hartIx := 0, kinds := [], prio := 0, lanes := 0, lastG := 0, ties := ⟨none, false⟩, member := none, stack := none,
    popped := none, pending := [], posted := [], wm := Vector.replicate 16 0, armed := [], begun := none, touched := [] }

/-- Debug block at reset (R409). -/
def Debug.zero : Debug :=
  { hen := false, step := false, stepk := false, prof := 0, halted := false, reason := 0, dpc := 0, dsel := 0, run := none,
    hreq := none, sample := 0, mmacs := 0, mirrored := 0, stalled := false }

/-- A hart that holds no context. -/
def Hart.idle (hid : HartId) : Hart :=
  { hid := hid, live := false, sc := Scalar.zero, ev := Events.zero, vec := Vec.zero, mx := Matrix.zero,
    su := Supervisor.zero, ct := Control.zero, dbg := Debug.zero, pend := [], mark := none, buf := [], queue := [], held := [],
    heldAt := none, loads := [], fence := none, loop := none, weak := [], bad := [] }

/-- A partition block that names no isles: BASE is no multiple of 2^SIZE (R428). Which such values firmware leaves at reset the spec does not
say (DESIGN CHOICE, log 110). -/
def PartBlock.unused : PartBlock :=
  { size := 3, base := 1, lroot := 0, win := Vector.replicate 4 (0, 0), ports := 0 }

/-- Registrars at reset. -/
def Registrar.zero : Registrar :=
  { parts := Vector.replicate 8 PartBlock.unused, launches := [], suspended := [], reserve := [], stuck := [],
    nextLid := Vector.replicate 8 1, nextCtx := Vector.replicate 8 0 }

/-- The rest of the package right after reset. -/
def Device.zero : Device :=
  { power := true,
    boot := { go := false, running := false, isle := 0, reason := 0, imgAddr := 0, imgLen := 0, verified := false, version := 0,
              floor := none },
    extents := [], hdrop := Vector.replicate 8 0, hmig := 0, moved := [],
    clock := Vector.replicate 8 { fwr := 0, hw := 256, hold := false, watts := 3600 }, scrubp := Vector.replicate 8 1,
    tstate := 0,
    ipmap := Vector.replicate 8 0, inject := [],
    trace := Vector.replicate 8 { base := 0, size := 0, twr := 0, trd := 0, last := none, dropped := 0, full := 0 },
    port := Vector.replicate 18 { locked := true, replays := 0, lost := false }, straits := [],
    token := Vector.replicate 8 0, tele := Vector.replicate 8 ⟨0, 0, 0, 0, 0⟩, reserve := Vector.replicate 8 0, since := 0,
    stvecFw := Vector.replicate 8 0 }

/-- Caches, pins and queues, all empty. -/
def Caches.zero : Caches := ⟨[], [], [], [], [], [], [], [], [], [], [], []⟩

/-- Units with nothing to do. -/
def Units.zero : Units := ⟨[], [], [], [], [], [], [], [], [], []⟩

/-- The machine right after reset (R4, R431): no hart has left reset, nothing is booted, memory lists nothing. -/
def State.reset : State :=
  { h := Hart.idle 0, others := [], mem := [], ca := Caches.zero, un := Units.zero, rg := Registrar.zero, dev := Device.zero,
    agenda := [], tick := 0, free := 0 }

end Sys2Proof.Machine
end

