-- ==== Sys2Proof/Machine/Memory.lean ====
section
/-! DEFINITION. Bytes at the homes: reading and writing physical memory in its one canonical form. An unlisted address reads
as 0. Wider accesses are little-endian runs of bytes (R1). -/

namespace Sys2Proof.Machine

/-- The canonical form: addresses strictly rising, no byte equal to what an unlisted address reads as. -/
abbrev Memory.wf (m : Memory) : Prop := m.Pairwise (fun p q => p.1 < q.1) ∧ ∀ p ∈ m, p.2 ≠ 0

/-- The byte at an address; 0 where nothing is listed. -/
def Memory.get : Memory → Nat → Byte
  | [], _ => 0
  | (x, b) :: r, a => if x = a then b else Memory.get r a

/-- Memory with one byte written. -/
def Memory.set : Memory → Nat → Byte → Memory
  | [], a, b => if b = 0 then [] else [(a, b)]
  | (x, c) :: r, a, b =>
    if a < x then (if b = 0 then (x, c) :: r else (a, b) :: (x, c) :: r)
    else if a = x then (if b = 0 then r else (a, b) :: r)
    else (x, c) :: Memory.set r a b

/-- `n` bytes from an address upward. -/
def Memory.bytes (m : Memory) (a : Nat) : Nat → List Byte
  | 0 => []
  | n + 1 => m.get a :: m.bytes (a + 1) n

/-- Memory with a run of bytes written from an address upward. -/
def Memory.put (m : Memory) (a : Nat) : List Byte → Memory
  | [] => m
  | b :: bs => (m.set a b).put (a + 1) bs

/-- The little-endian number in `n` bytes. -/
def Memory.num (m : Memory) (a n : Nat) : Nat := leNat (m.bytes a n)

/-- The quad at an address. -/
def Memory.quad (m : Memory) (a : Nat) : Word := BitVec.ofNat 64 (m.num a 8)

/-- Memory with the `n` low bytes of a number written. -/
def Memory.putNum (m : Memory) (a n v : Nat) : Memory := m.put a (leBytes n v)

/-- A field of a word: `len` bits from bit `lo`, as a number. -/
def fieldOf (w : Word) (lo len : Nat) : Nat := w.toNat / 2 ^ lo % 2 ^ len

/-- A field of a number. -/
def natField (w lo len : Nat) : Nat := w / 2 ^ lo % 2 ^ len

/-- The signed value of the low `n` bits of a number. -/
def toSigned (n w : Nat) : Int :=
  let v := w % 2 ^ n
  if 2 ^ (n - 1) ≤ v then (v : Int) - (2 ^ n : Nat) else v

/-- A number truncated to `n` bits. -/
def truncInt (n : Nat) (x : Int) : Nat := (x % (2 ^ n : Nat)).toNat

/-- A quad of a 64-byte record. -/
def quadOf (r : BitVec 512) (q : Nat) : Word := r.extractLsb' (64 * q) 64

/-- A 64-byte record of its bytes. -/
def recordOf (bs : List Byte) : BitVec 512 := BitVec.ofNat 512 (leNat bs)

end Sys2Proof.Machine
end

