-- ==== Sys2Proof/Machine/Float.lean ====
section
/-! DEFINITION. Number formats and rounding (chapter 04). A code is a number of the format's width. Arithmetic is exact over
m x 2^e, and one function rounds. Flags are numbers with the bits of FFLAGS: NV 16, DZ 8, OF 4, UF 2, NX 1 (R67). -/

namespace Sys2Proof.Machine

/-- A floating format (R48, R50): width, trailing bits, bias, whether it has a sign bit, whether it is one of the IEEE-shaped
formats, and whether it has infinities. -/
structure Fmt where
  width  : Nat
  tb     : Nat
  bias   : Nat
  signed : Bool
  ieee   : Bool
  inf    : Bool
  deriving DecidableEq, Repr

/-- binary64 (R48). -/
def Fmt.f64 : Fmt := ⟨64, 52, 1023, true, true, true⟩
/-- binary32 (R48). -/
def Fmt.f32 : Fmt := ⟨32, 23, 127, true, true, true⟩
/-- bfloat16 (R48). -/
def Fmt.bf16 : Fmt := ⟨16, 7, 127, true, true, true⟩
/-- binary16 (R48). -/
def Fmt.f16 : Fmt := ⟨16, 10, 15, true, true, true⟩
/-- binary8 with the parameters of VTYPE[12:8]: P in [2:0], unsigned [3], infinities [4] (R47, R50). -/
def Fmt.b8 (par : Nat) : Fmt :=
  let p := par % 8
  let u := par / 8 % 2 == 1
  ⟨8, p - 1, 2 ^ ((if u then 8 else 7) - p), !u, false, par / 16 % 2 == 1⟩

/-- The floating format of a code of R46, 0 to 4. -/
def fmtOf (code par : Nat) : Fmt :=
  match code with
  | 0 => .f64
  | 1 => .f32
  | 2 => .bf16
  | 3 => .f16
  | _ => .b8 par

/-- The width of a format code of R46; 0 for a reserved code. -/
def codeWidth (code : Nat) : Nat :=
  match code with
  | 0 => 64 | 1 => 32 | 2 => 16 | 3 => 16 | 4 => 8
  | 5 => 8 | 6 => 16 | 7 => 32 | 8 => 64
  | 9 => 8 | 10 => 16 | 11 => 32 | 12 => 64
  | _ => 0

/-- The magnitude code of the largest finite value (R48, R50). -/
def Fmt.top (f : Fmt) : Nat :=
  if f.ieee then (2 ^ (f.width - 1 - f.tb) - 1) * 2 ^ f.tb - 1
  else if f.signed then (if f.inf then 0x7E else 0x7F)
  else if f.inf then 0xFD else 0xFE

/-- The weight of the sign bit in a code. -/
def Fmt.signBit (f : Fmt) : Nat := if f.signed then 2 ^ (f.width - 1) else 0

/-- The canonical NaN (R48, R50). -/
def Fmt.nan (f : Fmt) : Nat :=
  if f.ieee then f.top + 1 + 2 ^ (f.tb - 1) else if f.signed then 0x80 else 0xFF

/-- A value: NaN (signalling or not), an infinity, or m x 2^e with a sign. -/
inductive FVal where
  | nan (sig : Bool)
  | inf (neg : Bool)
  | fin (neg : Bool) (m : Nat) (e : Int)
  deriving DecidableEq, Repr

/-- Decode a code (R48-R50). -/
def Fmt.value (f : Fmt) (code : Nat) : FVal :=
  let c := code % 2 ^ f.width
  let neg := f.signed && 2 ^ (f.width - 1) ≤ c
  let mag := if f.signed then c % 2 ^ (f.width - 1) else c
  if f.ieee ∧ f.top + 1 < mag then .nan (mag < f.nan)
  else if ¬ f.ieee ∧ c = f.nan then .nan false
  else if f.inf ∧ mag = f.top + 1 then .inf neg
  else
    let ef := mag / 2 ^ f.tb
    let t := mag % 2 ^ f.tb
    if ef = 0 then .fin neg t (1 - f.bias - f.tb)
    else .fin neg (t + 2 ^ f.tb) (ef - f.bias - f.tb)

/-- A NaN operand. -/
def FVal.isNan : FVal → Bool
  | .nan _ => true
  | _ => false
/-- A signalling NaN operand. -/
def FVal.isSig : FVal → Bool
  | .nan b => b
  | _ => false
/-- A zero operand. -/
def FVal.isZero : FVal → Bool
  | .fin _ m _ => m == 0
  | _ => false
/-- An infinite operand. -/
def FVal.isInf : FVal → Bool
  | .inf _ => true
  | _ => false
/-- The sign of an operand. -/
def FVal.sign : FVal → Bool
  | .nan _ => false
  | .inf n => n
  | .fin n _ _ => n
/-- The operand with its sign inverted. -/
def FVal.neg : FVal → FVal
  | .nan b => .nan b
  | .inf n => .inf !n
  | .fin n m e => .fin (!n) m e

/-- A code and flags. -/
abbrev FRes := Nat × Nat

/-- The canonical NaN, with NV when an operand signals (R49). -/
def nanRes (f : Fmt) (sig : Bool) : FRes := (f.nan, if sig then 16 else 0)
/-- The canonical NaN of an invalid operation. -/
def invalid (f : Fmt) : FRes := (f.nan, 16)
/-- A zero: signed binary8 has one zero only, and an unsigned format no sign (R50, R54). -/
def Fmt.zero (f : Fmt) (neg : Bool) : Nat := if neg && f.ieee then f.signBit else 0
/-- The largest finite value of a sign. -/
def Fmt.maxVal (f : Fmt) (neg : Bool) : Nat := f.top + (if neg then f.signBit else 0)
/-- An infinity, in a format that has them. -/
def Fmt.infinity (f : Fmt) (neg : Bool) : Nat := f.top + 1 + (if neg then f.signBit else 0)

/-- How a value is rounded: one of the four modes of R58 (0 to 3), or stochastically with 16 random bits (R60). -/
inductive Mode where
  | static (rm : Nat)
  | random (rb : Nat)
  deriving DecidableEq, Repr

/-- Whether a magnitude rounds up: the remainder `d` of `2^k`, the sign, and whether the truncated code is odd (R59, R60). -/
def roundsUp (mode : Mode) (neg odd : Bool) (d k : Nat) : Bool :=
  if d = 0 then false
  else match mode with
    | .static 0 => 2 ^ k < 2 * d || (2 * d == 2 ^ k && odd)
    | .static 2 => neg
    | .static 3 => !neg
    | .static _ => false
    | .random rb => 2 ^ 16 ≤ d * 2 ^ 16 / 2 ^ k + rb % 2 ^ 16

/-- The number of bits of a number. -/
def bitLen (m : Nat) : Nat := if m = 0 then 0 else Nat.log2 m + 1

/-- m x 2^e as a multiple of 2^q: the truncated multiple, and the remainder over a power of two (R60's m_lo and f). -/
def splitAt (m : Nat) (e q : Int) : Nat × Nat × Nat :=
  if q ≤ e then (m * 2 ^ (e - q).toNat, 0, 0)
  else (m / 2 ^ (q - e).toNat, m % 2 ^ (q - e).toNat, (q - e).toNat)

/-- Deliver an infinity (R53, R55). -/
def Fmt.deliverInf (f : Fmt) (neg sat : Bool) : FRes :=
  if neg && !f.signed then (if sat then 0 else f.nan, 16)
  else if f.inf then (f.infinity neg, 0)
  else if sat then (f.maxVal neg, 0)
  else (f.nan, 16)

/-- Round a non-zero magnitude m x 2^e with a sign into a format, with `sticky` set when the exact value lies above m by less
than 1 (R53-R55, R60). -/
def Fmt.round (f : Fmt) (mode : Mode) (sat neg : Bool) (m0 : Nat) (e0 : Int) (sticky : Bool) : FRes :=
  let m := if sticky then 4 * m0 + 1 else m0
  let e := if sticky then e0 - 2 else e0
  let emin : Int := 1 - f.bias
  let lead : Int := (bitLen m : Int) - 1 + e
  let base := (max lead emin - emin).toNat * 2 ^ f.tb
  let (n, d, k) := splitAt m e (max lead emin - f.tb)
  let up := roundsUp mode neg ((base + n) % 2 == 1) d k
  let c := base + n + (if up then 1 else 0)
  if neg && !f.signed then
    if c = 0 then (0, 3) else (if sat then 0 else f.nan, 16)
  else if f.top < c then
    let away := match mode with
      | .static 0 => true
      | .static 2 => neg
      | .static 3 => !neg
      | _ => false
    if f.inf && !sat then (if away then f.infinity neg else f.maxVal neg, 5)
    else if sat then (f.maxVal neg, 5)
    else (f.nan, 5)
  else
    let tiny := decide (lead < emin) &&
      (let (n1, d1, k1) := splitAt m e (lead - f.tb)
       let up1 := roundsUp mode neg (n1 % 2 == 1) d1 k1
       !(decide (lead = emin - 1) && up1 && n1 + 1 == 2 ^ (f.tb + 1)))
    let code := if c = 0 then f.zero neg else c + (if neg then f.signBit else 0)
    (code, if d = 0 then 0 else if tiny then 3 else 1)

/-- Round any exact finite value (R53-R55). -/
def Fmt.pack (f : Fmt) (mode : Mode) (sat neg : Bool) (m : Nat) (e : Int) (sticky : Bool := false) : FRes :=
  if m = 0 ∧ ¬ sticky then (f.zero neg, 0) else f.round mode sat neg m e sticky

/-- An exact dyadic number v x 2^e. -/
structure Dy where
  v : Int
  e : Int
  deriving DecidableEq, Repr

/-- The signed value of a finite operand. -/
def dyOf (neg : Bool) (m : Nat) (e : Int) : Dy := ⟨if neg then -(m : Int) else m, e⟩
/-- The exact sum. -/
def Dy.add (a b : Dy) : Dy :=
  let e := min a.e b.e
  ⟨a.v * 2 ^ (a.e - e).toNat + b.v * 2 ^ (b.e - e).toNat, e⟩

/-- Round an exact sum; `zneg` is the sign of an exact zero. -/
def Fmt.packDy (f : Fmt) (mode : Mode) (sat : Bool) (x : Dy) (zneg : Bool) : FRes :=
  if x.v = 0 then (f.zero zneg, 0) else f.round mode sat (decide (x.v < 0)) x.v.natAbs x.e false

/-- The sum of two finite operands, with the zero rules of R175. -/
def Fmt.sumFin (f : Fmt) (mode : Mode) (sat : Bool) (n1 : Bool) (m1 : Nat) (e1 : Int) (n2 : Bool) (m2 : Nat) (e2 : Int) :
    FRes :=
  let down := mode == .static 2
  let zneg := if m1 = 0 ∧ m2 = 0 ∧ n1 = n2 then n1 else down
  f.packDy mode sat ((dyOf n1 m1 e1).add (dyOf n2 m2 e2)) zneg

/-- a + b (R170). -/
def Fmt.addV (f : Fmt) (mode : Mode) (sat : Bool) (a b : FVal) : FRes :=
  match a, b with
  | .nan x, b => nanRes f (x || b.isSig)
  | a, .nan y => nanRes f (y || a.isSig)
  | .inf x, .inf y => if x = y then f.deliverInf x sat else invalid f
  | .inf x, .fin _ _ _ => f.deliverInf x sat
  | .fin _ _ _, .inf y => f.deliverInf y sat
  | .fin n1 m1 e1, .fin n2 m2 e2 => f.sumFin mode sat n1 m1 e1 n2 m2 e2

/-- a x b (R170). -/
def Fmt.mulV (f : Fmt) (mode : Mode) (sat : Bool) (a b : FVal) : FRes :=
  match a, b with
  | .nan x, b => nanRes f (x || b.isSig)
  | a, .nan y => nanRes f (y || a.isSig)
  | .inf x, b => if b.isZero then invalid f else f.deliverInf (x != b.sign) sat
  | a, .inf y => if a.isZero then invalid f else f.deliverInf (a.sign != y) sat
  | .fin n1 m1 e1, .fin n2 m2 e2 => f.pack mode sat (n1 != n2) (m1 * m2) (e1 + e2)

/-- a / b (R170). -/
def Fmt.divV (f : Fmt) (mode : Mode) (sat : Bool) (a b : FVal) : FRes :=
  match a, b with
  | .nan x, b => nanRes f (x || b.isSig)
  | a, .nan y => nanRes f (y || a.isSig)
  | .inf x, b => if b.isInf then invalid f else f.deliverInf (x != b.sign) sat
  | .fin n1 _ _, .inf y => f.pack mode sat (n1 != y) 0 0
  | .fin n1 m1 e1, .fin n2 m2 e2 =>
    if m2 = 0 then
      if m1 = 0 then invalid f
      else
        let r := f.deliverInf (n1 != n2) sat
        (r.1, r.2 ||| 8)
    else
      let k := f.tb + 8 + bitLen m2
      f.pack mode sat (n1 != n2) (m1 * 2 ^ k / m2) (e1 - e2 - k) (m1 * 2 ^ k % m2 != 0)

/-- The square root of a (R170). -/
def Fmt.sqrtV (f : Fmt) (mode : Mode) (sat : Bool) (a : FVal) : FRes :=
  match a with
  | .nan x => nanRes f x
  | .inf n => if n then invalid f else f.deliverInf false sat
  | .fin n m e =>
    if m = 0 then (f.zero n, 0)
    else if n then invalid f
    else
      let k : Nat := 2 * f.tb + 10
      let odd := (e - k) % 2 != 0
      let m2 := m * 2 ^ (if odd then k + 1 else k)
      let e2 : Int := if odd then e - k - 1 else e - k
      let r := Nat.sqrt m2
      f.pack mode sat false r (e2 / 2) (r * r != m2)

/-- a x b + c with a, b values and c in the destination's format (R175, R201). -/
def Fmt.fmaV (f : Fmt) (mode : Mode) (sat : Bool) (a b c : FVal) : FRes :=
  let sig := a.isSig || b.isSig || c.isSig
  if a.isNan || b.isNan then nanRes f sig
  else if (a.isInf && b.isZero) || (a.isZero && b.isInf) then invalid f
  else if c.isNan then nanRes f sig
  else match a, b, c with
    | .fin n1 m1 e1, .fin n2 m2 e2, .fin n3 m3 e3 => f.sumFin mode sat (n1 != n2) (m1 * m2) (e1 + e2) n3 m3 e3
    | .fin _ _ _, .fin _ _ _, c => f.deliverInf c.sign sat
    | a, b, c =>
      let s := a.sign != b.sign
      if c.isInf && c.sign != s then invalid f else f.deliverInf s sat

/-- The order of two values that are not NaN: -1, 0 or 1, with -0 below +0 when `zeros` is set. -/
def compareV (zeros : Bool) (a b : FVal) : Int :=
  let key : FVal → Int := fun x => match x with
    | .inf n => if n then -1 else 1
    | _ => 0
  if a.isInf || b.isInf then (key a - key b).sign
  else match a, b with
    | .fin n1 m1 e1, .fin n2 m2 e2 =>
      let d := ((dyOf n1 m1 e1).add ⟨-(dyOf n2 m2 e2).v, e2⟩).v
      if d = 0 ∧ zeros ∧ m1 = 0 ∧ m2 = 0 then (if n1 then (if n2 then 0 else -1) else if n2 then 1 else 0) else d.sign
    | _, _ => 0

/-- The lesser (`max` false) or greater operand by R171, given the two codes. -/
def Fmt.minmax (f : Fmt) (max : Bool) (a b : Nat) : FRes :=
  let x := f.value a
  let y := f.value b
  let fl := if x.isSig || y.isSig then 16 else 0
  let w := 2 ^ f.width
  if x.isNan then (if y.isNan then f.nan else b % w, fl)
  else if y.isNan then (a % w, fl)
  else
    let c := compareV true x y
    (if (if max then 0 ≤ c else c ≤ 0) then a % w else b % w, fl)

/-- The comparisons of R172 and R204: 0 eq, 1 lt, 2 le, 3 unord. -/
def Fmt.cmp (f : Fmt) (rel a b : Nat) : Bool × Nat :=
  let x := f.value a
  let y := f.value b
  let nan := x.isNan || y.isNan
  let sig := x.isSig || y.isSig
  let c := compareV false x y
  match rel with
  | 0 => (!nan && c == 0, if sig then 16 else 0)
  | 1 => (!nan && decide (c < 0), if nan then 16 else 0)
  | 2 => (!nan && decide (c ≤ 0), if nan then 16 else 0)
  | _ => (nan, if sig then 16 else 0)

/-- The class code of R173. -/
def Fmt.classCode (f : Fmt) (a : Nat) : Nat :=
  let c := a % 2 ^ f.width
  let neg := f.signed && 2 ^ (f.width - 1) ≤ c
  let kind := match f.value c with
    | .nan sig => if sig then 5 else 4
    | .inf _ => 3
    | .fin _ m _ => if m = 0 then 0 else if m < 2 ^ f.tb then 1 else 2
  kind + (if neg then 8 else 0)

/-- Convert a value to a format (R53-R55). -/
def Fmt.convV (f : Fmt) (mode : Mode) (sat : Bool) (a : FVal) : FRes :=
  match a with
  | .nan x => nanRes f x
  | .inf n => f.deliverInf n sat
  | .fin n m e => f.pack mode sat n m e

/-- The least and greatest integer of a width. -/
def intMin (signed : Bool) (w : Nat) : Int := if signed then -(2 ^ (w - 1) : Nat) else 0
/-- The greatest integer of a width. -/
def intMax (signed : Bool) (w : Nat) : Int := if signed then (2 ^ (w - 1) : Nat) - 1 else (2 ^ w : Nat) - 1

/-- Convert a value to an integer of a width (R56, R60). -/
def toIntV (mode : Mode) (signed : Bool) (w : Nat) (a : FVal) : FRes :=
  match a with
  | .nan _ => (0, 16)
  | .inf n => (truncInt w (if n then intMin signed w else intMax signed w), 16)
  | .fin n m e =>
    let (q, d, k) := splitAt m e 0
    let up := roundsUp mode n (q % 2 == 1) d k
    let v : Int := (if n then -1 else 1) * ((q + if up then 1 else 0 : Nat) : Int)
    if v < intMin signed w ∨ intMax signed w < v then
      (truncInt w (if n then intMin signed w else intMax signed w), 16)
    else (truncInt w v, if d = 0 then 0 else 1)

/-- Convert an integer to a format (R56). -/
def Fmt.ofInt (f : Fmt) (mode : Mode) (sat : Bool) (v : Int) : FRes :=
  if v = 0 then (0, 0) else f.pack mode sat (decide (v < 0)) v.natAbs 0

/-- The 16 random bits of stochastic rounding (R61). -/
def hash16 (a seed step : Nat) : Nat :=
  let x := a % 2 ^ 16 ^^^ seed % 2 ^ 16
  let y := a / 2 ^ 16 % 2 ^ 16 ^^^ step % 2 ^ 16
  let h := (x * 0xA3B5 + y) % 2 ^ 16
  let h := h ^^^ (h / 2 ^ 7)
  let h := h * 0x2C6D % 2 ^ 16
  h ^^^ (h / 2 ^ 9)

/-- The sum of many values, exact: NaN, an infinity, or a dyadic number (R70). -/
inductive ESum where
  | nan
  | inf (neg : Bool)
  | dy (x : Dy)
  deriving DecidableEq, Repr

/-- One more term of a sum (R70). -/
def ESum.add (s : ESum) (v : FVal) : ESum :=
  match s, v with
  | .nan, _ => .nan
  | _, .nan _ => .nan
  | .inf a, .inf b => if a = b then .inf a else .nan
  | .inf a, .fin _ _ _ => .inf a
  | .dy _, .inf b => .inf b
  | .dy x, .fin n m e => if m = 0 then .dy x else .dy (x.add (dyOf n m e))

/-- An exact product, as a term of a sum (R70). -/
def mulExact (a b : FVal) : FVal :=
  match a, b with
  | .fin n1 m1 e1, .fin n2 m2 e2 => .fin (n1 != n2) (m1 * m2) (e1 + e2)
  | a, b =>
    if a.isNan || b.isNan || a.isZero || b.isZero then .nan false else .inf (a.sign != b.sign)

/-- Round a sum to nearest even (R69, R70): an exact zero is +0. -/
def Fmt.packSum (f : Fmt) (s : ESum) : Nat :=
  match s with
  | .nan => f.nan
  | .inf n => f.infinity n
  | .dy x => (f.packDy (.static 0) false x false).1

end Sys2Proof.Machine
end

