-- ==== Sys2Proof/Machine/Home.lean ====
section
/-! DEFINITION. Physical addresses: the range map and the partition's windows (R74, R429), homes (R78, R403), the table walk
(R359-R363), line copies and their invalidation (R76, R93-R95), poison (R399, R400), the trace stream (R416-R419) and the
watchpoints that match at the home (R415). -/

namespace Sys2Proof.Machine

/-- Whether two runs of addresses meet. -/
def meets (a n b m : Nat) : Bool := decide (a < b + m) && decide (b < a + n)

/-- The partition block of a partition (R428). -/
def State.part (s : State) (p : BitVec 3) : PartBlock := s.rg.parts[p.toNat]

/-- SIZE and BASE name isles: BASE is a multiple of 2^SIZE and the isles exist. A block whose fields name none is unused (R428). -/
def PartBlock.used (b : PartBlock) : Bool :=
  b.base.toNat % 2 ^ b.size.toNat == 0 && decide (b.base.toNat + 2 ^ b.size.toNat ≤ 8)

/-- Whether an isle belongs to a partition (R428). -/
def PartBlock.has (b : PartBlock) (isle : Nat) : Bool :=
  b.used && b.base.toNat ≤ isle && isle < b.base.toNat + 2 ^ b.size.toNat

/-- The memory type a physical address requires: 0 normal, 1 device, 2 host-coherent (R74). -/
def rangeType (pa : Nat) : Option Nat :=
  if pa < 2 ^ 46 then some 0
  else if 2 ^ 51 ≤ pa ∧ pa < 2 ^ 51 + 2 ^ 48 then some 2
  else if 0xF * 2 ^ 48 ≤ pa ∧ pa < 2 ^ 52 then some 1
  else none

/-- A pool address within the enumerated capacity (R74, R422). -/
def State.enumerated (s : State) (pa : Nat) : Bool := s.dev.extents.any fun e => e.1 ≤ pa && pa < e.1 + e.2

/-- A pool address inside one of a partition's windows (R429). -/
def PartBlock.inWindow (b : PartBlock) (pa : Nat) : Bool :=
  b.win.toList.any fun w => w.2.toNat ≤ pa / 2 ^ 30 && pa / 2 ^ 30 < w.1.toNat


/-- The 10-bit index of R78: slice, classroom and isle fields, isle uppermost. -/
def hashIndex (pa : Nat) : Nat :=
  let f (len a b c d : Nat) := natField pa a len ^^^ natField pa b len ^^^ natField pa c len ^^^ natField pa d len
  f 3 11 21 31 41 * 2 ^ 7 + f 5 14 24 34 44 * 2 ^ 2 + f 2 19 29 39 49

/-- Whether an HDROP entry applies to an address (R403). -/
def State.dropApplies (s : State) (n : Nat) (e : Word) (pa : Nat) : Bool :=
  fieldOf e 63 1 == 1 &&
    (fieldOf e 62 1 == 1 ||
      (fieldOf s.dev.hmig 63 1 == 1 && fieldOf s.dev.hmig 60 3 == n &&
        (pa / 2 ^ 30 < fieldOf s.dev.hmig 32 22 ||
          (pa / 2 ^ 30 == fieldOf s.dev.hmig 32 22 && s.dev.moved.contains (pa / 2048)))))

/-- The index of an address's home slice, with dropped slices replaced (R403). -/
def State.homeSlice (s : State) (pa : Nat) : Nat :=
  (s.dev.hdrop.toList.zipIdx).foldl
    (fun x e => if fieldOf e.1 0 10 == x && s.dropApplies e.2 e.1 pa then fieldOf e.1 10 10 else x) (hashIndex pa)

/-- The home isle of an address for a partition (R429). -/
def State.homeIsle (s : State) (p : BitVec 3) (pa : Nat) : Nat :=
  let b := s.part p
  b.base.toNat + s.homeSlice pa / 2 ^ 7 % 2 ^ b.size.toNat

/-- WAYS of an isle's IPMAP (R423). -/
def State.ways (s : State) (isle : Nat) : Nat := fieldOf (s.dev.ipmap[isle]?.getD 0) 8 2

/-- A pool address that a partition may reach (R74, R429): enumerated, inside a window, and homed on an isle that has a pool (R423). -/
def State.poolOk (s : State) (p : BitVec 3) (pa : Nat) : Bool :=
  decide (pa < 2 ^ 46) && s.enumerated pa && (s.part p).inWindow pa && s.ways (s.homeIsle p pa) != 0

/-- The isle address IA that a pool port of the home isle carries (R423). -/
def State.isleAddress (s : State) (p : BitVec 3) (pa : Nat) : Nat :=
  let n := (s.part p).size.toNat
  natField pa 14 32 * 2 ^ (14 - n) + hashIndex pa / 2 ^ 7 / 2 ^ n * 2 ^ 11 + pa % 2 ^ 11

/-- The pool port by which a pool miss leaves its home isle (R423): way (IA >> GRAN) mod WAYS, the set bits of MASK numbering the ways. -/
def State.poolPort (s : State) (p : BitVec 3) (pa : Nat) : Option Nat :=
  let isle := s.homeIsle p pa
  let m := s.dev.ipmap[isle]?.getD 0
  let ports := (List.range 3).filter fun k => fieldOf m k 1 == 1
  (ports[s.isleAddress p pa / 2 ^ fieldOf m 12 4 % fieldOf m 8 2]?).map fun k => 3 * isle + k

/-- What a walk finds (R359): a leaf, an entry with V = 0, a malformed entry, an entry that the partition may not read (R429), or a
poisoned one (R400). -/
inductive Walk where
  | leaf (pte : Word) (at_ : Nat) (level : Nat)
  | absent (at_ : Nat) (level : Nat)
  | malformed (level : Nat)
  | outside
  | poisoned (at_ : Nat)
  deriving DecidableEq, Repr

/-- The index of a virtual address at a level (R75). -/
def tableIndex (level : Nat) (va : Word) : Nat := fieldOf va (16 + 13 * (3 - level)) 13

/-- An entry's FRAME shifted to a physical address. -/
def frameOf (pte : Word) : Nat := fieldOf pte 16 36 * 2 ^ 16

/-- A leaf has R, W or X (R359). -/
def isLeaf (pte : Word) : Bool := fieldOf pte 1 3 != 0

/-- The malformed entries of R361. -/
def malformed (pte : Word) (level : Nat) : Bool :=
  fieldOf pte 60 4 != 0 || fieldOf pte 52 2 != 0 || fieldOf pte 8 8 != 0 || fieldOf pte 58 2 == 3
    || (fieldOf pte 2 1 == 1 && fieldOf pte 1 1 == 0)
    || (if isLeaf pte then
          (level == 2 && fieldOf pte 16 13 != 0) || (level == 1 && fieldOf pte 16 26 != 0)
        else
          fieldOf pte 4 4 != 0 || fieldOf pte 54 6 != 0 || level == 3 || 2 ^ 46 ≤ frameOf pte)

/-- A word is poisoned in the bytes of an access (R400). -/
def State.poisoned (s : State) (pa n : Nat) : Bool := s.ca.poison.any fun w => meets (8 * w) 8 pa n

/-- Who translates: partition, PTROOT and privilege; and the entries through which a queued instruction has been translated already
(R336). -/
structure Space where
  part : BitVec 3
  root : Word
  sup  : Bool
  held : List (Nat × Word) := []
  deriving DecidableEq, Repr

/-- The walk of R359 from a table, `n` levels to go. -/
def State.walkFrom (s : State) (sp : Space) (va : Word) : Nat → Nat → Nat → Walk
  | 0, _, level => .malformed level
  | n + 1, t, level =>
    let at_ := t + 8 * tableIndex level va
    let next (pte : Word) : Walk :=
      if fieldOf pte 0 1 = 0 then .absent at_ level
      else if malformed pte level then .malformed level
      else if isLeaf pte then .leaf pte at_ level
      else s.walkFrom sp va n (frameOf pte) (level + 1)
    match sp.held.find? fun e => e.1 == at_ with
    | some e => next e.2
    | none =>
      if ¬ s.poolOk sp.part at_ then .outside
      else if s.poisoned at_ 8 then .poisoned at_
      else next (s.mem.quad at_)

/-- The walk of R359. -/
def State.walk (s : State) (sp : Space) (va : Word) : Walk := s.walkFrom sp va 3 (frameOf sp.root) 1

/-- The entries that a walk reads, in order. -/
def State.walkPath (s : State) (sp : Space) (va : Word) : Nat → Nat → Nat → List (Nat × Word)
  | 0, _, _ => []
  | n + 1, t, level =>
    let at_ := t + 8 * tableIndex level va
    let pte := ((sp.held.find? fun e => e.1 == at_).map Prod.snd).getD (s.mem.quad at_)
    (at_, pte) :: (if fieldOf pte 0 1 = 0 ∨ malformed pte level ∨ isLeaf pte then [] else s.walkPath sp va n (frameOf pte) (level + 1))

/-- The entries that a translation is walked through (R365). -/
def State.path (s : State) (sp : Space) (va : Word) : List (Nat × Word) := s.walkPath sp va 3 (frameOf sp.root) 1

/-- The physical address that a leaf at a level gives (R359). -/
def leafPa (pte : Word) (level : Nat) (va : Word) : Nat := frameOf pte + fieldOf va 0 (16 + 13 * (3 - level))

/-- What an access needs of a leaf (R362). -/
inductive Acc where
  | load | store | atomic | fetch
  deriving DecidableEq, Repr

/-- An access that R74, R359 or R362 refuses: cause and sub-code, for a residency fault the level and entry, and for a poisoned table entry
(level 1) its address. -/
structure AccFault where
  code  : Nat
  sub   : Nat
  level : Nat := 0
  entry : Nat := 0
  deriving DecidableEq, Repr

/-- A translated address (R359, R360). -/
structure Place where
  pa    : Nat
  mt    : Nat
  sq    : BitVec 2
  ns    : Bool
  entry : Nat
  pte   : Word
  deriving DecidableEq, Repr

/-- The place that a leaf entry gives (R360). -/
def placeOf (pte : Word) (entry pa : Nat) : Place :=
  { pa := pa, mt := fieldOf pte 58 2, sq := BitVec.ofNat 2 (fieldOf pte 55 2), ns := fieldOf pte 54 1 == 1, entry := entry, pte := pte }

/-- A canonical address (R73). -/
def canonical (va : Word) : Bool := fieldOf va 54 10 == 0 || fieldOf va 54 10 == 0x3FF

/-- The permission checks of R362, in their order; the sub-code of the first that fails. -/
def permission (pte : Word) (sup : Bool) (acc : Acc) : Option Nat :=
  let bit (k : Nat) : Bool := fieldOf pte k 1 == 1
  if !sup && !bit 4 then some 4
  else if sup && acc == .fetch && bit 4 then some 5
  else if (acc == .load || acc == .atomic) && !bit 1 then some 1
  else if (acc == .store || acc == .atomic) && !bit 2 then some 2
  else if acc == .fetch && !bit 3 then some 3
  else none

/-- Translate an address and apply R74, R429 and R362. No state changes. -/
def State.translate (s : State) (sp : Space) (acc : Acc) (va : Word) : Except AccFault Place :=
  if ¬ canonical va then .error { code := 5, sub := 0 }
  else match s.walk sp va with
  | .outside => .error { code := 7, sub := 0 }
  | .poisoned e => .error { code := 21, sub := 3, level := 1, entry := e }
  | .absent e level => .error { code := 9, sub := 1, level := level, entry := e }
  | .malformed level => .error { code := 10, sub := level }
  | .leaf pte e level =>
    let pa := leafPa pte level va
    let mt := fieldOf pte 58 2
    match rangeType pa with
    | none => .error { code := 7, sub := 0 }
    | some t =>
      if t = 0 ∧ ¬ s.poolOk sp.part pa then .error { code := 7, sub := 0 }
      else if mt ≠ t then .error { code := 7, sub := 1 }
      else match permission pte sp.sup acc with
      | some k => .error { code := 8, sub := k }
      | none => .ok (placeOf pte e pa)

/-- The base and size of the unit that one invalidation removes around a byte: the square of a square layout, else the line
(R81, R94). -/
def unitOfByte (sq : BitVec 2) (pa : Nat) : Nat × Nat :=
  let n := match sq.toNat with
    | 0 => 64
    | 1 => 2048
    | 2 => 1024
    | _ => 512
  (pa / n * n, n)

/-- The bytes a visitor line copy stands for: a row line's 64 bytes, or the whole square of a column line. -/
def VisitorLine.unit (v : VisitorLine) : Nat × Nat := unitOfByte v.sq v.line

/-- The isle of a core (R8). -/
def coreIsle (core : Nat) : Nat := core / 256

/-- Effect on copies of a change of `n` bytes at `pa` in a home on isle `home` (R94, R95): scalar L1 copies on the home isle go at once,
except in core `keep`, whose own write has updated them; every other isle that holds any line of the square is sent an invalidation.
`own` names the writer. -/
def Caches.changed (c : Caches) (home pa n : Nat) (sq : BitVec 2) (keep : Option Nat) (own : Option CtxRef) : Caches :=
  let u := unitOfByte sq pa
  let size := max u.2 (pa + n - u.1)
  let far := (c.visitor.filter fun v => v.isle != home && meets v.unit.1 v.unit.2 u.1 size).map (·.isle)
    ++ (c.l1.filter fun l => meets l.line 64 u.1 size && coreIsle l.core != home).map (fun l => coreIsle l.core)
  { c with
    l1 := c.l1.filter fun l => !(meets l.line 64 pa n && coreIsle l.core == home && some l.core != keep)
    chan := c.chan ++ far.dedup.map fun i => { home := home, isle := i, base := u.1, size := size, own := own } }

/-- The L1 copies of a core with bytes written (R76). -/
def Caches.updateL1 (c : Caches) (core pa : Nat) (bs : List Byte) : Caches :=
  { c with l1 := c.l1.map fun l =>
      if l.core = core then
        { l with bytes := (List.range 64).map fun i =>
            if pa ≤ l.line + i ∧ l.line + i < pa + bs.length then bs.getD (l.line + i - pa) 0 else l.bytes.getD i 0 }
      else l }

/-- Apply one invalidation at its isle (R94): the line copies of its bytes and the scalar L1 copies go. -/
def Caches.applied (c : Caches) (i : Inval) : Caches :=
  { c with
    visitor := c.visitor.filter fun v => !(v.isle == i.isle && meets v.unit.1 v.unit.2 i.base i.size)
    l1 := c.l1.filter fun l => !(coreIsle l.core == i.isle && meets l.line 64 i.base i.size) }

/-- Apply every invalidation sent to an isle, in order (R94, R106). -/
def Caches.flushIsle (c : Caches) (isle : Nat) : Caches :=
  let now := c.chan.filter fun i => i.isle == isle
  { now.foldl Caches.applied c with chan := c.chan.filter fun i => i.isle != isle }

/-- Apply every invalidation that one home isle has sent to an isle, in order (R94, R426). -/
def Caches.flushPair (c : Caches) (home isle : Nat) : Caches :=
  let now := c.chan.filter fun i => i.isle == isle && i.home == home
  { now.foldl Caches.applied c with chan := c.chan.filter fun i => !(i.isle == isle && i.home == home) }

/-- An isle applies the oldest invalidation that one home isle has sent to it (R94, R426). -/
def Caches.deliver (c : Caches) (home isle : Nat) : Caches :=
  match c.chan.find? fun i => i.isle == isle && i.home == home with
  | none => c
  | some i => { c.applied i with chan := c.chan.erase i }

/-- An isle applies, in order, what one home isle has sent to it, up to the last invalidation that follows a write of one of some contexts
(R94, R99). -/
def Caches.flushOf (c : Caches) (mine : CtxRef → Bool) (home isle : Nat) : Caches :=
  let sent := c.chan.filter fun i => i.isle == isle && i.home == home
  let n := ((sent.zipIdx.filter fun i => i.1.own.any mine).map fun i => i.2 + 1).foldl max 0
  (List.range n).foldl (fun c _ => c.deliver home isle) c

/-- A core holds the line of an address in its L1 (R76). -/
def Caches.holdsL1 (c : Caches) (core pa : Nat) : Bool := c.l1.any fun l => l.core == core && l.line == pa / 64 * 64

/-- Words that ECC marks, after a write of `n` bytes at `pa`: an aligned write of a whole word clears the mark (R399, R400). -/
def unmarked (ws : List Nat) (pa n : Nat) : List Nat := ws.filter fun w => !(decide (pa ≤ 8 * w) && decide (8 * w + 8 ≤ pa + n))

/-- Poison and wrong bits after a write of `n` bytes at `pa` (R400). -/
def Caches.cleared (c : Caches) (pa n : Nat) : Caches :=
  { c with poison := unmarked c.poison pa n, weak := unmarked c.weak pa n }

/-- The bytes of a whole run of memory become poisoned, word by word (R400). -/
def Caches.poisonWords (c : Caches) (pa n : Nat) : Caches :=
  { c with poison := (c.poison ++ (List.range' (pa / 8) ((pa + n - 1) / 8 + 1 - pa / 8))).dedup }

/-- Every resident hart. -/
def State.harts (s : State) : List Hart := (s.h :: s.others).filter (·.live)

/-- Accesses that have been translated and have yet to perform: whose, when, and through which entries (R365). A held write of an engine
counts as one. -/
def State.outstanding (s : State) : List (CtxRef × Nat × List Nat) :=
  let through (part : BitVec 3) (root : Word) (sup : Bool) (va : Word) : List Nat := (s.path ⟨part, root, sup, []⟩ va).map Prod.fst
  s.harts.flatMap (fun h =>
    h.buf.map (fun b => (h.own, b.org.tick, through h.su.part b.root b.sup b.va))
      ++ h.loads.map (fun l => (h.own, l.org.tick, through h.su.part h.su.ptroot h.su.sup l.va))
      ++ h.queue.map fun q => (h.own, q.tick, q.tables.map Prod.fst))
  ++ s.ca.pinQueue.filterMap fun w => match w.src with
      | .hart _ own _ sup => some (own, w.org.tick, through own.part w.root sup w.va)
      | .engine _ _ _ own => some (own, w.org.tick, through own.part w.root false w.va)
      | _ => none

/-- A write of `n` bytes at `pa` for a context, by itself or by an engine, waits, to be performed at device scope, for every outstanding
access that was translated through a line of those bytes (R365). -/
def State.remapped (s : State) (src : Source) (pa n : Nat) : List Remap :=
  let by_ (o : CtxRef) (engine : Bool) : List Remap :=
    (s.outstanding.filter fun x => x.2.2.any fun e => meets (e / 64 * 64) 64 pa n).map fun x => ⟨o, engine, x.1, x.2.1⟩
  match src with
  | .hart _ o _ _ => by_ o false
  | .engine _ _ _ o => by_ o true
  | _ => []

/-- A context, or an engine for it, has written a line of table entries through which an access that has yet to perform was translated
(R365). -/
def State.remapPending (s : State) (own : CtxRef) (engine : Bool) : Bool :=
  s.ca.remaps.any fun r => r.writer == own && r.engine == engine && s.outstanding.any fun x => x.1 == r.who && x.2.1 == r.tick

/-- The context of a source. -/
def Source.own : Source → Option CtxRef
  | .hart _ o _ _ => some o
  | .engine _ _ _ o => some o
  | _ => none

/-- Copies as a write finds them. A core away from the home that holds the line in its L1 first takes what the home has sent its isle
(R76, R94). -/
def Caches.before (c : Caches) (home pa : Nat) (keep : Option Nat) : Caches :=
  match keep with
  | some core => if coreIsle core ≠ home ∧ c.holdsL1 core pa then c.flushPair home (coreIsle core) else c
  | none => c

/-- The L1 line of the core that has written gets the bytes, where the line is present there (R76). Away from the home the isle applies the
invalidation of this write with it, so that no core of the isle sees the old value any more (R99, R116); the writer's line stays. -/
def Caches.after (c : Caches) (home pa : Nat) (keep : Option Nat) (bs : List Byte) : Caches :=
  match keep with
  | none => c
  | some core =>
    if coreIsle core = home then c.updateL1 core pa bs
    else if c.holdsL1 core pa then
      let d := c.flushPair home (coreIsle core)
      ({ d with l1 := d.l1 ++ c.l1.filter fun l => l.core == core && l.line == pa / 64 * 64 } : Caches).updateL1 core pa bs
    else c

/-- Write bytes at a home, with the effects on copies and marks, and no check of pins or watchpoints. `keep` names the core of a scalar
store, whose own L1 copy is written too (R76). -/
def State.poke (s : State) (part : BitVec 3) (pa : Nat) (bs : List Byte) (sq : BitVec 2) (keep : Option Nat)
    (src : Source) : State :=
  let home := s.homeIsle part pa
  let ca := (((s.ca.before home pa keep).changed home pa bs.length sq keep src.own).cleared pa bs.length).after home pa keep bs
  { s with
    mem := s.mem.put pa bs
    ca := { ca with remaps := ca.remaps ++ s.remapped src pa bs.length } }

/-- Count an event in the telemetry of an isle (R436). -/
def State.count (s : State) (isle : Nat) (f : Telemetry → Telemetry) : State :=
  { s with dev := { s.dev with tele := s.dev.tele.setIfInBounds isle (f (s.dev.tele[isle]?.getD ⟨0, 0, 0, 0, 0⟩)) } }

/-- A mapping by which a line was touched stands (R80). -/
def State.mapStands (s : State) (line : Nat) (m : BitVec 3 × Word × Word) : Bool :=
  match s.walk ⟨m.1, m.2.1, true, []⟩ m.2.2 with
  | .leaf pte _ level => fieldOf pte 57 1 == 1 && leafPa pte level m.2.2 / 64 * 64 == line
  | _ => false

/-- A mapping by which a line became shoal-resident stands (R80). -/
def State.mappingStands (s : State) (l : ShoalLine) : Bool := l.maps.any (s.mapStands l.line)

/-- A line joins the shoal of an isle. A shoal of 512 MiB that is full (R12) gives up its oldest line that it need not keep (which one is the
model's choice: DESIGN CHOICE, log 101). -/
def State.joinShoal (s : State) (l : ShoalLine) : List ShoalLine :=
  let old := s.ca.shoal
  (if 8388608 ≤ old.countP (fun x => x.isle == l.isle) then
    old.eraseP fun x => x.isle == l.isle && !(x.kept && s.mappingStands x) else old) ++ [l]

/-- One line of a page with SH = 1 is touched (R80): the shoal of its home isle keeps it, or, beyond the reserve, caches it as an ordinary
line and counts that. A line that is there already stands for this mapping too. -/
def State.touchLine (s : State) (sp : Space) (va : Word) (pa : Nat) : State :=
  let isle := s.homeIsle sp.part pa
  let line := pa / 64 * 64
  let m : BitVec 3 × Word × Word := (sp.part, sp.root, va - BitVec.ofNat 64 (pa % 64))
  if s.ca.shoal.any fun l => l.isle == isle && l.line == line then
    { s with ca := { s.ca with shoal := s.ca.shoal.map fun l =>
      if l.isle = isle ∧ l.line = line ∧ !l.maps.contains m then { l with maps := l.maps ++ [m] } else l } }
  else
    let kept := decide (s.ca.shoal.countP (fun l => l.isle == isle && l.kept) < s.dev.reserve[isle]?.getD 0)
    let s := { s with ca := { s.ca with shoal := s.joinShoal ⟨isle, line, [m], kept⟩ } }
    if kept then s else s.count isle fun t => { t with shoalOver := t.shoalOver + 1 }

/-- The line of an access is touched, if its page has SH = 1 and is normal memory (R80). -/
def State.touchShoal (s : State) (sp : Space) (va : Word) (p : Place) : State :=
  if fieldOf p.pte 57 1 = 0 ∨ p.mt ≠ 0 then s else s.touchLine sp va p.pa

/-- The lines of an access of `n` bytes within one page, beyond its first, are touched (R80). -/
def State.touchRest (s : State) (sp : Space) (va : Word) (p : Place) (n : Nat) : State :=
  (List.range' 1 ((p.pa % 64 + n - 1) / 64)).foldl (fun s i =>
    s.touchShoal sp (va + BitVec.ofNat 64 (64 * i)) { p with pa := p.pa + 64 * i }) s

/-- A read of `n` bytes corrects words with one wrong bit, and counts them in the telemetry of their home isle (R399). -/
def State.correct (s : State) (isle pa n : Nat) : State :=
  let hit := s.ca.weak.filter fun w => meets (8 * w) 8 pa n
  if hit.isEmpty then s
  else { s with ca := { s.ca with weak := s.ca.weak.filter fun w => !hit.contains w } }.count isle
    fun t => { t with corrected := t.corrected + hit.length }

/-- The walk of an address has read its table entries (R359): wrong bits in them are corrected (R399). -/
def State.walked (s : State) (sp : Space) (va : Word) : State :=
  if s.ca.weak.isEmpty then s else (s.path sp va).foldl (fun s e => s.correct (s.homeIsle sp.part e.1) e.1 8) s

/-- Set A, and D for a write, in the leaf entry of a translation that is used, as a write at the entry's home (R363); nothing when they are
set already, or when the entry is no longer the one that was read. The shoal sees the line (R80), and the entries that were walked are corrected (R399). Neither
this update nor a walk is an access of an observer that a watchpoint matches (DESIGN CHOICE, log 111). -/
def State.markLeaf (s : State) (sp : Space) (va : Word) (p : Place) (write : Bool) : State :=
  let cur := (s.mem.quad p.entry).toNat
  let new := cur ||| (if write then 0xC0 else 0x40)
  let s := (s.walked sp va).touchShoal sp va p
  if new = cur ∨ cur ||| 0xC0 ≠ p.pte.toNat ||| 0xC0 then s else s.poke sp.part p.entry (leBytes 8 new) 0 none .registrar

/-- The elements of a column line: S elements of w/8 bytes, 64 bytes apart (R82). -/
def columnBytes (m : Memory) (sq : BitVec 2) (top : Nat) : List Byte :=
  let w := match sq.toNat with
    | 1 => 2
    | 2 => 4
    | _ => 8
  (List.range (64 / w)).flatMap fun i => m.bytes (top + 64 * i) w

/-- Where a byte stands in a column line copy, if it does (R82). -/
def VisitorLine.index (v : VisitorLine) (pa : Nat) : Option Nat :=
  if v.col then
    let w := match v.sq.toNat with
      | 1 => 2
      | 2 => 4
      | _ => 8
    if v.line ≤ pa ∧ (pa - v.line) % 64 < w ∧ (pa - v.line) / 64 < 64 / w then
      some ((pa - v.line) / 64 * w + (pa - v.line) % 64)
    else none
  else if v.line ≤ pa ∧ pa < v.line + 64 then some (pa - v.line) else none

/-- The visitor copy of the wanted orientation that holds a byte. -/
def Caches.copyOf (c : Caches) (isle : Nat) (col : Bool) (pa : Nat) : Option VisitorLine :=
  c.visitor.find? fun v => v.isle == isle && v.col == col && (v.index pa).isSome

/-- One byte as the responsible slice of an isle gives it (R76, R77, R93): a visitor copy of the wanted orientation, or the
home. -/
def State.sliceByte (s : State) (part : BitVec 3) (isle : Nat) (col : Bool) (pa : Nat) : Byte :=
  if s.homeIsle part pa = isle then s.mem.get pa
  else match s.ca.copyOf isle col pa with
    | some v => match v.index pa with
      | some i => v.bytes.getD i 0
      | none => s.mem.get pa
    | none => s.mem.get pa

/-- `n` bytes as the responsible slice of an isle gives them. -/
def State.sliceBytes (s : State) (part : BitVec 3) (isle : Nat) (col : Bool) (pa n : Nat) : List Byte :=
  (List.range n).map fun i => s.sliceByte part isle col (pa + i)

/-- One byte as a scalar load of a hart sees it (R76, R107): its own store buffer, then its core's L1, then the slice. -/
def State.scalarByte (s : State) (h : Hart) (pa : Nat) : Byte :=
  match h.buf.reverse.find? (fun b => b.pa ≤ pa && pa < b.pa + b.bytes.length) with
  | some b => b.bytes.getD (pa - b.pa) 0
  | none =>
    match s.ca.l1.find? (fun l => l.core == h.hid.core && l.line ≤ pa && pa < l.line + 64) with
    | some l => l.bytes.getD (pa - l.line) 0
    | none => s.sliceByte h.su.part h.hid.isle false pa

/-- `n` bytes as a scalar load of a hart sees them. -/
def State.scalarBytes (s : State) (h : Hart) (pa n : Nat) : List Byte :=
  (List.range n).map fun i => s.scalarByte h (pa + i)

/-- Before an isle reads `n` bytes from a home on another isle: what that home has sent comes first where a fill is needed, since fills
and invalidations share a channel (R94, R118, R427), or where the reader's own write is among it (R99, R107). `hit` says of a byte
whether a copy gives it. -/
def State.settle (s : State) (part : BitVec 3) (isle : Nat) (hit : Nat → Bool) (own : Option CtxRef) (pa n : Nat) : State :=
  let home := s.homeIsle part pa
  if home ≠ isle ∧ (((List.range n).any fun i => !hit (pa + i))
      || s.ca.chan.any fun i => i.isle == isle && i.own == own && own.isSome && meets i.base i.size pa n) then
    { s with ca := s.ca.flushPair home isle }
  else s

/-- Before a read by the responsible slice of an isle. -/
def State.settleRead (s : State) (part : BitVec 3) (isle : Nat) (col : Bool) (own : Option CtxRef) (pa n : Nat) : State :=
  s.settle part isle (fun a => (s.ca.copyOf isle col a).isSome) own pa n

/-- Before a scalar read of a hart, which looks in its core's L1 first (R76). -/
def State.settleScalar (s : State) (h : Hart) (pa n : Nat) : State :=
  s.settle h.su.part h.hid.isle (fun a => (s.ca.copyOf h.hid.isle false a).isSome
    || s.ca.l1.any fun l => l.core == h.hid.core && l.line ≤ a && a < l.line + 64) (some h.own) pa n

/-- Before an access that the home of `pa` answers itself, as it answers an atomic (R107). -/
def State.settleHome (s : State) (part : BitVec 3) (isle pa : Nat) : State :=
  s.settle part isle (fun _ => false) none pa 1

/-- Apply every invalidation sent to any isle of a partition: every store made so far is then performed at device scope
(R99, R429). -/
def State.flushPart (s : State) (p : BitVec 3) : State :=
  { s with ca := (List.range 8).foldl (fun c i => if (s.part p).has i then c.flushIsle i else c) s.ca }

/-- The isles that apply what follows the writes of some contexts: every one of a partition, or one (R99). -/
def State.flushFor (s : State) (isles : List Nat) (mine : CtxRef → Bool) : State :=
  { s with ca := isles.foldl (fun c i => (List.range 8).foldl (fun c home => c.flushOf mine home i) c) s.ca }

/-- The isles of a partition (R428). -/
def PartBlock.isles (b : PartBlock) : List Nat := (List.range 8).filter b.has

/-! ### The trace stream -/

/-- A trace record's four quads (R417). -/
structure Rec where
  type : Nat
  hart : HartId
  sub  : Nat
  corr : BitVec 32
  info : Nat
  a    : Word
  b    : Word
  deriving DecidableEq, Repr

/-- The clock ratio in force at an isle, in 1/256 steps: the lower of the firmware and hardware ratios (R434, R435). -/
def Clock.ratio (c : Clock) : Nat := min (if c.fwr = 0 then 256 else c.fwr.toNat) c.hw

/-- The bytes of a record with its DELTA (R417). -/
def Rec.bytes (r : Rec) (delta : Nat) : List Byte :=
  leBytes 8 (r.type * 2 ^ 56 + delta % 2 ^ 24 * 2 ^ 32 + r.hart.toNat * 2 ^ 16 + r.sub % 2 ^ 8 * 2 ^ 8)
    ++ leBytes 8 (r.corr.toNat * 2 ^ 32 + r.info % 2 ^ 32) ++ leBytes 8 r.a.toNat ++ leBytes 8 r.b.toNat

/-- Put 32 bytes into an isle's ring if TWR would not reach TRD (R416). -/
def State.ringPut (s : State) (isle : Fin 8) (bs : List Byte) (now : Word) : Option State :=
  let t := s.dev.trace[isle]
  let next := (t.twr.toNat + 32) % t.size.toNat
  if next = t.trd.toNat then none
  else some { s with
    mem := s.mem.put ((t.base.toNat + t.twr.toNat) % 2 ^ 52) bs
    dev := { s.dev with trace := s.dev.trace.set isle { t with twr := BitVec.ofNat 64 next, last := some now } } }

/-- Count a record dropped (R416). -/
def State.ringDrop (s : State) (isle : Fin 8) : State :=
  let t := s.dev.trace[isle]
  { s with dev := { s.dev with trace := s.dev.trace.set isle { t with dropped := t.dropped + 1, full := t.trd } } }

/-- A resync record (R419). -/
def resync (s : State) (isle : Fin 8) (r : Rec) (reason : Nat) (now : Word) : List Byte :=
  { r with type := 14, sub := reason, info := s.dev.clock[isle].ratio, a := now, b := 0 }.bytes 0

/-- The reference tick of this step: 0 right after a device reset (R140), then a free value (R181). -/
def State.time (s : State) : Word := if s.tick = s.dev.since then 0 else Config.timeAt s.tick

/-- The bytes that precede a record: a resync when the stream starts, when DELTA would not fit, or, with a loss record, when
records have been dropped (R416, R419). -/
def traceLead (s : State) (isle : Fin 8) (r : Rec) (now : Word) : List (List Byte) :=
  let t := s.dev.trace[isle]
  let loss := if t.dropped = 0 then [] else [resync s isle r 4 now, { r with type := 15, sub := 0, info := t.dropped, a := 0, b := 0 }.bytes 0]
  match t.last with
  | none => resync s isle r 0 now :: loss
  | some l => if t.dropped = 0 then (if 2 ^ 24 ≤ (now - l).toNat then [resync s isle r 1 now] else []) else loss

/-- Put a list of records, all or none. -/
def State.ringPutAll (s : State) (isle : Fin 8) (now : Word) : List (List Byte) → Option State
  | [] => some s
  | b :: bs => match s.ringPut isle b now with
    | some s' => s'.ringPutAll isle now bs
    | none => none

/-- Write what `body` makes of the records that must come first into an isle's stream, all or none; it is dropped while the stream is full,
that is, until the consumer has moved TRD since the last drop (R416). Nothing is written while the stream has no size. -/
def State.traceAll (s : State) (isle : Nat) (r : Rec) (body : Fin 8 → List (List Byte) → List (List Byte)) : State :=
  if h : isle < 8 then
    let i : Fin 8 := ⟨isle, h⟩
    let t := s.dev.trace[i]
    if t.size = 0 then s
    else if t.dropped ≠ 0 ∧ t.full = t.trd then s.ringDrop i
    else match s.ringPutAll i s.time (body i (traceLead s i r s.time)) with
      | some s' =>
        { s' with dev := { s'.dev with trace := s'.dev.trace.set i { s'.dev.trace[i] with dropped := 0 } } }
      | none => s.ringDrop i
  else s

/-- Write a record into an isle's stream (R416-R419). -/
def State.traceRec (s : State) (isle : Nat) (r : Rec) : State :=
  s.traceAll isle r fun i lead =>
    lead ++ [r.bytes (match s.dev.trace[i].last with
      | some l => if lead.isEmpty then (s.time - l).toNat else 0
      | none => 0)]

/-- Write a resync record: the clock ratio has changed or the reference counter has restarted (R419). Its own DELTA is 0, so that it needs none
before it for its distance from the last record. -/
def State.traceResync (s : State) (isle : Nat) (reason : Nat) : State :=
  let r : Rec := ⟨14, 0, 0, 0, 0, 0, 0⟩
  s.traceAll isle r fun i lead =>
    (if s.dev.trace[i].last.isSome ∧ s.dev.trace[i].dropped = 0 then [] else lead) ++ [resync s i r reason s.time]

/-! ### Watchpoints -/

/-- What a watchpoint is told of an access. -/
structure Touch where
  read  : Bool
  write : Bool
  fetch : Bool
  deriving DecidableEq, Repr

/-- Each kind of access as a touch; an atomic reads and writes (R413). -/
def Acc.touch : Acc → Touch
  | .load => ⟨true, false, false⟩
  | .store => ⟨false, true, false⟩
  | .atomic => ⟨true, true, false⟩
  | .fetch => ⟨false, false, true⟩

/-- The scope of an enabled watchpoint whose kind and privilege match (R413). -/
def watchArmed (wpc : Word) (t : Touch) (sup : Bool) : Bool :=
  fieldOf wpc 63 1 == 1 && fieldOf wpc 56 3 ≤ 5 && (!sup || fieldOf wpc 62 1 == 1)
    && ((t.read && fieldOf wpc 0 1 == 1) || (t.write && fieldOf wpc 1 1 == 1) || (t.fetch && fieldOf wpc 2 1 == 1))

/-- The watched range: WPA with its low LEN bits ignored, and 2^LEN bytes (R413). -/
def watchRange (wpa wpc : Word) : Nat × Nat :=
  let n := 2 ^ fieldOf wpc 48 4
  (wpa.toNat / n * n, n)

/-- The watchpoints of a hart that one of its own accesses hits, lowest first (R414). -/
def Scalar.watchHits (sc : Scalar) (va : Word) (n : Nat) (t : Touch) (sup : Bool) : List (Fin 8) :=
  (List.finRange 8).filter fun k =>
    watchArmed sc.wpc[k] t sup && meets (watchRange sc.wpa[k] sc.wpc[k]).1 (watchRange sc.wpa[k] sc.wpc[k]).2 va.toNat n

/-- The isle, classroom and core that a source acts from (R98): an engine has no core, a collective or spill engine no classroom, and the
registrar belongs to the device. -/
def Source.within (src : Source) (owner : HartId) (scope : Nat) : Bool :=
  match src with
  | .hart hid _ _ _ =>
    (scope == 1 && hid.core == owner.core) || (scope == 2 && hid.classroom == owner.classroom)
      || (scope == 3 && hid.isle == owner.isle) || scope ≥ 4
  | .engine isle classroom _ _ => (scope == 2 && classroom == some owner.classroom) || (scope == 3 && isle == owner.isle) || scope ≥ 4
  | .registrar => scope ≥ 4
  | .host => scope == 5

/-- A resident hart by its context. -/
def State.hartOf (s : State) (o : CtxRef) : Option Hart := s.harts.find? fun h => h.own == o

/-- The state with a function applied to the hart of an identifier. -/
def State.onHart (s : State) (hid : HartId) (f : Hart → Hart) : State :=
  { s with
    h := if s.h.hid = hid then f s.h else s.h
    others := s.others.map fun h => if h.hid = hid then f h else h }

/-- Halt a hart at its stop point (R410, R415). -/
def Hart.halt (h : Hart) (reason : Nat) : Hart :=
  { h with dbg := { h.dbg with halted := true, reason := BitVec.ofNat 4 reason, dpc := h.sc.pc, run := none } }

/-- The record of a watchpoint hit (R417). -/
def watchRec (owner : HartId) (n : Nat) (src : Source) (org : Origin) (addr : Word) : Rec :=
  { type := 1, sub := n, corr := org.corr, info := owner.toNat * 2 ^ 16 + org.elem % 2 ^ 14, a := addr,
    hart := match src with
      | .hart hid _ _ _ => hid
      | .engine _ _ hid _ => hid
      | _ => 0,
    b := match src with
      | .hart _ _ pc _ => pc
      | _ => 0 }

/-- The watchpoints of one other hart that an access at a home hits (R415): their number, kind of action, and address. -/
def State.watchesOf (s : State) (o : Hart) (src : Source) (pa n : Nat) (t : Touch) (sup : Bool) :
    List (Fin 8 × Nat × Word) :=
  (List.finRange 8).filterMap fun k =>
    let wpc := o.sc.wpc[k]
    let r := watchRange o.sc.wpa[k] wpc
    if watchArmed wpc t sup && fieldOf wpc 56 3 ≥ 1 && src.within o.hid (fieldOf wpc 56 3) then
      match s.walk ⟨o.su.part, o.su.ptroot, o.su.sup, []⟩ (BitVec.ofNat 64 r.1) with
      | .leaf pte _ level =>
        let base := leafPa pte level (BitVec.ofNat 64 r.1)
        if meets base r.2 pa n then some (k, fieldOf wpc 60 2, BitVec.ofNat 64 (r.1 + (pa - base))) else none
      | _ => none
    else none

/-- What happens at the home as an access performs: a read corrects what it can (R399), and watchpoints of other harts match it (R415): a
record each; ACT 0 also raises cause 22 at the owner, asynchronously, and ACT 2 halts it. A supervisor-mode access writes the record
only. -/
def State.watchHome (s : State) (part : BitVec 3) (src : Source) (org : Origin) (pa n : Nat) (t : Touch) : State :=
  let s := if t.read || t.fetch then s.correct (s.homeIsle part pa) pa n else s
  let self : Option HartId := match src with
    | .hart hid _ _ _ => some hid
    | _ => none
  let sup := match src with
    | .hart _ _ _ sup => sup
    | _ => false
  (s.harts.filter fun o => o.su.part == part && some o.hid != self).foldl (fun s o =>
    (s.watchesOf o src pa n t sup).foldl (fun s w =>
      let s := s.traceRec o.hid.isle (watchRec o.hid w.1 src org w.2.2)
      if w.2.1 = 0 ∧ ¬ sup then
        s.onHart o.hid fun h => { h with pend := h.pend ++ [{ code := 22, sub := w.1, sval := w.2.2, batch := [] }] }
      else if w.2.1 = 2 then s.onHart o.hid fun h => { h with dbg := { h.dbg with hreq := some 4 } }
      else s) s) s

end Sys2Proof.Machine
end

