-- ==== Sys2Proof/Machine/Write.lean ====
section
/-! DEFINITION. What a home does with a write: pins (R121, R240), measured writes (R269), memory-side adds (R222), and the
order in which a hart's buffered stores reach their homes (R76, R99, R101). -/

namespace Sys2Proof.Machine

/-- The pins on the lines of `n` bytes at `pa`. -/
def State.pinsOn (s : State) (pa n : Nat) : List Pin := s.ca.pins.filter fun p => meets p.line 64 pa n

/-- The context of a source that is a hart: engine accesses are not the hart's (R103). -/
def Source.hartOwn : Source → Option CtxRef
  | .hart _ o _ _ => some o
  | _ => none

/-- Two PTROOT values name one address space: their ASID fields agree (R267, R358). -/
def sameSpace (a b : Word) : Bool := fieldOf a 52 12 == fieldOf b 52 12

/-- The virtual address of element e of member m in plane p (R262). -/
def RatedSet.addr (r : RatedSet) (p : Fin 4) (m e : Nat) : Word := r.base[p] + BitVec.ofNat 64 (m * r.stride[p] + 4 * e)

/-- The element of a member's value plane that holds an address (R267). -/
def RatedSet.element (r : RatedSet) (m : Nat) (va : Word) : Option Nat :=
  let off := (va - r.addr 0 m 0).toNat
  if off < 4 * 2 ^ r.msz then some (off / 4) else none

/-- The member whose value plane holds an address (R267). -/
def RatedSet.memberOf (r : RatedSet) (va : Word) : Option Nat :=
  let off := (va - r.base[(0 : Fin 4)]).toNat
  let st := r.stride[(0 : Fin 4)]
  if st = 0 then none
  else if off / st < r.count ∧ off % st < 4 * 2 ^ r.msz then some (off / st) else none

/-- The address space of a set (R267). -/
def RatedSet.space (r : RatedSet) : Space := ⟨r.part, r.root, true, []⟩

/-- Where a plane or rate-table address of a set lies: where its leaf entry now says, so that a page that has been moved is followed (R367),
or, while the page is absent, where `swbegin` found it. The rate unit translates nothing (R364): the spec does not say how it knows the lines
of its planes (DESIGN CHOICE, log 58). -/
def State.setPlace (s : State) (r : RatedSet) (va : Word) : Option Place :=
  match s.walk r.space va with
  | .leaf pte e level => some (placeOf pte e (leafPa pte level va))
  | _ => (r.pages.find? fun p => p.1 == va.toNat / 2 ^ 16).map fun p => placeOf p.2.2 0 (p.2.1 + va.toNat % 2 ^ 16)

/-- Bytes of the memory element of a memory-side add (R222). -/
def addWidth (fmt : Nat) : Nat := match fmt with | 0 => 2 | 1 => 4 | _ => 8

/-- Bytes that an operation writes. -/
def HomeOp.size : HomeOp → Nat
  | .store bs => bs.length
  | .add fmt _ _ _ => addWidth fmt
  | .spoil bs => bs.length

/-- What an operation at a home is to a watchpoint (R413). -/
def HomeOp.touch : HomeOp → Touch
  | .add _ _ _ _ => ⟨true, true, false⟩
  | _ => ⟨false, true, false⟩

/-- Whether a write waits at the home: a pin rests on its line (R121, R240), or an earlier write to the line waits. -/
def State.heldAtHome (s : State) (pa n : Nat) : Bool :=
  !(s.pinsOn pa n).isEmpty || s.ca.pinQueue.any fun w => meets (w.pa / 64 * 64) 64 pa n

/-- A write joins the pin queue (R121, R240). -/
def State.queueWrite (s : State) (w : PinWait) : State := { s with ca := { s.ca with pinQueue := s.ca.pinQueue ++ [w] } }

/-- Bytes are written at their home (R96, R99): watchpoints of others see it, copies elsewhere go, and what is written poisoned is
poisoned (R400). -/
def State.homeBytes (s : State) (part : BitVec 3) (src : Source) (org : Origin) (pa : Nat) (sq : BitVec 2) (bs : List Byte)
    (touch : Touch) (spoil : Bool) (keep : Option Nat) : State :=
  let s := (s.watchHome part src org pa bs.length touch).poke part pa bs sq keep src
  if spoil then { s with ca := s.ca.poisonWords pa bs.length } else s

/-- The rate unit of the home slice of an address, as a source: it acts for the context whose write it measures (R98, R269). -/
def State.rateUnit (s : State) (part : BitVec 3) (pa : Nat) (hid : HartId) (own : CtxRef) : Source :=
  .engine (s.homeIsle part pa) none hid own

/-- The rate unit touches `n` bytes for a set (R269, R273): the shoal sees the line (R80), and so do watchpoints (R415) and, on a read, ECC
(R399). -/
def State.unitSees (s : State) (r : RatedSet) (hid : HartId) (own : CtxRef) (org : Origin) (va : Word) (n : Nat) : State :=
  match s.setPlace r va with
  | none => s
  | some p => (s.touchShoal r.space va p).watchHome r.part (s.rateUnit r.part p.pa hid own) org p.pa n ⟨true, false, false⟩

/-- A write by the rate unit (R269, R273): it waits behind pins as every other write does (R240). `org` is that of the access that caused it
(R417). -/
def State.unitWrite (s : State) (r : RatedSet) (hid : HartId) (own : CtxRef) (org : Origin) (va : Word) (p : Place) (bs : List Byte)
    (spoil : Bool) : State :=
  let s := s.touchShoal r.space va p
  let src := s.rateUnit r.part p.pa hid own
  if s.heldAtHome p.pa bs.length then
    s.queueWrite ⟨false, p.pa, va, p.sq, src, r.root, if spoil then .spoil bs else .store bs, org⟩
  else s.homeBytes r.part src org p.pa p.sq bs ⟨false, true, false⟩ spoil none

/-- Write 4 bytes of a plane, poisoned when the value they come from is (R400). -/
def State.putPlane (s : State) (r : RatedSet) (hid : HartId) (own : CtxRef) (org : Origin) (p : Fin 4) (m e : Nat) (v : Nat × Bool) : State :=
  match s.setPlace r (r.addr p m e) with
  | none => s
  | some x => s.unitWrite r hid own org (r.addr p m e) x (leBytes 4 v.1) v.2

/-- The newest write to 4 bytes at an address that the rate unit of its home still has in a pin queue, and whether it is poisoned. -/
def State.unitPending (s : State) (va : Word) (pa : Nat) : Option (Nat × Bool) :=
  (s.ca.pinQueue.reverse.find? fun w => w.pa == pa && w.va == va && w.op.size == 4 && (match w.src with
    | .engine _ none _ _ => true
    | _ => false)).map fun w => match w.op with
    | .store bs => (leNat bs, false)
    | .spoil bs => (leNat bs, true)
    | .add _ _ _ _ => (0, false)

/-- 4 bytes of a plane as the rate unit reads them at the home, and whether they are poisoned: what a rate unit has written there counts at
once, though a pin still holds it. -/
def State.getPlane (s : State) (r : RatedSet) (p : Fin 4) (m e : Nat) : Nat × Bool :=
  let va := r.addr p m e
  match s.setPlace r va with
  | none => (0, false)
  | some x => (s.unitPending va x.pa).getD (s.mem.num x.pa 4, s.poisoned x.pa 4)

/-- The greater of two fp64 magnitudes, a NaN counting as +inf (R269). -/
def deltaMax (a b : Nat) : Nat :=
  let inf := Fmt.f64.infinity false
  let b := if (Fmt.f64.value b).isNan then inf else b % 2 ^ 63
  max a b

/-- The address of the byte of the rate table that holds a member's entry (R264). -/
def RatedSet.entryAddr (r : RatedSet) (m : Nat) : Word := r.rtab + BitVec.ofNat 64 (m / 2)

/-- The entry of member m in the rate table (R264): F in bit 3, r in bits 2 to 0. -/
def State.rateEntry (s : State) (r : RatedSet) (m : Nat) : Nat :=
  match s.setPlace r (r.entryAddr m) with
  | none => 0
  | some p => (s.mem.get p.pa).toNat / (if m % 2 = 0 then 1 else 16) % 16

/-- The word of a member's entry is poisoned (R400). -/
def State.entryPoison (s : State) (r : RatedSet) (m : Nat) : Bool := (s.setPlace r (r.entryAddr m)).any fun p => s.poisoned p.pa 1

/-- An active set with one of its visits replaced. -/
def State.putVisit (s : State) (r : RatedSet) (v : Visit) : State :=
  { s with un := { s.un with sets := s.un.sets.map fun x =>
      if x.recPa = r.recPa then { x with visits := x.visits.map fun y => if y.own = v.own then v else y } else x } }

/-- Measure the write of one element by the visit's hart (R269): `old` and `new` are its values before and after, each with its poison,
which the slope and the previous values take on (R400). What such a word would give `delta` the spec does not say; it adds nothing (DESIGN
CHOICE, log 112). -/
def State.measureElem (s : State) (r : RatedSet) (v : Visit) (hid : HartId) (org : Origin) (e : Nat) (old new : Nat × Bool) : State :=
  let first := !v.measured.contains e
  let s := (s.unitSees r hid v.own org (r.entryAddr v.m) 1).unitSees r hid v.own org (r.addr (if first then 1 else 2) v.m e) 4
  let slope0 := s.getPlane r 1 v.m e
  let s := if first then (s.putPlane r hid v.own org 2 v.m e old).putPlane r hid v.own org 3 v.m e slope0 else s
  let prev := if first then old else s.getPlane r 2 v.m e
  let rr := s.rateEntry r v.m % 8
  let d := (Fmt.f64.addV (.static 0) false (Fmt.f32.value new.1) (Fmt.f32.value prev.1).neg).1
  let slope := match Fmt.f64.value d with
    | .fin n m x => (Fmt.f32.pack (.static 0) false n m (x - rr)).1
    | x => (Fmt.f32.convV (.static 0) false x).1
  (s.putPlane r hid v.own org 1 v.m e (slope, prev.2 || new.2 || s.entryPoison r v.m)).putVisit r
    { v with
      measured := if first then v.measured ++ [e] else v.measured
      delta := if prev.2 || new.2 then v.delta else BitVec.ofNat 64 (deltaMax v.delta.toNat d) }

/-- The elements of an open member that a write of `n` bytes at `va` in an address space touches, with the set and the visit
(R267, R269). -/
def State.measuredBy (s : State) (sp : Space) (src : Source) (va : Word) (n : Nat) : List (RatedSet × Visit × HartId × Nat) :=
  match src with
  | .hart hid own _ _ =>
    (s.un.sets.filter fun r => r.part == sp.part && sameSpace r.root sp.root).flatMap fun r =>
      (r.visits.filter (·.own == own)).flatMap fun v =>
        ((List.range (n + 3)).filterMap fun i => r.element v.m (va + BitVec.ofNat 64 i)).dedup.filterMap fun e =>
          if meets (r.addr 0 v.m e).toNat 4 va.toNat n then some (r, v, hid, e) else none
  | _ => []

/-- The value that a memory-side add leaves, and its flags (R222). -/
def addResult (fmt : Nat) (sat : Bool) (rb : Option Nat) (addend : Word) (old : Nat) : FRes :=
  let f := fmtOf (match fmt with | 0 => 2 | 1 => 1 | _ => 0) 0
  let a := if fmt = 2 then Fmt.f64.value addend.toNat else Fmt.f32.value addend.toNat
  let mode := match rb with
    | some b => Mode.random b
    | none => Mode.static 0
  f.addV mode sat (f.value old) a

/-- The bytes that an operation leaves at its address, and the flags it raises (R96, R222). -/
def State.opBytes (s : State) (pa : Nat) (op : HomeOp) : List Byte × Nat :=
  match op with
  | .store bs => (bs, 0)
  | .spoil bs => (bs, 0)
  | .add fmt sat rb addend =>
    let r := addResult fmt sat rb addend (s.mem.num pa (addWidth fmt))
    (leBytes (addWidth fmt) r.1, r.2)

/-- Whether an operation writes poison. -/
def HomeOp.spoils : HomeOp → Bool
  | .spoil _ => true
  | _ => false

/-- The value element of a measured write at `pa` for the address `va`, with its poison: it lies where that write lies (R269, R367). -/
def State.valueOf (s : State) (va : Word) (pa : Nat) (x : RatedSet × Visit × HartId × Nat) : Nat × Bool :=
  let ea := x.1.addr 0 x.2.1.m x.2.2.2
  let a := (pa + (ea - va).toNat) % 2 ^ 64
  (s.unitPending ea a).getD (s.mem.num a 4, s.poisoned a 4)

/-- Change bytes at their home (R96, R99), as one step with the measuring of what belongs to an open member of the writing hart
(R269). -/
def State.homeApply (s : State) (sp : Space) (src : Source) (org : Origin) (va : Word) (pa : Nat) (sq : BitVec 2)
    (bs : List Byte) (touch : Touch) (spoil : Bool) (keep : Option Nat) : State :=
  let ms := s.measuredBy sp src va bs.length
  let olds := ms.map (s.valueOf va pa)
  let s := s.homeBytes sp.part src org pa sq bs touch spoil keep
  (ms.zip olds).foldl (fun s x =>
    match s.un.sets.find? (·.recPa == x.1.1.recPa) with
    | none => s
    | some r => match r.visits.find? (·.own == x.1.2.1.own) with
      | none => s
      | some v => s.measureElem r v x.1.2.2.1 org x.1.2.2.2 x.2 (s.valueOf va pa x.1)) s

/-- Perform a write at its home. The flags of a memory-side add come with it. -/
def State.homeWrite (s : State) (sp : Space) (src : Source) (org : Origin) (va : Word) (pa : Nat) (sq : BitVec 2)
    (op : HomeOp) (keep : Option Nat) : State × Nat :=
  let r := s.opBytes pa op
  (s.homeApply sp src org va pa sq r.1 op.touch op.spoils keep, r.2)

/-- Send a write to its home: it performs, or joins the pin queue (R121). `vec` for a write of the vector stream. -/
def State.sendWrite (s : State) (vec : Bool) (sp : Space) (src : Source) (org : Origin) (va : Word) (pa : Nat) (sq : BitVec 2)
    (op : HomeOp) (keep : Option Nat) : State × Nat :=
  if s.heldAtHome pa op.size then (s.queueWrite ⟨vec, pa, va, sq, src, sp.root, op, org⟩, 0)
  else s.homeWrite sp src org va pa sq op keep

/-- The address space of a hart. -/
def Hart.space (h : Hart) : Space := ⟨h.su.part, h.su.ptroot, h.su.sup, h.held⟩
/-- A hart as the source of an access. -/
def Hart.source (h : Hart) : Source := .hart h.hid h.own h.sc.pc h.su.sup
/-- What an access of the current hart carries with it (R365, R417): one of the vector queue was translated as its instruction entered it. -/
def State.org (s : State) (e : Nat) : Origin := ⟨s.h.sc.corr, e, s.h.heldAt.getD s.tick⟩

/-- A buffered store of a hart leaves its buffer and writes through (R76), in the address space that it was made in (R267, R358). -/
def State.drainThe (s : State) (h : Hart) (b : BufStore) (rest : List BufStore) : State :=
  let s := s.onHart h.hid fun x => { x with buf := rest }
  (s.sendWrite false ⟨h.su.part, b.root, b.sup, []⟩ (.hart h.hid h.own b.pc b.sup) b.org b.va b.pa b.sq (.store b.bytes)
    (some h.hid.core)).1

/-- The oldest buffered store of a hart leaves its buffer and writes through (R76). -/
def State.drainOne (s : State) (h : Hart) : State :=
  match h.buf with
  | [] => s
  | b :: rest => s.drainThe h b rest

/-- A buffered store of a hart leaves ahead of the older ones, where none of them touches its bytes (R107). -/
def State.drainPast (s : State) (h : Hart) (k : Nat) : State :=
  match h.buf[k]? with
  | none => s
  | some b => if (h.buf.take k).any fun x => meets x.pa x.bytes.length b.pa b.bytes.length then s else s.drainThe h b (h.buf.eraseIdx k)

/-- Drain `n` buffered stores of a hart. -/
def State.drainN (s : State) (hid : HartId) : Nat → State
  | 0 => s
  | n + 1 => match (s.h :: s.others).find? (·.hid == hid) with
    | some h => (s.drainOne h).drainN hid n
    | none => s

/-- Every buffered store of the current hart leaves its buffer. -/
def State.drain (s : State) : State := s.drainN s.h.hid s.h.buf.length

/-- Drain the buffered stores of the current hart up to the last that touches `n` bytes at `pa`: accesses of one stream to one
location are in program order (R107). -/
def State.drainTo (s : State) (pa n : Nat) : State :=
  s.drainN s.h.hid (((s.h.buf.zipIdx.filter fun b => meets b.1.pa b.1.bytes.length pa n).map fun b => b.2 + 1).foldl max 0)

/-- The current hart has vector accesses that are queued, parked or held by a pin (R306, R232, R121). -/
def State.vectorPending (s : State) : Bool :=
  !s.h.queue.isEmpty || s.ca.parked.any (fun p => p.own == s.h.own) || s.ca.pinQueue.any fun w => w.vec && w.src.hartOwn == some s.h.own

/-- A memory-side add. -/
def HomeOp.isAdd : HomeOp → Bool
  | .add _ _ _ _ => true
  | _ => false

/-- An earlier vector instruction of the current hart has yet to complete (R68, R181): it is in the vector queue, or a memory-side add of
it, whose flags are still to come, is held by a pin. A store element that a pin holds has left its instruction (R121). -/
def State.vectorBusy (s : State) : Bool :=
  !s.h.queue.isEmpty || s.ca.pinQueue.any fun w => w.op.isAdd && w.src.hartOwn == some s.h.own

/-- The current hart has scalar stores held by a pin (R121). -/
def State.scalarPending (s : State) : Bool := s.ca.pinQueue.any fun w => !w.vec && w.src.hartOwn == some s.h.own

/-- A write of the current hart to these bytes is held by a pin, so a read of them by the hart waits (R107, R121). -/
def State.ownHeld (s : State) (pa n : Nat) : Bool :=
  s.ca.pinQueue.any fun w => w.src.hartOwn == some s.h.own && meets w.pa w.op.size pa n

/-- A buffered store of the current hart to these bytes will be held by a pin when it reaches the home, so a read of them by the hart waits
for it (R107, R121). -/
def State.bufHeld (s : State) (pa n : Nat) : Bool :=
  s.h.buf.any fun b => meets b.pa b.bytes.length pa n && s.heldAtHome b.pa b.bytes.length

/-- Before the current hart reads bytes as the slice of its isle gives them (R99, R107, R118). -/
def State.settleOwn (s : State) (col : Bool) (pa n : Nat) : State :=
  s.settleRead s.h.su.part s.h.hid.isle col (some s.h.own) pa n

/-- The current hart's isle applies every invalidation that has been sent to it (R99). -/
def State.flushOwn (s : State) : State := { s with ca := s.ca.flushIsle s.h.hid.isle }

/-- The current hart's isle applies what follows the hart's own writes: they are then performed at isle scope (R99). -/
def State.flushMine (s : State) : State := s.flushFor [s.h.hid.isle] (· == s.h.own)

/-- Table writes of the current hart whose accesses through the old entries have performed are done with (R365). -/
def State.remapsDone (s : State) : State :=
  { s with ca := { s.ca with remaps := s.ca.remaps.filter fun r => !(r.writer == s.h.own && !r.engine) } }

/-- Every earlier access of the current hart has reached its home, and so has every access that was translated through a table entry it has
written (R101, R365); unless one is still queued, parked or held by a pin: the second component says whether it is done. -/
def State.reachedHomes (s : State) : State × Bool :=
  let s := s.drain
  (s, !(s.vectorPending || s.scalarPending || s.remapPending s.h.own false))

/-- Every earlier access of the current hart is performed at device scope, as a release needs it (R101): what other harts have stored, which it
may have read, with it. -/
def State.release (s : State) : State × Bool :=
  let r := s.reachedHomes
  if r.2 then (r.1.remapsDone.flushPart r.1.h.su.part, true) else r

/-- Every earlier access of the current hart is performed at device scope, as `fence` needs it (R103): the invalidations of its own writes,
and of the accesses that its table writes waited for (R365), are applied on every isle of the partition. -/
def State.performed (s : State) : State × Bool :=
  let r := s.reachedHomes
  let s := r.1
  let mine (o : CtxRef) : Bool := o == s.h.own || s.ca.remaps.any fun x => x.writer == s.h.own && !x.engine && x.who == o
  if r.2 then ((s.flushFor (s.part s.h.su.part).isles mine).remapsDone, true) else r

end Sys2Proof.Machine
end

