-- ==== Sys2Proof/Machine/Ops.lean ====
section
/-! DEFINITION. The named operations over registers and memory: reading and writing g registers (R135, R153), moving the pc
with its loop frames (R31), taking a trap and returning from one (R345, R346), a hart's own accesses with their checks (R159,
R122, R400, R414), and how an instruction ends. -/

namespace Sys2Proof.Machine

/-! ### Registers -/

/-- The state with the current hart's scalar registers changed. -/
def State.onSc (s : State) (f : Scalar → Scalar) : State := { s with h := { s.h with sc := f s.h.sc } }
/-- The state with the current hart's event state changed. -/
def State.onEv (s : State) (f : Events → Events) : State := { s with h := { s.h with ev := f s.h.ev } }
/-- The state with the current hart's vector state changed. -/
def State.onVec (s : State) (f : Vec → Vec) : State := { s with h := { s.h with vec := f s.h.vec } }
/-- The state with the current hart's matrix state changed. -/
def State.onMx (s : State) (f : Matrix → Matrix) : State := { s with h := { s.h with mx := f s.h.mx } }
/-- The state with the current hart's supervisor registers changed. -/
def State.onSu (s : State) (f : Supervisor → Supervisor) : State := { s with h := { s.h with su := f s.h.su } }
/-- The state with the current hart's control state changed. -/
def State.onCt (s : State) (f : Control → Control) : State := { s with h := { s.h with ct := f s.h.ct } }
/-- The state with the current hart's debug block changed. -/
def State.onDbg (s : State) (f : Debug → Debug) : State := { s with h := { s.h with dbg := f s.h.dbg } }
/-- The state with the caches, pins and queues changed. -/
def State.onCa (s : State) (f : Caches → Caches) : State := { s with ca := f s.ca }
/-- The state with the units changed. -/
def State.onUn (s : State) (f : Units → Units) : State := { s with un := f s.un }

/-- g[r] (R153): g0 reads as zero. -/
def State.g (s : State) (r : Reg) : Word := if r = 0 then 0 else s.h.sc.g[r.toNat]

/-- Write g[r] and set PSTATE.LDN (R135, R153): a write to g0 sets LDN alone. -/
def Scalar.setG (sc : Scalar) (r : Reg) (v : Word) : Scalar :=
  { sc with g := if r = 0 then sc.g else sc.g.set r.toNat v, ldn := r }

/-- Write g[r] and set PSTATE.LDN (R135, R153). -/
def State.setG (s : State) (r : Reg) (v : Word) : State := s.onSc fun sc => sc.setG r v

/-- OR flags into FFLAGS (R67). -/
def State.orFlags (s : State) (fl : Nat) : State := s.onSc fun sc => { sc with fflags := sc.fflags ||| BitVec.ofNat 5 fl }

/-- The loop kinds, counts and frames checked when an instruction ends at an address (R31): the frames that stay active, LC, LX,
and where the pc goes. -/
def loopEnds (next : Word) : List Frame → Vector Word 6 → Vector Word 6 → List Frame × Vector Word 6 × Vector Word 6 × Word
  | [], lc, lx => ([], lc, lx, next)
  | f :: fs, lc, lx =>
    if f.stop = next then
      if h : f.k.toNat < 6 then
        let n := lc[f.k.toNat] - 1
        let lc' := lc.set f.k.toNat n
        let lx' := lx.set f.k.toNat (lx[f.k.toNat] + 1)
        if n = 0 then loopEnds next fs lc' lx' else (f :: fs, lc', lx', f.start)
      else loopEnds next fs lc lx
    else
      let r := loopEnds next fs lc lx
      (f :: r.1, r.2)

/-- An instruction that ends at `next` completes without a taken transfer: the pc moves there, or back to the start of a loop
body that ends there (R31). -/
def Scalar.endAt (sc : Scalar) (next : Word) : Scalar :=
  let r := loopEnds next sc.frames sc.lc sc.lx
  { sc with frames := r.1, lc := r.2.1, lx := r.2.2.1, pc := r.2.2.2 }

/-- The instruction at the pc, `len` bytes long, completes (R31). -/
def State.advance (s : State) (len : Nat) : State := s.onSc fun sc => sc.endAt (sc.pc + BitVec.ofNat 64 len)

/-- An address within a frame's body (R31). -/
def Frame.holds (f : Frame) (a : Word) : Bool := f.start ≤ a && a < f.stop

/-- A taken branch or jump from the pc (R31): a frame whose body holds the pc and not the target becomes inactive. -/
def Scalar.jump (sc : Scalar) (target : Word) : Scalar :=
  { sc with pc := target, frames := sc.frames.filter fun f => !(f.holds sc.pc && !f.holds target) }

/-- A taken branch or jump (R31). -/
def State.jump (s : State) (target : Word) : State := s.onSc fun sc => sc.jump target

/-! ### Traps -/

/-- One entry of a fault batch (R369). -/
structure BatchEntry where
  va    : Word
  level : Nat
  src   : Nat
  wr    : Bool
  first : Nat
  nel   : Nat
  deriving DecidableEq, Repr

/-- What a trap reports (R343). -/
structure Trap where
  code  : Nat
  sub   : Nat := 0
  async : Bool := false
  val   : Word := 0
  lane  : Word := 0
  batch : List BatchEntry := []
  more  : Bool := false
  deriving DecidableEq, Repr

/-- The 16 bytes of a batch entry (R369). -/
def BatchEntry.bytes (b : BatchEntry) : List Byte :=
  leBytes 8 (fieldOf b.va 16 48 * 2 ^ 16 + b.level % 4 * 2 ^ 14 + b.src % 16 * 2 ^ 4 + bit01 b.wr * 8)
    ++ leBytes 8 (b.first % 2 ^ 16 * 2 ^ 16 + b.nel % 2 ^ 16)

/-- Write the fault batch of causes 9 and 34 (R369): up to 16 entries at FBATCH.BASE, untranslated and performed at device
scope. A write outside the pool raises cause 35 with SUB 5 (R401). -/
def State.writeBatch (s : State) (t : Trap) : State :=
  let es := t.batch.take 16
  let base := s.h.su.fbase.toNat * 256
  let ok := es.isEmpty || (s.poolOk s.h.su.part base && s.poolOk s.h.su.part (base + 255))
  let s := s.onSu fun u => { u with fcount := BitVec.ofNat 5 es.length, fmore := t.more || 16 < t.batch.length }
  if ok then
    (s.homeBytes s.h.su.part s.h.source (s.org 0) base 0 (es.flatMap BatchEntry.bytes) ⟨false, true, false⟩ false none).flushPart s.h.su.part
  else { s with h := { s.h with pend := s.h.pend ++ [{ code := 35, sub := 5, sval := BitVec.ofNat 64 base, batch := [] }] } }

/-- The value of SCAUSE for a trap (R339, R345). -/
def Trap.cause (t : Trap) : BitVec 17 := BitVec.ofNat 17 (bit01 t.async * 2 ^ 16 + t.sub % 2 ^ 8 * 2 ^ 8 + t.code % 2 ^ 8)

/-- The register changes of trap entry (R345), with SEPC given. The vector base is STVEC.BASE x 64, and `stvec` is held with its
low 6 bits zero. -/
def Hart.enterTrap (h : Hart) (t : Trap) (epc : Word) : Hart :=
  { h with
    su := { h.su with
      sepc := epc &&& ~~~1, scause := t.cause, sval := t.val, slane := t.lane, sldn := h.sc.ldn, pprv := h.su.sup,
      pae := h.su.ae, ae := false, sup := true }
    sc := { h.sc with ldn := 0, pc := h.su.stvec }
    ev := { h.ev with waiting := false }
    fence := none }

/-- The walks behind a translation fault have read their table entries: wrong bits in them are corrected (R399). -/
def State.faultWalked (s : State) (t : Trap) : State :=
  if s.ca.weak.isEmpty || t.async then s
  else (t.val :: t.batch.map BatchEntry.va).foldl (fun s va => s.walked s.h.space va) s

/-- Take a trap (R345): the batch of causes 9 and 34, and of a fetch from an absent page, is written first (R369), a trap record goes into the trace stream, and the
registers change. -/
def State.trapEntry (s : State) (t : Trap) (epc : Word) : State :=
  let s := if t.code ∈ [3, 7, 8, 9, 10] then s.faultWalked t else s
  let s := if t.code = 9 ∨ t.code = 34 ∨ !t.batch.isEmpty then s.writeBatch t else s
  let s := s.traceRec s.h.hid.isle
    { type := 2, hart := s.h.hid, sub := t.code, corr := s.h.sc.corr, info := 0, a := epc &&& ~~~1, b := t.val }
  { s with h := s.h.enterTrap t epc }

/-- Take a trap of the instruction at the pc. -/
def State.trapHere (s : State) (t : Trap) : State := s.trapEntry t s.h.sc.pc

/-- Return from a supervisor trap (R346). -/
def Hart.returnTrap (h : Hart) : Hart :=
  { h with
    su := { h.su with ae := h.su.pae, sup := h.su.pprv }
    sc := { h.sc with pc := h.su.sepc, ldn := h.su.sldn } }

/-- The word that holds, after an exchange of g24-g31 with their shadow, what a word held before it (R399). -/
def BadWord.exchanged : BadWord → BadWord
  | .g r => if 24 ≤ r then .shadow (r - 24) else .g r
  | .shadow r => .g (r + 24)
  | w => w

/-- Exchange g24-g31 with the shadow set (R41, R42). Wrong bits go with the words that they are in. -/
def Hart.exchange (h : Hart) : Hart :=
  { h with
    sc := { h.sc with g := Vector.ofFn fun i : Fin 32 => if hi : 24 ≤ i.val then h.ev.shadow[i.val - 24]'(by omega) else h.sc.g[i] }
    ev := { h.ev with shadow := Vector.ofFn fun i : Fin 8 => h.sc.g[i.val + 24]'(by omega) }
    weak := h.weak.map BadWord.exchanged
    bad := h.bad.map BadWord.exchanged }

/-- Deliver a user-level event (R41): the code, the number of its source, and where the handler returns to. -/
def Hart.deliver (h : Hart) (code info : Nat) (epc : Word) : Hart :=
  let x := { h with ev := { h.ev with
    code := BitVec.ofNat 4 code, info := BitVec.ofNat 32 info, ldn := h.sc.ldn, epc := epc, inHandler := true,
    waiting := false }, fence := none }.exchange
  { x with sc := { x.sc with ldn := 0, pc := h.ev.vec } }

/-- Return from a user-level event handler (R42). -/
def Hart.returnEvent (h : Hart) : Hart :=
  let x := h.exchange
  { x with
    sc := { x.sc with ldn := h.ev.ldn, pc := h.ev.epc }
    ev := { x.ev with inHandler := false } }

/-- Halt the current hart at its stop point, with a halt record (R410, R417). -/
def State.haltHere (s : State) (reason : Nat) : State :=
  let s := s.traceRec s.h.hid.isle
    { type := 3, hart := s.h.hid, sub := reason, corr := s.h.sc.corr, info := 0, a := s.h.sc.pc, b := 0 }
  { s with h := s.h.halt reason }

/-! ### How an instruction ends -/

/-- Why an instruction does not complete: a trap, a wait that leaves the pc where it is, or a halt. Each carries the state that
the instruction leaves. -/
inductive Stop where
  | trap (t : Trap) (s : State)
  | block (s : State)
  | halt (reason : Nat) (s : State)

/-- An instruction's work: a state in, a value and a state out, or a stop. -/
abbrev M (α : Type) := StateT State (Except Stop) α

/-- The outcome of every meaning. -/
abbrev Out := Host.Outcome State Fault Refusal

/-- Read the state. -/
def getS : M State := fun s => .ok (s, s)
/-- Change the state. -/
def modS (f : State → State) : M Unit := fun s => .ok ((), f s)
/-- Stop with a trap. -/
def trapM {α : Type} (t : Trap) : M α := fun s => .error (.trap t s)
/-- Stop and wait. -/
def blockM {α : Type} : M α := fun s => .error (.block s)
/-- Stop with an illegal-instruction exception whose SVAL is an encoding (R149). -/
def illegalM {α : Type} (enc : Nat) : M α := trapM { code := 1, val := BitVec.ofNat 64 enc }
/-- Go on only when a condition holds. -/
def needM (ok : Bool) (t : Trap) : M Unit := if ok then pure () else trapM t

/-- What the stop of an instruction makes of the machine: a trap is taken at the pc, a wait leaves the pc, a halt halts. -/
def Stop.out : Stop → Out
  | .trap t s => .next (s.trapHere t)
  | .block s => .next (s.onDbg fun d => { d with stalled := true })
  | .halt r s => .next (s.haltHere r)

/-- Run an instruction of `len` bytes: it completes and the pc moves on, or it stops. -/
def run (len : Nat) (m : M Unit) (s : State) : Out :=
  match m s with
  | .ok (_, s') => .next (s'.advance len)
  | .error e => e.out

/-- Run an instruction that sets the pc itself. -/
def runJump (m : M Unit) (s : State) : Out :=
  match m s with
  | .ok (_, s') => .next s'
  | .error e => e.out

/-- An instruction that writes one g register from the state and completes. -/
def writeReg (len : Nat) (d : Reg) (v : Word) (s : State) : Out := .next ((s.setG d v).advance len)

/-- The illegal-instruction exception of the instruction at the pc, as an outcome (R149). -/
def illegal (enc : Nat) (s : State) : Out := .next (s.trapHere { code := 1, val := BitVec.ofNat 64 enc })

/-! ### A hart's own accesses -/

/-- The poisoned word that a refused access names: a table entry, or the word of the access itself (R400). -/
def AccFault.word (f : AccFault) (va : Word) : Word := if f.level = 0 then va &&& ~~~7 else BitVec.ofNat 64 f.entry

/-- The trap of a refused access (R343, R369): a residency fault carries its batch of one page; poison names the word, or the table
entry that is poisoned (R400). -/
def AccFault.trap (f : AccFault) (va : Word) (src : Nat) (wr : Bool) : Trap :=
  { code := f.code, sub := f.sub,
    val := if f.code = 21 then f.word va else va,
    batch := if f.code = 9 then [{ va := va, level := f.level, src := src, wr := wr, first := 0, nel := 1 }] else [] }

/-- What an own watchpoint does to the access it matches (R414): trap, halt, or nothing more than its record. -/
inductive WatchAct where
  | pass | trap (n : Nat) | halt (n : Nat)
  deriving DecidableEq, Repr

/-- What an own watchpoint that is hit does (R414, R415): in supervisor mode ACT 0 only records. -/
def Hart.watchAct (h : Hart) (k : Fin 8) : WatchAct :=
  match fieldOf h.sc.wpc[k] 60 2 with
  | 0 => if h.su.sup then .pass else .trap k
  | 2 => .halt k
  | _ => .pass

/-- What the own watchpoints that an access hits do (R414, R415): the lowest that traps or halts acts, and the access does not perform;
where none does, each writes its record. -/
def State.ownWatch (s : State) (va : Word) (n : Nat) (acc : Acc) (elem : Nat) : State × WatchAct :=
  let hits := s.h.sc.watchHits va n acc.touch s.h.su.sup
  match (hits.map s.h.watchAct).find? (· != .pass) with
  | some a => (s, a)
  | none => (hits.foldl (fun t k => t.traceRec s.h.hid.isle (watchRec s.h.hid k s.h.source (s.org elem) va)) s, .pass)

/-- The checks of one own access of `n` bytes after its address is formed (R159 step 3, R163, R122, R400, R414): translation,
device type where refused, an own pin under a write, poison under a read. Where one access meets both of the last two, the model takes the
pin conflict; the spec gives no order (DESIGN CHOICE, log 92). Nothing changes but a watch record. -/
def State.checkOwn (s : State) (acc : Acc) (va : Word) (n : Nat) (noDevice : Bool) (elem : Nat) :
    Except AccFault (State × Place × WatchAct) :=
  match s.translate s.h.space acc va with
  | .error e => .error e
  | .ok p =>
    if p.mt = 1 ∧ noDevice then .error { code := 7, sub := 2 }
    else if (acc = .store ∨ acc = .atomic) ∧ (s.pinsOn p.pa n).any (fun q => q.own == s.h.own) then .error { code := 12, sub := 0 }
    else if acc ≠ .store ∧ p.mt ≠ 1 ∧ s.poisoned p.pa n then .error { code := 21, sub := 3 }
    else
      let w := s.ownWatch va n acc elem
      .ok (w.1, p, w.2)

/-- An own scalar access, checked and ready to perform; its A and D bits set (R363). -/
def scalarCheck (acc : Acc) (va : Word) (n : Nat) (noDevice : Bool) : M Place := fun s =>
  if ¬ canonical va then .error (.trap { code := 5, val := va } s)
  else if va.toNat % n ≠ 0 then .error (.trap { code := 6, val := va } s)
  else match s.checkOwn acc va n noDevice 0 with
  | .error f => .error (.trap (f.trap va 1 (acc != .load)) s)
  | .ok (s', p, act) => match act with
    | .trap k => .error (.trap { code := 22, sub := k, val := va } s')
    | .halt _ => .error (.halt 4 s')
    | .pass => .ok (p, s'.markLeaf s.h.space va p (acc != .load))

/-- The effective address of an S-I or S-ST form (R159). -/
def State.ea (s : State) (a : Reg) (imm : BitVec 12) : Word := s.g a + imm.signExtend 64

end Sys2Proof.Machine
end

