-- ==== Sys2Proof/Machine/Fetch.lean ====
section
/-! DEFINITION. Fetching an instruction's parcels (R129, R130): translation with its faults (R343 code 3), poison (R400), watchpoints on
fetch (R413, R414), and where the bytes come from: the loop buffer, the core's L1 instruction cache, or the home (R11, R32). -/

namespace Sys2Proof.Machine

/-- The trap of a parcel whose translation is refused (R130, R343): code 3 with its SUB, or a malformed entry. An absent page is reported in
the fault batch, by one entry (R369). -/
def AccFault.fetchTrap (f : AccFault) (va : Word) : Trap :=
  match f.code with
  | 9 => { code := 3, sub := 0, val := va, batch := [{ va := va, level := f.level, src := 0, wr := false, first := 0, nel := 1 }] }
  | 8 => { code := 3, sub := 1, val := va }
  | 5 => { code := 3, sub := 3, val := va }
  | 10 => { code := 10, sub := f.sub, val := va }
  | 21 => { code := 21, sub := f.sub, val := f.word va }
  | _ => { code := 3, sub := 2, val := va }

/-- The byte of the loop buffer at an address, while the body that it holds is the innermost active one (R32). -/
def Hart.loopByte (h : Hart) (va : Word) : Option Byte :=
  match h.loop, h.sc.frames.head? with
  | some l, some fr => if l.start = fr.start ∧ (va - l.start).toNat < l.bytes.length then l.bytes[(va - l.start).toNat]? else none
  | _, _ => none

/-- One byte as the current hart fetches it (R11, R32): from its loop buffer, from its core's L1 instruction cache, or from the home. -/
def State.codeByte (s : State) (va : Word) (pa : Nat) : Byte :=
  match s.h.loopByte va with
  | some b => b
  | none => match s.ca.code.find? fun l => l.core == s.h.hid.core && l.line ≤ pa && pa < l.line + 64 with
    | some l => l.bytes.getD (pa - l.line) 0
    | none => s.mem.get pa

/-- Before bytes are fetched that neither the loop buffer nor the L1 instruction cache gives: what their home has sent to the isle comes first
(R427). -/
def State.settleCode (s : State) (va : Word) (pa n : Nat) : State :=
  s.settle s.h.su.part s.h.hid.isle
    (fun a => (s.h.loopByte (va + BitVec.ofNat 64 (a - pa))).isSome
      || s.ca.code.any fun l => l.core == s.h.hid.core && l.line ≤ a && a < l.line + 64) none pa n

/-- Fetch one parcel at an address. -/
def fetchParcel (va : Word) : M Nat := fun s =>
  if ¬ canonical va then .error (.trap { code := 3, sub := 3, val := va } s)
  else match s.checkOwn .fetch va 2 true 0 with
  | .error f => .error (.trap (f.fetchTrap va) s)
  | .ok (s', p, act) => match act with
    | .trap k => .error (.trap { code := 22, sub := k, val := va } s')
    | .halt _ => .error (.halt 4 s')
    | .pass =>
      let t := ((s'.markLeaf s.h.space va p false).settleCode va p.pa 2).watchHome s.h.su.part s.h.source (s.org 0) p.pa 2
        ⟨false, false, true⟩
      .ok (leNat [s.codeByte va p.pa, s.codeByte (va + 1) (p.pa + 1)], t)

/-- Fetch `n` parcels from an address upward, as one number, the first lowest. -/
def fetchParcels (va : Word) : Nat → M Nat
  | 0 => pure 0
  | n + 1 => do
    let p ← fetchParcel va
    let r ← fetchParcels (va + 2) n
    pure (p + 2 ^ 16 * r)

/-- Fetch the instruction at an address, as long as its first parcel says (R129). -/
def fetchInstr (va : Word) : M Nat := do
  let p ← fetchParcel va
  let r ← fetchParcels (va + 2) (lengthOf p / 2 - 1)
  pure (p + 2 ^ 16 * r)

/-- The slot count that a header word announces, where it is one (R141). -/
def slotCount (w : Nat) : Option Nat := if w % 4 = 3 ∧ natField w 2 3 < 5 then some (natField w 2 3 + 2) else none

end Sys2Proof.Machine
end

