-- ==== Sys2Proof/Machine/Flags.lean ====
section
/-! DEFINITION. Rounding modes in force and the flags of floating results (R58-R67). -/

namespace Sys2Proof.Machine

/-- FRM.RM of the current hart (R58). -/
def State.frm (s : State) : Nat := s.h.sc.frm.toNat

/-- The rounding mode that a field selects: a static mode, or FRM's for code 7 (R59). -/
def State.modeOf (s : State) (field : Nat) : Nat := if field = 7 then s.frm else field

/-- A rounding field that an instruction with the four static modes may use as FRM stands (R59). -/
def State.modeOk (s : State) (field : Nat) : Bool := s.modeOf field ≤ 3

/-- The parameters of binary8 in VTYPE[12:8] (R47). -/
def State.b8 (s : State) : Nat := natField s.h.vec.vtype.toNat 8 5

/-- VTYPE.SAT, the saturation choice of arithmetic in formats without infinities (R53). -/
def State.satBit (s : State) : Bool := s.h.vec.vtype.getLsbD 13

/-- The saturation choice of an arithmetic result in a format (R53): VTYPE.SAT where the format has no infinities, else none. -/
def State.satFor (s : State) (f : Fmt) : Bool := !f.inf && s.satBit

/-- A scalar floating format: fp32 when single, else fp64 (R170). -/
def scalarFmt (single : Bool) : Fmt := if single then .f32 else .f64

/-- A scalar floating operand (R153). -/
def State.fval (s : State) (single : Bool) (r : Reg) : FVal := (scalarFmt single).value (s.g r).toNat

/-- Deliver a scalar floating result: the code zero-extended into g[d], its flags ORed into FFLAGS, and the instruction
completes (R153, R170). -/
def State.putFloat (s : State) (d : Reg) (r : FRes) : State := (s.setG d (BitVec.ofNat 64 r.1)).orFlags r.2

end Sys2Proof.Machine
end

