-- ==== Sys2Proof/Machine/Operands.lean ====
section
/-! DEFINITION. Operands of W instructions: VTYPE and VLMAX (R183, R184), elements of register groups (R189), masks (R192), the
mirror of protected mode (R396), dirty bits (R350), the spans and overlaps of register groups (R145, R194, R439), and the lane
that holds an element (R190, R341). -/

namespace Sys2Proof.Machine

/-! ### Configuration -/

/-- VTYPE.SEW as a code (R183). -/
def Vec.sewCode (v : Vec) : Nat := natField v.vtype.toNat 0 3
/-- VTYPE.VILL (R183). -/
def Vec.vill (v : Vec) : Bool := 4 ≤ v.sewCode
/-- SEW in bits. -/
def Vec.sew (v : Vec) : Nat := 8 * 2 ^ v.sewCode
/-- The grouping L (R183). -/
def Vec.grp (v : Vec) : Nat := 2 ^ natField v.vtype.toNat 3 2
/-- VTYPE.TA: 1 leaves the tail undisturbed (R183). -/
def Vec.ta (v : Vec) : Bool := v.vtype.getLsbD 5
/-- VTYPE.MA: 1 zeroes masked-off elements (R183). -/
def Vec.ma (v : Vec) : Bool := v.vtype.getLsbD 6
/-- VTYPE.PM, protected mode (R183). -/
def Vec.pm (v : Vec) : Bool := v.vtype.getLsbD 7

/-- The number of set bits of LANEGRANT.MAP (R353). -/
def groupsOf (map : BitVec 4) : Nat := (List.range 4).countP fun i => map.getLsbD i
/-- Lane groups owned (R353). -/
def Hart.groups (h : Hart) : Nat := groupsOf h.su.lgMap
/-- Elements of width w that one register holds for instructions (R189). -/
def perReg (groups : Nat) (pm : Bool) (w : Nat) : Nat := 4096 * groups / w / (if pm then 2 else 1)
/-- VLMAX for a grant and a VTYPE (R184). -/
def Vec.vlmaxAt (v : Vec) (groups : Nat) : Nat := if v.vill then 0 else perReg groups v.pm v.sew * v.grp
/-- VLMAX (R184). -/
def Hart.vlmax (h : Hart) : Nat := h.vec.vlmaxAt h.groups
/-- Elements of width w in one register of the current hart. -/
def State.per (s : State) (w : Nat) : Nat := perReg s.h.groups s.h.vec.pm w
/-- VL as a number. -/
def State.vl (s : State) : Nat := s.h.vec.vl.toNat
/-- SEW of the current hart in bits. -/
def State.sew (s : State) : Nat := s.h.vec.sew

/-! ### Dirty bits -/

/-- Set VDIRTY bits (R350). -/
def Supervisor.dirty (u : Supervisor) (bits : Nat) : Supervisor := { u with vdirty := u.vdirty ||| BitVec.ofNat 43 bits }
/-- Set VDIRTY bits (R350). -/
def State.dirty (s : State) (bits : Nat) : State := s.onSu fun u => u.dirty bits

/-- Write vector control state (VL, VTYPE, VSTART, CPV0, CPV1 or EFR), setting VDIRTY.CTL (R350). -/
def State.setCtl (s : State) (f : Vec → Vec) : State := (s.onVec f).dirty (2 ^ 41)

/-! ### Elements -/

/-- A run of bits of a register. -/
def sliceOf (x : VReg) (lo w : Nat) : Nat := (x >>> lo).toNat % 2 ^ w
/-- A register with a run of bits replaced. -/
def sliceSet (x : VReg) (lo w v : Nat) : VReg :=
  (x &&& ~~~(BitVec.ofNat 16384 (2 ^ w - 1) <<< lo)) ||| (BitVec.ofNat 16384 (v % 2 ^ w) <<< lo)

/-- The distance in bits from a copy to its mirror (R396). -/
def Hart.mirror (h : Hart) : Nat := 2048 * h.groups

/-- A vector register by number. -/
def Vec.reg (v : Vec) (r : Nat) : VReg := v.v[r]?.getD 0

/-- Element e, of width w, of the group at register r (R189); of its mirror copy when `mir` is set (R396). -/
def State.elem (s : State) (mir : Bool) (r w e : Nat) : Nat :=
  let n := s.per w
  if n = 0 then 0 else sliceOf (s.h.vec.reg (r + e / n)) ((e % n) * w + if mir then s.h.mirror else 0) w

/-- Write a vector register, setting its dirty bit (R350). -/
def State.setReg (s : State) (r : Nat) (x : VReg) : State :=
  if r < 32 then (s.onVec fun v => { v with v := v.v.setIfInBounds r x }).dirty (2 ^ r) else s

/-- Write element e, of width w, of the group at register r; under protected mode both copies are written (R189, R396). While VL exceeds
VLMAX after an `lgrant`, an element at or beyond VLMAX stands, and is read, in the registers that follow the group; the spec names no place
for it (DESIGN CHOICE, log 70). -/
def State.setElem (s : State) (r w e v : Nat) : State :=
  let n := s.per w
  if n = 0 then s
  else
    let x := sliceSet (s.h.vec.reg (r + e / n)) ((e % n) * w) w v
    s.setReg (r + e / n) (if s.h.vec.pm then sliceSet x ((e % n) * w + s.h.mirror) w v else x)

/-- A mask register by number. -/
def Vec.mask (v : Vec) (k : Nat) : VReg := v.m[k]?.getD 0
/-- Bit e of a mask register; bits at or beyond VLMAX read as zero (R192). -/
def State.maskBit (s : State) (mir : Bool) (k e : Nat) : Bool :=
  decide (e < s.h.vlmax) && (s.h.vec.mask k).getLsbD (e + if mir then s.h.mirror else 0)

/-- Write a mask register, setting its dirty bit (R350). -/
def State.setMask (s : State) (k : Nat) (x : VReg) : State :=
  if k < 8 then (s.onVec fun v => { v with m := v.m.setIfInBounds k x }).dirty (2 ^ (32 + k)) else s

/-- Write bit e of a mask register, in both copies under protected mode. A write does not reach a bit beyond the register's lanes, which under
protected mode are their first half (R188, R189). -/
def State.setMaskBit (s : State) (k e : Nat) (b : Bool) : State :=
  let x := sliceSet (s.h.vec.mask k) e 1 (bit01 b)
  if s.per 1 ≤ e then s else s.setMask k (if s.h.vec.pm then sliceSet x (e + s.h.mirror) 1 (bit01 b) else x)

/-- Write mf, setting its dirty bit (R350). -/
def State.setMf (s : State) (x : VReg) : State := (s.onVec fun v => { v with mf := x }).dirty (2 ^ 40)

/-- Element e is active (R192). -/
def State.active (s : State) (f : WFields) (e : Nat) : Bool := !f.me || s.maskBit false f.mr.toNat e

/-- The source a of an element: vs1[e], or the g register at SEW when S1 = 1 (R193). -/
def State.srcA (s : State) (f : WFields) (mir : Bool) (w e : Nat) : Nat :=
  if f.s1 then (s.g f.vs1).toNat % 2 ^ w else s.elem mir f.vs1.toNat w e

/-! ### Spans -/

/-- The width of a conversion's source and destination, or of the formats of `vfwma` (R146, R202). -/
def cvtWidths (f : WFields) : Nat × Nat := (codeWidth (natField f.imm.toNat 4 4), codeWidth (natField f.imm.toNat 0 4))

/-- The wide width of `vfwma`: 64 for an fp32 source, else 32 (R201). -/
def fwmaWidth (f : WFields) : Nat := if natField f.imm.toNat 4 4 = 1 then 64 else 32

/-- How many registers an operand spans (R189, R201, R202). -/
def spanOf (v : Vec) (f : WFields) (sp : Span) : Nat :=
  match sp with
  | .group => v.grp
  | .wide => 2 * v.grp
  | .single => 1
  | .cvt => max 1 (v.grp * (cvtWidths f).2 / v.sew)
  | .fwma => max 1 (v.grp * fwmaWidth f / v.sew)

/-- The files whose registers convoys compare (R143); `mf` is one register. -/
inductive RegFile where
  | v | m | t | a | mf
  deriving DecidableEq, Repr

/-- A run of registers of one file: first and count. -/
structure RegRun where
  file  : RegFile
  first : Nat
  count : Nat
  deriving DecidableEq, Repr

/-- Two runs share a register. -/
def RegRun.meets (a b : RegRun) : Bool := a.file == b.file && Machine.meets a.first a.count b.first b.count

/-- The run a field names: whole spans with a VTYPE, single registers without one (R439). -/
def fieldRun (v : Option Vec) (f : WFields) (u : FieldUse) (sp : Span) (r : Reg) : List RegRun :=
  match u with
  | .vec => [⟨.v, r.toNat, match v with | some v => spanOf v f sp | none => 1⟩]
  | .mask => [⟨.m, r.toNat, 1⟩]
  | .tile => [⟨.t, r.toNat, 1⟩]
  | .acc => [⟨.a, r.toNat, 1⟩]
  | _ => []

/-- The instructions whose elements a residency fault puts into mf (R231): loads but for `vldff`, VAMO, and `afetch`. They write mf
whatever the mode and the descriptor, since R143 is checked on the encodings. -/
def writesMf (op : WOp) : Bool := (op.spec.op8 == 0x10 && op != .vldff) || op.spec.op8 == 0x12 || op == .afetch

/-- The runs a W instruction writes. -/
def writesOf (v : Option Vec) (op : WOp) (f : WFields) : List RegRun :=
  let sp := op.spec
  (match sp.vdAcc with
    | .write | .both => fieldRun v f sp.vd sp.vdSpan f.vd
    | _ => [])
  ++ if writesMf op then [⟨.mf, 0, 1⟩] else []

/-- The vs1 field as a vector operand only when S1 = 0. -/
def vs1Run (v : Option Vec) (op : WOp) (f : WFields) : List RegRun :=
  if f.s1 then [] else fieldRun v f op.spec.vs1 op.spec.vs1Span f.vs1

/-- The runs a W instruction reads, its mask included. -/
def readsOf (v : Option Vec) (op : WOp) (f : WFields) : List RegRun :=
  let sp := op.spec
  (match sp.vdAcc with
    | .read | .both => fieldRun v f sp.vd sp.vdSpan f.vd
    | _ => [])
  ++ vs1Run v op f ++ fieldRun v f sp.vs2 sp.vs2Span f.vs2 ++ fieldRun v f sp.vs3 sp.vs3Span f.vs3
  ++ (if f.me then [⟨.m, f.mr.toNat, 1⟩] else [])

/-- Every vector operand starts at a multiple of its span and stays within v0-v31 (R145, R189, R202). -/
def alignedRuns (v : Vec) (op : WOp) (f : WFields) : Bool :=
  let sp := op.spec
  let one (u : FieldUse) (x : Span) (r : Reg) : Bool :=
    u != .vec || (r.toNat % spanOf v f x == 0 && decide (r.toNat + spanOf v f x ≤ 32))
  one sp.vd sp.vdSpan f.vd && (f.s1 || one sp.vs1 sp.vs1Span f.vs1) && one sp.vs2 sp.vs2Span f.vs2
    && one sp.vs3 sp.vs3Span f.vs3

/-- No overlap that R194 forbids. -/
def overlapOk (v : Vec) (op : WOp) (f : WFields) : Bool :=
  let sp := op.spec
  let d := fieldRun (some v) f sp.vd sp.vdSpan f.vd
  let apart (xs : List RegRun) : Bool := !(d.any fun x => xs.any fun y => x.meets y)
  let r1 := vs1Run (some v) op f
  let r2 := fieldRun (some v) f sp.vs2 sp.vs2Span f.vs2
  match sp.overlap with
  | .any => true
  | .widen => apart r1 && apart r2
  | .narrow | .reduce => apart r2
  | .permute => apart r1 && apart r2
  | .cvt => (cvtWidths f).1 == (cvtWidths f).2 || apart r2

/-! ### The lane of an element -/

/-- The physical number of an owned lane group (R353). -/
def physicalGroup (map : BitVec 4) (i : Nat) : Nat := ((List.range 4).filter fun k => map.getLsbD k).getD i 0

/-- SLANE for element e of a data group of width w, in a slot (R190, R341). -/
def Hart.slane (h : Hart) (w e slot : Nat) : Word :=
  let n := perReg h.groups h.vec.pm w
  let c := if n = 0 then 0 else (e % n) * w / 64
  let g := h.groups
  let lg := if g = 0 then 0 else physicalGroup h.su.lgMap (c % g)
  let lane := if g = 0 then 0 else c / g % 8
  BitVec.ofNat 64 (2 ^ 63 + e % 2 ^ 16 * 2 ^ 32 + slot * 2 ^ 16 + lg * 2 ^ 8 + lane)

end Sys2Proof.Machine
end

