-- ==== Sys2Proof/Machine/Descriptor.lean ====
section
/-! DEFINITION. Tensor descriptors (R87-R91): their fields, the checks at use, the address of an element, and the conditions of a
column access that need no page (R85). -/

namespace Sys2Proof.Machine

/-- The fields of a descriptor (R87). -/
structure Desc where
  base    : Word
  q1      : Word
  rank    : Nat
  type    : Nat
  block   : Nat
  clamp   : Nat
  rate    : Nat
  sizes   : List Nat
  strides : List Int
  deriving DecidableEq, Repr

/-- Read the fields of a descriptor (R87). -/
def descOf (r : BitVec 512) : Desc :=
  let q1 := quadOf r 1
  { base := quadOf r 0, q1 := q1, rank := fieldOf q1 0 3, type := fieldOf q1 4 4, block := fieldOf q1 8 2,
    clamp := fieldOf q1 10 2, rate := fieldOf q1 12 2
    sizes := (List.range 6).map fun i => (r.extractLsb' (128 + 32 * i) 32).toNat
    strides := (List.range 6).map fun i => (r.extractLsb' (320 + 32 * i) 32).toInt }

/-- The element width in bits. -/
def Desc.width (d : Desc) : Nat := codeWidth d.type
/-- The element width in bytes. -/
def Desc.bytes (d : Desc) : Nat := d.width / 8

/-- A descriptor that no instruction may use (R47, R88). -/
def Desc.illegal (d : Desc) (b8 : Nat) : Bool :=
  d.rank == 0 || d.rank == 7 || 13 ≤ d.type || d.rate == 3 || 2 ≤ d.clamp || 2 ≤ d.block
    || fieldOf d.q1 14 50 != 0 || fieldOf d.q1 3 1 != 0
    || (d.sizes.drop d.rank).any (· != 0) || (d.strides.drop d.rank).any (· != 0)
    || (d.block == 1 && d.width == 8) || (d.type == 4 && b8 % 8 == 0)

/-- A descriptor with no element in bounds (R91). -/
def Desc.empty (d : Desc) : Bool := (d.sizes.take d.rank).contains 0

/-- A square plane for elements of a width (R85 condition 3). -/
def Desc.squarePlane (d : Desc) (w : Nat) : Bool :=
  let side := 512 / w
  2 ≤ d.rank && d.strides.getD 0 0 == 1 && d.strides.getD 1 0 == (side : Int) && d.sizes.getD 0 0 ≤ side
    && d.base.toNat % (64 * side) == 0
    && ((d.strides.take d.rank).drop 2).all fun x => x % ((side * side : Nat) : Int) == 0

/-- The reason that a column access through a descriptor is refused before any element, for an access width (R85, R86). -/
def Desc.columnReason (d : Desc) (w : Nat) : Option Nat :=
  if d.rank < 2 then some 2 else if w = 8 then some 4 else if ¬ d.squarePlane w then some 3 else none

/-- An origin as coordinates in mixed radix over the sizes (R89): the outermost keeps the whole quotient. -/
def originCoords : List Nat → Int → List Int
  | [], _ => []
  | [_], o => [o]
  | n :: ns, o => (o % (n : Int)) :: originCoords ns (o / (n : Int))

/-- The coordinates that an origin names. -/
def Desc.coords (d : Desc) (origin : Int) : List Int := originCoords (d.sizes.take d.rank) origin

/-- The address of coordinates, each clamped, and whether one was out of bounds (R89). -/
def Desc.at (d : Desc) (x : List Int) : Word × Bool :=
  let cs := (x.zip (d.sizes.zip d.strides)).map fun c =>
    let n : Int := c.2.1
    (decide (c.1 < 0) || decide (n ≤ c.1), min (max c.1 0) (n - 1) * c.2.2)
  (d.base + BitVec.ofInt 64 ((d.bytes : Int) * (cs.map Prod.snd).sum), cs.any Prod.fst)

/-- Add to one coordinate. -/
def bump (x : List Int) (axis : Nat) (k : Int) : List Int := x.modify axis (· + k)

/-- The address of element e from an origin along an axis (R89). -/
def Desc.addr (d : Desc) (origin : Int) (axis e : Nat) : Word × Bool := d.at (bump (d.coords origin) axis e)

/-- The column conditions of a page, once translated (R85 conditions 5 and 6): the reason that fails. -/
def columnPage (mt : Nat) (sq : BitVec 2) (w : Nat) : Option Nat :=
  if mt ≠ 0 ∨ sq = 0 then some 5
  else if 8 * 2 ^ sq.toNat ≠ w then some 6
  else none

/-- A descriptor register by number. -/
def Vec.desc (v : Vec) (n : BitVec 4) : BitVec 512 := v.d[n.toNat]

/-- The descriptor of a descriptor form. -/
def State.descAt (s : State) (f : WFields) : Desc := descOf (s.h.vec.desc f.desc)

end Sys2Proof.Machine
end

