-- ==== Sys2Proof/Machine/Status.lean ====
section
/-! DEFINITION. The status registers by number (R139, R140, R337): what a read gives and what a write changes, each layout as
its rule states it. Reserved and read-only bits ignore a write and reserved bits read as zero (R2). -/

namespace Sys2Proof.Machine

/-- A bit of a register as a word. -/
def bitAt (b : Bool) (k : Nat) : Nat := if b then 2 ^ k else 0

/-- CPV0 as read (R24): fields for slots beyond the convoy's count read as zero. -/
def Vec.cpv0Read (v : Vec) : Word :=
  if fieldOf v.cpv0 63 1 = 0 then v.cpv0
  else
    let n := fieldOf v.cpv0 60 3 + 2
    v.cpv0 &&& BitVec.ofNat 64 (2 ^ 63 + 7 * 2 ^ 60 + (if n ≤ 3 then 0 else 0xFFFF * 2 ^ 32)
      + (if n ≤ 2 then 0 else 0xFFFF * 2 ^ 16) + 0xFFFF)

/-- CPV1 as read (R25). -/
def Vec.cpv1Read (v : Vec) : Word :=
  if fieldOf v.cpv0 63 1 = 0 then v.cpv1
  else
    let n := fieldOf v.cpv0 60 3 + 2
    v.cpv1 &&& BitVec.ofNat 64 ((if n ≤ 5 then 0 else 0xFFFF * 2 ^ 16) + (if n ≤ 4 then 0 else 0xFFFF))

/-- PEND of ULECAUSE (R39). -/
def Events.pend (e : Events) : Nat :=
  bitAt (!e.engine.isEmpty) 0 + bitAt (!e.apop.isEmpty) 1 + bitAt (!e.checksum.isEmpty) 2 + bitAt (!e.reach.isEmpty) 3

/-- ULECAUSE (R39). -/
def Events.cause (e : Events) : Word :=
  BitVec.ofNat 64 (e.info.toNat * 2 ^ 32 + e.ldn.toNat * 2 ^ 24 + e.pend * 2 ^ 16 + e.code.toNat)

/-- MCKSTAT (R250). -/
def Matrix.mckstat (m : Matrix) : Word :=
  BitVec.ofNat 64 (m.ncol.toNat * 2 ^ 34 + m.nrow.toNat * 2 ^ 26 + bitAt (m.tshape.getLsbD 48) 25 + bitAt m.la 24
    + m.acc[1].log.length * 2 ^ 13 + m.acc[0].log.length * 2 ^ 8 + bitAt m.acc[1].fix.isSome 3 + bitAt m.acc[0].fix.isSome 2
    + bitAt m.pf[1] 1 + bitAt m.pf[0] 0)

/-- SSTATUS (R338). -/
def Supervisor.sstatus (u : Supervisor) : Word :=
  BitVec.ofNat 64 (u.sldn.toNat * 2 ^ 19 + bitAt u.shrunk 16 + bitAt u.pprv 2 + bitAt u.pae 1 + bitAt u.ae 0)

/-- PARTID (R390). -/
def Supervisor.partid (u : Supervisor) : Word :=
  BitVec.ofNat 64 (u.lid.toNat * 2 ^ 32 + u.ctx.toNat * 2 ^ 16 + u.part.toNat)

/-- FBATCH (R368). -/
def Supervisor.fbatch (u : Supervisor) : Word := BitVec.ofNat 64 (u.fbase.toNat * 2 ^ 8 + bitAt u.fmore 5 + u.fcount.toNat)

/-- LANEGRANT (R353). -/
def Supervisor.lanegrant (u : Supervisor) : Word := BitVec.ofNat 64 (u.lgMap.toNat * 2 ^ 4 + groupsOf u.lgMap)

/-- Entries that a hart slot of a core has parked (R373). -/
def Caches.parkedBy (c : Caches) (core slot : Nat) : Nat := c.parked.countP fun p => p.hid.core == core && p.hid.slot == slot

/-- RPQSTAT of a core (R373). -/
def Caches.rpqstat (c : Caches) (core : Nat) : Word :=
  let n := c.parkedBy core
  BitVec.ofNat 64 ((512 - (n 0 + n 1 + n 2 + n 3)) * 2 ^ 40 + n 3 * 2 ^ 30 + n 2 * 2 ^ 20 + n 1 * 2 ^ 10 + n 0)

/-- CLKR of an isle (R435). -/
def Clock.clkr (c : Clock) : Word := BitVec.ofNat 64 (bitAt c.hold 24 + c.ratio % 256 * 2 ^ 8 + c.fwr.toNat)

/-- What a read of a status register of the current hart gives (R140, R337). A firmware register reads as the device holds
it (R435). -/
def State.readStatus (s : State) (n : Nat) : Word :=
  let h := s.h
  match n with
  | 0x000 => h.vec.vl.setWidth 64
  | 0x001 => BitVec.ofNat 64 (bitAt h.vec.vill 63 + bitAt h.su.shrunk 62 + h.vec.vtype.toNat)
  | 0x002 => h.vec.vstart.setWidth 64
  | 0x003 => BitVec.ofNat 64 h.vlmax
  | 0x004 => h.vec.efr
  | 0x005 => h.sc.srseed.setWidth 64
  | 0x006 => h.sc.fflags.setWidth 64
  | 0x007 => h.sc.frm.setWidth 64
  | 0x008 => h.mx.tshape.setWidth 64
  | 0x009 => h.mx.mtol.setWidth 64
  | 0x00A => h.mx.scb[0]
  | 0x00B => h.mx.scs[0].setWidth 64
  | 0x00C => h.mx.scb[1]
  | 0x00D => h.mx.scs[1].setWidth 64
  | 0x00E => h.sc.corr.setWidth 64
  | 0x00F => h.ev.vec
  | 0x010 => h.ev.cause
  | 0x011 => h.ev.epc
  | 0x012 => BitVec.ofNat 64 (bitAt h.ev.inHandler 8 + h.ev.mask.toNat)
  | 0x013 => h.vec.cpv0Read
  | 0x014 => h.vec.cpv1Read
  | 0x015 => h.sc.srstep.setWidth 64
  | 0x016 => h.mx.mckstat
  | 0x018 => s.time
  | 0x019 => if s.tick = s.dev.since then 0 else Config.cycleAt s.tick
  | 0x030 => h.sc.larg
  | 0x100 => h.su.sstatus
  | 0x101 => h.su.scause.setWidth 64
  | 0x102 => h.su.sepc
  | 0x103 => h.su.sval
  | 0x104 => h.su.slane
  | 0x105 => h.su.stvec
  | 0x106 => h.su.sscratch
  | 0x107 => h.su.ptroot
  | 0x108 => h.su.partid
  | 0x109 => h.su.vdirty.setWidth 64
  | 0x10A => BitVec.ofNat 64 (bitAt h.su.mxa 2 + bitAt h.su.va 1)
  | 0x10B => h.su.lanegrant
  | 0x10C => h.su.fbatch
  | 0x10D => s.ca.rpqstat h.hid.core
  | 0x10E => BitVec.ofNat 64 (bitAt h.su.compat 0)
  | 0x10F => h.sc.ldn.setWidth 64
  | 0x208 => s.dev.hmig
  | 0x210 => (s.dev.clock[h.hid.isle]?.map Clock.clkr).getD 0
  | 0x211 => (s.dev.scrubp[h.hid.isle]?.map (BitVec.setWidth 64)).getD 0
  | 0x212 => s.dev.tstate.setWidth 64
  | n =>
    if 0x020 ≤ n ∧ n ≤ 0x025 then h.sc.lc[n - 0x020]?.getD 0
    else if 0x028 ≤ n ∧ n ≤ 0x02D then h.sc.lx[n - 0x028]?.getD 0
    else if 0x040 ≤ n ∧ n ≤ 0x04F then
      (if n % 2 = 0 then h.sc.wpa[(n - 0x040) / 2]?.getD 0 else h.sc.wpc[(n - 0x040) / 2]?.getD 0)
    else if 0x200 ≤ n ∧ n ≤ 0x207 then s.dev.hdrop[n - 0x200]?.getD 0
    else 0

/-- A write of VTYPE (R188): VL is clipped, and VSTART stands. -/
def Vec.writeVtype (v : Vec) (groups : Nat) (x : BitVec 14) : Vec :=
  let v' := { v with vtype := x }
  { v' with vl := if v'.vill then 0 else BitVec.ofNat 15 (min v.vl.toNat (v'.vlmaxAt groups)) }

/-- A write of VL stores min(value, VLMAX) (R184). -/
def Vec.writeVl (v : Vec) (groups : Nat) (x : Word) : Vec := { v with vl := BitVec.ofNat 15 (min x.toNat (v.vlmaxAt groups)) }

/-- A write of MODE is ignored while progress or parked state stands (R348). -/
def State.modeWritable (s : State) : Bool :=
  s.h.vec.vstart == 0 && fieldOf s.h.vec.cpv0 63 1 == 0 && s.h.vec.mf == 0 && !s.ca.parked.any fun p => p.own == s.h.own

/-- A write to a matrix register, which sets VDIRTY.MX unless the supervisor or a debugger makes it (R350). -/
def State.writeMx (s : State) (quiet : Bool) (f : Matrix → Matrix) : State :=
  let s := s.onMx f
  if quiet then s else s.dirty (2 ^ 42)

/-- A write to vector control state, which sets VDIRTY.CTL, unless the supervisor or a debugger makes it
(R350). -/
def State.writeVec (s : State) (quiet : Bool) (f : Vec → Vec) : State := if quiet then s.onVec f else s.setCtl f

/-- A write of a status register of the current hart (R140, R337). `quiet`: by the supervisor or a debugger, so that no VDIRTY
bit is set (R350). A firmware register is written by the steps of the device (R435), not here. -/
def State.writeStatus (s : State) (quiet : Bool) (n : Nat) (v : Word) : State :=
  let g := s.h.groups
  match n with
  | 0x000 => s.writeVec quiet fun x => x.writeVl g v
  | 0x001 => s.writeVec quiet fun x => x.writeVtype g (v.setWidth 14)
  | 0x002 => s.writeVec quiet fun x => { x with vstart := v.setWidth 15 }
  | 0x004 => s.writeVec quiet fun x => { x with efr := v }
  | 0x005 => s.onSc fun x => { x with srseed := v.setWidth 16 }
  | 0x006 => s.onSc fun x => { x with fflags := v.setWidth 5 }
  | 0x007 => s.onSc fun x => { x with frm := v.setWidth 3 }
  | 0x009 => s.writeMx quiet fun x => { x with mtol := v.setWidth 24 }
  | 0x00A => s.writeMx quiet fun x => { x with scb := x.scb.set 0 v }
  | 0x00B => s.writeMx quiet fun x => { x with scs := x.scs.set 0 (v.setWidth 6) }
  | 0x00C => s.writeMx quiet fun x => { x with scb := x.scb.set 1 v }
  | 0x00D => s.writeMx quiet fun x => { x with scs := x.scs.set 1 (v.setWidth 6) }
  | 0x00E => s.onSc fun x => { x with corr := v.setWidth 32 }
  | 0x00F => s.onEv fun x => { x with vec := v &&& ~~~1 }
  | 0x011 => s.onEv fun x => { x with epc := v &&& ~~~1 }
  | 0x012 => s.onEv fun x => { x with mask := v.setWidth 4 }
  | 0x013 => s.writeVec quiet fun x => { x with cpv0 := v &&& 0xF000FFFFFFFFFFFF }
  | 0x014 => s.writeVec quiet fun x => { x with cpv1 := v &&& 0xFFFFFFFF }
  | 0x015 => s.onSc fun x => { x with srstep := v.setWidth 16 }
  | 0x100 => s.onSu fun x =>
      { x with sldn := BitVec.ofNat 5 (fieldOf v 19 5), shrunk := v.getLsbD 16, pprv := v.getLsbD 2, pae := v.getLsbD 1,
               ae := v.getLsbD 0 }
  | 0x101 => s.onSu fun x => { x with scause := v.setWidth 17 }
  | 0x102 => s.onSu fun x => { x with sepc := v &&& ~~~1 }
  | 0x103 => s.onSu fun x => { x with sval := v }
  | 0x104 => s.onSu fun x => { x with slane := v &&& 0x8000FFFF00070307 }
  | 0x105 => s.onSu fun x => { x with stvec := v &&& ~~~0x3F }
  | 0x106 => s.onSu fun x => { x with sscratch := v }
  | 0x107 => s.onSu fun x => { x with ptroot := v &&& ~~~0xFFFF }
  | 0x109 => s.onSu fun x => { x with vdirty := x.vdirty &&& ~~~(v.setWidth 43) }
  | 0x10A => s.onSu fun x => { x with va := v.getLsbD 1, mxa := v.getLsbD 2 }
  | 0x10C => s.onSu fun x => { x with fbase := BitVec.ofNat 44 (fieldOf v 8 44) }
  | 0x10E => if s.modeWritable then s.onSu fun x => { x with compat := v.getLsbD 0 } else s
  | 0x10F => s.onSc fun x => { x with ldn := v.setWidth 5 }
  | n =>
    if 0x020 ≤ n ∧ n ≤ 0x025 then s.onSc fun x => { x with lc := x.lc.setIfInBounds (n - 0x020) v }
    else if 0x028 ≤ n ∧ n ≤ 0x02D then s.onSc fun x => { x with lx := x.lx.setIfInBounds (n - 0x028) v }
    else if 0x040 ≤ n ∧ n ≤ 0x04F then
      (if n % 2 = 0 then s.onSc fun x => { x with wpa := x.wpa.setIfInBounds ((n - 0x040) / 2) v }
       else s.onSc fun x => { x with wpc := x.wpc.setIfInBounds ((n - 0x040) / 2) (v &&& 0xF70F000000000007) })
    else s

/-- Registers that a hart in user mode may not reach: the supervisor's; and the firmware's, in either mode (R335). -/
def statusPrivileged (sup : Bool) (n : Nat) : Bool := decide (0x200 ≤ n) || (!sup && decide (0x100 ≤ n))

/-- Registers of the vector state (R351). -/
def statusVector (n : Nat) : Bool := n ≤ 4 || n == 0x013 || n == 0x014

/-- Registers of the matrix state (R351). -/
def statusMatrix (n : Nat) : Bool := (8 ≤ n && n ≤ 0x00D) || n == 0x016

/-- The checks of a status register instruction after decoding (R335, R351): the cause that fails, if any. -/
def State.statusFault (s : State) (n : Nat) : Option Nat :=
  if statusPrivileged s.h.su.sup n then some 2
  else if !s.h.su.sup && s.h.su.va && statusVector n then some 18
  else if !s.h.su.sup && s.h.su.mxa && statusMatrix n then some 19
  else none

/-- The vector-state registers (R181). -/
def statusOrdered (n : Nat) : Bool := n ≤ 9 || (0x00A ≤ n && n ≤ 0x00D) || (0x013 ≤ n && n ≤ 0x016)

/-- A status register instruction: its checks, then its effect, then its g register if it has one, and it completes (R180). On a
vector-state register it waits until every earlier vector instruction of the hart has completed (R68, R181). `plain`: a `wrsr`, which sets no
VDIRTY bit in supervisor mode (R350). -/
def statusInstr (enc : Nat) (n : BitVec 12) (plain : Bool) (d : Option Reg) (w : Option Word) (s : State) : Out :=
  match s.statusFault n.toNat with
  | some c => .next (s.trapHere { code := c, val := BitVec.ofNat 64 enc })
  | none =>
    if statusOrdered n.toNat && s.vectorBusy then (Stop.block s).out
    else
      let old := s.readStatus n.toNat
      let s := match w with
        | some v => s.writeStatus (plain && s.h.su.sup) n.toNat v
        | none => s
      match d with
      | some d => writeReg 4 d old s
      | none => .next (s.advance 4)

/-- `rdsr` (R180). -/
def execRdsr (d : Reg) (n : BitVec 12) (s : State) : Out := statusInstr (encI 0x0F 4 d 0 n.toNat) n true (some d) none s
/-- `wrsr` (R180). -/
def execWrsr (n : BitVec 12) (r : Reg) (s : State) : Out := statusInstr (encI 0x0F 5 0 r n.toNat) n true none (some (s.g r)) s
/-- `xchsr` (R180). -/
def execXchsr (d : Reg) (n : BitVec 12) (r : Reg) (s : State) : Out :=
  statusInstr (encI 0x0F 6 d r n.toNat) n false (some d) (some (s.g r)) s

end Sys2Proof.Machine
end

