-- ==== Sys2Proof/Machine/Registrar.lean ====
section
/-! DEFINITION. The registrar (chapter 23): acceptance of a launch record, dependences, placement, the grant of `setvl`,
reclaim and pre-emption, suspension, completion and cancellation. -/

namespace Sys2Proof.Machine

/-! ### Harts by number -/

/-- The record of a hart: one that the state lists, or that of a hart that holds nothing yet, with STVEC as firmware loaded it
(R431). -/
def State.hartAt (s : State) (hid : HartId) : Hart :=
  match (s.h :: s.others).find? fun h => h.hid == hid with
  | some h => h
  | none =>
    let h := Hart.idle hid
    { h with su := { h.su with stvec := s.dev.stvecFw[hid.isle]?.getD 0 } }

/-- Put a hart's record in place. -/
def State.putHart (s : State) (h : Hart) : State :=
  if s.h.hid = h.hid then { s with h := h }
  else if s.others.any fun o => o.hid == h.hid then
    { s with others := s.others.map fun o => if o.hid = h.hid then h else o }
  else { s with others := s.others ++ [h] }

/-- Make a hart the one whose turn it is. -/
def State.switchTo (s : State) (hid : HartId) : State :=
  if s.h.hid = hid then s
  else { s with h := s.hartAt hid, others := s.h :: s.others.filter fun o => o.hid != hid }

/-- Apply a function to the state with another hart as the current one. -/
def State.asHart (s : State) (hid : HartId) (f : State → State) : State := (f (s.switchTo hid)).switchTo s.h.hid

/-- A hart when its context has left it: STVEC, FBATCH and the debug block stay with the hart. -/
def Hart.emptied (h : Hart) : Hart :=
  let e := Hart.idle h.hid
  { e with
    su := { e.su with stvec := h.su.stvec, fbase := h.su.fbase, fmore := h.su.fmore, fcount := h.su.fcount }
    dbg := { h.dbg with mmacs := 0, mirrored := 0, run := none, stalled := false } }

/-! ### The launch record -/

/-- The lane groups of a LANES code (R377). -/
def lanesOf (code : Nat) : Nat := match code with | 0 => 1 | 1 => 2 | _ => 4

/-- Quad 3 of a launch record (R377). -/
def Launch.q3 (l : Launch) : Word := quadOf l.record 3
/-- PRIO (R377). -/
def Launch.prio (l : Launch) : Nat := fieldOf l.q3 0 3
/-- LANES (R377). -/
def Launch.lanes (l : Launch) : Nat := lanesOf (fieldOf l.q3 8 2)
/-- DEPK (R377). -/
def Launch.depk (l : Launch) : Nat := fieldOf l.q3 10 2

/-- A loop table (R27, R28): its levels with their counts, or none where it breaks a rule. -/
def parseLoop (q : List Word) : Option (List (BitVec 3 × LoopKind × Nat)) :=
  let hd := q.getD 0 0
  let n := fieldOf hd 0 3
  if fieldOf hd 3 61 ≠ 0 ∨ n = 0 ∨ 6 < n ∨ q.getD 7 0 ≠ 0 then none
  else
    let lv := (List.range 6).map fun i => (i, q.getD (1 + i) 0)
    let ok := lv.all fun x =>
      if n ≤ x.1 then x.2 == 0
      else fieldOf x.2 3 3 == 0 && fieldOf x.2 8 24 == 0 && fieldOf x.2 6 2 != 3 && decide (fieldOf x.2 0 3 < 6)
    let use := lv.take n
    let lcs := use.map fun x => fieldOf x.2 0 3
    let kinds := use.map fun x => fieldOf x.2 6 2
    if ok && lcs.Nodup && decide (kinds.count 1 ≤ 1) && decide (kinds.count 2 ≤ 1) then
      some (use.map fun x =>
        (BitVec.ofNat 3 (fieldOf x.2 0 3),
         (match fieldOf x.2 6 2 with | 0 => .temporal | 1 => .cores | _ => .isles), fieldOf x.2 32 32))
    else none

/-- The address space of a launch (R380). The registrar's own accesses are not user-mode accesses. -/
def launchSpace (part : BitVec 3) (root : Word) : Space := ⟨part, root, true, []⟩

/-- Read quads of a table through an address space; none for a quad whose read faults. A poisoned quad, whose value no reader receives (R400), is
taken as one (DESIGN CHOICE, log 114). -/
def State.readEach (s : State) (sp : Space) (va : Word) (n : Nat) : List (Option Word) :=
  (List.range n).map fun i =>
    match s.translate sp .load (va + BitVec.ofNat 64 (8 * i)) with
    | .ok p => if s.poisoned p.pa 8 then none else some (s.mem.quad p.pa)
    | .error _ => none

/-- The registrar has read quads of a table: the leaf entries are marked (R363), and watchpoints see each read (R415). -/
def State.registrarSees (s : State) (sp : Space) (va : Word) (n : Nat) : State :=
  (List.range n).foldl (fun s i =>
    let a := va + BitVec.ofNat 64 (8 * i)
    match s.translate sp .load a with
    | .ok p => (s.markLeaf sp a p false).watchHome sp.part .registrar ⟨0, 0, s.tick⟩ p.pa 8 ⟨true, false, false⟩
    | .error _ => s) s

/-- The registrar has read the tables of a launch record, those that it can read (R378, R381). -/
def State.tablesSeen (s : State) (part : BitVec 3) (root : Word) (r : BitVec 512) : State :=
  let sp := launchSpace part root
  let aligned (k : Nat) : Bool := quadOf r k != 0 && (quadOf r k).toNat % 64 == 0
  let s := if aligned 1 then s.registrarSees sp (quadOf r 1) 8 else s
  if aligned 6 then s.registrarSees sp (quadOf r 6) 16 else s

/-- Read quads of a table through an address space, or none where an access faults. -/
def State.readQuads (s : State) (sp : Space) (va : Word) (n : Nat) : Option (List Word) := (s.readEach sp va n).mapM id

/-- The isle whose telemetry counts what the registrar of a partition drops: the partition's lowest (DESIGN CHOICE, log 93). -/
def State.registrarIsle (s : State) (part : BitVec 3) : Nat := (s.part part).base.toNat

/-- Write a report record (R379); a write that faults is dropped and counted. -/
def State.report (s : State) (part : BitVec 3) (root rpt : Word) (lid corr reason st : Nat) : State :=
  if rpt = 0 ∨ rpt.toNat % 16 ≠ 0 then s
  else
    let sp := launchSpace part root
    match s.translate sp .store rpt with
    | .error _ => s.count (s.registrarIsle part) fun t => { t with reportDrops := t.reportDrops + 1 }
    | .ok p =>
      let bs := leBytes 8 (lid * 2 ^ 32 + reason * 2 ^ 8 + st) ++ leBytes 8 corr
      ((s.markLeaf sp rpt p true).sendWrite false sp .registrar ⟨0, 0, s.tick⟩ rpt p.pa p.sq (.store bs) none).1.flushPart part

/-- A launch that is accepted and whose completion is not yet published. -/
def Launch.open_ (l : Launch) (part : BitVec 3) : Bool := l.part == part && !l.fin

/-- The reasons of R378 that apply to a record. -/
def State.refusals (s : State) (part : BitVec 3) (root : Word) (r : BitVec 512) : List Nat :=
  let q (i : Nat) := quadOf r i
  let q3 := q 3
  let depk := fieldOf q3 10 2
  let sp := launchSpace part root
  let loopT := if (q 1).toNat % 64 = 0 then some (s.readQuads sp (q 1) 8) else none
  let binds := if q 6 ≠ 0 ∧ (q 6).toNat % 64 = 0 then s.readEach sp (q 6) 16 else []
  let bound := ((binds.drop 1).filterMap id).filter (· != 0)
  let pa (va : Word) : Option Nat := match s.translate sp .load va with
    | .ok p => some p.pa
    | .error _ => none
  let when_ (c : Bool) (n : Nat) : List Nat := if c then [n] else []
  when_ (fieldOf q3 12 20 != 0 || fieldOf q3 7 1 != 0 || fieldOf q3 3 1 != 0 || depk == 3 || fieldOf q3 8 2 == 3
      || (depk == 0 && q 4 != 0) || (depk == 1 && fieldOf (q 4) 32 32 != 0) || (depk != 2 && q 5 != 0)) 1
  ++ when_ ((q 0).toNat % 2 != 0 || (q 1).toNat % 64 != 0 || (q 6).toNat % 64 != 0 || (depk == 2 && (q 4).toNat % 64 != 0)
      || (q 7).toNat % 16 != 0) 2
  ++ when_ (match loopT with | some (some t) => (parseLoop t).isNone | _ => false) 3
  ++ when_ (fieldOf q3 4 3 != part.toNat) 4
  ++ when_ (decide (4096 ≤ s.rg.launches.countP (·.open_ part))) 5
  ++ when_ ((binds.head?.join.getD 0) != 0 || bound.any fun b => b.toNat % 64 != 0) 6
  ++ when_ (depk == 2 && !(bound.contains (q 4) || (match pa (q 4) with | some p => bound.any (fun b => pa b == some p) | none => false))) 7
  ++ when_ (loopT == some none || binds.any Option.isNone || bound.any (fun b => (pa b).isNone) || (depk == 2 && (pa (q 4)).isNone)) 8

/-- Change the open launch of an identifier. -/
def Registrar.onLaunch (r : Registrar) (part : BitVec 3) (lid : BitVec 32) (f : Launch → Launch) : Registrar :=
  { r with launches := r.launches.map fun (l : Launch) => if l.part = part ∧ l.lid = lid ∧ ¬ l.fin then f l else l }

/-- Publish the completion of a launch (R34, R379). -/
def State.completeLaunch (s : State) (l : Launch) : State :=
  let s := s.report l.part l.root (quadOf l.record 7) l.lid.toNat (fieldOf l.q3 32 32) 0 (if l.cancelled then 4 else 3)
  { s with rg := s.rg.onLaunch l.part l.lid fun x => { x with fin := true } }

/-- Accept or refuse a launch record whose tables have been read (R378-R382): the state, and the identifier or 0. -/
def State.judge (s : State) (part : BitVec 3) (root : Word) (r : BitVec 512) : State × BitVec 32 :=
  let corr := fieldOf (quadOf r 3) 32 32
  match (s.refusals part root r).head? with
  | some reason => (s.report part root (quadOf r 7) 0 corr reason 2, 0)
  | none =>
    let sp := launchSpace part root
    let pa (va : Word) : Nat := match s.translate sp .load va with
      | .ok p => p.pa
      | .error _ => 0
    let loops := ((s.readQuads sp (quadOf r 1) 8).bind parseLoop).getD []
    let binds := if quadOf r 6 = 0 then [] else (s.readQuads sp (quadOf r 6) 16).getD []
    let cells := (binds.zipIdx.filter fun b => b.1 != 0).map fun b => (b.2, b.1, pa b.1)
    let depCell := if fieldOf (quadOf r 3) 10 2 = 2 then some (pa (quadOf r 4)) else none
    let lid := s.rg.nextLid[part.toNat]
    let find (p : Launch → Bool) : Option Nat := (s.rg.launches.zipIdx.reverse.find? fun x => p x.1).map Prod.snd
    let producer := match depCell with
      | none => none
      | some c => find fun x => x.part == part && (x.cells.any fun k => k.2.2 == c) && x.depCell != some c
    let named := if fieldOf (quadOf r 3) 10 2 = 1 then
        find fun x => x.open_ part && x.lid.toNat == fieldOf (quadOf r 4) 0 32
      else none
    let cnt (k : LoopKind) := (loops.find? fun x => x.2.1 == k).map fun x => x.2.2
    let l : Launch :=
      { part := part, lid := lid, record := r, root := root, kinds := loops.map fun x => (x.1, x.2.1),
        isleCnt := cnt .isles, coreCnt := cnt .cores, cells := cells, depCell := depCell, producer := producer, named := named,
        placed := false, cancelled := false, fin := false, harts := 0 }
    let empty := loops.any fun x => x.2.1 != .temporal && x.2.2 == 0
    let l := if empty then { l with placed := true } else l
    let s := { s with rg := { s.rg with
      launches := s.rg.launches ++ [l]
      nextLid := s.rg.nextLid.set part.toNat (if lid = 0xFFFFFFFF then 1 else lid + 1) } }
    let s := s.report part root (quadOf r 7) lid.toNat corr 0 1
    (if empty then s.completeLaunch l else s, lid)

/-- Accept or refuse a launch record (R378-R382): the registrar reads its tables once, and judges it. -/
def State.submit (s : State) (part : BitVec 3) (root : Word) (r : BitVec 512) : State × BitVec 32 :=
  let t := s.judge part root r
  (t.1.tablesSeen part root r, t.2)

/-! ### Entries and readiness -/

/-- What stands in a queue (R383): an unplaced record or a suspended context. -/
inductive Entry where
  | fresh (l : Launch)
  | out (c : Suspended) (l : Launch)
  deriving DecidableEq, Repr

/-- The launch of an entry. -/
def Entry.launch : Entry → Launch
  | .fresh l => l
  | .out _ l => l

/-- The context of a suspended entry. -/
def Entry.ctx : Entry → Option (BitVec 16)
  | .fresh _ => none
  | .out c _ => some c.own.ctx

/-- The dependence of an entry is met (R37, R382, R383): the launch it names was settled as it was accepted. A poisoned cell gives no value, and so
meets nothing (R400; DESIGN CHOICE, log 114). -/
def State.ready (s : State) (e : Entry) : Bool :=
  match e with
  | .out _ _ => true
  | .fresh l =>
    let met (n : Option Nat) (ok : Launch → Bool) : Bool := match n.bind fun i => s.rg.launches[i]? with
      | none => true
      | some x => ok x
    match l.depk with
    | 1 => met l.named fun x => x.fin || x.cancelled
    | 2 => met l.producer (fun x => x.placed || x.cancelled) && !s.poisoned (l.depCell.getD 0) 8
        && decide ((quadOf l.record 5).toNat ≤ (s.mem.quad (l.depCell.getD 0)).toNat)
    | _ => true

/-- A suspended context with the hart slot that its parked entries bind it to now (R374). -/
def State.refresh (s : State) (c : Suspended) : Suspended :=
  { c with parked := (s.ca.parked.find? fun p => p.own == c.own).map (·.hid) }

/-- The entries of a priority in their order (R383): suspended contexts by the age of their launch, then unplaced records. Several contexts of
one launch stand in the order in which they were suspended; the spec gives none (DESIGN CHOICE, log 115). -/
def State.entriesAt (s : State) (part : BitVec 3) (prio : Nat) : List Entry :=
  let ls := s.rg.launches.filter fun l => l.part == part && l.prio == prio
  (ls.flatMap fun l => (s.rg.suspended.filter fun c => c.own.part == part && c.lid == l.lid && !l.fin).map fun c => .out (s.refresh c) l)
  ++ (ls.filter fun l => !l.placed && !l.cancelled && !l.fin).map .fresh

/-- The registrar has found that it cannot place an entry (R384). -/
def State.isStuck (s : State) (e : Entry) : Bool :=
  s.rg.stuck.any fun x => x.part == e.launch.part && x.lid == e.launch.lid && x.ctx == e.ctx

/-- The ready entries of a priority that may be placed (R384): in their order, but nothing before one that could not be placed. -/
def State.mayPlace (s : State) (part : BitVec 3) (prio : Nat) : List Entry :=
  let es := (s.entriesAt part prio).filter s.ready
  match es.find? s.isStuck with
  | some e => [e]
  | none => es

/-- The entry that the registrar considers first (R384): none of a lower priority is placed before it. -/
def State.firstReady (s : State) (part : BitVec 3) : Option Entry :=
  ([7, 6, 5, 4, 3, 2, 1, 0].flatMap fun p => s.mayPlace part p).head?

/-! ### Slots and groups -/

/-- Free slice positions of each lane group of a core, two per group (R10). -/
def freeSlices (hs : List Hart) (core : Nat) : List Nat :=
  (List.range 4).map fun i => 2 - hs.countP fun h => h.hid.core == core && h.su.lgMap.getLsbD i

/-- The lowest-numbered groups with a free position, `g` of them (R385 step 4). -/
def lowestGroups (free : List Nat) (g : Nat) : List Nat := ((List.range 4).filter fun i => 0 < free.getD i 0).take g

/-- Free positions after the groups are taken. -/
def takeGroups (free : List Nat) (gs : List Nat) : List Nat := free.zipIdx.map fun x => if gs.contains x.2 then x.1 - 1 else x.1

/-- Free positions after the groups are given back. -/
def giveGroups (free : List Nat) (gs : List Nat) : List Nat := free.zipIdx.map fun x => if gs.contains x.2 then x.1 + 1 else x.1

/-- A map of groups. -/
def mapOf (gs : List Nat) : BitVec 4 := BitVec.ofNat 4 ((gs.map fun i => 2 ^ i).sum)

/-- The groups of a map. -/
def groupList (m : BitVec 4) : List Nat := (List.range 4).filter fun i => m.getLsbD i

/-- Hand out groups to the slots of a core in order while each finds `g` groups (R385). -/
def fillCore (g : Nat) : List Nat → List HartId → List (HartId × List Nat)
  | _, [] => []
  | free, h :: hs =>
    let gs := lowestGroups free g
    if gs.length < g then [] else (h, gs) :: fillCore g (takeGroups free gs) hs

/-- The hart slots of a core that hold no context. -/
def emptySlots (hs : List Hart) (core : Nat) : List HartId :=
  ((List.range 4).map fun t => BitVec.ofNat 13 (core * 4 + t)).filter fun h => !hs.any fun x => x.hid == h

/-- Whether a reservation is for an entry. -/
def Reserve.forEntry (r : Reserve) (e : Entry) : Bool := r.part == e.launch.part && r.lid == e.launch.lid && r.ctx == e.ctx

/-- Reservations of other entries (R387). -/
def State.foreign (s : State) (e : Entry) : List Reserve := s.rg.reserve.filter fun r => !r.forEntry e

/-- The free slice positions of a core that an entry may use: those that a hart freed or shrunk for another entry has given up are not
among them (R387). -/
def State.freeFor (s : State) (e : Entry) (core : Nat) : List Nat :=
  (freeSlices s.harts core).zipIdx.map fun x =>
    x.1 - (s.foreign e).countP fun r => r.hid.core == core && r.groups.getLsbD x.2
      && !s.harts.any fun h => h.hid == r.hid && h.su.lgMap.getLsbD x.2

/-- The hart slots of a core that an entry may use (R385, R387). -/
def State.emptyFor (s : State) (e : Entry) (core : Nat) : List HartId :=
  (emptySlots s.harts core).filter fun h => !(s.foreign e).any fun r => r.hid == h

/-- The placeable slots of an isle for `g` groups, with the groups each would get (R385, R387). -/
def State.slotsOf (s : State) (e : Entry) (isle g : Nat) (ok : HartId → Bool) : List (HartId × List Nat) :=
  (List.range 256).flatMap fun c =>
    let core := isle * 256 + c
    fillCore g (s.freeFor e core) ((s.emptyFor e core).filter ok)

/-- Whether a slot lies where R391 lets an entry go. `gone`: harts that are taken to have left. -/
def State.bound (s : State) (e : Entry) (gone : Hart → Bool) (hid : HartId) : Bool :=
  match e with
  | .fresh _ => true
  | .out c _ =>
    (match c.pinned with | none => true | some k => hid.classroom == k)
    && (!c.whole || (s.un.matrix.filter fun u => u.core / 8 == hid.classroom).all fun u => match u.holder with
        | none => true
        | some o => s.harts.any fun h => h.own == o && gone h)
    && (match c.parked with | none => true | some h => h == hid)

/-- The grants to try for an entry, greatest first (R385, R391). -/
def Entry.grants : Entry → List Nat
  | .fresh l => [l.lanes]
  | .out c l => match c.needG with
    | some g => [g]
    | none => [4, 2, 1].filter fun g => g ≤ l.lanes

/-! ### Placement -/

/-- Sort by a strict order. -/
def insertBy {α : Type} (lt : α → α → Bool) (x : α) : List α → List α
  | [] => [x]
  | y :: ys => if lt x y then x :: y :: ys else y :: insertBy lt x ys

/-- Sort by a strict order. -/
def sortBy {α : Type} (lt : α → α → Bool) (xs : List α) : List α := xs.foldr (insertBy lt) []

/-- A hart as a placed context begins (R33, R385). -/
def Hart.start (old : Hart) (l : Launch) (ctx : BitVec 16) (gs : List Nat) (isles j harts hx : Nat) : Hart :=
  let e := old.emptied
  let wm := (List.range 16).map fun k => ((l.cells.find? fun c => c.1 == k).map fun c => c.2.1).getD 0
  { e with
    live := true
    sc := { e.sc with pc := quadOf l.record 0, larg := quadOf l.record 2, corr := BitVec.ofNat 32 (fieldOf l.q3 32 32) }
    su := { e.su with ptroot := l.root, lid := l.lid, ctx := ctx, part := l.part, lgMap := mapOf gs }
    ct := { e.ct with isles := isles, isleIx := j, harts := harts, hartIx := hx, kinds := l.kinds, prio := l.prio,
                      lanes := l.lanes, lastG := gs.length, wm := Vector.ofFn fun k => wm.getD k.val 0 } }

/-- The next context number of a partition that no hart or suspended context uses (R390). -/
def State.freshCtx (s : State) (part : BitVec 3) : Nat → BitVec 16 → BitVec 16
  | 0, c => c
  | n + 1, c =>
    if s.harts.any (fun h => h.su.part == part && h.su.ctx == c) || s.rg.suspended.any (fun x => x.own == ⟨part, c⟩)
    then s.freshCtx part n (c + 1) else c

/-- Place one hart of a launch. -/
def State.placeOne (s : State) (l : Launch) (hid : HartId) (gs : List Nat) (isles j harts hx : Nat) : State :=
  let c := s.freshCtx l.part 65536 (s.rg.nextCtx[l.part.toNat])
  let s := s.putHart ((s.hartAt hid).start l c gs isles j harts hx)
  { s with rg := { s.rg with nextCtx := s.rg.nextCtx.set l.part.toNat (c + 1) } }

/-- The slots that R385 takes for an unplaced record: per isle, in order; empty where it cannot be placed. -/
def State.plan (s : State) (l : Launch) : List (Nat × List (HartId × List Nat)) :=
  let isles := (List.range 8).filter fun i => (s.part l.part).has i
  let per := (isles.map fun i => (i, s.slotsOf (.fresh l) i l.lanes fun _ => true)).filter fun x => !x.2.isEmpty
  let n := match l.isleCnt with
    | some c => min c per.length
    | none => min 1 per.length
  let best := (sortBy (fun a b => decide (b.2.length < a.2.length) || (b.2.length == a.2.length && decide (a.1 < b.1))) per).take n
  let used := sortBy (fun a b => decide (a.1 < b.1)) best
  let few := (used.map fun x => x.2.length).foldl min 1024
  let h := match l.coreCnt with
    | some c => min c few
    | none => 1
  used.map fun x => (x.1, x.2.take h)

/-- Withdraw the reservations and marks made for an entry (R387): it no longer waits to be placed (R384). -/
def State.withdraw (s : State) (part : BitVec 3) (lid : BitVec 32) (ctx : Option (BitVec 16)) : State :=
  let mine := s.rg.reserve.filter fun r => r.part == part && r.lid == lid && r.ctx == ctx
  let s := mine.foldl (fun s r => s.onHart r.hid fun h => { h with mark := none }) s
  { s with rg := { s.rg with
    reserve := s.rg.reserve.filter fun r => !mine.contains r
    stuck := s.rg.stuck.filter fun x => !(x.part == part && x.lid == lid && x.ctx == ctx) } }

/-- Place an unplaced record (R385). -/
def State.placeFresh (s : State) (l : Launch) : Option State :=
  match s.plan l with
  | [] => none
  | used =>
    let n := (used.map fun x => x.2.length).foldl max 0
    let s := used.zipIdx.foldl (fun s x => x.1.2.zipIdx.foldl (fun s y =>
      s.placeOne l y.1.1 y.1.2 used.length x.2 n y.2) s) s
    let s := { s with rg := s.rg.onLaunch l.part l.lid fun x => { x with placed := true, harts := used.length * n } }
    some (s.withdraw l.part l.lid none)

/-- A hart as a suspended context resumes on it (R391). What has been posted while it was out waits for `vrest.ctl`. -/
def Hart.resume (old : Hart) (c : Suspended) (gs : List Nat) : Hart :=
  let e := old.emptied
  { e with
    live := true
    sc := { e.sc with pc := c.pc }
    su := { e.su with sup := true, sscratch := c.scratch, ptroot := c.root, lid := c.lid, ctx := c.own.ctx, part := c.own.part,
                      lgMap := mapOf gs, va := true, mxa := true }
    ct := { e.ct with prio := c.prio, lanes := c.lanes, lastG := c.ct.lastG, ties := ⟨c.needG, c.whole⟩, posted := c.ct.posted }
    pend := c.pend
    dbg := { e.dbg with mmacs := c.mmacs, mirrored := c.mirrored } }

/-- Place a suspended context (R391). Of several slots that allow the greatest grant it takes the one on the lowest isle, lowest in hart
identifier; the spec does not say which (DESIGN CHOICE, log 116). -/
def State.placeOut (s : State) (c : Suspended) (l : Launch) : Option State :=
  let isles := (List.range 8).filter fun i => (s.part c.own.part).has i
  let found := (Entry.out c l).grants.findSome? fun g => isles.findSome? fun i =>
    (s.slotsOf (.out c l) i g (s.bound (.out c l) fun _ => false)).head?
  match found with
  | none => none
  | some (hid, gs) =>
    let s := s.putHart ((s.hartAt hid).resume c gs)
    let s := { s with rg := { s.rg with suspended := s.rg.suspended.filter fun x => x.own != c.own } }
    some (s.withdraw c.own.part c.lid (some c.own.ctx))

/-- Place an entry. -/
def State.placeEntry (s : State) (e : Entry) : Option State :=
  match e with
  | .fresh l => s.placeFresh l
  | .out c l => s.placeOut c l

/-! ### Reclaim and pre-emption -/

/-- The age of a launch: its place in the acceptance order. -/
def State.age (s : State) (part : BitVec 3) (lid : BitVec 32) : Nat :=
  s.rg.launches.findIdx fun l => l.part == part && l.lid == lid && !l.fin

/-- The hart slot that an entry is bound to (R374). -/
def Entry.slot : Entry → Option HartId
  | .fresh _ => none
  | .out c _ => c.parked

/-- A hart may be displaced for an entry by priority (R387, R388). -/
def State.below (s : State) (e : Entry) (h : Hart) : Bool :=
  decide (h.ct.prio < e.launch.prio)
    || (e.slot.isSome && h.ct.prio == e.launch.prio && decide (s.age e.launch.part e.launch.lid < s.age h.su.part h.su.lid))

/-- Whether freeing every candidate of a core leaves an entry room for `g` groups (R387). -/
def State.roomWith (s : State) (e : Entry) (core g : Nat) (cand : Hart → Bool) : Bool :=
  let free := (s.harts.filter fun h => h.hid.core == core && cand h).foldl (fun f h => giveGroups f (groupList h.su.lgMap)) (s.freeFor e core)
  (lowestGroups free g).length == g

/-- Some slot of a core can hold an entry with `g` groups once every candidate has gone (R387). -/
def State.yields (s : State) (e : Entry) (core g : Nat) (cand : Hart → Bool) : Bool :=
  s.roomWith e core g cand
    && ((s.emptyFor e core) ++ (s.harts.filter fun h => h.hid.core == core && cand h).map (·.hid)).any (s.bound e cand)

/-- A hart holds a matrix unit of the classroom of a core (R234). -/
def State.unitHeldBy (s : State) (h : Hart) (core : Nat) : Bool :=
  s.un.matrix.any fun u => u.core / 8 == core / 8 && u.holder == some h.own

/-- The victims that R387 may choose, in its order: candidates whose slot and groups, or whose matrix units for a context with
TSHAPE.C = 1, can yield a place for the entry. A hart that is reserved for another entry is none: what it gives is that entry's. -/
def State.victims (s : State) (e : Entry) (g : Nat) : List Hart :=
  let hs := s.harts
  let cand (h : Hart) : Bool := h.su.part == e.launch.part && !h.dbg.halted && s.below e h && !(s.foreign e).any fun r => r.hid == h.hid
  let whole := match e with
    | .fresh _ => false
    | .out c _ => c.whole
  let ok := hs.filter fun h =>
    cand h && h.mark.isNone && !(h.pend.any fun p => p.code == 32)
      && (s.yields e h.hid.core g cand
        || (whole && (List.range' (h.hid.classroom * 8) 8).any fun core => s.unitHeldBy h core && s.yields e core g cand))
  sortBy (fun a b =>
    decide (a.ct.prio < b.ct.prio) || (a.ct.prio == b.ct.prio &&
      (decide (s.age b.su.part b.su.lid < s.age a.su.part a.su.lid) ||
        (s.age b.su.part b.su.lid == s.age a.su.part a.su.lid && decide (b.hid < a.hid))))) ok

/-- Raise an asynchronous cause at a hart. -/
def Hart.raise (h : Hart) (code sub : Nat) (val : Word) : Hart :=
  { h with pend := h.pend ++ [{ code := code, sub := sub, sval := val, batch := [] }] }

/-- Pre-empt a hart (R387, R388). A mark on it is withdrawn. -/
def State.preempt (s : State) (hid : HartId) (sub : Nat) : State :=
  s.onHart hid fun h => { h.raise 32 sub 0 with mark := none }

/-- Reserve a hart, and the groups that it gives up, for an entry (R387). -/
def State.reserve (s : State) (e : Entry) (hid : HartId) (gs : List Nat) : State :=
  { s with rg := { s.rg with reserve := s.rg.reserve ++ [⟨e.launch.part, e.launch.lid, e.ctx, hid, mapOf gs⟩] } }

/-- The shrinks of a core's victims that free `g` positions, in victim order (R387): a victim, its target and the groups it gives up. A
victim that frees nothing needed is passed over. -/
def shrinkPlan (g : Nat) : List Nat → List Hart → Option (List (HartId × Nat × List Nat))
  | free, [] => if (lowestGroups free g).length = g then some [] else none
  | free, h :: hs =>
    if (lowestGroups free g).length = g then some []
    else
      let own := groupList h.su.lgMap
      let gain (t : Nat) : Nat := (lowestGroups (giveGroups free (own.drop t)) g).length
      let opts := [2, 1].filter fun t => t < own.length
      match opts.find? fun t => gain t == gain 1 && decide ((lowestGroups free g).length < gain t) with
      | none => shrinkPlan g free hs
      | some t => (shrinkPlan g (giveGroups free (own.drop t)) hs).map fun p => (h.hid, t, own.drop t) :: p

/-- Begin reclaim for a ready entry that cannot be placed (R387, R388); nothing while earlier victims have not answered. -/
def State.reclaim (s : State) (e : Entry) : State :=
  let mine := s.rg.reserve.filter (·.forEntry e)
  let hs := s.harts
  if mine.any fun r => hs.any fun h => h.hid == r.hid && (h.mark.isSome || (h.pend.any fun p => p.code == 32) || h.su.sup) then s
  else
    let g := (e.grants.getLast?).getD 1
    let out (v : Hart) (sub : Nat) : State := (s.preempt v.hid sub).reserve e v.hid (groupList v.su.lgMap)
    match s.victims e g with
    | [] => s
    | v :: vs =>
      match e.slot with
      | some slot =>
        match (v :: vs).find? fun h => h.hid == slot with
        | some h => out h 3
        | none => if hs.any fun h => h.hid == slot then s else out v 3
      | none =>
        let core := v.hid.core
        let marks := if (s.emptyFor e core).all fun h => !s.bound e (fun _ => false) h then none
          else shrinkPlan g (s.freeFor e core) ((v :: vs).filter fun h => h.hid.core == core)
        match marks with
        | some (m :: ms) => (m :: ms).foldl (fun s m => (s.onHart m.1 fun h => { h with mark := some m.2.1 }).reserve e m.1 m.2.2) s
        | _ => out v 1

/-- The registrar notes that it cannot place an entry (R384). -/
def State.noteStuck (s : State) (e : Entry) : State :=
  if s.isStuck e then s else { s with rg := { s.rg with stuck := s.rg.stuck ++ [⟨e.launch.part, e.launch.lid, e.ctx⟩] } }

/-- `PLACEMENT`: the registrar of a partition considers its queues (R384): it places the first ready entry, or begins reclaim for
it. No hart is placed before boot is complete (R431). -/
def execPlacement (part : BitVec 3) (s : State) : Out :=
  if !s.dev.boot.running then .next s
  else match s.firstReady part with
    | none => .next s
    | some e => match s.placeEntry e with
      | some s' => .next s'
      | none => .next ((s.noteStuck e).reclaim e)

/-- `RECLAIM_DEADLINE`: 20,000 cycles have passed since a mark without a `setvl` that met it (R44, R387); not while halted
(R410). -/
def execReclaimDeadline (hid : HartId) (s : State) : Out :=
  let h := s.hartAt hid
  if h.live ∧ h.mark.isSome ∧ ¬ h.dbg.halted then .next (s.preempt hid 2) else .next s

/-! ### The grant of `setvl` -/

/-- The groups that a `setvl` leaves the current hart (R386), and whether a mark was met. -/
def State.grant (s : State) (keep : Bool) : BitVec 4 × Bool :=
  let own := groupList s.h.su.lgMap
  if keep then (s.h.su.lgMap, false)
  else match s.h.mark with
    | some t => (mapOf (own.take t), true)
    | none =>
      if own.length < s.h.ct.lanes ∧ (s.firstReady s.h.su.part).isNone then
        let free := freeSlices s.harts s.h.hid.core
        let more := (List.range 4).filter fun i => !own.contains i && decide (0 < free.getD i 0)
        let n := ([4, 2, 1].find? fun g => decide (g ≤ s.h.ct.lanes) && decide (g ≤ own.length + more.length)).getD own.length
        if own.length < n then (mapOf (own ++ more.take (n - own.length)), false) else (s.h.su.lgMap, false)
      else (s.h.su.lgMap, false)

/-- The bits of a register that a change of grant keeps (R186). -/
def keepBits (groups : Nat) (x : VReg) : VReg := x &&& BitVec.ofNat 16384 (2 ^ (4096 * groups) - 1)

/-- Give the current hart a new map of lane groups (R186, R350, R354): every vector and mask register keeps its low bits, and
VDIRTY[40:0] is set when G changes. -/
def State.regrant (s : State) (map : BitVec 4) : State :=
  let g := groupsOf s.h.su.lgMap
  let g' := groupsOf map
  let s' := s.onSu fun u => { u with lgMap := map }
  if g = g' then s'
  else
    (s'.onVec fun v => { v with v := v.v.map (keepBits (min g g')), m := v.m.map (keepBits (min g g')), mf := keepBits (min g g') v.mf }).dirty
      (2 ^ 41 - 1)

/-! ### Suspension, end, cancellation -/

/-- Remove every pin of a context (R241, R392). -/
def Caches.unpin (c : Caches) (o : CtxRef) : Caches := { c with pins := c.pins.filter fun p => p.own != o }

/-- A context lets go of every matrix unit it holds or waits for (R234). -/
def Units.letGo (u : Units) (o : CtxRef) : Units :=
  { u with matrix := u.matrix.map fun m =>
      { m with holder := if m.holder = some o then none else m.holder, waiters := m.waiters.filter (· != o) } }

/-- A context's stack binding, and what its spill engine has written back, are gone. -/
def Units.unbind (u : Units) (o : CtxRef) : Units :=
  { u with binds := u.binds.filter fun b => b.1 != o, spilled := u.spilled.filter fun x => x.own != o }

/-- Drop the open sweep members of a context (R276). Its elements are rolled back by the caller. -/
def Units.dropVisits (u : Units) (o : CtxRef) : Units :=
  { u with sets := u.sets.map fun r => { r with visits := r.visits.filter fun v => v.own != o } }

/-- An injection record of KIND 1 or 2 clears once every hart of its launch has passed its instruction or ended (R408). -/
def State.clearInjections (s : State) : State :=
  { s with dev := { s.dev with inject := s.dev.inject.filter fun r =>
      let lid := r.record.extractLsb' 32 32
      let kind := (r.record.extractLsb' 24 8).toNat
      let ord := (r.record.extractLsb' 0 24).toNat
      let hs := s.harts.filter fun h => h.su.part == r.part && h.su.lid == lid
      let out := s.rg.suspended.filter fun c => c.own.part == r.part && c.lid == lid
      let placed := s.rg.launches.any fun l => l.part == r.part && l.lid == lid && l.placed && !l.fin
      let past (a b : Nat) : Bool := decide (ord ≤ if kind = 1 then a else b)
      !(placed && (kind == 1 || kind == 2) && hs.all (fun h => past h.dbg.mmacs h.dbg.mirrored)
          && out.all fun c => past c.mmacs c.mirrored) } }

/-- A hart that leaves gives all its groups to the entry it is reserved for (R387). -/
def Registrar.gives (r : Registrar) (h : Hart) : Registrar :=
  { r with reserve := r.reserve.map fun x => if x.hid = h.hid then { x with groups := x.groups ||| h.su.lgMap } else x }

/-- The current hart's context ends (R34): the hart and its groups are free, and its launch has one hart less. -/
def State.endHart (s : State) : State :=
  let h := s.h
  let s := { s with
    h := h.emptied
    ca := s.ca.unpin h.own
    un := (s.un.letGo h.own).unbind h.own
    rg := (s.rg.onLaunch h.su.part h.su.lid fun l => { l with harts := l.harts - 1 }).gives h }
  s.clearInjections

/-- `LAUNCH_COMPLETE`: every placed hart has ended, and completion is published (R34, R392). -/
def execLaunchComplete (part : BitVec 3) (lid : BitVec 32) (s : State) : Out :=
  match s.rg.launches.find? fun l => l.part == part && l.lid == lid && !l.fin with
  | none => .next s
  | some l => if (l.placed ∨ l.cancelled) ∧ l.harts = 0 then .next (s.completeLaunch l) else .next s

/-- Suspend the context of the current hart (R389): it rejoins its queue, and the hart, its slot and its groups are free. A hart of
a cancelled launch ends instead (R392). Causes that stand pending at it go with it; what asked for the hart is answered. While VSTATE says that
its vector or matrix state is still absent (R351), what bound it as it resumed binds it still. -/
def State.suspend (s : State) : State :=
  let h := s.h
  let pins := s.ca.pins.filter fun p => p.own == h.own
  let parked := s.ca.parked.find? fun p => p.own == h.own
  let prog := h.vec.vstart != 0 || fieldOf h.vec.cpv0 63 1 == 1 || h.vec.mf != 0
  let c : Suspended :=
    { own := h.own, lid := h.su.lid, prio := h.ct.prio, lanes := h.ct.lanes, pc := s.g 10, scratch := s.g 11,
      needG := if prog then some h.groups else if h.su.va then h.ct.ties.needG else none
      pinned := if pins.isEmpty then none else some h.hid.classroom
      whole := h.mx.tshape.getLsbD 48 || (h.su.mxa && h.ct.ties.whole)
      parked := parked.map (·.hid)
      root := h.su.ptroot
      ct := h.ct, pend := h.pend.filter fun p => p.code != 32, mmacs := h.dbg.mmacs, mirrored := h.dbg.mirrored }
  { s with
    h := h.emptied
    un := s.un.letGo h.own
    rg := { s.rg with suspended := s.rg.suspended ++ [c] }.gives h }

end Sys2Proof.Machine
end

