-- ==== Sys2Proof/Machine/Boot.lean ====
section
/-! DEFINITION. Reset, boot and the firmware's loads (R4, R431, R432, R434, R435), bank drops (R402-R404), scrubbing and links. -/

namespace Sys2Proof.Machine

/-! ### Boot -/

/-- What verification makes of an image (R432): its version, or the reason of BSTAT. -/
def verifyImage (img : List Byte) (floor : BitVec 32) : Except Nat (BitVec 32) :=
  let hd := img.take 2048
  let body := img.drop 2048
  let version := BitVec.ofNat 32 (leNat ((hd.drop 4).take 4))
  if hd.length < 2048 ∨ leNat (hd.take 4) ≠ 0x31485647 ∨ leNat ((hd.drop 8).take 8) ≠ body.length
      ∨ ¬ ((hd.drop 64).take 64).all (· == 0) ∨ ¬ (hd.drop 1676).all (· == 0)
      ∨ (hd.drop 16).take 48 ≠ sha384 body then .error 4
  else if ¬ ecdsaVerifies Config.ecdsaKey (hd.take 128) ((hd.drop 128).take 96) then .error 1
  else if ¬ lmsVerifies Config.lmsKey (hd.take 128) ((hd.drop 224).take 1452) then .error 2
  else if version < floor then .error 3
  else .ok version

/-- The rollback floor in force: the fused one, or what a signed command has raised it to (R432). -/
def Boot.floorNow (b : Boot) : BitVec 32 := b.floor.getD Config.fusedFloor

/-- Read an image from host memory at a host physical address (R420, R431), or the reason why not. -/
def State.readImage (s : State) (addr : Word) (len : Nat) : Except Nat (List Byte) :=
  let pa := 2 ^ 51 + addr.toNat
  if 2 ^ 24 < len then .error 4
  else if addr.toNat % 4096 ≠ 0 ∨ 2 ^ 48 < addr.toNat + len ∨ s.poisoned pa len then .error 5
  else .ok (s.mem.bytes pa len)

/-- `BOOT_GO`: the host writes BSTAT.GO, and the tutors read and verify the image (R431 steps 2 and 3). All have the same copy, so isle 0 is
the first to fail where it does not verify. Ignored after the first. -/
def execBootGo (s : State) : Out :=
  let b := s.dev.boot
  if b.go then .next s
  else
    let b := { b with go := true }
    let r := (s.readImage b.imgAddr b.imgLen.toNat).bind fun img => verifyImage img b.floorNow
    let b := match r with
      | .ok v => { b with verified := true, version := v }
      | .error k => { b with reason := BitVec.ofNat 4 k }
    .next { s with dev := { s.dev with boot := b } }

/-- A tutor fails at step 3 or 4, on its own isle (R431): the boot has failed, and BSTAT names the first isle to fail. -/
def State.tutorFails (s : State) (isle : BitVec 3) (reason : BitVec 4) : State :=
  let b := s.dev.boot
  if ¬ b.go ∨ b.running ∨ b.reason ≠ 0 ∨ reason = 0 then s
  else { s with dev := { s.dev with boot := { b with verified := false, isle := isle, reason := reason } } }

/-- What firmware loads into a partition block names isles (R428). -/
def namesIsles (p : PartLoad) : Bool := ({ PartBlock.unused with size := p.size, base := p.base } : PartBlock).used

/-- What firmware may load as partition blocks: those that name isles are disjoint in isles and causeway ports; a block whose SIZE and BASE
name none is unused (R428). -/
def partsOk (ps : List (BitVec 3 × PartLoad)) : Bool :=
  let named := ps.filter fun p => namesIsles p.2
  ps.all (fun p => decide (p.2.windows.length ≤ 4))
  && (ps.map (·.1)).Nodup
  && (List.range 18).all (fun i => decide ((named.countP fun p => p.2.ports.getLsbD i) ≤ 1))
  && (List.range 8).all fun i => decide ((named.countP fun p =>
      decide (p.2.base.toNat ≤ i) && decide (i < p.2.base.toNat + 2 ^ p.2.size.toNat)) ≤ 1)

/-- A partition block as loaded (R428), LROOT aside. A window is (start, end) in GiB, and the block holds (end, start). -/
def loadBlock (old : PartBlock) (load : Option PartLoad) : PartBlock :=
  match load with
  | none => { PartBlock.unused with lroot := old.lroot }
  | some p =>
    { size := p.size, base := p.base, lroot := old.lroot, ports := p.ports,
      win := Vector.ofFn fun k => ((p.windows[k.val]?).map fun w => (w.2, w.1)).getD (0, 0) }

/-- FWR as stored (R435): values 0x01 to 0x3F are stored as 0x40. -/
def storedFwr (v : Nat) : BitVec 8 := BitVec.ofNat 8 (if 1 ≤ v ∧ v ≤ 0x3F then 0x40 else v)
/-- SCRUBP as stored (R435). -/
def storedScrub (v : Nat) : BitVec 32 := BitVec.ofNat 32 (if v = 0 then 1 else min v 86400000)

/-- Firmware's power limit as set: never above the fixed one (R434). -/
def storedWatts (v : Nat) : Nat := min v 3600
/-- The shoal's reserve as set, in lines: at most 384 MiB (R80). -/
def storedReserve (v : Nat) : Nat := min v (384 * 2 ^ 20 / 64)

/-- `BOOT_COMPLETE`: every tutor has loaded the FW fields of its isle, and BSTAT.STATE becomes 1 (R431 steps 4 and 5). A hardware clamp that
stands goes on (R434). -/
def execBootComplete (fw : FwLoad) (s : State) : Out :=
  let b := s.dev.boot
  if b.running ∨ ¬ b.verified ∨ ¬ partsOk fw.parts then .next s
  else
    let stvec (i : Nat) : Word := fw.stvec.getD i 0 &&& ~~~0x3F
    let part (i : Nat) : Option PartLoad := (fw.parts.find? fun p => p.1.toNat == i).map Prod.snd
    let put (h : Hart) : Hart := { h with su := { h.su with stvec := stvec h.hid.isle } }
    .next { s with
      h := put s.h
      others := s.others.map put
      rg := { s.rg with parts := Vector.ofFn fun i => loadBlock s.rg.parts[i] (part i.val) }
      dev := { s.dev with
        boot := { b with running := true }
        ipmap := Vector.ofFn fun i => (fw.ipmap.getD i.val 0) &&& 0xF307
        stvecFw := Vector.ofFn fun i => stvec i.val
        clock := Vector.ofFn fun i =>
          { s.dev.clock[i] with fwr := storedFwr (fw.fwr.getD i.val 0).toNat, watts := storedWatts (fw.watts.getD i.val 3600) }
        scrubp := Vector.ofFn fun i => storedScrub (fw.scrub.getD i.val 0).toNat
        reserve := Vector.ofFn fun i => storedReserve (fw.reserve.getD i.val 0)
        extents := fw.extents } }

/-- Firmware changes the block of a partition (R428): only while the partition holds no accepted launch, and only so that the blocks stay
as `partsOk` asks. Its caches are written back and invalidated first. -/
def State.changePartition (s : State) (part : BitVec 3) (load : Option PartLoad) : State :=
  let others := (List.finRange 8).filterMap fun i =>
    let b := s.rg.parts[i]
    if i.val = part.toNat ∨ ¬ b.used then none
    else some (BitVec.ofNat 3 i.val, PartLoad.mk b.size b.base [] b.ports)
  let all := others ++ (match load with | none => [] | some p => [(part, p)])
  if ¬ s.dev.boot.running ∨ ¬ partsOk all ∨ s.rg.launches.any (fun l => l.part == part && !l.fin) then s
  else
    let isles (i : Nat) : Bool := (s.part part).has i || match load with
      | some p => namesIsles p && decide (p.base.toNat ≤ i) && decide (i < p.base.toNat + 2 ^ p.size.toNat)
      | none => false
    let ca := { s.ca with
      l1 := s.ca.l1.filter fun l => !isles (coreIsle l.core)
      code := s.ca.code.filter fun l => !isles (coreIsle l.core)
      visitor := s.ca.visitor.filter fun v => !isles v.isle
      chan := s.ca.chan.filter fun i => !isles i.isle
      shoal := s.ca.shoal.filter fun l => !isles l.isle }
    { s with ca := ca, rg := { s.rg with parts := s.rg.parts.set part.toNat (loadBlock (s.part part) load) } }

/-- `DEVICE_RESET`: power-on or a device reset (R4, R431). The package is as reset leaves it; memory outside the package, and the
fused rollback floor, keep what they hold. -/
def execDeviceReset (s : State) : Out :=
  let r := State.reset
  .next { r with
    mem := s.mem
    ca := { r.ca with poison := s.ca.poison }
    dev := { r.dev with boot := { r.dev.boot with floor := s.dev.boot.floor }, since := s.tick }
    agenda := s.agenda, tick := s.tick, free := s.free }

/-- `POWER_OFF`: all activity ends, and every field loses its value (R4). -/
def execPowerOff (s : State) : Out :=
  let r := State.reset
  .next { r with
    mem := s.mem
    ca := { r.ca with poison := s.ca.poison }
    dev := { r.dev with power := false, boot := { r.dev.boot with floor := s.dev.boot.floor } }
    agenda := s.agenda, tick := s.tick, free := s.free }

/-- `ROLLBACK_FLOOR_RAISE`: a signed command that the running firmware accepts raises the floor; it never falls (R432). -/
def execRollbackFloorRaise (v : BitVec 32) (s : State) : Out :=
  if s.dev.boot.running ∧ s.dev.boot.floorNow < v then
    .next { s with dev := { s.dev with boot := { s.dev.boot with floor := some v } } }
  else .next s

/-- `POLICY_IMAGE_UPDATE`: a policy image that R432 accepts takes effect at a period boundary (R434); the version in force
changes, and the limits stand. -/
def execPolicyImageUpdate (addr : BitVec 52) (len : Nat) (s : State) : Out :=
  if ¬ s.dev.boot.running then .next s
  else match (s.readImage (addr.setWidth 64) len).bind fun img => verifyImage img s.dev.boot.floorNow with
    | .ok v => .next { s with dev := { s.dev with boot := { s.dev.boot with version := v } } }
    | .error _ => .next s

/-! ### Clock, scrubbing and the other firmware registers -/

/-- Change an isle's clock; a change of the ratio in force writes a resync record with SUB 2 (R434). -/
def State.setClock (s : State) (isle : BitVec 3) (f : Clock → Clock) : State :=
  let c := s.dev.clock[isle.toNat]
  let c' := f c
  let s := { s with dev := { s.dev with clock := s.dev.clock.set isle.toNat c' } }
  if c.ratio = c'.ratio then s else s.traceResync isle.toNat 2

/-- `CLKR_WRITE` (R434, R435). -/
def execClkrWrite (isle : BitVec 3) (v : Word) (s : State) : Out :=
  .next (s.setClock isle fun c => { c with fwr := storedFwr (fieldOf v 0 8) })

/-- `FIXED_LIMIT_REACHED`: hardware lowers the isle's ratio (R434). -/
def execFixedLimitReached (isle : BitVec 3) (ratio : Nat) (s : State) : Out :=
  .next (s.setClock isle fun c => if ratio < c.hw then { c with hw := ratio, hold := true } else c)

/-- `RATIO_RECOVERY`: the hardware ratio recovers by 1/256 (R434). -/
def execRatioRecovery (isle : BitVec 3) (s : State) : Out :=
  .next (s.setClock isle fun c => { c with hw := min 256 (c.hw + 1), hold := decide (c.hw + 1 < 256) })

/-- `REFERENCE_COUNTER_RESTART`: a resync record with SUB 3 (R419). -/
def execReferenceCounterRestart (isle : BitVec 3) (s : State) : Out := .next (s.traceResync isle.toNat 3)

/-! ### Bank drops -/

/-- The slice that an index stands for before entry `n` (R403): what the finished entries below it make of it. -/
def Device.sliceBefore (d : Device) (n x : Nat) : Nat :=
  (d.hdrop.toList.take n).foldl (fun x e =>
    if fieldOf e 63 1 = 1 ∧ fieldOf e 62 1 = 1 ∧ fieldOf e 0 10 = x then fieldOf e 10 10 else x) x

/-- The indexes of R78 whose blocks entry `n` moves: those that have come to its DROP. -/
def Device.dropSources (d : Device) (n : Nat) : List Nat :=
  (List.range 1024).filter fun x => d.sliceBefore n x == fieldOf (d.hdrop[n]?.getD 0) 0 10

/-- HMIG at the start of a region of entry `n`: every index has 512 blocks in it (R403). -/
def Device.migrating (d : Device) (n region : Nat) : Word :=
  BitVec.ofNat 64 (2 ^ 63 + n * 2 ^ 60 + region * 2 ^ 32 + 512 * (d.dropSources n).length)

/-- Begin the migration of the lowest entry that is in use and not done, when none runs (R403). -/
def Device.startMigration (d : Device) : Device :=
  if fieldOf d.hmig 63 1 = 1 then d
  else match (List.range 8).find? fun n =>
      let e := d.hdrop[n]?.getD 0
      fieldOf e 63 1 == 1 && fieldOf e 62 1 == 0 with
    | none => d
    | some n => { d with hmig := d.migrating n 0, moved := [] }

/-- `HDROP_WRITE`: firmware writes an entry; V = 1 in an entry that is not done starts its migration (R402, R403). -/
def execHdropWrite (n : BitVec 3) (v : Word) (s : State) : Out :=
  let old := s.dev.hdrop[n.toNat]
  let use := fieldOf v 63 1 = 1
  let e := (v &&& 0x80000000000FFFFF) ||| (if use ∧ fieldOf old 63 1 = 1 then old &&& (1 <<< 62) else 0)
  let d := { s.dev with hdrop := s.dev.hdrop.set n.toNat e }
  let d := if fieldOf d.hmig 60 3 = n.toNat ∧ ¬ use then { d with hmig := 0, moved := [] } else d
  .next { s with dev := d.startMigration }

/-- The `i`-th block of a region with an index of R78: PA[29:21] is i, and the lower bits follow from the index. -/
def blockOf (index region i : Nat) : Nat :=
  let hi := region * 2 ^ 30 + i * 2 ^ 21
  let x := index ^^^ hashIndex hi
  hi + x / 2 ^ 7 * 2 ^ 11 + x / 4 % 32 * 2 ^ 14 + x % 4 * 2 ^ 19

/-- The partitions that reach an address (R429): of the pool, those with a window on it. -/
def State.reachers (s : State) (pa : Nat) : List (BitVec 3) :=
  ((List.range 8).map (BitVec.ofNat 3)).filter fun p => (s.part p).used && (rangeType pa != some 0 || (s.part p).inWindow pa)

/-- The home isle of an address for the partition that reaches it (R429). -/
def State.packageHome (s : State) (pa : Nat) : Nat :=
  match (s.reachers pa).head? with
  | some p => s.homeIsle p pa
  | none => s.homeSlice pa / 2 ^ 7

/-- The copies of a block that moves (R404): its home in each partition that reaches it, which for a host-coherent address is not one isle,
removes the scalar L1 copies there and sends one invalidation to each visitor isle. -/
def State.movedCopies (s : State) (pa : Nat) : Caches :=
  (s.reachers pa).foldl (fun c p =>
    let d := c.changed (s.homeIsle p pa) pa 2048 0 none none
    { d with chan := c.chan ++ (d.chan.drop c.chan.length).filter fun i => (s.part p).has i.isle }) s.ca

/-- The next region, once every block of this one has moved; after the last, the entry is done (R403). -/
def Device.nextRegion (d : Device) : Device :=
  let n := fieldOf d.hmig 60 3
  let cur := fieldOf d.hmig 32 22
  if cur + 1 < 2 ^ 22 then { d with hmig := d.migrating n (cur + 1), moved := [] }
  else
    Device.startMigration
      { d with hmig := 0, moved := [], hdrop := d.hdrop.setIfInBounds n ((d.hdrop[n]?.getD 0) ||| (1 <<< 62)) }

/-- `MIGRATE_BLOCK`: the next block of the region under migration that bears no pin moves to its substitute (R403, R404): its
copies elsewhere are invalidated, and its bytes stand. -/
def execMigrateBlock (s : State) : Out :=
  let m := s.dev.hmig
  if fieldOf m 63 1 = 0 then .next s
  else
    let cur := fieldOf m 32 22
    let blocks := (s.dev.dropSources (fieldOf m 60 3)).flatMap fun x => (List.range 512).map fun i => blockOf x cur i
    match blocks.filter fun b => !s.dev.moved.contains (b / 2048) with
    | [] => .next { s with dev := s.dev.nextRegion }
    | left => match left.find? fun b => (s.pinsOn b 2048).isEmpty with
      | none => .next s
      | some b =>
        let d := { s.dev with hmig := BitVec.ofNat 64 (m.toNat - 1), moved := s.dev.moved ++ [b / 2048] }
        .next { s with
          dev := if left.length = 1 then d.nextRegion else d
          ca := s.movedCopies b }

/-! ### Scrubbing, links and extents -/

/-- A word of memory has become uncorrectable: it is poisoned (R399). -/
def State.spoil (s : State) (w : Nat) : State :=
  s.onCa fun c => { c with weak := c.weak.filter (· != w), poison := if c.poison.contains w then c.poison else c.poison ++ [w] }

/-- One bit of a word of memory goes wrong (R399, R408): ECC corrects one, and a second makes the word uncorrectable. Which bits they are
is not said; the second is taken to be another one (DESIGN CHOICE, log 48). -/
def State.flip (s : State) (w : Nat) : State :=
  if s.ca.poison.contains w then s
  else if s.ca.weak.contains w then s.spoil w
  else s.onCa fun c => { c with weak := c.weak ++ [w] }

/-- `SCRUB`: the scrubber reads a word (R399, R406). A correctable word is corrected in place and counted; an uncorrectable one
is marked poisoned, with no trap. An error that stands in the word is found whatever else is. -/
def execScrub (addr : BitVec 52) (found : ScrubFinding) (s : State) : Out :=
  let w := addr.toNat / 8
  match found with
  | .uncorrectable => .next (s.spoil w)
  | .clean => .next (s.correct (s.packageHome (8 * w)) (8 * w) 8)
  | .correctable =>
    .next ((if s.ca.poison.contains w || s.ca.weak.contains w then s else s.flip w).correct (s.packageHome (8 * w)) (8 * w) 8)

/-- The state of a link: a causeway port, or the straits between two isles, listed once it has left its first state. -/
def State.linkOf (s : State) (l : Link) : LinkState :=
  match l with
  | .causeway p => s.dev.port[p.toNat]?.getD { locked := false, replays := 0, lost := true }
  | .straits a b => ((s.dev.straits.find? fun x => x.1 == (a, b)).map (·.2)).getD { locked := true, replays := 0, lost := false }

/-- Change the state of a link. -/
def State.setLink (s : State) (l : Link) (x : LinkState) : State :=
  match l with
  | .causeway p => { s with dev := { s.dev with port := s.dev.port.setIfInBounds p.toNat x } }
  | .straits a b => { s with dev := { s.dev with straits := (s.dev.straits.filter fun y => y.1 != (a, b)) ++ [((a, b), x)] } }

/-- `LOCK_LOST` (R424). -/
def execLockLost (l : Link) (s : State) : Out := .next (s.setLink l { s.linkOf l with locked := false })

/-- `LOCK_REGAINED`: the port carries flits again before the limit (R424). -/
def execLockRegained (l : Link) (s : State) : Out :=
  .next (if (s.linkOf l).lost then s else s.setLink l { locked := true, replays := 0, lost := false })

/-- `SERDES_CALIBRATION`: it changes no value and takes no place in any order (R437). -/
def execSerdesCalibration (_ : Link) (s : State) : Out := .next s

/-- What is left of an extent when a range is cut out of it. -/
def cutExtent (base size : Nat) (e : Nat × Nat) : List (Nat × Nat) :=
  let lo := e.1
  let hi := e.1 + e.2
  if hi ≤ base ∨ base + size ≤ lo then [e]
  else (if lo < base then [(lo, base - lo)] else []) ++ (if base + size < hi then [(base + size, hi - (base + size))] else [])

/-- Dynamic capacity is added (R422). -/
def State.addExtent (s : State) (base size : Nat) : State :=
  if s.dev.boot.running then { s with dev := { s.dev with extents := s.dev.extents ++ [(base, size)] } } else s

/-- `EXTENT_RELEASE`: dynamic capacity goes, and later accesses to it take the access fault of R74 (R422). -/
def execExtentRelease (base size : Nat) (s : State) : Out :=
  .next { s with dev := { s.dev with extents := s.dev.extents.flatMap (cutExtent base size) } }

end Sys2Proof.Machine
end

