-- ==== Sys2Proof/Machine/Device.lean ====
section
/-! DEFINITION. The register image of the device (R421): the launch-port region (R380), the management window with partition
blocks, IPMAP, injection tables, trace control, debug blocks and the boot block, and the debugger's requests (R409-R412). -/

namespace Sys2Proof.Machine

/-! ### Debug -/

/-- Whether the partition of a hart's isle is in test state (R407, R409, R428). -/
def State.testAt (s : State) (hid : HartId) : Bool :=
  (List.range 8).any fun p => s.dev.tstate.getLsbD p && ((s.rg.parts[p]?.map fun b => b.has hid.isle).getD false)

/-- DCTL (R409). -/
def Debug.dctl (d : Debug) : Word :=
  BitVec.ofNat 64 (d.reason.toNat * 2 ^ 20 + bitAt d.halted 16 + d.prof.toNat * 2 ^ 8 + bitAt d.stepk 4 + bitAt d.step 2 + bitAt d.hen 0)

/-- Ask for a halt (R410). -/
def Hart.request (h : Hart) : Hart := { h with dbg := { h.dbg with hreq := some 1 } }

/-- Leave a halt, at DPC, with a step armed if STEP is set (R410, R411). -/
def Hart.unhalt (h : Hart) : Hart :=
  if h.dbg.halted then
    { h with
      sc := { h.sc with pc := h.dbg.dpc }
      dbg := { h.dbg with halted := false, run := if h.dbg.step then some h.dbg.stepk else none } }
  else h

/-- Write DCTL (R409). -/
def Hart.writeDctl (h : Hart) (v : Word) : Hart :=
  let h := { h with dbg := { h.dbg with prof := BitVec.ofNat 2 (fieldOf v 8 2), stepk := v.getLsbD 4, step := v.getLsbD 2, hen := v.getLsbD 0 } }
  let h := if v.getLsbD 1 then h.request else h
  if v.getLsbD 3 then h.unhalt else h

/-- The register that DSEL selects (R412). -/
def State.selected (s : State) (dsel : Word) : Word :=
  match fieldOf dsel 62 2 with
  | 0 =>
    let n := fieldOf dsel 0 12
    if assignedStatus n && n < 0x200 then s.readStatus n else 0
  | 1 => s.g (BitVec.ofNat 5 (fieldOf dsel 0 5))
  | 2 => BitVec.ofNat 64 (sliceOf (s.h.vec.reg (fieldOf dsel 0 5)) (64 * fieldOf dsel 16 14) 64)
  | _ =>
    let x := if fieldOf dsel 0 3 = 7 ∧ fieldOf dsel 7 1 = 1 then s.h.vec.mf else s.h.vec.mask (fieldOf dsel 0 3)
    BitVec.ofNat 64 (sliceOf x (64 * fieldOf dsel 8 6) 64)

/-- Write the register that DSEL selects, as the supervisor's `wrsr` would (R412). -/
def State.writeSelected (s : State) (dsel v : Word) : State :=
  match fieldOf dsel 62 2 with
  | 0 =>
    let n := fieldOf dsel 0 12
    if assignedStatus n && n < 0x200 then s.writeStatus true n v else s
  | 1 =>
    let r : Reg := BitVec.ofNat 5 (fieldOf dsel 0 5)
    s.onSc fun x => { x with g := if r = 0 then x.g else x.g.set r.toNat v }
  | 2 =>
    let r := fieldOf dsel 0 5
    s.onVec fun x => { x with v := x.v.setIfInBounds r (sliceSet (x.reg r) (64 * fieldOf dsel 16 14) 64 v.toNat) }
  | _ =>
    let k := fieldOf dsel 0 3
    let lo := 64 * fieldOf dsel 8 6
    if k = 7 ∧ fieldOf dsel 7 1 = 1 then s.onVec fun x => { x with mf := sliceSet x.mf lo 64 v.toNat }
    else s.onVec fun x => { x with m := x.m.setIfInBounds k (sliceSet (x.mask k) lo 64 v.toNat) }

/-- Write the selected register of a hart; no effect while it is not halted (R412). -/
def State.debugWrite (s : State) (hid : HartId) (dsel v : Word) : State :=
  if (s.hartAt hid).dbg.halted then s.asHart hid fun s => s.writeSelected dsel v else s

/-- `HALT_REQUEST` (R410). The block answers only in test state (R409). -/
def execHaltRequest (hid : HartId) (s : State) : Out :=
  .next (if s.testAt hid then s.putHart (s.hartAt hid).request else s)

/-- `DEBUG_RESUME` (R410, R411). -/
def execDebugResume (hid : HartId) (step stepk : Bool) (s : State) : Out :=
  let h := s.hartAt hid
  .next (if s.testAt hid then s.putHart { h with dbg := { h.dbg with step := step, stepk := stepk } }.unhalt else s)

/-- `DEBUG_REGISTER_READ`: DSEL is set and DDATA read; the value leaves the package (R412). -/
def execDebugRegisterRead (hid : HartId) (dsel : Word) (s : State) : Out :=
  let h := s.hartAt hid
  .next (if s.testAt hid then s.putHart { h with dbg := { h.dbg with dsel := dsel } } else s)

/-- `DEBUG_REGISTER_WRITE` (R412). -/
def execDebugRegisterWrite (hid : HartId) (dsel v : Word) (s : State) : Out :=
  if s.testAt hid then
    let h := s.hartAt hid
    .next ((s.putHart { h with dbg := { h.dbg with dsel := dsel } }).debugWrite hid dsel v)
  else .next s

/-! ### Injection records -/

/-- The record of a table entry, zero where none is armed. -/
def State.injection (s : State) (part : BitVec 3) (n : BitVec 4) : BitVec 256 :=
  ((s.dev.inject.find? fun r => r.part == part && r.n == n).map (·.record)).getD 0

/-- Arm a record (R407, R408): KIND 3 flips one bit of its word and KIND 4 poisons it, at once; KIND 1 and 2 wait for their
instruction. -/
def State.arm (s : State) (part : BitVec 3) (n : BitVec 4) (r : BitVec 256) : State :=
  let rest := s.dev.inject.filter fun x => !(x.part == part && x.n == n)
  let kind := (r.extractLsb' 24 8).toNat
  let word := (r.extractLsb' 192 64).toNat / 8
  if kind = 3 then { s with dev := { s.dev with inject := rest } }.flip word
  else if kind = 4 then { s with dev := { s.dev with inject := rest } }.spoil word
  else if r = 0 then { s with dev := { s.dev with inject := rest } }
  else { s with dev := { s.dev with inject := rest ++ [⟨part, n, r⟩] } }

/-- `INJECTION_RECORD_WRITE`: only in test state (R407). -/
def execInjectionRecordWrite (part : BitVec 3) (n : BitVec 4) (r : BitVec 256) (s : State) : Out :=
  .next (if s.dev.tstate.getLsbD part.toNat then s.arm part n r else s)

/-! ### The management window -/

/-- BSTAT (R431). -/
def Boot.bstat (b : Boot) : Word := BitVec.ofNat 64 (b.reason.toNat * 2 ^ 12 + b.isle.toNat * 2 ^ 8 + bitAt b.running 1)

/-- A quad of a partition block (R428). -/
def State.partQuad (s : State) (p : Nat) (q : Nat) : Word :=
  match s.rg.parts[p]? with
  | none => 0
  | some b => match q with
    | 0 => BitVec.ofNat 64 (bitAt (s.dev.tstate.getLsbD p) 16 + b.size.toNat * 2 ^ 8 + b.base.toNat)
    | 1 => b.lroot
    | q => if 2 ≤ q ∧ q ≤ 5 then
        match b.win[q - 2]? with
        | some w => BitVec.ofNat 64 (w.1.toNat * 2 ^ 32 + w.2.toNat)
        | none => 0
      else 0

/-- The quad at a window offset (R421). Before boot is complete only the boot block and the partition blocks respond
(R431). -/
def State.windowQuad (s : State) (off : Nat) : Word :=
  let up := s.dev.boot.running
  let q := off / 8
  if off < 0x800 then s.partQuad (off / 0x100) (q % 32)
  else if 0x200000 ≤ off ∧ off < 0x200018 then
    match q % 8 with
    | 0 => s.dev.boot.bstat
    | 1 => s.dev.boot.imgAddr
    | _ => s.dev.boot.imgLen
  else if !up then 0
  else if off < 0x840 then s.dev.ipmap[q % 8]?.getD 0
  else if 0x10000 ≤ off ∧ off < 0x11000 then
    let p : BitVec 3 := BitVec.ofNat 3 ((off - 0x10000) / 0x200)
    (s.injection p (BitVec.ofNat 4 (off / 32))).extractLsb' (64 * (q % 4)) 64
  else if 0xF0000 ≤ off ∧ off < 0xF0200 then
    match s.dev.trace[(off - 0xF0000) / 64]? with
    | none => 0
    | some t => match q % 8 with
      | 0 => t.base
      | 1 => t.size
      | 2 => t.twr
      | 3 => t.trd
      | _ => 0
  else if 0x100000 ≤ off ∧ off < 0x180000 then
    let hid : HartId := BitVec.ofNat 13 ((off - 0x100000) / 64)
    if !s.testAt hid then 0
    else
      let d := (s.hartAt hid).dbg
      match q % 8 with
      | 0 => d.dctl
      | 1 => d.dpc
      | 2 => d.dsel
      | 3 => (s.switchTo hid).selected d.dsel
      | _ => 0
  else 0

/-- A power of two from 4,096 (R416). -/
def ringSize (v : Word) : Bool := 4096 ≤ v.toNat && 2 ^ Nat.log2 v.toNat == v.toNat

/-- Write the trace control block of an isle (R416). TRD is set to what is written (R2). A write of TSIZE that is no size of a ring leaves
it; TBASE keeps its multiple of 4,096; writing either starts the stream afresh. -/
def Trace.write (t : Trace) (q : Nat) (v : Word) : Trace :=
  match q with
  | 0 => { t with base := v &&& ~~~0xFFF, twr := 0, trd := 0, last := none, dropped := 0, full := 0 }
  | 1 => if v = 0 ∨ ringSize v then { t with size := v, twr := 0, trd := 0, last := none, dropped := 0, full := 0 } else t
  | 3 => { t with trd := v }
  | _ => t

/-- Write the quad at a window offset (R2, R421). The bits of DSEL and of quad 1 of an injection record that no row of R412 and R407 names
are kept and read back (DESIGN CHOICE, log 80). -/
def State.windowWrite (s : State) (off : Nat) (v : Word) : State :=
  let up := s.dev.boot.running
  let q := off / 8
  if off < 0x800 then
    let b := s.rg.parts[off / 0x100]?.getD PartBlock.unused
    let b := { b with lroot := v &&& ~~~0xFFFF }
    if q % 32 = 1 then { s with rg := { s.rg with parts := s.rg.parts.setIfInBounds (off / 0x100) b } } else s
  else if 0x200000 ≤ off ∧ off < 0x200018 then
    match q % 8 with
    | 0 => if v.getLsbD 0 then (match execBootGo s with | .next t => t | _ => s) else s
    | 1 => { s with dev := { s.dev with boot := { s.dev.boot with imgAddr := v } } }
    | _ => { s with dev := { s.dev with boot := { s.dev.boot with imgLen := v } } }
  else if !up then s
  else if 0x10000 ≤ off ∧ off < 0x11000 then
    let p : BitVec 3 := BitVec.ofNat 3 ((off - 0x10000) / 0x200)
    let n : BitVec 4 := BitVec.ofNat 4 (off / 32)
    if !s.dev.tstate.getLsbD p.toNat then s
    else
      let k := 64 * (q % 4)
      let r := (s.injection p n &&& ~~~(BitVec.ofNat 256 (2 ^ 64 - 1) <<< k)) ||| (v.setWidth 256 <<< k)
      if q % 4 = 3 ∨ (r.extractLsb' 24 8).toNat < 3 then s.arm p n r
      else { s with dev := { s.dev with inject := (s.dev.inject.filter fun x => !(x.part == p && x.n == n)) ++ [⟨p, n, r⟩] } }
  else if 0xF0000 ≤ off ∧ off < 0xF0200 then
    match s.dev.trace[(off - 0xF0000) / 64]? with
    | none => s
    | some t => { s with dev := { s.dev with trace := s.dev.trace.setIfInBounds ((off - 0xF0000) / 64) (t.write (q % 8) v) } }
  else if 0x100000 ≤ off ∧ off < 0x180000 then
    let hid : HartId := BitVec.ofNat 13 ((off - 0x100000) / 64)
    if !s.testAt hid then s
    else
      let h := s.hartAt hid
      match q % 8 with
      | 0 => s.putHart (h.writeDctl v)
      | 1 => if h.dbg.halted then s.putHart { h with dbg := { h.dbg with dpc := v &&& ~~~1 } } else s
      | 2 => s.putHart { h with dbg := { h.dbg with dsel := v } }
      | 3 => s.debugWrite hid h.dbg.dsel v
      | _ => s
  else s

/-! ### The register image as memory -/

/-- Count a write that the launch port of a partition drops (R380). -/
def State.portDrop (s : State) (part : BitVec 3) : State :=
  s.count (s.registrarIsle part) fun t => { t with portDrops := t.portDrops + 1 }

/-- Post bytes to the launch-port region (R380): one aligned 64-byte write at a port launches; any other is dropped and counted.
Before boot is complete a launch-port write is dropped (R431). -/
def State.portWrite (s : State) (off : Nat) (bs : List Byte) : State :=
  let p : BitVec 3 := BitVec.ofNat 3 (off / 0x1000)
  if off % 0x1000 ≠ 0 ∨ bs.length ≠ 64 ∨ 0x8000 ≤ off then s.portDrop p
  else if !s.dev.boot.running then s.portDrop p
  else (s.submit p (s.part p).lroot (recordOf bs)).1

/-- `LAUNCH_PORT_WRITE` (R380). -/
def execLaunchPortWrite (offset : Nat) (data : List Byte) (s : State) : Out := .next (s.portWrite offset data)

/-- The offset in the register image of a device-type address (R421). -/
def imageOffset (pa : Nat) : Nat := pa - 0xF * 2 ^ 48

/-- What a read of the register image returns (R421). An access to the window that is not 4 or 8 bytes and aligned reads all
ones; an offset with nothing behind it reads as zero. -/
def State.imageRead (s : State) (pa n : Nat) : List Byte :=
  let off := imageOffset pa
  if 0x400000 ≤ off ∧ off < 0x800000 then
    if (n = 4 ∨ n = 8) ∧ off % n = 0 then
      leBytes n ((s.windowQuad ((off - 0x400000) / 8 * 8)).toNat / 2 ^ (8 * (off % 8)))
    else List.replicate n 0xFF
  else List.replicate n 0

/-- What a 4-byte write of one half of a quad writes to the other half, so that it stays: what it reads as, but zeros where each 1 that is
written clears a bit, as in VDIRTY behind DDATA (R2, R350, R412). -/
def State.standing (s : State) (q : Nat) : Nat :=
  let hid : HartId := BitVec.ofNat 13 ((q - 0x100000) / 64)
  let d := (s.hartAt hid).dbg.dsel
  if 0x100000 ≤ q ∧ q < 0x180000 ∧ q / 8 % 8 = 3 ∧ fieldOf d 62 2 = 0 ∧ fieldOf d 0 12 = 0x109 then 0 else (s.windowQuad q).toNat

/-- A write of the register image (R421). A 4-byte write leaves the other half of its quad. -/
def State.imageWrite (s : State) (pa : Nat) (bs : List Byte) : State :=
  let off := imageOffset pa
  let n := bs.length
  if off < 0x8000 then s.portWrite off bs
  else if 0x400000 ≤ off ∧ off < 0x800000 ∧ (n = 4 ∨ n = 8) ∧ off % n = 0 then
    let q := (off - 0x400000) / 8 * 8
    if n = 8 then s.windowWrite q (BitVec.ofNat 64 (leNat bs))
    else
      let old := s.standing q
      let sh := 2 ^ (8 * (off % 8))
      s.windowWrite q (BitVec.ofNat 64 (old - old / sh % 2 ^ 32 * sh + leNat bs * sh))
  else s

/-- `REGISTER_WRITE`: a write of a register field, which the field's access code governs (R2). -/
def execRegisterWrite (r : RegLoc) (v : Word) (s : State) : Out :=
  match r with
  | .window off => .next (if off % 8 = 0 then s.windowWrite off v else s)
  | .status hid n =>
    match n.toNat with
    | 0x211 => .next { s with dev := { s.dev with scrubp := s.dev.scrubp.setIfInBounds hid.isle (storedScrub (v.toNat % 2 ^ 32)) } }
    | 0x212 => .next { s with dev := { s.dev with tstate := v.setWidth 8 } }
    | 0x210 => execClkrWrite (BitVec.ofNat 3 hid.isle) v s
    | k =>
      if 0x200 ≤ k ∧ k ≤ 0x207 then execHdropWrite (BitVec.ofNat 3 (k - 0x200)) v s
      else if (s.hartAt hid).live then .next (s.asHart hid fun t => t.writeStatus t.h.su.sup k v)
      else .next s

/-- `VTYPE_WRITE`: the effect of `wrsr VTYPE` (R188). -/
def execVtypeWrite (v : Word) (s : State) : Out := .next (s.writeStatus s.h.su.sup 0x001 v)
/-- `VL_WRITE` (R184). -/
def execVlWrite (v : Word) (s : State) : Out := .next (s.writeStatus s.h.su.sup 0x000 v)
/-- `MODE_WRITE` (R348). -/
def execModeWrite (v : Word) (s : State) : Out := .next (s.writeStatus true 0x10E v)
/-- `PTROOT_WRITE` (R358). -/
def execPtrootWrite (v : Word) (s : State) : Out := .next (s.writeStatus true 0x107 v)

end Sys2Proof.Machine
end

