-- ==== Sys2Proof/Machine/Scalar.lean ====
section
/-! DEFINITION. Compact forms without memory, and the integer operations (R134, R154-R158). -/

namespace Sys2Proof.Machine

/-! ### Shared operations -/

/-- g[LD] (R134, R135). -/
def State.ld (s : State) : Word := s.g s.h.sc.ldn

/-- A two-operand operation at 64 bits, or at 32 bits with the result sign-extended (R154). -/
def atWidth (f : (n : Nat) → BitVec n → BitVec n → BitVec n) (w : Bool) (a b : Word) : Word :=
  if w then (f 32 (a.setWidth 32) (b.setWidth 32)).signExtend 64 else f 64 a b

/-- An OPR instruction of two sources (R154). -/
def alu (f : (n : Nat) → BitVec n → BitVec n → BitVec n) (d a b : Reg) (w : Bool) (s : State) : Out :=
  writeReg 4 d (atWidth f w (s.g a) (s.g b)) s

/-- An OPI instruction (R156). -/
def aluImm (f : Word → Word → Word) (d a : Reg) (imm : BitVec 12) (s : State) : Out :=
  writeReg 4 d (f (s.g a) (imm.signExtend 64)) s

/-- A shift amount at a width (R154). -/
def amountOf (n : Nat) (b : BitVec n) : Nat := b.toNat % n

/-- 1 when a condition holds (R154). -/
def truth (n : Nat) (c : Bool) : BitVec n := if c then 1 else 0

/-- Logical left shift. -/
def shl (n : Nat) (a b : BitVec n) : BitVec n := a <<< amountOf n b
/-- Logical right shift. -/
def shr (n : Nat) (a b : BitVec n) : BitVec n := a >>> amountOf n b
/-- Arithmetic right shift. -/
def sar (n : Nat) (a b : BitVec n) : BitVec n := a.sshiftRight (amountOf n b)
/-- The lesser or greater, signed. -/
def minS (n : Nat) (a b : BitVec n) : BitVec n := if a.slt b then a else b
/-- The greater, signed. -/
def maxS (n : Nat) (a b : BitVec n) : BitVec n := if a.slt b then b else a
/-- The lesser, unsigned. -/
def minU (n : Nat) (a b : BitVec n) : BitVec n := if a < b then a else b
/-- The greater, unsigned. -/
def maxU (n : Nat) (a b : BitVec n) : BitVec n := if a < b then b else a
/-- The signed quotient (R155). -/
def quoS (n : Nat) (a b : BitVec n) : BitVec n := if b = 0 then BitVec.allOnes n else a.sdiv b
/-- The unsigned quotient (R155). -/
def quoU (n : Nat) (a b : BitVec n) : BitVec n := if b = 0 then BitVec.allOnes n else a.udiv b
/-- The signed remainder (R155). -/
def remS (n : Nat) (a b : BitVec n) : BitVec n := if b = 0 then a else a.srem b
/-- The unsigned remainder (R155). -/
def remU (n : Nat) (a b : BitVec n) : BitVec n := if b = 0 then a else a.umod b
/-- Bits [127:64] of the signed product (R154). -/
def highS (a b : Word) : Word := BitVec.ofInt 64 (a.toInt * b.toInt / 2 ^ 64)
/-- Bits [127:64] of the unsigned product (R154). -/
def highU (a b : Word) : Word := BitVec.ofNat 64 (a.toNat * b.toNat / 2 ^ 64)
/-- Leading zeros (R154). -/
def leading (n : Nat) (a : BitVec n) : Nat := n - bitLen a.toNat
/-- Trailing zeros (R154). -/
def trailing (n : Nat) (a : BitVec n) : Nat := ((List.range n).find? fun i => a.getLsbD i).getD n
/-- One bits (R154). -/
def ones (n : Nat) (a : BitVec n) : Nat := (List.range n).countP fun i => a.getLsbD i

/-- A count of the bits of a register at a width (R154). -/
def count (f : (n : Nat) → BitVec n → Nat) (d a : Reg) (w : Bool) (s : State) : Out :=
  writeReg 4 d (BitVec.ofNat 64 (if w then f 32 ((s.g a).setWidth 32) else f 64 (s.g a))) s

/-- The low 8, 16 or 32 bits of a word, extended (R154). -/
def extend (signed : Bool) (n : ExtWidth) (a : Word) : Word :=
  match n with
  | .b => if signed then (a.setWidth 8).signExtend 64 else (a.setWidth 8).setWidth 64
  | .h => if signed then (a.setWidth 16).signExtend 64 else (a.setWidth 16).setWidth 64
  | .w => if signed then (a.setWidth 32).signExtend 64 else (a.setWidth 32).setWidth 64

/-- A shift by an immediate amount (R157). -/
def shiftImm (f : (n : Nat) → BitVec n → BitVec n → BitVec n) (d a : Reg) (w : Bool) (amt : BitVec 6) (s : State) : Out :=
  writeReg 4 d (atWidth f w (s.g a) (amt.setWidth 64)) s

/-! ### Compact forms (R134) -/

/-- `c.mv` (R134). -/
def execCMv (d : Reg) (s : State) : Out := writeReg 2 d s.ld s
/-- `c.add` (R134). -/
def execCAdd (d f : Reg) (s : State) : Out := writeReg 2 d (s.ld + s.g f) s
/-- `c.sub` (R134). -/
def execCSub (d f : Reg) (s : State) : Out := writeReg 2 d (s.ld - s.g f) s
/-- `c.addi` (R134). -/
def execCAddi (d : Reg) (imm : BitVec 5) (s : State) : Out := writeReg 2 d (s.ld + imm.signExtend 64) s
/-- `c.and` (R134). -/
def execCAnd (d f : Reg) (s : State) : Out := writeReg 2 d (s.ld &&& s.g f) s
/-- `c.or` (R134). -/
def execCOr (d f : Reg) (s : State) : Out := writeReg 2 d (s.ld ||| s.g f) s
/-- `c.xor` (R134). -/
def execCXor (d f : Reg) (s : State) : Out := writeReg 2 d (s.ld ^^^ s.g f) s
/-- `c.slli` (R134). -/
def execCSlli (d : Reg) (amt : BitVec 5) (s : State) : Out := writeReg 2 d (s.ld <<< amt.toNat) s
/-- `c.srai` (R134). -/
def execCSrai (d : Reg) (amt : BitVec 5) (s : State) : Out := writeReg 2 d (s.ld.sshiftRight amt.toNat) s
/-- `c.li` (R134). -/
def execCLi (d : Reg) (imm : BitVec 5) (s : State) : Out := writeReg 2 d (imm.signExtend 64) s

/-! ### Register forms (R154, R155) -/

/-- `add` (R154). -/
def execAdd (d a b : Reg) (w : Bool) (s : State) : Out := alu (fun _ x y => x + y) d a b w s
/-- `sub` (R154). -/
def execSub (d a b : Reg) (w : Bool) (s : State) : Out := alu (fun _ x y => x - y) d a b w s
/-- `and` (R154). -/
def execAnd (d a b : Reg) (w : Bool) (s : State) : Out := alu (fun _ x y => x &&& y) d a b w s
/-- `or` (R154). -/
def execOr (d a b : Reg) (w : Bool) (s : State) : Out := alu (fun _ x y => x ||| y) d a b w s
/-- `xor` (R154). -/
def execXor (d a b : Reg) (w : Bool) (s : State) : Out := alu (fun _ x y => x ^^^ y) d a b w s
/-- `sll` (R154). -/
def execSll (d a b : Reg) (w : Bool) (s : State) : Out := alu shl d a b w s
/-- `srl` (R154). -/
def execSrl (d a b : Reg) (w : Bool) (s : State) : Out := alu shr d a b w s
/-- `sra` (R154). -/
def execSra (d a b : Reg) (w : Bool) (s : State) : Out := alu sar d a b w s
/-- `slt` (R154). -/
def execSlt (d a b : Reg) (w : Bool) (s : State) : Out := alu (fun n x y => truth n (x.slt y)) d a b w s
/-- `sltu` (R154). -/
def execSltu (d a b : Reg) (w : Bool) (s : State) : Out := alu (fun n x y => truth n (x.ult y)) d a b w s
/-- `min` (R154). -/
def execMin (d a b : Reg) (w : Bool) (s : State) : Out := alu minS d a b w s
/-- `max` (R154). -/
def execMax (d a b : Reg) (w : Bool) (s : State) : Out := alu maxS d a b w s
/-- `minu` (R154). -/
def execMinu (d a b : Reg) (w : Bool) (s : State) : Out := alu minU d a b w s
/-- `maxu` (R154). -/
def execMaxu (d a b : Reg) (w : Bool) (s : State) : Out := alu maxU d a b w s
/-- `mul` (R154). -/
def execMul (d a b : Reg) (w : Bool) (s : State) : Out := alu (fun _ x y => x * y) d a b w s
/-- `mulh` (R154). -/
def execMulh (d a b : Reg) (s : State) : Out := writeReg 4 d (highS (s.g a) (s.g b)) s
/-- `mulhu` (R154). -/
def execMulhu (d a b : Reg) (s : State) : Out := writeReg 4 d (highU (s.g a) (s.g b)) s
/-- `div` (R154, R155). -/
def execDiv (d a b : Reg) (w : Bool) (s : State) : Out := alu quoS d a b w s
/-- `divu` (R154, R155). -/
def execDivu (d a b : Reg) (w : Bool) (s : State) : Out := alu quoU d a b w s
/-- `rem` (R154, R155). -/
def execRem (d a b : Reg) (w : Bool) (s : State) : Out := alu remS d a b w s
/-- `remu` (R154, R155). -/
def execRemu (d a b : Reg) (w : Bool) (s : State) : Out := alu remU d a b w s
/-- `rol` (R154). -/
def execRol (d a b : Reg) (w : Bool) (s : State) : Out := alu (fun n x y => x.rotateLeft (amountOf n y)) d a b w s
/-- `ror` (R154). -/
def execRor (d a b : Reg) (w : Bool) (s : State) : Out := alu (fun n x y => x.rotateRight (amountOf n y)) d a b w s
/-- `clz` (R154). -/
def execClz (d a : Reg) (w : Bool) (s : State) : Out := count leading d a w s
/-- `ctz` (R154). -/
def execCtz (d a : Reg) (w : Bool) (s : State) : Out := count trailing d a w s
/-- `popc` (R154). -/
def execPopc (d a : Reg) (w : Bool) (s : State) : Out := count ones d a w s
/-- `sext` (R154). -/
def execSext (d a : Reg) (n : ExtWidth) (s : State) : Out := writeReg 4 d (extend true n (s.g a)) s
/-- `zext` (R154). -/
def execZext (d a : Reg) (n : ExtWidth) (s : State) : Out := writeReg 4 d (extend false n (s.g a)) s

/-! ### Immediate forms (R156-R158) -/

/-- `addi` (R156). -/
def execAddi (d a : Reg) (imm : BitVec 12) (s : State) : Out := aluImm (fun x y => x + y) d a imm s
/-- `andi` (R156). -/
def execAndi (d a : Reg) (imm : BitVec 12) (s : State) : Out := aluImm (fun x y => x &&& y) d a imm s
/-- `ori` (R156). -/
def execOri (d a : Reg) (imm : BitVec 12) (s : State) : Out := aluImm (fun x y => x ||| y) d a imm s
/-- `xori` (R156). -/
def execXori (d a : Reg) (imm : BitVec 12) (s : State) : Out := aluImm (fun x y => x ^^^ y) d a imm s
/-- `slti` (R156). -/
def execSlti (d a : Reg) (imm : BitVec 12) (s : State) : Out := aluImm (fun x y => truth 64 (x.slt y)) d a imm s
/-- `sltiu` (R156). -/
def execSltiu (d a : Reg) (imm : BitVec 12) (s : State) : Out := aluImm (fun x y => truth 64 (x.ult y)) d a imm s
/-- `addiw` (R156). -/
def execAddiw (d a : Reg) (imm : BitVec 12) (s : State) : Out :=
  aluImm (fun x y => ((x + y).setWidth 32).signExtend 64) d a imm s
/-- `slli` (R157). -/
def execSlli (d a : Reg) (w : Bool) (amt : BitVec 6) (s : State) : Out := shiftImm shl d a w amt s
/-- `srli` (R157). -/
def execSrli (d a : Reg) (w : Bool) (amt : BitVec 6) (s : State) : Out := shiftImm shr d a w amt s
/-- `srai` (R157). -/
def execSrai (d a : Reg) (w : Bool) (amt : BitVec 6) (s : State) : Out := shiftImm sar d a w amt s
/-- `ldhi` (R158). -/
def execLdhi (d : Reg) (imm : BitVec 20) (s : State) : Out := writeReg 4 d (imm.signExtend 64 <<< 12) s
/-- `pcadd` (R158). -/
def execPcadd (d : Reg) (imm : BitVec 20) (s : State) : Out := writeReg 4 d (s.h.sc.pc + imm.signExtend 64) s

end Sys2Proof.Machine
end

