-- ==== Sys2Proof/Machine/ScalarMem.lean ====
section
/-! DEFINITION. Scalar loads, stores and atomics (R159-R164), fences (R102-R106), descriptor registers (R224), watermarks
(R226-R229) and `launch` (R182). -/

namespace Sys2Proof.Machine

/-! ### Shared accesses -/

/-- Read checked bytes by the scalar path (R76): the register image for device type, else the hart's own store buffer, L1 and
slice; other harts' watchpoints see it (R415). -/
def State.readPlace (s : State) (p : Place) (n : Nat) : State × List Byte :=
  if p.mt = 1 then (s, s.imageRead p.pa n)
  else
    let s := (s.settleScalar s.h p.pa n).watchHome s.h.su.part s.h.source (s.org 0) p.pa n ⟨true, false, false⟩
    (s, s.scalarBytes s.h p.pa n)

/-- Stop and wait, with nothing of this turn done. -/
def waitAt {α : Type} (s0 : State) : M α := fun _ => .error (.block s0)

/-- Sign- or zero-extend loaded bytes (R161). -/
def loaded (signed : Bool) (bs : List Byte) : Word :=
  if signed then BitVec.ofInt 64 (toSigned (8 * bs.length) (leNat bs)) else BitVec.ofNat 64 (leNat bs)

/-- Write g[r] and leave PSTATE.LDN, which has been set (R135, R153). -/
def Scalar.fillG (sc : Scalar) (r : Reg) (v : Word) : Scalar := { sc with g := if r = 0 then sc.g else sc.g.set r.toNat v }

/-- The `k`-th load that has been issued performs, unless an older one of its bytes has yet to (R107), or a write of the hart to them is held by
a pin, or will be (R121). Poison that has arisen since it was issued is no value: its cause comes at the stop point (DESIGN CHOICE, log 103). -/
def State.performLoad (s : State) (k : Nat) : State :=
  match s.h.loads[k]? with
  | none => s
  | some l =>
    if ((s.h.loads.take k).any fun x => meets x.pa x.n l.pa l.n) || s.ownHeld l.pa l.n || s.bufHeld l.pa l.n then s
    else
      let t := { s with h := { s.h with loads := s.h.loads.eraseIdx k } }
      if s.poisoned l.pa l.n then
        { t with h := { t.h with pend := t.h.pend ++ [{ code := 21, sub := 3, sval := l.va &&& ~~~7, batch := [] }] } }
      else
        let t := (t.settleScalar t.h l.pa l.n).watchHome t.h.su.part (.hart t.h.hid t.h.own l.pc t.h.su.sup) l.org l.pa l.n ⟨true, false, false⟩
        t.onSc fun sc => sc.fillG l.d (loaded l.signed (t.scalarBytes t.h l.pa l.n))

/-- The loads of some bytes that have been issued perform, oldest first; at most n of them. -/
def State.performLoads (s : State) (which : LateLoad → Bool) : Nat → State
  | 0 => s
  | n + 1 => match s.h.loads.findIdx? which with
    | none => s
    | some k => (s.performLoad k).performLoads which n

/-- Every load that has been issued performs, as far as it can. -/
def State.loadsDone (s : State) : State := if s.h.loads.isEmpty then s else s.performLoads (fun _ => true) s.h.loads.length

/-- The loads of bytes that an access touches perform before it (R107). -/
def State.loadsAt (s : State) (pa n : Nat) : State :=
  if s.h.loads.isEmpty then s else s.performLoads (fun l => meets l.pa l.n pa n) s.h.loads.length

/-- A scalar load of `n` bytes at an address (R159): its checks, then its bytes. It waits while a write of the hart to those bytes
is held by a pin, or will be (R107, R121). -/
def loadBytes (va : Word) (n : Nat) : M (List Byte) := do
  let s0 ← getS
  let p ← scalarCheck .load va n false
  if s0.ownHeld p.pa n || s0.bufHeld p.pa n then waitAt s0
  else
    let s ← getS
    let s := s.loadsAt p.pa n
    if s.h.loads.any fun l => meets l.pa l.n p.pa n then waitAt s0
    else
      let r := s.readPlace p n
      modS fun _ => r.1
      pure r.2

/-- A scalar store of bytes at an address (R159): its checks, then it enters the store buffer; a device-type store performs at
once (R76). -/
def storeBytes (va : Word) (bs : List Byte) : M Unit := do
  let p ← scalarCheck .store va bs.length false
  modS fun s =>
    if p.mt = 1 then s.imageWrite p.pa bs
    else { s with h := { s.h with buf := s.h.buf ++
      [{ pa := p.pa, bytes := bs, sq := p.sq, va := va, pc := s.h.sc.pc, root := s.h.su.ptroot, sup := s.h.su.sup, org := s.org 0 }] } }

/-- Every earlier access performed at device scope, or wait with nothing done but the store buffer drained (R101). `s0` is the
state that the instruction began in. -/
def releaseFrom (s0 : State) : M Unit := fun s =>
  let r := s.release
  if r.2 then .ok ((), r.1) else .error (.block s0.drain)

/-- Every earlier access performed at device scope, or wait (R101). -/
def releaseM : M Unit := fun s => releaseFrom s s

/-- A load form (R161). -/
def loadM (len : Nat) (n : Nat) (signed : Bool) (d : Reg) (va : Word) (s : State) : Out :=
  run len (do let bs ← loadBytes va n; modS fun s => s.setG d (loaded signed bs)) s

/-- A store form (R161). -/
def storeM (len : Nat) (n : Nat) (r : Reg) (va : Word) (s : State) : Out := run len (storeBytes va (leBytes n (s.g r).toNat)) s

/-- A store with release (R101, R161): it performs once every earlier access of the hart is performed at device scope, and writes the core's own
L1 line too (R76). -/
def storeRelM (n : Nat) (r : Reg) (va : Word) (s : State) : Out :=
  run 4 (do
    let p ← scalarCheck .store va n false
    releaseFrom s
    modS fun s =>
      if p.mt = 1 then s.imageWrite p.pa (leBytes n (s.g r).toNat)
      else (s.sendWrite false s.h.space s.h.source (s.org 0) va p.pa p.sq (.store (leBytes n (s.g r).toNat))
        (some s.h.hid.core)).1) s

/-! ### Loads and stores (R161, R134) -/

/-- `c.ld` (R134). -/
def execCLd (d : Reg) (off : BitVec 5) (s : State) : Out := loadM 2 8 false d (s.ld + BitVec.ofNat 64 (8 * off.toNat)) s
/-- `c.st` (R134). -/
def execCSt (r : Reg) (off : BitVec 5) (s : State) : Out := storeM 2 8 r (s.ld + BitVec.ofNat 64 (8 * off.toNat)) s
/-- `ld.b` (R161). -/
def execLdB (d a : Reg) (imm : BitVec 12) (s : State) : Out := loadM 4 1 true d (s.ea a imm) s
/-- `ld.h` (R161). -/
def execLdH (d a : Reg) (imm : BitVec 12) (s : State) : Out := loadM 4 2 true d (s.ea a imm) s
/-- `ld.w` (R161). -/
def execLdW (d a : Reg) (imm : BitVec 12) (s : State) : Out := loadM 4 4 true d (s.ea a imm) s
/-- `ld.d` (R161). -/
def execLdD (d a : Reg) (imm : BitVec 12) (s : State) : Out := loadM 4 8 true d (s.ea a imm) s
/-- `ld.bu` (R161). -/
def execLdBu (d a : Reg) (imm : BitVec 12) (s : State) : Out := loadM 4 1 false d (s.ea a imm) s
/-- `ld.hu` (R161). -/
def execLdHu (d a : Reg) (imm : BitVec 12) (s : State) : Out := loadM 4 2 false d (s.ea a imm) s
/-- `ld.wu` (R161). -/
def execLdWu (d a : Reg) (imm : BitVec 12) (s : State) : Out := loadM 4 4 false d (s.ea a imm) s
/-- `st.b` (R161). -/
def execStB (r a : Reg) (imm : BitVec 12) (s : State) : Out := storeM 4 1 r (s.ea a imm) s
/-- `st.h` (R161). -/
def execStH (r a : Reg) (imm : BitVec 12) (s : State) : Out := storeM 4 2 r (s.ea a imm) s
/-- `st.w` (R161). -/
def execStW (r a : Reg) (imm : BitVec 12) (s : State) : Out := storeM 4 4 r (s.ea a imm) s
/-- `st.d` (R161). -/
def execStD (r a : Reg) (imm : BitVec 12) (s : State) : Out := storeM 4 8 r (s.ea a imm) s
/-- `st.rel.b` (R161). -/
def execStRelB (r a : Reg) (imm : BitVec 12) (s : State) : Out := storeRelM 1 r (s.ea a imm) s
/-- `st.rel.h` (R161). -/
def execStRelH (r a : Reg) (imm : BitVec 12) (s : State) : Out := storeRelM 2 r (s.ea a imm) s
/-- `st.rel.w` (R161). -/
def execStRelW (r a : Reg) (imm : BitVec 12) (s : State) : Out := storeRelM 4 r (s.ea a imm) s
/-- `st.rel.d` (R161). -/
def execStRelD (r a : Reg) (imm : BitVec 12) (s : State) : Out := storeRelM 8 r (s.ea a imm) s
/-- `ld.acq.w` (R161): it performs in its turn, and later accesses of the hart are made after it, so the acquire asks for nothing more (R101). -/
def execLdAcqW (d a : Reg) (imm : BitVec 12) (s : State) : Out := loadM 4 4 true d (s.ea a imm) s
/-- `ld.acq.d` (R161). -/
def execLdAcqD (d a : Reg) (imm : BitVec 12) (s : State) : Out := loadM 4 8 true d (s.ea a imm) s
/-- `ld.acq.wu` (R161). -/
def execLdAcqWu (d a : Reg) (imm : BitVec 12) (s : State) : Out := loadM 4 4 false d (s.ea a imm) s

/-! ### Atomics (R162-R164) -/

/-- The operations of R162. -/
inductive AmoOp where
  | add | and | or | xor | min | max | minu | maxu | swap | cas | fadd
  deriving DecidableEq, Repr

/-- The new value of an atomic at a width, and its flags; none where nothing is written (R162, R164). -/
def AmoOp.new (op : AmoOp) (w : Nat) (old v expect : Nat) : Option Nat × Nat :=
  match op with
  | .add => (some ((old + v) % 2 ^ w), 0)
  | .and => (some (old &&& v), 0)
  | .or => (some (old ||| v), 0)
  | .xor => (some (old ^^^ v), 0)
  | .min => (some (if toSigned w v < toSigned w old then v else old), 0)
  | .max => (some (if toSigned w old < toSigned w v then v else old), 0)
  | .minu => (some (Nat.min old v), 0)
  | .maxu => (some (Nat.max old v), 0)
  | .swap => (some v, 0)
  | .cas => (if old = expect then some v else none, 0)
  | .fadd =>
    let f := if w = 32 then Fmt.f32 else Fmt.f64
    let r := f.addV (.static 0) false (f.value old) (f.value v)
    (some r.1, r.2)

/-- The value that an atomic delivers (R162). -/
def AmoOp.deliver (op : AmoOp) (w old : Nat) : Word :=
  if w = 64 ∨ op = .fadd then BitVec.ofNat 64 old else BitVec.ofInt 64 (toSigned 32 old)

/-- An atomic (R162, R163): its checks, its release, then one indivisible read and write at the home. It waits while a pin or an
earlier held write stands on the line. -/
def amoM (op : AmoOp) (d a b : Reg) (dw rel : Bool) : M Unit := do
  let s0 ← getS
  let n := if dw then 8 else 4
  let va := s0.g a
  let p ← scalarCheck .atomic va n true
  if rel then releaseFrom s0
  let s1 ← getS
  let s1 := (s1.drainTo p.pa n).settleHome s1.h.su.part s1.h.hid.isle p.pa
  if s1.heldAtHome p.pa n then waitAt (s0.drainTo p.pa n)
  else
    let old := s1.mem.num p.pa n
    let r := op.new (8 * n) old ((s1.g b).toNat % 2 ^ (8 * n)) ((s1.g d).toNat % 2 ^ (8 * n))
    let touch : Touch := ⟨true, true, false⟩
    modS fun _ =>
      let s2 := match r.1 with
        | some v => s1.homeApply s1.h.space s1.h.source (s1.org 0) va p.pa p.sq (leBytes n v) touch false none
        | none => s1.watchHome s1.h.su.part s1.h.source (s1.org 0) p.pa n touch
      (s2.orFlags r.2).setG d (op.deliver (8 * n) old)

/-- An atomic instruction. -/
def amo (op : AmoOp) (d a b : Reg) (dw rel : Bool) (s : State) : Out := run 4 (amoM op d a b dw rel) s

/-- `amo.add` (R162). -/
def execAmoAdd (d a b : Reg) (dw _acq rel : Bool) (s : State) : Out := amo .add d a b dw rel s
/-- `amo.and` (R162). -/
def execAmoAnd (d a b : Reg) (dw _acq rel : Bool) (s : State) : Out := amo .and d a b dw rel s
/-- `amo.or` (R162). -/
def execAmoOr (d a b : Reg) (dw _acq rel : Bool) (s : State) : Out := amo .or d a b dw rel s
/-- `amo.xor` (R162). -/
def execAmoXor (d a b : Reg) (dw _acq rel : Bool) (s : State) : Out := amo .xor d a b dw rel s
/-- `amo.min` (R162). -/
def execAmoMin (d a b : Reg) (dw _acq rel : Bool) (s : State) : Out := amo .min d a b dw rel s
/-- `amo.max` (R162). -/
def execAmoMax (d a b : Reg) (dw _acq rel : Bool) (s : State) : Out := amo .max d a b dw rel s
/-- `amo.minu` (R162). -/
def execAmoMinu (d a b : Reg) (dw _acq rel : Bool) (s : State) : Out := amo .minu d a b dw rel s
/-- `amo.maxu` (R162). -/
def execAmoMaxu (d a b : Reg) (dw _acq rel : Bool) (s : State) : Out := amo .maxu d a b dw rel s
/-- `amo.swap` (R162). -/
def execAmoSwap (d a b : Reg) (dw _acq rel : Bool) (s : State) : Out := amo .swap d a b dw rel s
/-- `amo.cas` (R162). -/
def execAmoCas (d a b : Reg) (dw _acq rel : Bool) (s : State) : Out := amo .cas d a b dw rel s
/-- `amo.fadd` (R164). -/
def execAmoFadd (d a b : Reg) (dw _acq rel : Bool) (s : State) : Out := amo .fadd d a b dw rel s

/-! ### Fences (R102-R106) -/

/-- Every earlier scalar store performed at isle scope, or wait (R104). -/
def orderSvM : M Unit := fun s =>
  let s := s.drain
  if s.scalarPending then .error (.block s) else .ok ((), s.flushMine)

/-- Every earlier vector-class access performed at isle scope, or wait (R104). -/
def orderVsM : M Unit := fun s => if s.vectorPending then .error (.block s) else .ok ((), s.flushMine)

/-- Every earlier access performed at device scope for `fence`, or wait (R103). -/
def performedM : M Unit := fun s =>
  let r := s.performed
  if r.2 then .ok ((), r.1) else .error (.block s.drain)

/-- Every earlier access performed at a scope (R103): up to isle scope on the hart's own isle, else on every isle of the
partition. What other harts have stored is not the hart's own access (R117). -/
def fenceM (scope : Nat) : M Unit := if scope ≤ 3 then (do orderSvM; orderVsM) else performedM

/-- `fence` (R103). -/
def execFence (scope : BitVec 3) (s : State) : Out := run 4 (fenceM scope.toNat) s
/-- `order.sv` (R104). -/
def execOrderSv (s : State) : Out := run 4 orderSvM s
/-- `order.vs` (R104). -/
def execOrderVs (s : State) : Out := run 4 orderVsM s
/-- A `fence.sc` at device or system scope (R106): what `fence` does at that scope, and then it has issued, and waits for one full round of
the token that begins after that: until the token has come to the first isle of the partition twice. -/
def fenceScM : M Unit := fun s =>
  match s.h.fence with
  | some 0 => .ok ((), { s with h := { s.h with fence := none } })
  | some _ => .error (.block s)
  | none => match performedM s with
    | .ok (_, t) => .error (.block { t with h := { t.h with fence := some 2 } })
    | .error e => .error e

/-- `fence.sc` (R106): at scopes 0 to 3 it is `fence`. -/
def execFenceSc (scope : BitVec 3) (s : State) : Out := run 4 (if scope.toNat ≤ 3 then fenceM scope.toNat else fenceScM) s
/-- `fence.i` (R32, R106): earlier stores reach the homes that later fetches read, and neither the loop buffer nor the core's L1 instruction
cache holds older bytes. -/
def execFenceI (s : State) : Out :=
  run 4 (fun s =>
    let s := s.drain
    if s.scalarPending || s.vectorPending then .error (.block s)
    else .ok ((), { s with
      h := { s.h with loop := none }
      ca := { s.ca with code := s.ca.code.filter fun l => l.core != s.h.hid.core } })) s

/-! ### Descriptor registers (R224) -/

/-- `dset` (R224). -/
def execDset (n : BitVec 4) (a : Reg) (imm : BitVec 12) (s : State) : Out :=
  run 4 (do
    let bs ← loadBytes (s.ea a imm) 64
    modS fun s => s.onVec fun v => { v with d := v.d.set n.toNat (recordOf bs) }) s
/-- `dget` (R224). -/
def execDget (d : Reg) (n : BitVec 4) (q : BitVec 3) (s : State) : Out := writeReg 4 d (quadOf (s.h.vec.desc n) q.toNat) s
/-- `dput` (R224). -/
def execDput (n : BitVec 4) (a : Reg) (imm : BitVec 12) (s : State) : Out :=
  run 4 (storeBytes (s.ea a imm) (leBytes 64 (s.h.vec.desc n).toNat)) s

/-! ### Watermarks (R226-R229) -/

/-- The address bound to a watermark number of the current hart; 0 where its launch bound none (R227). -/
def State.wmCell (s : State) (k : Nat) : Word := s.h.ct.wm[k]?.getD 0

/-- The cell of a watermark number, or an illegal-instruction exception (R227). -/
def cellM (enc k : Nat) : M Word := do
  let s ← getS
  if s.wmCell k = 0 then illegalM enc else pure (s.wmCell k)

/-- `wmpub` (R35, R227). -/
def execWmpub (k : BitVec 4) (a : Reg) (s : State) : Out :=
  run 4 (do
    let va ← cellM (encI 0x12 0 0 a k.toNat) k.toNat
    let s0 ← getS
    let p ← scalarCheck .atomic va 8 true
    releaseFrom s0
    let s1 ← getS
    if s1.heldAtHome p.pa 8 then waitAt s0
    else
      modS fun s =>
        let s := s.settleHome s.h.su.part s.h.hid.isle p.pa
        let v := Nat.max (s.mem.num p.pa 8) (s.g a).toNat
        s.homeApply s.h.space s.h.source (s.org 0) va p.pa p.sq (leBytes 8 v) ⟨true, true, false⟩ false none) s

/-- `wmrd` (R227). -/
def execWmrd (d : Reg) (k : BitVec 4) (s : State) : Out :=
  run 4 (do
    let va ← cellM (encI 0x12 1 d 0 k.toNat) k.toNat
    let bs ← loadBytes va 8
    modS fun s => s.setG d (loaded false bs)) s

/-- Arm a reach of a watermark number, in place of one already armed (R229). -/
def Control.arm (c : Control) (k : Nat) (n : Word) : Control := { c with armed := (c.armed.filter fun x => x.1 != k) ++ [(k, n)] }

/-- `wmwait` (R229). -/
def execWmwait (k : BitVec 4) (a : Reg) (s : State) : Out :=
  run 4 (do
    let va ← cellM (encI 0x12 2 0 a k.toNat) k.toNat
    let s0 ← getS
    let bs ← loadBytes va 8
    if s0.h.ev.mask.getLsbD 3 then modS fun s => s.onCt fun c => c.arm k.toNat (s.g a)
    else if (s0.g a).toNat ≤ leNat bs then pure ()
    else waitAt s0) s

/-! ### Launching (R182) -/

/-- `launch` (R182). -/
def execLaunch (d a : Reg) (imm : BitVec 12) (s : State) : Out :=
  run 4 (do
    let bs ← loadBytes (s.ea a imm) 64
    modS fun s =>
      let r := s.submit s.h.su.part s.h.su.ptroot (recordOf bs)
      r.1.setG d (r.2.setWidth 64)) s

end Sys2Proof.Machine
end

