-- ==== Sys2Proof/Machine/Special.lean ====
section
/-! DEFINITION. The special functions of `vsf` (R72). Each value is enclosed in fixed point to `specialBits` bits, and one
rounding follows, with the sticky bit for what lies beyond. -/

namespace Sys2Proof.Machine

/-- Fraction bits of the enclosures: every result of R72's formats is decided far above this. -/
def specialBits : Nat := 900

/-- One in fixed point. -/
def fixOne : Nat := 2 ^ specialBits

/-- The product of two fixed-point numbers. -/
def fixMul (a b : Nat) : Nat := a * b / fixOne

/-- The sum of `n` terms of p/(2i+1), each power divided by `k2`; with alternating signs for the arc tangent. -/
def oddSeries (alt : Bool) (k2 : Nat) : Nat → Nat → Nat → Int
  | 0, _, _ => 0
  | n + 1, i, p =>
    let t : Int := (p / (2 * i + 1) : Nat)
    (if alt && i % 2 == 1 then -t else t) + oddSeries alt k2 n (i + 1) (p / k2)

/-- pi in fixed point, by Machin's formula. -/
def fixPi : Nat := (16 * oddSeries true 25 210 0 (fixOne / 5) - 4 * oddSeries true (239 * 239) 70 0 (fixOne / 239)).toNat

/-- The natural logarithm of 2 in fixed point. -/
def fixLn2 : Nat := (2 * oddSeries false 9 300 0 (fixOne / 3)).toNat

/-- The powers of t^2 over odd numbers, for the logarithm. -/
def lnSeries (t2 : Nat) : Nat → Nat → Nat → Nat
  | 0, _, _ => 0
  | n + 1, i, p => p / (2 * i + 1) + lnSeries t2 n (i + 1) (fixMul p t2)

/-- The natural logarithm of z, for z from 1 to 2, in fixed point. -/
def fixLn (z : Nat) : Nat :=
  let t := (z - fixOne) * fixOne / (z + fixOne)
  2 * lnSeries (fixMul t t) 300 0 t

/-- The terms y^i / i! from the i-th on. -/
def expSeries (y : Nat) : Nat → Nat → Nat → Nat
  | 0, _, p => p
  | n + 1, i, p => p + expSeries y n (i + 1) (fixMul p y / (i + 1))

/-- e^y for y from 0 to 1 in fixed point. -/
def fixExp (y : Nat) : Nat := expSeries y 170 0 fixOne

/-- Alternating terms of a sine or cosine from the term `p` with index `i`. -/
def trigSeries (y2 : Nat) : Nat → Nat → Nat → Int
  | 0, _, _ => 0
  | n + 1, i, p => (p : Int) - trigSeries y2 n (i + 2) (fixMul p y2 / ((i + 1) * (i + 2)))

/-- The sine of y, for y from 0 to pi/2. -/
def fixSin (y : Nat) : Nat := (trigSeries (fixMul y y) 120 1 y).toNat
/-- The cosine of y, for y from 0 to pi/2. -/
def fixCos (y : Nat) : Nat := (trigSeries (fixMul y y) 120 0 fixOne).toNat

/-- A finite magnitude m x 2^e in fixed point. -/
def fixOf (m : Nat) (e : Int) : Nat := (splitAt m e (-(specialBits : Int))).1

/-- Round a fixed-point magnitude into a format. -/
def Fmt.packFix (f : Fmt) (mode : Mode) (sat neg : Bool) (m : Nat) (e : Int) : FRes :=
  f.pack mode sat neg m (e - specialBits) true

/-- exp2 of a finite operand. -/
def exp2Fin (f : Fmt) (mode : Mode) (sat : Bool) (neg : Bool) (m : Nat) (e : Int) : FRes :=
  if 12 < (bitLen m : Int) + e then f.pack mode sat false 1 (if neg then -5000 else 5000) neg
  else
    let x := fixOf m e
    let n : Int := if neg then -((x + (fixOne - 1)) / fixOne : Nat) else (x / fixOne : Nat)
    let frac := if neg then (fixOne - x % fixOne) % fixOne else x % fixOne
    if frac = 0 then f.pack mode sat false 1 n else f.packFix mode sat false (fixExp (fixMul frac fixLn2)) n

/-- log2 of a positive operand. -/
def log2Fin (f : Fmt) (mode : Mode) (sat : Bool) (m : Nat) (e : Int) : FRes :=
  let top : Int := (bitLen m : Int) - 1
  let z := fixOf m (-top)
  let n := top + e
  if z = fixOne then f.pack mode sat (decide (n < 0)) n.natAbs 0
  else
    let r : Int := n * fixOne + (fixLn z * fixOne / fixLn2 : Nat)
    f.packFix mode sat (decide (r < 0)) r.natAbs 0

/-- 1/sqrt of a positive operand. -/
def rsqrtFin (f : Fmt) (mode : Mode) (sat : Bool) (m : Nat) (e : Int) : FRes :=
  let odd := e % 2 != 0
  let m2 := if odd then 2 * m else m
  let e2 : Int := if odd then e - 1 else e
  let k := f.tb + 8 + bitLen m2
  let r := Nat.sqrt (2 ^ (2 * k) / m2)
  f.pack mode sat false r (-(k : Int) - e2 / 2) (r * r * m2 != 2 ^ (2 * k))

/-- sin (`cos` false) or cos of a finite non-zero operand, reduced exactly by quarter turns. -/
def trigFin (f : Fmt) (mode : Mode) (sat cos neg : Bool) (m : Nat) (e : Int) : FRes :=
  let x := fixOf m e
  let quarter := fixPi / 2
  let q := x / quarter + (if cos then 1 else 0)
  let y := x % quarter
  let v := if q % 2 = 0 then fixSin y else fixCos y
  let sgn := decide (2 ≤ q % 4) != (neg && !cos)
  -- cos x = sin (x + pi/2)
  f.packFix mode sat sgn v 0

/-- tanh of a finite non-zero operand. -/
def tanhFin (f : Fmt) (mode : Mode) (sat neg : Bool) (m : Nat) (e : Int) : FRes :=
  if 9 < (bitLen m : Int) + e then f.packFix mode sat neg (fixOne - 1) 0
  else
    let y := 2 * fixOf m e
    let u := fixExp (y % fixLn2) * 2 ^ (y / fixLn2) - fixOne
    f.packFix mode sat neg (u * fixOne / (u + 2 * fixOne)) 0

/-- `vsf` function `fn` of a value (R72): 0 exp2, 1 log2, 2 rcp, 3 rsqrt, 4 sin, 5 cos, 6 tanh. -/
def special (fn : Nat) (f : Fmt) (mode : Mode) (sat : Bool) (a : FVal) : FRes :=
  let dz (r : FRes) : FRes := (r.1, r.2 ||| 8)
  match fn, a with
  | _, .nan x => nanRes f x
  | 0, .inf n => if n then f.pack mode sat false 0 0 else f.deliverInf false sat
  | 0, .fin n m e => if m = 0 then f.pack mode sat false 1 0 else exp2Fin f mode sat n m e
  | 1, .inf n => if n then invalid f else f.deliverInf false sat
  | 1, .fin n m e => if m = 0 then dz (f.deliverInf true sat) else if n then invalid f else log2Fin f mode sat m e
  | 2, a => f.divV mode sat (.fin false 1 0) a
  | 3, .inf n => if n then invalid f else f.pack mode sat false 0 0
  | 3, .fin n m e => if m = 0 then dz (f.deliverInf n sat) else if n then invalid f else rsqrtFin f mode sat m e
  | 4, .inf _ => invalid f
  | 4, .fin n m e => if m = 0 then (f.zero n, 0) else trigFin f mode sat false n m e
  | 5, .inf _ => invalid f
  | 5, .fin n m e => if m = 0 then f.pack mode sat false 1 0 else trigFin f mode sat true n m e
  | _, .inf n => f.pack mode sat n 1 0
  | _, .fin n m e => if m = 0 then (f.zero n, 0) else tanhFin f mode sat n m e

end Sys2Proof.Machine
end

