-- ==== Sys2Proof/Machine/Control.lean ====
section
/-! DEFINITION. Branches, jumps and loops (R134, R166-R169), traps, breakpoints and returns (R176-R178), `wait event` (R179), and
vector configuration (R186, R188). -/

namespace Sys2Proof.Machine

/-! ### Transfers -/

/-- Transfer to a target (R167): a non-canonical target faults at the instruction, with nothing written. `link` is the register
that receives the next address, if any. -/
def transfer (link : Option Reg) (target : Word) (s : State) : Out :=
  if canonical target then
    let next := s.h.sc.pc + 4
    let t := match link with
      | some d => s.setG d next
      | none => s
    .next (t.jump target)
  else .next (s.trapHere { code := 5, val := target })

/-- The target of a halfword offset (R133, R137). -/
def State.target {n : Nat} (s : State) (off : BitVec n) : Word := s.h.sc.pc + (off.signExtend 64 <<< 1)

/-- A conditional transfer of an instruction `len` bytes long. -/
def branch (len : Nat) (taken : Bool) (target : Word) (s : State) : Out :=
  if taken then transfer none target s else .next (s.advance len)

/-- `c.beqz` (R134). -/
def execCBeqz (off : BitVec 10) (s : State) : Out := branch 2 (s.g s.h.sc.ldn == 0) (s.target off) s
/-- `c.bnez` (R134). -/
def execCBnez (off : BitVec 10) (s : State) : Out := branch 2 (s.g s.h.sc.ldn != 0) (s.target off) s
/-- `c.j` (R134). -/
def execCJ (off : BitVec 10) (s : State) : Out := branch 2 true (s.target off) s
/-- `b.eq` (R166). -/
def execBEq (a b : Reg) (imm : BitVec 12) (s : State) : Out := branch 4 (s.g a == s.g b) (s.target imm) s
/-- `b.ne` (R166). -/
def execBNe (a b : Reg) (imm : BitVec 12) (s : State) : Out := branch 4 (s.g a != s.g b) (s.target imm) s
/-- `b.lt` (R166). -/
def execBLt (a b : Reg) (imm : BitVec 12) (s : State) : Out := branch 4 ((s.g a).slt (s.g b)) (s.target imm) s
/-- `b.ge` (R166). -/
def execBGe (a b : Reg) (imm : BitVec 12) (s : State) : Out := branch 4 (!(s.g a).slt (s.g b)) (s.target imm) s
/-- `b.ltu` (R166). -/
def execBLtu (a b : Reg) (imm : BitVec 12) (s : State) : Out := branch 4 ((s.g a).ult (s.g b)) (s.target imm) s
/-- `b.geu` (R166). -/
def execBGeu (a b : Reg) (imm : BitVec 12) (s : State) : Out := branch 4 (!(s.g a).ult (s.g b)) (s.target imm) s
/-- `jal` (R167). -/
def execJal (d : Reg) (imm : BitVec 20) (s : State) : Out := transfer (some d) (s.target imm) s
/-- `jalr` (R130, R167). -/
def execJalr (d a : Reg) (imm : BitVec 12) (s : State) : Out :=
  let t := s.ea a imm
  if t.getLsbD 0 then .next (s.trapHere { code := 4, val := t }) else transfer (some d) t s

/-! ### Loops (R30, R438) -/

/-- The part of `parts` equal blocks of n iterations that a part runs (R30). -/
def subRange (n parts ix : Nat) : Nat × Nat :=
  let b := (n + (parts - 1)) / parts
  (min (ix * b) n, min ((ix + 1) * b) n)

/-- The iterations that a loop register gives the current hart of a count (R30). -/
def Control.range (c : Control) (k : BitVec 3) (n : Nat) : Nat × Nat :=
  let kind : Option LoopKind := (c.kinds.find? fun x => x.1 == k).map fun x => x.2
  match kind with
  | some .isles => subRange n (max 1 c.isles) c.isleIx
  | some .cores => subRange n (max 1 c.harts) c.hartIx
  | _ => (0, n)

/-- The scalar registers after `loop` (R30, R438). -/
def Scalar.openLoop (sc : Scalar) (k : BitVec 3) (r : Nat × Nat) (len : BitVec 12) : Scalar :=
  let start := sc.pc + 4
  let stop := start + (len.setWidth 64 <<< 1)
  let sc := { sc with
    lx := sc.lx.setIfInBounds k.toNat (BitVec.ofNat 64 r.1)
    lc := sc.lc.setIfInBounds k.toNat (BitVec.ofNat 64 (r.2 - r.1))
    frames := sc.frames.filter fun f => f.k != k }
  if r.1 = r.2 then sc.endAt stop else { sc with frames := ⟨k, start, stop⟩ :: sc.frames }.endAt start

/-- `loop` (R30, R168, R438). -/
def execLoop (k : BitVec 3) (a : Reg) (len : BitVec 12) (s : State) : Out :=
  .next (s.onSc fun sc => sc.openLoop k (s.h.ct.range k (s.g a).toNat) len)

/-! ### Traps and returns -/

/-- `trap` with a code that names no service (R176, R389, R436): a software trap in user mode, illegal in supervisor mode. -/
def execTrap (code : BitVec 12) (s : State) : Out :=
  if s.h.su.sup then illegal (encI 0x0F 0 0 0 code.toNat) s
  else .next (s.trapEntry { code := 16, val := code.setWidth 64 } (s.h.sc.pc + 4))

/-- `brk` (R177). -/
def execBrk (s : State) : Out := if s.h.dbg.hen then .next (s.haltHere 2) else .next (s.trapHere { code := 17 })

/-- `eret` (R42, R178, R346). -/
def execEret (s : State) : Out :=
  if s.h.su.sup then .next { s with h := s.h.returnTrap }
  else if s.h.ev.inHandler then .next { s with h := s.h.returnEvent }
  else illegal 0x0004003D s

/-- `wait event` (R179): nothing where no event can come, else the hart stays here until one is delivered. -/
def execWaitEvent (s : State) : Out :=
  if s.h.ev.mask = 0 ∨ s.h.ev.inHandler then .next (s.advance 4)
  else (Stop.block (s.onEv fun e => { e with waiting := true })).out

/-! ### Vector configuration -/

/-- The vector-state-absent trap of a user hart (R351). -/
def State.vectorAbsent (s : State) : Bool := !s.h.su.sup && s.h.su.va

/-- The effect of `setvl` and `setvl.k` (R43, R44, R186). The previous VLMAX is that of the lane groups which the context held after its last
`setvl`, so that a resumption with fewer is reported here (23_scheduling_and_preemption.md); an `lgrant` since then counts in the same way (DEDUCED,
log 95). -/
def State.setVl (s : State) (keep : Bool) (avl : Word) (d : Reg) : State :=
  let before := s.h.vec.vlmaxAt s.h.ct.lastG
  let g := s.grant keep
  let s := s.regrant g.1
  let s := if g.2 then { s with h := { s.h with mark := none } } else s
  let now := s.h.vlmax
  let s := (s.onSu fun u => { u with shrunk := decide (now < before) }).onCt fun c => { c with lastG := s.h.groups }
  let vl := if s.h.vec.vill then 0 else min avl.toNat now
  (s.setCtl fun v => { v with vl := BitVec.ofNat 15 vl, vstart := 0 }).setG d (BitVec.ofNat 64 vl)

/-- `setvl` and `setvl.k` with the absence check of R351; a change of G waits for earlier vector instructions (R186). -/
def setvl (keep : Bool) (f3 : Nat) (d a : Reg) (s : State) : Out :=
  if s.vectorAbsent then .next (s.trapHere { code := 18, val := BitVec.ofNat 64 (encI 0x10 f3 d a 0) })
  else if groupsOf (s.grant keep).1 ≠ s.h.groups ∧ s.vectorBusy then (Stop.block s).out
  else .next ((s.setVl keep (s.g a) d).advance 4)

/-- `setvl` (R186). -/
def execSetvl (d a : Reg) (s : State) : Out := setvl false 0 d a s
/-- `setvl.k` (R44, R186). -/
def execSetvlK (d a : Reg) (s : State) : Out := setvl true 1 d a s

/-- VTYPE, VL and VSTART after `settype` (R188). -/
def Vec.setType (v : Vec) (groups : Nat) (imm : BitVec 12) : Vec :=
  { v.writeVtype groups (BitVec.ofNat 14 (v.vtype.toNat / 2 ^ 12 * 2 ^ 12 + imm.toNat)) with vstart := 0 }

/-- `settype` (R188). -/
def execSettype (d : Reg) (imm : BitVec 12) (s : State) : Out :=
  if s.vectorAbsent then .next (s.trapHere { code := 18, val := BitVec.ofNat 64 (encI 0x10 2 d 0 imm.toNat) })
  else
    let t := s.setCtl fun v => v.setType s.h.groups imm
    .next ((t.setG d (BitVec.ofNat 64 t.h.vlmax)).advance 4)

end Sys2Proof.Machine
end

