-- ==== Sys2Proof/Machine/Slots.lean ====
section
/-! DEFINITION. How a W instruction runs, alone or as a slot of a convoy: its checks in the order of R151, its progress (R192,
R195, R196), the comparison of the two copies under protected mode (R396-R398), and how it ends. -/

namespace Sys2Proof.Machine

/-- The part of a W instruction that is to run: its slot, the element it starts at, the element it stops before, and the element before
which what feeds it has been produced (R195). `skip` lists the elements that have performed ahead of their turn (R108); `owns`: what stands in mf
from an earlier stop, if anything does, is this slot's (R231). -/
structure Part where
  slot : Nat
  lo   : Nat
  hi   : Nat
  fed  : Nat
  skip : List Nat := []
  owns : Bool := true
  deriving DecidableEq, Repr

/-- How a part ends: complete, stopped before an element as asked, a trap at an element, a wait at an element, a halt, or a
checksum fault of an accumulator (R249). -/
inductive SlotEnd where
  | done
  | part (k : Nat)
  | trap (k : Nat) (t : Trap)
  | wait (k : Nat)
  | halt (k : Nat) (reason : Nat)
  | check (acc : Nat)
  deriving DecidableEq, Repr

/-- What a W instruction means: its own checks of step 4 and of step 5 of R151 (given its progress), and its work over a part. -/
structure Sem where
  illegal : State → WFields → Bool
  fault   : State → WFields → Nat → Option Trap
  run     : WFields → Part → State → State × SlotEnd

/-! ### Checks -/

/-- The encoding of a W instruction (R144). -/
def wEnc (op : WOp) (f : WFields) : Word := BitVec.ofNat 64 (packW op.spec.op8 op.spec.func8 f)

/-- A VPRIV instruction (R352). -/
def isPriv (op : WOp) : Bool := op.spec.op8 == 0x3F
/-- A class that needs the matrix state (R351). -/
def isMatrix (op : WOp) : Bool := 0x20 ≤ op.spec.op8 && op.spec.op8 ≤ 0x22
/-- An instruction that R396 forms twice: it computes a vector or mask destination, or one of the scalar results that R396 lists. -/
def isMirrored (op : WOp) : Bool := op.spec.op8 ≤ 0x0A || op == .ecmd || op == .epoll
/-- An indivisible instruction (R195). -/
def isIndivisible (op : WOp) : Bool := op.spec.inKind == .indivisible || op.spec.outKind == .indivisible
/-- An instruction of kind I: an indivisible one, or a rate-mode load (R195, R218). -/
def State.isI (s : State) (op : WOp) (f : WFields) : Bool := isIndivisible op || (op == .vldd && (s.descAt f).rate != 0)

/-- The trap of an illegal W instruction, with its slot (R149). -/
def wIllegal (op : WOp) (f : WFields) (slot : Nat) : Trap :=
  { code := 1, val := wEnc op f, lane := BitVec.ofNat 64 (slot * 2 ^ 16) }

/-- Give a trap its slot (R343): where SLANE names an element it keeps that, else SLANE holds the slot alone. -/
def Trap.inSlot (t : Trap) (slot : Nat) : Trap :=
  if t.lane.getLsbD 63 then { t with lane := (t.lane &&& ~~~0x70000) ||| BitVec.ofNat 64 (slot * 2 ^ 16) }
  else if t.code = 1 ∨ t.code = 2 ∨ t.code = 11 ∨ t.code = 13 ∨ t.code = 15 ∨ t.code = 18 ∨ t.code = 19 then
    { t with lane := BitVec.ofNat 64 (slot * 2 ^ 16) }
  else t

/-- Steps 3 and after of R151 that read privilege and the absence bits (R335, R351): the cause that fails, if any. -/
def State.wAccess (s : State) (op : WOp) : Option Nat :=
  if isPriv op && !s.h.su.sup then some 2
  else if !s.h.su.sup && s.h.su.va then some 18
  else if !s.h.su.sup && s.h.su.mxa && isMatrix op then some 19
  else none

/-- Step 4 of R151 within one W instruction: `vill` (R150), alignment (R145), overlap (R194), and its own rules. -/
def State.wIllegal4 (s : State) (op : WOp) (sem : Sem) (f : WFields) : Bool :=
  !isPriv op && (s.h.vec.vill || !alignedRuns s.h.vec op f || !overlapOk s.h.vec op f || sem.illegal s f)

/-- The progress that a single W instruction starts from is refused (R26, R192, R197). -/
def State.wProgressBad (s : State) (op : WOp) (f : WFields) : Bool :=
  let p := s.h.vec.vstart.toNat
  !isPriv op && (fieldOf s.h.vec.cpv0 63 1 == 1 || decide (s.vl < p) || (s.isI op f && p != 0 && p != s.vl))

/-- The first check of R151 that a W instruction standing alone fails. -/
def State.singleFault (s : State) (op : WOp) (sem : Sem) (f : WFields) : Option Trap :=
  match s.wAccess op with
  | some c => some { code := c, val := wEnc op f }
  | none => if s.wProgressBad op f || s.wIllegal4 op sem f then some (wIllegal op f 0) else sem.fault s f s.h.vec.vstart.toNat

/-! ### Progress -/

/-- Write VSTART (R184). -/
def State.setVstart (s : State) (k : Nat) : State := s.setCtl fun v => { v with vstart := BitVec.ofNat 15 k }

/-- Leave VSTART at the element that an instruction waits at. -/
def State.holdVstart (s : State) (k : Nat) : State := if s.h.vec.vstart.toNat = k then s else s.setVstart k

/-- Clear the progress registers at completion (R196). -/
def State.clearProgress (s : State) : State :=
  if s.h.vec.vstart = 0 ∧ s.h.vec.cpv0 = 0 ∧ s.h.vec.cpv1 = 0 then s
  else s.setCtl fun v => { v with vstart := 0, cpv0 := 0, cpv1 := 0 }

/-- Where a single W instruction stops: at VL, or after one element under an element step (R411). -/
def State.singleStop (s : State) (op : WOp) (f : WFields) (lo : Nat) : Nat :=
  if s.h.dbg.run = some true ∧ ¬ s.isI op f then min s.vl (lo + 1) else s.vl

/-- A checksum fault of an accumulator in a slot (R41, R249): delivered where it can be, else a supervisor trap. R41 names CKS = 0 and
IN = 1 as what it cannot be delivered under; in supervisor mode, too, the model takes the trap (DESIGN CHOICE, log 96). -/
def State.checksumFault (s : State) (acc slot : Nat) : State :=
  if !s.h.su.sup && s.h.ev.mask.getLsbD 2 && !s.h.ev.inHandler then { s with h := s.h.deliver 3 acc s.h.sc.pc }
  else s.trapHere { code := 15, sub := acc, lane := BitVec.ofNat 64 (slot * 2 ^ 16) }

/-- What the end of a single W instruction makes of the machine (R196). -/
def State.endSingle (s : State) (op : WOp) (e : SlotEnd) : State :=
  match e with
  | .done => (if isPriv op then s else s.clearProgress).advance 8
  | .part k => s.setVstart k
  | .trap k t => ((if isPriv op then s else s.setVstart k).trapHere t)
  | .wait k => (if isPriv op then s else s.holdVstart k).onDbg fun d => { d with stalled := true }
  | .halt k r => ((if isPriv op then s else s.setVstart k).haltHere r)
  | .check acc => (s.setVstart 0).checksumFault acc 0

/-- Run a W instruction that no header precedes. -/
def runSingle (op : WOp) (sem : Sem) (f : WFields) (s : State) : Out :=
  match s.singleFault op sem f with
  | some t => .next (s.trapHere t)
  | none =>
    let lo := if isPriv op then 0 else s.h.vec.vstart.toNat
    let r := sem.run f { slot := 0, lo := lo, hi := s.singleStop op f lo, fed := s.vl } s
    .next (r.1.endSingle op r.2)

/-- The run of an indivisible W instruction (R195): everything at progress 0, nothing more at progress VL. -/
def indivisible (work : WFields → Nat → State → State × SlotEnd) (f : WFields) (c : Part) (s : State) : State × SlotEnd :=
  if c.hi < s.vl then (s, .part c.lo) else if c.lo ≠ 0 then (s, .done) else work f c.slot s

/-- The end of an indivisible W instruction whose work is written as an `M`. -/
def endM (slot : Nat) (r : Except Stop (Unit × State)) : State × SlotEnd :=
  match r with
  | .ok (_, s) => (s, .done)
  | .error (.trap t s) => (s, .trap 0 (t.inSlot slot))
  | .error (.block s) => (s, .wait 0)
  | .error (.halt r s) => (s, .halt 0 r)

/-- An indivisible W instruction from its work. -/
def semI (illegal : State → WFields → Bool) (fault : State → WFields → Nat → Option Trap) (m : WFields → M Unit) : Sem :=
  { illegal := illegal, fault := fault, run := indivisible fun f slot s => endM slot (m f s) }

/-- No check of its own at step 4. -/
def neverIllegal (_ : State) (_ : WFields) : Bool := false
/-- No check of its own at step 5. -/
def noFault (_ : State) (_ : WFields) (_ : Nat) : Option Trap := none

/-! ### Destinations -/

/-- Where results go: elements of width w of the group of n registers at r, or bits of a mask register. -/
inductive Dst where
  | vec (r w n : Nat)
  | mask (k : Nat)
  deriving DecidableEq, Repr

/-- The width of the data group that R341 names; a mask register, as the source of `epoll` is one, holds one bit for each element (R192). -/
def State.dataWidth (s : State) (op : WOp) (f : WFields) : Nat :=
  if op.spec.op8 = 0x0A ∨ op = .epoll then 1 else match op.spec.vdSpan with
  | .wide => 2 * s.sew
  | .cvt => (cvtWidths f).2
  | .fwma => fwmaWidth f
  | _ => s.sew

/-- The destination of a W instruction. -/
def State.dstOf (s : State) (op : WOp) (f : WFields) : Dst :=
  match op.spec.vd with
  | .mask => .mask f.vd.toNat
  | _ => .vec f.vd.toNat (s.dataWidth op f) (spanOf s.h.vec f op.spec.vdSpan)

/-- SLANE for element e of a W instruction in a slot (R341). -/
def State.lane (s : State) (op : WOp) (f : WFields) (e slot : Nat) : Word := s.h.slane (s.dataWidth op f) e slot

/-- Write one result. -/
def State.putDst (s : State) (d : Dst) (i v : Nat) : State :=
  match d with
  | .vec r w _ => s.setElem r w i v
  | .mask k => s.setMaskBit k i (v % 2 == 1)

/-- The chunk that holds element i of a destination (R190, R396). -/
def State.chunkOf (s : State) (d : Dst) (i : Nat) : Nat × Nat :=
  match d with
  | .vec _ w _ => (i / s.per w, i % s.per w * w / 64)
  | .mask _ => (0, i / 64)

/-- Bits a to b - 1 of a register zeroed. -/
def clearBits (x : VReg) (a b : Nat) : VReg := x &&& ~~~(BitVec.ofNat 16384 (2 ^ (b - a) - 1) <<< a)

/-- Zero bits a to b - 1 of a register, and of its mirror under protected mode. -/
def State.clearBoth (s : State) (x : VReg) (a b : Nat) : VReg :=
  let y := clearBits x a b
  if s.h.vec.pm then clearBits y (a + s.h.mirror) (b + s.h.mirror) else y

/-- Zero the elements from i up to the end of a destination (R192, R202). -/
def State.zeroFrom (s : State) (d : Dst) (i : Nat) : State :=
  match d with
  | .vec r w n => (List.range n).foldl (fun s j =>
      let per := s.per w
      let a := i - j * per
      if a < per then s.setReg (r + j) (s.clearBoth (s.h.vec.reg (r + j)) (a * w) (per * w)) else s) s
  | .mask k => if i < s.h.vlmax then s.setMask k (s.clearBoth (s.h.vec.mask k) i s.h.vlmax) else s

/-- The tail from element i, if VTYPE.TA = 0 and VL > 0 (R192). -/
def State.tail (s : State) (d : Dst) (i : Nat) : State :=
  if s.vl = 0 ∨ s.h.vec.ta then s else s.zeroFrom d i

/-! ### Protected mode -/

/-- One result: the source element it belongs to, its index in the destination, and what the primary and the mirror lane give
(R396); none where they leave the destination as it is. -/
structure Cell where
  e   : Nat
  i   : Nat
  pri : Option FRes
  mir : Option FRes
  deriving DecidableEq, Repr

/-- The values of a cell agree. -/
def Cell.agrees (c : Cell) : Bool := c.pri.map Prod.fst == c.mir.map Prod.fst

/-- The machine check of R398 at an element. -/
def State.laneMismatch (s : State) (op : WOp) (f : WFields) (e slot : Nat) : Trap :=
  { code := 21, sub := 1, lane := s.lane op f e slot }

/-- Write the results of cells, with their flags (R67). -/
def State.putCells (s : State) (d : Dst) (cs : List Cell) : State :=
  cs.foldl (fun s c => match c.pri with
    | some r => (s.putDst d c.i r.1).orFlags r.2
    | none => s) s

/-- Compare and write cells in order (R397, R398): all of them, or those before the first chunk whose copies differ, with the
lowest active element of that chunk. R398 leaves that chunk unwritten, R196 and R207 want what lies in it below VSTART written; the model
follows R398, so that masked-off elements at the bottom of the chunk stay as they were (DESIGN CHOICE, log 113). -/
def State.commit (s : State) (op : WOp) (f : WFields) (slot : Nat) (d : Dst) (cs : List Cell) :
    State × Option (Nat × Trap) :=
  match cs.find? fun c => !c.agrees with
  | none => (s.putCells d cs, none)
  | some b =>
    let same (c : Cell) : Bool := s.chunkOf d c.i == s.chunkOf d b.i
    let e := ((cs.find? fun c => same c && s.active f c.e).map Cell.e).getD b.e
    (s.putCells d (cs.takeWhile fun c => !same c), some (e, s.laneMismatch op f e slot))

/-- The width of one result: a mask bit, an element, or a g register. -/
def State.resultWidth (s : State) (op : WOp) (f : WFields) : Nat :=
  match op.spec.vd with
  | .mask => 1
  | .vec => s.dataWidth op f
  | _ => 64

/-- An instruction forms a result for an element (R208, R396, R407): `vins` and `vext` for the one that they index, `vslideup` from its amount on;
`vsel` and the scans for every element below VL, active or not. -/
def State.forms (s : State) (op : WOp) (f : WFields) (e : Nat) : Bool :=
  match op with
  | .vins => e == f.imm.toNat && decide (e < s.h.vlmax)
  | .vext => e == f.imm.toNat
  | .vslideup => decide ((if f.s1 then (s.g f.vs1).toNat else f.imm.toNat) ≤ e) && decide (e < s.vl) && s.active f e
  | .vsel | .vscan | .vfscan => decide (e < s.vl)
  | _ => decide (e < s.vl) && s.active f e

/-- One more instruction that R396 covers has completed at the hart (R408): an injection record of KIND 2 that names it alters a
first computation, which is repeated and counted where the two differ (R397). `s0` is the state before the instruction. -/
def State.countMirrored (s : State) (s0 : State) (op : WOp) (f : WFields) : State :=
  if s0.h.vec.pm && isMirrored op then
    let n := s.h.dbg.mirrored + 1
    let hits := s.dev.inject.countP fun r =>
      let q (k : Nat) : Word := r.record.extractLsb' (64 * k) 64
      r.part == s.h.su.part && fieldOf (q 0) 32 32 == s.h.su.lid.toNat && fieldOf (q 0) 24 8 == 2 && fieldOf (q 0) 0 24 == n
        && s0.forms op f (fieldOf (q 1) 0 16)
        && (q 2).toNat % 2 ^ s0.resultWidth op f != 0
    let s := s.onDbg fun d => { d with mirrored := n }
    (s.count s.h.hid.isle fun t => { t with mirrorRetry := t.mirrorRetry + hits }).clearInjections
  else s

/-- End a part over elements: a trap where one was found, else completion at VL with `fin`, else a stop. -/
def endPart (c : Part) (t : Option (Nat × Trap)) (fin : State → State) (s : State) : State × SlotEnd :=
  match t with
  | some x => (s, .trap x.1 x.2)
  | none => if c.hi < s.vl then (s, .part c.hi) else (fin s, .done)

/-- The elements of a part. -/
def Part.elems (c : Part) : List Nat := List.range' c.lo (c.hi - c.lo)

/-- What an element receives by R192: its result when active, zero when masked off under MA = 1, else nothing. -/
def State.masked (s : State) (f : WFields) (mir : Bool) (e : Nat) (r : FRes) : Option FRes :=
  if !f.me || s.maskBit mir f.mr.toNat e then some r else if s.h.vec.ma then some (0, 0) else none

/-- The cells of results given for each copy and element; one copy stands for both outside protected mode. -/
def State.cells (s : State) (es : List Nat) (res : Bool → Nat → Option FRes) : List Cell :=
  es.map fun e =>
    let p := res false e
    ⟨e, e, p, if s.h.vec.pm then res true e else p⟩

/-- An element-wise part (R192): results of each element, then the tail at completion. -/
def elementwise (op : WOp) (f : WFields) (c : Part) (res : Bool → Nat → Option FRes) (s : State) : State × SlotEnd :=
  let d := s.dstOf op f
  let r := s.commit op f c.slot d (s.cells c.elems res)
  endPart c r.2 (fun t => (t.tail d t.vl).countMirrored s op f) r.1

/-- An element-wise W instruction whose results the mask governs (R192). -/
def semElem (op : WOp) (illegal : State → WFields → Bool) (res : State → WFields → Bool → Nat → FRes) : Sem :=
  { illegal := illegal, fault := noFault
    run := fun f c s => elementwise op f c (fun mir e => s.masked f mir e (res s f mir e)) s }

end Sys2Proof.Machine
end

