-- ==== Sys2Proof/Machine/VectorInt.lean ====
section
/-! DEFINITION. Vector integer arithmetic (R198, R199), comparison (R204) and mask logic (R205). Each instruction is a `Sem`, which a
convoy slot runs as well. -/

namespace Sys2Proof.Machine

/-! ### Integer arithmetic (R198) -/

/-- A VINT instruction: its result from a, b and c at SEW, truncated to SEW (R193). -/
def semInt (op : WOp) (fn : Nat → Nat → Nat → Nat → Nat) : Sem :=
  semElem op neverIllegal fun s f mir e =>
    let w := s.sew
    (fn w (s.srcA f mir w e) (s.elem mir f.vs2.toNat w e) (s.elem mir f.vs3.toNat w e) % 2 ^ w, 0)

/-- a - b modulo 2^w. -/
def subMod (w a b : Nat) : Nat := truncInt w ((a : Int) - b)

/-- The nearest value within bounds. -/
def clampInt (lo hi x : Int) : Int := if x < lo then lo else if hi < x then hi else x

/-- Clamp an exact result to the signed range of a width. -/
def satSigned (w : Nat) (x : Int) : Nat := truncInt w (clampInt (intMin true w) (intMax true w) x)

/-- Clamp an exact result to the unsigned range of a width. -/
def satUnsigned (w : Nat) (x : Int) : Nat := truncInt w (clampInt 0 (intMax false w) x)

/-- The product of two signed values as bits of twice the width. -/
def signedProduct (w a b : Nat) : Nat := truncInt (2 * w) (toSigned w a * toSigned w b)

/-- `vadd` (R198): a + b. -/
def semVadd : Sem := semInt .vadd fun _ a b _ => a + b
/-- `vadd` as a single instruction (R198). -/
def execVadd (f : WFields) (s : State) : Out := runSingle .vadd semVadd f s

/-- `vsub` (R198): a - b. -/
def semVsub : Sem := semInt .vsub fun w a b _ => subMod w a b
/-- `vsub` as a single instruction (R198). -/
def execVsub (f : WFields) (s : State) : Out := runSingle .vsub semVsub f s

/-- `vrsub` (R198): b - a. -/
def semVrsub : Sem := semInt .vrsub fun w a b _ => subMod w b a
/-- `vrsub` as a single instruction (R198). -/
def execVrsub (f : WFields) (s : State) : Out := runSingle .vrsub semVrsub f s

/-- `vand` (R198): bitwise and. -/
def semVand : Sem := semInt .vand fun _ a b _ => a &&& b
/-- `vand` as a single instruction (R198). -/
def execVand (f : WFields) (s : State) : Out := runSingle .vand semVand f s

/-- `vor` (R198): bitwise or. -/
def semVor : Sem := semInt .vor fun _ a b _ => a ||| b
/-- `vor` as a single instruction (R198). -/
def execVor (f : WFields) (s : State) : Out := runSingle .vor semVor f s

/-- `vxor` (R198): bitwise xor. -/
def semVxor : Sem := semInt .vxor fun _ a b _ => a ^^^ b
/-- `vxor` as a single instruction (R198). -/
def execVxor (f : WFields) (s : State) : Out := runSingle .vxor semVxor f s

/-- `vsll` (R198): b shifted left by a mod SEW. -/
def semVsll : Sem := semInt .vsll fun w a b _ => b * 2 ^ (a % w)
/-- `vsll` as a single instruction (R198). -/
def execVsll (f : WFields) (s : State) : Out := runSingle .vsll semVsll f s

/-- `vsrl` (R198): b shifted right by a mod SEW, logical. -/
def semVsrl : Sem := semInt .vsrl fun w a b _ => b / 2 ^ (a % w)
/-- `vsrl` as a single instruction (R198). -/
def execVsrl (f : WFields) (s : State) : Out := runSingle .vsrl semVsrl f s

/-- `vsra` (R198): b shifted right by a mod SEW, arithmetic. -/
def semVsra : Sem := semInt .vsra fun w a b _ => truncInt w (toSigned w b / (2 ^ (a % w) : Nat))
/-- `vsra` as a single instruction (R198). -/
def execVsra (f : WFields) (s : State) : Out := runSingle .vsra semVsra f s

/-- `vmin` (R198): the least, signed. -/
def semVmin : Sem := semInt .vmin fun w a b _ => if toSigned w a ≤ toSigned w b then a else b
/-- `vmin` as a single instruction (R198). -/
def execVmin (f : WFields) (s : State) : Out := runSingle .vmin semVmin f s

/-- `vmax` (R198): the greatest, signed. -/
def semVmax : Sem := semInt .vmax fun w a b _ => if toSigned w a ≤ toSigned w b then b else a
/-- `vmax` as a single instruction (R198). -/
def execVmax (f : WFields) (s : State) : Out := runSingle .vmax semVmax f s

/-- `vminu` (R198): the least, unsigned. -/
def semVminu : Sem := semInt .vminu fun _ a b _ => min a b
/-- `vminu` as a single instruction (R198). -/
def execVminu (f : WFields) (s : State) : Out := runSingle .vminu semVminu f s

/-- `vmaxu` (R198): the greatest, unsigned. -/
def semVmaxu : Sem := semInt .vmaxu fun _ a b _ => max a b
/-- `vmaxu` as a single instruction (R198). -/
def execVmaxu (f : WFields) (s : State) : Out := runSingle .vmaxu semVmaxu f s

/-- `vmul` (R198): the low bits of the product. -/
def semVmul : Sem := semInt .vmul fun _ a b _ => a * b
/-- `vmul` as a single instruction (R198). -/
def execVmul (f : WFields) (s : State) : Out := runSingle .vmul semVmul f s

/-- `vmulh` (R198): the high bits of the signed product. -/
def semVmulh : Sem := semInt .vmulh fun w a b _ => signedProduct w a b / 2 ^ w
/-- `vmulh` as a single instruction (R198). -/
def execVmulh (f : WFields) (s : State) : Out := runSingle .vmulh semVmulh f s

/-- `vmulhu` (R198): the high bits of the unsigned product. -/
def semVmulhu : Sem := semInt .vmulhu fun w a b _ => a * b / 2 ^ w
/-- `vmulhu` as a single instruction (R198). -/
def execVmulhu (f : WFields) (s : State) : Out := runSingle .vmulhu semVmulhu f s

/-- `vmacc` (R198): a x b + c. -/
def semVmacc : Sem := semInt .vmacc fun _ a b c => a * b + c
/-- `vmacc` as a single instruction (R198). -/
def execVmacc (f : WFields) (s : State) : Out := runSingle .vmacc semVmacc f s

/-- `vsadd` (R198): a + b clamped, signed. -/
def semVsadd : Sem := semInt .vsadd fun w a b _ => satSigned w (toSigned w a + toSigned w b)
/-- `vsadd` as a single instruction (R198). -/
def execVsadd (f : WFields) (s : State) : Out := runSingle .vsadd semVsadd f s

/-- `vssub` (R198): a - b clamped, signed. -/
def semVssub : Sem := semInt .vssub fun w a b _ => satSigned w (toSigned w a - toSigned w b)
/-- `vssub` as a single instruction (R198). -/
def execVssub (f : WFields) (s : State) : Out := runSingle .vssub semVssub f s

/-- `vsaddu` (R198): a + b clamped, unsigned. -/
def semVsaddu : Sem := semInt .vsaddu fun w a b _ => satUnsigned w ((a : Int) + b)
/-- `vsaddu` as a single instruction (R198). -/
def execVsaddu (f : WFields) (s : State) : Out := runSingle .vsaddu semVsaddu f s

/-- `vssubu` (R198): a - b clamped, unsigned. -/
def semVssubu : Sem := semInt .vssubu fun w a b _ => satUnsigned w ((a : Int) - b)
/-- `vssubu` as a single instruction (R198). -/
def execVssubu (f : WFields) (s : State) : Out := runSingle .vssubu semVssubu f s

/-- `vabsd` (R198): the absolute difference of signed values. -/
def semVabsd : Sem := semInt .vabsd fun w a b _ => (toSigned w a - toSigned w b).natAbs
/-- `vabsd` as a single instruction (R198). -/
def execVabsd (f : WFields) (s : State) : Out := runSingle .vabsd semVabsd f s

/-- `vmv` (R198): a. -/
def semVmv : Sem := semInt .vmv fun _ a _ _ => a
/-- `vmv` as a single instruction (R198). -/
def execVmv (f : WFields) (s : State) : Out := runSingle .vmv semVmv f s

/-- `vsel` (R198): the mask chooses b or a, and every element below VL is written. -/
def semVsel : Sem :=
  { illegal := neverIllegal, fault := noFault
    run := fun f c s =>
      elementwise .vsel f c (fun mir e =>
        some (if s.maskBit mir f.mr.toNat e then s.elem mir f.vs2.toNat s.sew e else s.srcA f mir s.sew e, 0)) s }
/-- `vsel` as a single instruction (R198). -/
def execVsel (f : WFields) (s : State) : Out := runSingle .vsel semVsel f s

/-! ### Widening and narrowing (R199) -/

/-- Every VWIDE form is illegal with SEW = 64 or L = 8 (R199). -/
def wideIllegal (s : State) (_ : WFields) : Bool := s.sew == 64 || s.h.vec.grp == 8

/-- A widening instruction: its result at 2 x SEW from a, b at SEW and c at 2 x SEW. -/
def semWiden (op : WOp) (fn : Nat → Nat → Nat → Nat → Int) : Sem :=
  semElem op wideIllegal fun s f mir e =>
    let w := s.sew
    (truncInt (2 * w) (fn w (s.srcA f mir w e) (s.elem mir f.vs2.toNat w e) (s.elem mir f.vs3.toNat (2 * w) e)), 0)

/-- A narrowing instruction: its result at SEW from the amount a mod 2 x SEW and b at 2 x SEW. -/
def semNarrow (op : WOp) (fn : Nat → Nat → Nat → Nat) : Sem :=
  semElem op wideIllegal fun s f mir e =>
    let w := s.sew
    (fn w (s.srcA f mir w e % (2 * w)) (s.elem mir f.vs2.toNat (2 * w) e) % 2 ^ w, 0)

/-- A number over a power of two, rounded to nearest with ties to even. -/
def shiftRne (x : Int) (k : Nat) : Int :=
  let q := x / (2 ^ k : Nat)
  let r := x % (2 ^ k : Nat)
  if (2 ^ k : Nat) < 2 * r ∨ (2 * r = (2 ^ k : Nat) ∧ q % 2 = 1) then q + 1 else q

/-- `vwadd` (R199): sum of sign-extended operands. -/
def semVwadd : Sem := semWiden .vwadd fun w a b _ => toSigned w a + toSigned w b
/-- `vwadd` as a single instruction (R199). -/
def execVwadd (f : WFields) (s : State) : Out := runSingle .vwadd semVwadd f s

/-- `vwaddu` (R199): sum of zero-extended operands. -/
def semVwaddu : Sem := semWiden .vwaddu fun _ a b _ => (a : Int) + b
/-- `vwaddu` as a single instruction (R199). -/
def execVwaddu (f : WFields) (s : State) : Out := runSingle .vwaddu semVwaddu f s

/-- `vwmul` (R199): product of sign-extended operands. -/
def semVwmul : Sem := semWiden .vwmul fun w a b _ => toSigned w a * toSigned w b
/-- `vwmul` as a single instruction (R199). -/
def execVwmul (f : WFields) (s : State) : Out := runSingle .vwmul semVwmul f s

/-- `vwmulu` (R199): product of zero-extended operands. -/
def semVwmulu : Sem := semWiden .vwmulu fun _ a b _ => (a : Int) * b
/-- `vwmulu` as a single instruction (R199). -/
def execVwmulu (f : WFields) (s : State) : Out := runSingle .vwmulu semVwmulu f s

/-- `vwmacc` (R199): signed product plus c. -/
def semVwmacc : Sem := semWiden .vwmacc fun w a b c => toSigned w a * toSigned w b + c
/-- `vwmacc` as a single instruction (R199). -/
def execVwmacc (f : WFields) (s : State) : Out := runSingle .vwmacc semVwmacc f s

/-- `vnsrl` (R199): logical right shift, truncated. -/
def semVnsrl : Sem := semNarrow .vnsrl fun _ k b => b / 2 ^ k
/-- `vnsrl` as a single instruction (R199). -/
def execVnsrl (f : WFields) (s : State) : Out := runSingle .vnsrl semVnsrl f s

/-- `vnclip` (R199): rounded right shift, clamped to the signed range. -/
def semVnclip : Sem := semNarrow .vnclip fun w k b => satSigned w (shiftRne (toSigned (2 * w) b) k)
/-- `vnclip` as a single instruction (R199). -/
def execVnclip (f : WFields) (s : State) : Out := runSingle .vnclip semVnclip f s

/-- `vnclipu` (R199): rounded right shift, clamped to the unsigned range. -/
def semVnclipu : Sem := semNarrow .vnclipu fun w k b => satUnsigned w (shiftRne b k)
/-- `vnclipu` as a single instruction (R199). -/
def execVnclipu (f : WFields) (s : State) : Out := runSingle .vnclipu semVnclipu f s

/-! ### Integer comparison (R204) -/

/-- The relations of `vcmp`: 0 eq, 1 ne, 2 lt, 3 le, 4 ltu, 5 leu (R204). -/
def intRel (rel w a b : Nat) : Bool :=
  match rel with
  | 0 => a == b
  | 1 => a != b
  | 2 => decide (toSigned w a < toSigned w b)
  | 3 => decide (toSigned w a ≤ toSigned w b)
  | 4 => decide (a < b)
  | _ => decide (a ≤ b)

/-- `vcmp` (R204). -/
def semVcmp : Sem :=
  semElem .vcmp neverIllegal fun s f mir e =>
    let w := s.sew
    (bit01 (intRel (f.imm.toNat % 8) w (s.srcA f mir w e) (s.elem mir f.vs2.toNat w e)), 0)
/-- `vcmp` as a single instruction (R204). -/
def execVcmp (f : WFields) (s : State) : Out := runSingle .vcmp semVcmp f s

/-! ### Masks (R205) -/

/-- Bits below VL of a mask register, or of its mirror; bits at or beyond VLMAX read as zero (R192). -/
def State.maskLow (s : State) (mir : Bool) (k : Nat) : VReg :=
  (s.h.vec.mask k >>> (if mir then s.h.mirror else 0)) &&& BitVec.ofNat 16384 (2 ^ min s.vl s.h.vlmax - 1)

/-- The first chunk of 64 bits in which two registers differ. -/
def firstChunk (a b : VReg) (n : Nat) : Nat :=
  ((List.range (n / 64 + 1)).find? fun j => sliceOf a (64 * j) 64 != sliceOf b (64 * j) 64).getD 0

/-- A mask register with its bits below VL replaced, in both copies under protected mode. A write does not reach a bit beyond the register's
lanes, which under protected mode are their first half (R188, R189). -/
def State.putMaskLow (s : State) (k : Nat) (x : VReg) : State :=
  let n := min s.vl (s.per 1)
  let x := x &&& BitVec.ofNat 16384 (2 ^ n - 1)
  let y := s.clearBoth (s.h.vec.mask k) 0 n ||| x
  s.setMask k (if s.h.vec.pm then y ||| (x <<< s.h.mirror) else y)

/-- A mask instruction that writes a mask register (R205). -/
def semMask (op : WOp) (fn : VReg → VReg → VReg) : Sem :=
  { illegal := neverIllegal, fault := noFault
    run := fun f c s =>
      if c.hi < s.vl then (s, .part c.lo)
      else
        let d := Dst.mask f.vd.toNat
        let res (mir : Bool) : VReg :=
          fn (s.maskLow mir f.vs1.toNat) (s.maskLow mir f.vs2.toNat) &&& BitVec.ofNat 16384 (2 ^ s.vl - 1)
        let p := res false
        if c.lo ≠ 0 then ((s.tail d s.vl).countMirrored s op f, .done)
        else if s.h.vec.pm && p != res true then
          (s, .trap 0 (s.laneMismatch op f (64 * firstChunk p (res true) s.vl) c.slot))
        else (((s.putMaskLow f.vd.toNat p).tail d s.vl).countMirrored s op f, .done) }

/-- An indivisible instruction that forms a scalar result twice and writes it to a g register (R205, R396). -/
def semScalar (op : WOp) (e : WFields → Nat) (fn : State → WFields → Bool → Word) : Sem :=
  { illegal := neverIllegal, fault := noFault
    run := fun f c s =>
      if c.hi < s.vl then (s, .part c.lo)
      else if c.lo ≠ 0 then (s.countMirrored s op f, .done)
      else if s.h.vec.pm && fn s f false != fn s f true then (s, .trap 0 (s.laneMismatch op f (e f) c.slot))
      else ((s.setG f.vd (fn s f false)).countMirrored s op f, .done) }

/-- Number of bits set below n. -/
def countBits (x : VReg) (n : Nat) : Nat := (List.range n).countP fun i => x.getLsbD i

/-- `mand` (R205): a and b. -/
def semMand : Sem := semMask .mand fun a b => a &&& b
/-- `mand` as a single instruction (R205). -/
def execMand (f : WFields) (s : State) : Out := runSingle .mand semMand f s

/-- `mor` (R205): a or b. -/
def semMor : Sem := semMask .mor fun a b => a ||| b
/-- `mor` as a single instruction (R205). -/
def execMor (f : WFields) (s : State) : Out := runSingle .mor semMor f s

/-- `mxor` (R205): a xor b. -/
def semMxor : Sem := semMask .mxor fun a b => a ^^^ b
/-- `mxor` as a single instruction (R205). -/
def execMxor (f : WFields) (s : State) : Out := runSingle .mxor semMxor f s

/-- `mandn` (R205): a and not b. -/
def semMandn : Sem := semMask .mandn fun a b => a &&& ~~~b
/-- `mandn` as a single instruction (R205). -/
def execMandn (f : WFields) (s : State) : Out := runSingle .mandn semMandn f s

/-- `mnot` (R205): not b. -/
def semMnot : Sem := semMask .mnot fun _ b => ~~~b
/-- `mnot` as a single instruction (R205). -/
def execMnot (f : WFields) (s : State) : Out := runSingle .mnot semMnot f s

/-- `mmov` (R205): b. -/
def semMmov : Sem := semMask .mmov fun _ b => b
/-- `mmov` as a single instruction (R205). -/
def execMmov (f : WFields) (s : State) : Out := runSingle .mmov semMmov f s

/-- `mcount` (R205): the number of bits set below VL. -/
def semMcount : Sem := semScalar .mcount (fun _ => 0) fun s f mir => BitVec.ofNat 64 (countBits (s.maskLow mir f.vs2.toNat) s.vl)
/-- `mcount` as a single instruction (R205). -/
def execMcount (f : WFields) (s : State) : Out := runSingle .mcount semMcount f s

/-- `mfirst` (R205): the least bit set below VL, or all ones. -/
def semMfirst : Sem := semScalar .mfirst (fun _ => 0) fun s f mir =>
    match (List.range s.vl).find? fun i => (s.maskLow mir f.vs2.toNat).getLsbD i with
    | some i => BitVec.ofNat 64 i
    | none => ~~~0
/-- `mfirst` as a single instruction (R205). -/
def execMfirst (f : WFields) (s : State) : Out := runSingle .mfirst semMfirst f s

/-- `mall` (R205): whether every bit below VL is set. -/
def semMall : Sem := semScalar .mall (fun _ => 0) fun s f mir => BitVec.ofNat 64 (bit01 (countBits (s.maskLow mir f.vs2.toNat) s.vl == s.vl))
/-- `mall` as a single instruction (R205). -/
def execMall (f : WFields) (s : State) : Out := runSingle .mall semMall f s

end Sys2Proof.Machine
end

