-- ==== Sys2Proof/Machine/VectorFp.lean ====
section
/-! DEFINITION. Vector floating arithmetic (R200, R201), conversion (R202, R64), special functions (R203) and floating comparison
(R204). -/

namespace Sys2Proof.Machine

/-- The format code of imm16[7:4] (R146). -/
def fmtCode (f : WFields) : Nat := natField f.imm.toNat 4 4
/-- The rounding code of imm16[10:8] (R146). -/
def rmCode (f : WFields) : Nat := natField f.imm.toNat 8 3
/-- The format of imm16[7:4] with the parameters in force (R47). -/
def State.wfmt (s : State) (f : WFields) : Fmt := fmtOf (fmtCode f) s.b8
/-- The mode in force for an instruction with static modes and the dynamic one (R59). -/
def State.wmode (s : State) (f : WFields) : Mode := .static (s.modeOf (rmCode f))

/-- A format that may not be used as VTYPE stands: another width than SEW, or binary8 with P = 0 (R47, R146). -/
def State.fmtBad (s : State) (code : Nat) : Bool := codeWidth code != s.sew || (code == 4 && s.b8 % 8 == 0)
/-- Step 4 of a floating instruction with a format alone. -/
def fmtIllegal (s : State) (f : WFields) : Bool := s.fmtBad (fmtCode f)
/-- Step 4 of a floating instruction with a format and a rounding (R47, R59, R146). -/
def fpIllegal (s : State) (f : WFields) : Bool := s.fmtBad (fmtCode f) || !s.modeOk (rmCode f)

/-! ### Arithmetic (R200) -/

/-- A VFP instruction: its result from the format, the mode, the saturation choice, a and b. -/
def semFp (op : WOp) (illegal : State → WFields → Bool) (fn : Fmt → Mode → Bool → Nat → Nat → FRes) : Sem :=
  semElem op illegal fun s f mir e =>
    let F := s.wfmt f
    fn F (s.wmode f) (s.satFor F) (s.srcA f mir s.sew e) (s.elem mir f.vs2.toNat s.sew e)

/-- The magnitude of a value. -/
def FVal.abs : FVal → FVal
  | .nan b => .nan b
  | .inf _ => .inf false
  | .fin _ m e => .fin false m e

/-- `vfadd` (R200): a + b. -/
def semVfadd : Sem := semFp .vfadd fpIllegal fun F m t a b => F.addV m t (F.value a) (F.value b)
/-- `vfadd` as a single instruction (R200). -/
def execVfadd (f : WFields) (s : State) : Out := runSingle .vfadd semVfadd f s

/-- `vfsub` (R200): a - b. -/
def semVfsub : Sem := semFp .vfsub fpIllegal fun F m t a b => F.addV m t (F.value a) (F.value b).neg
/-- `vfsub` as a single instruction (R200). -/
def execVfsub (f : WFields) (s : State) : Out := runSingle .vfsub semVfsub f s

/-- `vfmul` (R200): a x b. -/
def semVfmul : Sem := semFp .vfmul fpIllegal fun F m t a b => F.mulV m t (F.value a) (F.value b)
/-- `vfmul` as a single instruction (R200). -/
def execVfmul (f : WFields) (s : State) : Out := runSingle .vfmul semVfmul f s

/-- `vfdiv` (R200): a / b. -/
def semVfdiv : Sem := semFp .vfdiv fpIllegal fun F m t a b => F.divV m t (F.value a) (F.value b)
/-- `vfdiv` as a single instruction (R200). -/
def execVfdiv (f : WFields) (s : State) : Out := runSingle .vfdiv semVfdiv f s

/-- `vfsqrt` (R200): the square root of b. -/
def semVfsqrt : Sem := semFp .vfsqrt fpIllegal fun F m t _ b => F.sqrtV m t (F.value b)
/-- `vfsqrt` as a single instruction (R200). -/
def execVfsqrt (f : WFields) (s : State) : Out := runSingle .vfsqrt semVfsqrt f s

/-- `vfmin` (R200): the lesser by R171. -/
def semVfmin : Sem := semFp .vfmin fmtIllegal fun F _ _ a b => F.minmax false a b
/-- `vfmin` as a single instruction (R200). -/
def execVfmin (f : WFields) (s : State) : Out := runSingle .vfmin semVfmin f s

/-- `vfmax` (R200): the greater by R171. -/
def semVfmax : Sem := semFp .vfmax fmtIllegal fun F _ _ a b => F.minmax true a b
/-- `vfmax` as a single instruction (R200). -/
def execVfmax (f : WFields) (s : State) : Out := runSingle .vfmax semVfmax f s

/-- `vfabs` (R200): b with a clear sign. -/
def semVfabs : Sem := semFp .vfabs fmtIllegal fun F _ t _ b => F.convV (.static 0) t (F.value b).abs
/-- `vfabs` as a single instruction (R200). -/
def execVfabs (f : WFields) (s : State) : Out := runSingle .vfabs semVfabs f s

/-- `vfneg` (R200): b with its sign inverted, by R55 where the format has none. -/
def semVfneg : Sem := semFp .vfneg fmtIllegal fun F _ t _ b => F.convV (.static 0) t (F.value b).neg
/-- `vfneg` as a single instruction (R200). -/
def execVfneg (f : WFields) (s : State) : Out := runSingle .vfneg semVfneg f s

/-! ### Fused multiply-add (R201) -/

/-- A VFMA instruction of one format: the signs given to the product and to c. -/
def semFma (op : WOp) (negP negC : Bool) : Sem :=
  semElem op fpIllegal fun s f mir e =>
    let F := s.wfmt f
    let a := F.value (s.srcA f mir s.sew e)
    let c := F.value (s.elem mir f.vs3.toNat s.sew e)
    F.fmaV (s.wmode f) (s.satFor F) (if negP then a.neg else a) (F.value (s.elem mir f.vs2.toNat s.sew e)) (if negC then c.neg else c)

/-- `vfma` (R201): a x b + c. -/
def semVfma : Sem := semFma .vfma false false
/-- `vfma` as a single instruction (R201). -/
def execVfma (f : WFields) (s : State) : Out := runSingle .vfma semVfma f s

/-- `vfms` (R201): a x b - c. -/
def semVfms : Sem := semFma .vfms false true
/-- `vfms` as a single instruction (R201). -/
def execVfms (f : WFields) (s : State) : Out := runSingle .vfms semVfms f s

/-- `vfnma` (R201): -(a x b) - c. -/
def semVfnma : Sem := semFma .vfnma true true
/-- `vfnma` as a single instruction (R201). -/
def execVfnma (f : WFields) (s : State) : Out := runSingle .vfnma semVfnma f s

/-- `vfnms` (R201): -(a x b) + c. -/
def semVfnms : Sem := semFma .vfnms true false
/-- `vfnms` as a single instruction (R201). -/
def execVfnms (f : WFields) (s : State) : Out := runSingle .vfnms semVfnms f s

/-- Step 4 of `vfwma` (R201): an fp64 source, or a wide group above 8 registers. -/
def fwmaIllegal (s : State) (f : WFields) : Bool :=
  fpIllegal s f || fmtCode f == 0 || decide (8 * s.sew < s.h.vec.grp * fwmaWidth f)

/-- The wide format of `vfwma` (R201). -/
def fwmaFmt (f : WFields) : Fmt := if fwmaWidth f = 64 then .f64 else .f32

/-- `vfwma` (R201): a x b + c, with c and vd in the wide format. -/
def semVfwma : Sem :=
  semElem .vfwma fwmaIllegal fun s f mir e =>
    let F := s.wfmt f
    let W := fwmaFmt f
    W.fmaV (s.wmode f) false (F.value (s.srcA f mir s.sew e)) (F.value (s.elem mir f.vs2.toNat s.sew e))
      (W.value (s.elem mir f.vs3.toNat W.width e))
/-- `vfwma` as a single instruction (R201). -/
def execVfwma (f : WFields) (s : State) : Out := runSingle .vfwma semVfwma f s

/-! ### Conversion (R202) -/

/-- The source code of a conversion. -/
def cvtSrc (f : WFields) : Nat := natField f.imm.toNat 4 4
/-- The destination code of a conversion. -/
def cvtDst (f : WFields) : Nat := natField f.imm.toNat 0 4
/-- The saturate bit of a conversion. -/
def cvtSat (f : WFields) : Bool := natField f.imm.toNat 11 1 == 1

/-- Where error-feedback rounding is accepted (R65): `vfcvt` from fp64 or fp32 to a narrower floating format. -/
def efAccepted (op : WOp) (f : WFields) : Bool :=
  op == .vfcvt && cvtSrc f ≤ 1 && codeWidth (cvtDst f) < codeWidth (cvtSrc f)

/-- Step 4 of a conversion (R47, R59, R62, R65, R202). -/
def cvtIllegal (op : WOp) (s : State) (f : WFields) : Bool :=
  let m := s.modeOf (rmCode f)
  s.fmtBad (cvtSrc f) || (cvtDst f == 4 && s.b8 % 8 == 0)
    || decide (8 * s.sew < s.h.vec.grp * codeWidth (cvtDst f))
    || 6 ≤ m || (m == 5 && !efAccepted op f)

/-- The mode of a conversion at element e (R61): stochastic rounding draws its bits from the element, SRSEED and SRSTEP. -/
def State.cvtMode (s : State) (f : WFields) (e : Nat) : Mode :=
  if s.modeOf (rmCode f) = 4 then .random (hash16 e s.h.sc.srseed.toNat s.h.sc.srstep.toNat) else .static (s.modeOf (rmCode f))

/-- An integer code of R46 is signed. -/
def codeSigned (code : Nat) : Bool := code ≤ 8

/-- The value of an integer code. -/
def intValue (code x : Nat) : Int := if codeSigned code then toSigned (codeWidth code) x else (x % 2 ^ codeWidth code : Nat)

/-- One element of `vfcvt` (R53-R57): a format to itself copies the code, but for an IEEE NaN. -/
def fcvtElem (src dst b8 : Nat) (m : Mode) (sat : Bool) (x : Nat) : FRes :=
  let F := fmtOf src b8
  if src = dst then (match F.value x with | .nan sig => if F.ieee then nanRes F sig else (x, 0) | _ => (x, 0))
  else (fmtOf dst b8).convV m sat (F.value x)

/-- What a conversion adds at completion (R62): stochastic rounding advances SRSTEP when VL > 0. -/
def State.stepStochastic (s : State) (f : WFields) : State :=
  if s.modeOf (rmCode f) = 4 ∧ 0 < s.vl then s.onSc fun x => { x with srstep := x.srstep + 1 } else s

/-- One element under error-feedback rounding (R64): its code, its flags and the new residual in format W. -/
def efStep (W dst : Fmt) (sat : Bool) (res x : Nat) : FRes × Nat :=
  let r := W.addV (.static 0) false (W.value x) (W.value res)
  let q := dst.convV (.static 0) sat (W.value r.1)
  let next := match W.value r.1, dst.value q.1 with
    | .fin n m e, .fin n' m' e' =>
      if q.2 &&& 20 = 0 then (W.sumFin (.static 0) false n m e (!n') m' e').1 else 0
    | _, _ => 0
  ((q.1, r.2 ||| q.2), next)

/-- The elements of an error-feedback conversion in order, with the residual after each. -/
def efChain (W dst : Fmt) (sat : Bool) : Nat → List (Option Nat) → List (Option (FRes × Nat))
  | _, [] => []
  | res, none :: xs => none :: efChain W dst sat res xs
  | res, some x :: xs =>
    let r := efStep W dst sat res x
    some r :: efChain W dst sat r.2 xs

/-- EFR after a residual of format W (R64, R66). -/
def efrOf (W : Fmt) (res : Nat) : Word := BitVec.ofNat 64 (Fmt.f64.convV (.static 0) false (W.value res)).1

/-- A part of an error-feedback conversion (R64). -/
def efPart (op : WOp) (f : WFields) (c : Part) (s : State) : State × SlotEnd :=
  let W := s.wfmt f
  let start := (W.convV (.static 0) false (Fmt.f64.value s.h.vec.efr.toNat)).1
  let chain (mir : Bool) := efChain W (fmtOf (cvtDst f) s.b8) (cvtSat f) start
    (c.elems.map fun e => if !f.me || s.maskBit mir f.mr.toNat e then some (s.elem mir f.vs2.toNat s.sew e) else none)
  let p := chain false
  let result (x : Option (FRes × Nat)) : Option FRes := match x with
    | some r => some r.1
    | none => if s.h.vec.ma then some (0, 0) else none
  let m := if s.h.vec.pm then chain true else p
  let cells := (c.elems.zip (p.zip m)).map fun x => Cell.mk x.1 x.1 (result x.2.1) (result x.2.2)
  let d := s.dstOf op f
  let r := s.commit op f c.slot d cells
  let upto := match r.2 with
    | some x => x.1
    | none => c.hi
  let last := (p.take (upto - c.lo)).foldl (fun a x => match x with
    | some y => some y.2
    | none => a) none
  let s' := match last with
    | some res => r.1.setCtl fun v => { v with efr := efrOf W res }
    | none => r.1
  endPart c r.2 (fun t => (t.tail d t.vl).countMirrored s op f) s'

/-- A conversion: error-feedback, or element by element with `fn` giving a result from the mode, the saturate bit and the
source. -/
def semCvt (op : WOp) (fn : State → WFields → Mode → Nat → FRes) : Sem :=
  { illegal := cvtIllegal op, fault := noFault
    run := fun f c s =>
      if s.modeOf (rmCode f) = 5 then efPart op f c s
      else
        let r := elementwise op f c (fun mir e => s.masked f mir e (fn s f (s.cvtMode f e) (s.elem mir f.vs2.toNat s.sew e))) s
        if r.2 = .done then (r.1.stepStochastic f, .done) else r }

/-- `vfcvt` (R202): a floating format to a floating format. -/
def semVfcvt : Sem := semCvt .vfcvt fun s f m x => fcvtElem (cvtSrc f) (cvtDst f) s.b8 m (cvtSat f) x
/-- `vfcvt` as a single instruction (R202). -/
def execVfcvt (f : WFields) (s : State) : Out := runSingle .vfcvt semVfcvt f s

/-- `vfcvtI` (R202): a floating format to an integer (R56). -/
def semVfcvtI : Sem := semCvt .vfcvtI fun s f m x =>
  toIntV m (codeSigned (cvtDst f)) (codeWidth (cvtDst f)) ((s.wfmt f).value x)
/-- `vfcvtI` as a single instruction (R202). -/
def execVfcvtI (f : WFields) (s : State) : Out := runSingle .vfcvtI semVfcvtI f s

/-- `vicvtF` (R202): an integer to a floating format. -/
def semVicvtF : Sem := semCvt .vicvtF fun s f m x => (fmtOf (cvtDst f) s.b8).ofInt m (cvtSat f) (intValue (cvtSrc f) x)
/-- `vicvtF` as a single instruction (R202). -/
def execVicvtF (f : WFields) (s : State) : Out := runSingle .vicvtF semVicvtF f s

/-! ### Special functions and comparison -/

/-- Step 4 of `vsf` (R72, R203): SEW = 64 is illegal. -/
def sfIllegal (s : State) (f : WFields) : Bool := fpIllegal s f || s.sew == 64

/-- `vsf` (R72, R203). -/
def semVsf : Sem :=
  semElem .vsf sfIllegal fun s f mir e =>
    let F := s.wfmt f
    special (natField f.imm.toNat 0 4) F (s.wmode f) (s.satFor F) (F.value (s.elem mir f.vs2.toNat s.sew e))
/-- `vsf` as a single instruction (R203). -/
def execVsf (f : WFields) (s : State) : Out := runSingle .vsf semVsf f s

/-- `vfcmp` (R204). -/
def semVfcmp : Sem :=
  semElem .vfcmp fmtIllegal fun s f mir e =>
    let r := (s.wfmt f).cmp (f.imm.toNat % 8) (s.srcA f mir s.sew e) (s.elem mir f.vs2.toNat s.sew e)
    (bit01 r.1, r.2)
/-- `vfcmp` as a single instruction (R204). -/
def execVfcmp (f : WFields) (s : State) : Out := runSingle .vfcmp semVfcmp f s

end Sys2Proof.Machine
end

