-- ==== Sys2Proof/Machine/VectorPerm.lean ====
section
/-! DEFINITION. Reductions and scans (R71, R206, R207) and permutation (R208-R210). -/

namespace Sys2Proof.Machine

/-! ### Reductions (R206) -/

/-- The running totals after each of a list of elements: none for an element that takes no part. -/
def totals (fn : Nat → Nat → FRes) : Nat → List (Option Nat) → List FRes
  | _, [] => []
  | acc, none :: xs => (acc, 0) :: totals fn acc xs
  | acc, some x :: xs =>
    let r := fn acc x
    r :: totals fn r.1 xs

/-- The elements of a part that take part in a reduction or scan. -/
def State.participants (s : State) (f : WFields) (mir : Bool) (es : List Nat) : List (Option Nat) :=
  es.map fun e => if !f.me || s.maskBit mir f.mr.toNat e then some (s.elem mir f.vs2.toNat s.sew e) else none

/-- The single register of a reduction as a destination. -/
def redDst (s : State) (f : WFields) : Dst := .vec f.vd.toNat s.sew 1

/-- Write a running total into vd[0], with its flags; under protected mode each copy has its own total. -/
def State.putTotal (s : State) (f : WFields) (r : FRes) (m : Nat) : State :=
  let t := (s.setElem f.vd.toNat s.sew 0 r.1).orFlags r.2
  if s.h.vec.pm then t.setReg f.vd.toNat (sliceSet (t.h.vec.reg f.vd.toNat) s.h.mirror s.sew m) else t

/-- The lowest active element of a part, or the one it starts at: where the result of a reduction is found to differ (R398). -/
def State.lowestActive (s : State) (f : WFields) (c : Part) : Nat := (c.elems.find? fun e => s.active f e).getD c.lo

/-- An ordered reduction (R206): `fn` combines the total and an element. The result, formed twice, is compared before it is delivered
(R396, R397); a total that a stop leaves in vd[0] is no result yet. Where the copies differ, the masked-off elements before the lowest active
one are complete, and vd[0] holds the total as after them. -/
def semRed (op : WOp) (illegal : State → WFields → Bool) (fn : State → WFields → Nat → Nat → FRes) : Sem :=
  { illegal := illegal, fault := noFault
    run := fun f c s =>
      let acc (mir : Bool) : Nat := s.elem mir (if c.lo = 0 then f.vs1 else f.vd).toNat s.sew 0
      let run (mir : Bool) := totals (fn s f) (acc mir) (s.participants f mir c.elems)
      let last (mir : Bool) : Nat := ((run mir).getLast?.map Prod.fst).getD (acc mir)
      let flags := (run false).foldl (fun x r => x ||| r.2) 0
      if c.hi < s.vl ∧ c.hi ≤ c.lo then (s, .part c.lo)
      else if s.h.vec.pm ∧ s.vl ≤ c.hi ∧ last false ≠ last true then
        let e := s.lowestActive f c
        (if c.lo < e then s.putTotal f (acc false, 0) (acc true) else s, .trap e (s.laneMismatch op f e c.slot))
      else endPart c none (fun t => (t.tail (redDst t f) 1).countMirrored s op f) (s.putTotal f (last false, flags) (last true)) }

/-- An integer reduction. -/
def semIntRed (op : WOp) (fn : Nat → Nat → Nat → Nat) : Sem :=
  semRed op neverIllegal fun s _ a x => (fn s.sew a x % 2 ^ s.sew, 0)

/-- One step of `vfredmax` or `vfredmin` (R71): never past a NaN. -/
def redMinmax (F : Fmt) (max : Bool) (a x : Nat) : FRes :=
  let u := F.value a
  let v := F.value x
  if u.isNan || v.isNan then nanRes F (u.isSig || v.isSig) else F.minmax max a x

/-- The rounded sum of a total and an element. -/
def redAdd (s : State) (f : WFields) (a x : Nat) : FRes :=
  let F := s.wfmt f
  F.addV (s.wmode f) (s.satFor F) (F.value a) (F.value x)

/-- One level of a pairwise sum (R71): positions 2i and 2i + 1. -/
def treeLevel (add : Nat → Nat → FRes) : List (Option Nat) → List (Option Nat) × Nat
  | some a :: some b :: xs =>
    let r := add a b
    let y := treeLevel add xs
    (some r.1 :: y.1, r.2 ||| y.2)
  | a :: b :: xs =>
    let y := treeLevel add xs
    ((a.orElse fun _ => b) :: y.1, y.2)
  | [a] => ([a], 0)
  | [] => ([], 0)

/-- Levels of a pairwise sum until one position is left. -/
def treeSum (add : Nat → Nat → FRes) : Nat → List (Option Nat) → Option Nat × Nat
  | 0, xs => (xs.headD none, 0)
  | n + 1, xs =>
    let y := treeLevel add xs
    let z := treeSum add n y.1
    (z.1, y.2 ||| z.2)

/-- The result of `vfredtree` (R71). -/
def redTree (s : State) (f : WFields) (mir : Bool) : FRes :=
  let a := s.elem mir f.vs1.toNat s.sew 0
  let t := treeSum (redAdd s f) 15 (s.participants f mir (List.range s.vl))
  match t.1 with
  | none => (a, 0)
  | some x =>
    let r := redAdd s f a x
    (r.1, r.2 ||| t.2)

/-- `vredsum` (R206): the sum. -/
def semVredsum : Sem := semIntRed .vredsum fun _ a x => a + x
/-- `vredsum` as a single instruction (R206). -/
def execVredsum (f : WFields) (s : State) : Out := runSingle .vredsum semVredsum f s

/-- `vredmax` (R206): the greatest, signed. -/
def semVredmax : Sem := semIntRed .vredmax fun w a x => if toSigned w a ≤ toSigned w x then x else a
/-- `vredmax` as a single instruction (R206). -/
def execVredmax (f : WFields) (s : State) : Out := runSingle .vredmax semVredmax f s

/-- `vredmin` (R206): the least, signed. -/
def semVredmin : Sem := semIntRed .vredmin fun w a x => if toSigned w a ≤ toSigned w x then a else x
/-- `vredmin` as a single instruction (R206). -/
def execVredmin (f : WFields) (s : State) : Out := runSingle .vredmin semVredmin f s

/-- `vredmaxu` (R206): the greatest, unsigned. -/
def semVredmaxu : Sem := semIntRed .vredmaxu fun _ a x => max a x
/-- `vredmaxu` as a single instruction (R206). -/
def execVredmaxu (f : WFields) (s : State) : Out := runSingle .vredmaxu semVredmaxu f s

/-- `vredminu` (R206): the least, unsigned. -/
def semVredminu : Sem := semIntRed .vredminu fun _ a x => min a x
/-- `vredminu` as a single instruction (R206). -/
def execVredminu (f : WFields) (s : State) : Out := runSingle .vredminu semVredminu f s

/-- `vredand` (R206): bitwise and. -/
def semVredand : Sem := semIntRed .vredand fun _ a x => a &&& x
/-- `vredand` as a single instruction (R206). -/
def execVredand (f : WFields) (s : State) : Out := runSingle .vredand semVredand f s

/-- `vredor` (R206): bitwise or. -/
def semVredor : Sem := semIntRed .vredor fun _ a x => a ||| x
/-- `vredor` as a single instruction (R206). -/
def execVredor (f : WFields) (s : State) : Out := runSingle .vredor semVredor f s

/-- `vfredsum` (R206): the ordered sum. -/
def semVfredsum : Sem := semRed .vfredsum fpIllegal redAdd
/-- `vfredsum` as a single instruction (R206). -/
def execVfredsum (f : WFields) (s : State) : Out := runSingle .vfredsum semVfredsum f s

/-- `vfredmax` (R206): the greatest, or NaN. -/
def semVfredmax : Sem := semRed .vfredmax fpIllegal fun s f a x => redMinmax (s.wfmt f) true a x
/-- `vfredmax` as a single instruction (R206). -/
def execVfredmax (f : WFields) (s : State) : Out := runSingle .vfredmax semVfredmax f s

/-- `vfredmin` (R206): the least, or NaN. -/
def semVfredmin : Sem := semRed .vfredmin fpIllegal fun s f a x => redMinmax (s.wfmt f) false a x
/-- `vfredmin` as a single instruction (R206). -/
def execVfredmin (f : WFields) (s : State) : Out := runSingle .vfredmin semVfredmin f s

/-- `vfredtree` (R71, R206): the pairwise sum, indivisible. A mismatch names its lowest active element, and VSTART stays 0, since the
instruction is of kind I (R196, R398). -/
def semVfredtree : Sem :=
  { illegal := fpIllegal, fault := noFault
    run := fun f c s =>
      if c.hi < s.vl then (s, .part c.lo)
      else
        let fin (t : State) : State := (t.tail (redDst t f) 1).countMirrored s .vfredtree f
        let p := redTree s f false
        if c.lo ≠ 0 then (fin s, .done)
        else if s.h.vec.pm && p.1 != (redTree s f true).1 then
          (s, .trap 0 (s.laneMismatch .vfredtree f (s.lowestActive f c) c.slot))
        else (fin (s.putTotal f p p.1), .done) }
/-- `vfredtree` as a single instruction (R206). -/
def execVfredtree (f : WFields) (s : State) : Out := runSingle .vfredtree semVfredtree f s

/-! ### Scans (R207) -/

/-- A scan: every element below VL receives the running total. -/
def semScan (op : WOp) (illegal : State → WFields → Bool) (fn : State → WFields → Nat → Nat → FRes) : Sem :=
  { illegal := illegal, fault := noFault
    run := fun f c s =>
      let acc (mir : Bool) : Nat :=
        if c.lo = 0 then s.elem mir f.vs1.toNat s.sew 0 else s.elem mir f.vd.toNat s.sew (c.lo - 1)
      let run (mir : Bool) := totals (fn s f) (acc mir) (s.participants f mir c.elems)
      let p := run false
      let m := if s.h.vec.pm then run true else p
      let d := s.dstOf op f
      let r := s.commit op f c.slot d ((c.elems.zip (p.zip m)).map fun x => ⟨x.1, x.1, some x.2.1, some x.2.2⟩)
      endPart c r.2 (fun t => (t.tail d t.vl).countMirrored s op f) r.1 }

/-- `vscan` (R207): running sums at SEW. -/
def semVscan : Sem := semScan .vscan neverIllegal fun s _ a x => ((a + x) % 2 ^ s.sew, 0)
/-- `vscan` as a single instruction (R207). -/
def execVscan (f : WFields) (s : State) : Out := runSingle .vscan semVscan f s

/-- `vfscan` (R71, R207): rounded running sums. -/
def semVfscan : Sem := semScan .vfscan fpIllegal redAdd
/-- `vfscan` as a single instruction (R207). -/
def execVfscan (f : WFields) (s : State) : Out := runSingle .vfscan semVfscan f s

/-! ### Permutation (R208-R210) -/

/-- The amount of a slide: imm16, or a g register read as unsigned (R208). -/
def State.amount (s : State) (f : WFields) : Nat := if f.s1 then (s.g f.vs1).toNat else f.imm.toNat

/-- `vslideup` (R208): elements below the amount stay as they are. -/
def semVslideup : Sem :=
  { illegal := neverIllegal, fault := noFault
    run := fun f c s =>
      let k := s.amount f
      elementwise .vslideup f c (fun mir e =>
        if e < k then none else s.masked f mir e (s.elem mir f.vs2.toNat s.sew (e - k), 0)) s }
/-- `vslideup` as a single instruction (R208). -/
def execVslideup (f : WFields) (s : State) : Out := runSingle .vslideup semVslideup f s

/-- `vslidedown` (R208). -/
def semVslidedown : Sem :=
  semElem .vslidedown neverIllegal fun s f mir e =>
    let i := e + s.amount f
    (if i < s.h.vlmax then s.elem mir f.vs2.toNat s.sew i else 0, 0)
/-- `vslidedown` as a single instruction (R208). -/
def execVslidedown (f : WFields) (s : State) : Out := runSingle .vslidedown semVslidedown f s

/-- `vgather` (R209): an index at or beyond VL gives the element as it stands when VTYPE.TA = 1, else 0. -/
def semVgather : Sem :=
  semElem .vgather neverIllegal fun s f mir e =>
    let i := s.elem mir f.vs1.toNat s.sew e
    (if i < s.vl ∨ (i < s.h.vlmax ∧ s.h.vec.ta) then s.elem mir f.vs2.toNat s.sew i else 0, 0)
/-- `vgather` as a single instruction (R209). -/
def execVgather (f : WFields) (s : State) : Out := runSingle .vgather semVgather f s

/-- Active elements below e (R210). -/
def State.activeBelow (s : State) (f : WFields) (mir : Bool) (e : Nat) : Nat :=
  (List.range e).countP fun i => !f.me || s.maskBit mir f.mr.toNat i

/-- `vcompress` (R210): active elements go to the bottom of vd; the tail starts after the last. -/
def semVcompress : Sem :=
  { illegal := neverIllegal, fault := noFault
    run := fun f c s =>
      let d := s.dstOf .vcompress f
      let es (mir : Bool) := c.elems.filter fun e => !f.me || s.maskBit mir f.mr.toNat e
      let k (mir : Bool) := s.activeBelow f mir c.lo
      let at_ (mir : Bool) (i : Nat) : Option (Nat × FRes) := if i < k mir then none else
        ((es mir)[i - k mir]?).map fun e => (e, (s.elem mir f.vs2.toNat s.sew e, 0))
      let both := s.h.vec.pm
      let lo := if both then min (k false) (k true) else k false
      let hi := if both then max (k false + (es false).length) (k true + (es true).length) else k false + (es false).length
      let cells := (List.range' lo (hi - lo)).map fun i =>
        let p := at_ false i
        let m := if both then at_ true i else p
        Cell.mk (((p.orElse fun _ => m).map Prod.fst).getD c.lo) i (p.map Prod.snd) (m.map Prod.snd)
      let r := s.commit .vcompress f c.slot d cells
      endPart c r.2 (fun t => (t.tail d (k false + (es false).length)).countMirrored s .vcompress f) r.1 }
/-- `vcompress` as a single instruction (R210). -/
def execVcompress (f : WFields) (s : State) : Out := runSingle .vcompress semVcompress f s

/-- `vexpand` (R210): consecutive source elements go to the active positions. -/
def semVexpand : Sem :=
  semElem .vexpand neverIllegal fun s f mir e => (s.elem mir f.vs2.toNat s.sew (s.activeBelow f mir e), 0)
/-- `vexpand` as a single instruction (R210). -/
def execVexpand (f : WFields) (s : State) : Out := runSingle .vexpand semVexpand f s

/-- The element of `vbcast`'s destination that is its source element 0, when the source register lies in the destination group (R194). -/
def State.bcastPlace (s : State) (f : WFields) : Option Nat :=
  if f.vd.toNat ≤ f.vs1.toNat ∧ f.vs1.toNat < f.vd.toNat + s.h.vec.grp then some ((f.vs1.toNat - f.vd.toNat) * s.per s.sew) else none

/-- What `vbcast` reads for element e of a part that began at `lo`. Elements are done in order (R5, R192): once the source element itself has
been masked off under MA = 1, it is zero. -/
def State.bcastValue (s : State) (f : WFields) (mir : Bool) (lo e : Nat) : Nat :=
  if f.s1 then (s.g f.vs1).toNat % 2 ^ s.sew
  else match s.bcastPlace f with
    | some p => if lo ≤ p ∧ p < e ∧ s.masked f mir p (1, 0) = some (0, 0) then 0 else s.elem mir f.vs1.toNat s.sew 0
    | none => s.elem mir f.vs1.toNat s.sew 0

/-- `vbcast` (R208): a g register at SEW, or element 0 of a single register. -/
def semVbcast : Sem :=
  { illegal := neverIllegal, fault := noFault
    run := fun f c s => elementwise .vbcast f c (fun mir e => s.masked f mir e (s.bcastValue f mir c.lo e, 0)) s }
/-- `vbcast` as a single instruction (R208). -/
def execVbcast (f : WFields) (s : State) : Out := runSingle .vbcast semVbcast f s

/-- `vins` (R208): one element, whatever VL. -/
def semVins : Sem :=
  { illegal := neverIllegal, fault := noFault
    run := fun f c s =>
      if c.hi < s.vl then (s, .part c.lo)
      else if c.lo ≠ 0 ∨ s.h.vlmax ≤ f.imm.toNat then (s.countMirrored s .vins f, .done)
      else ((s.setElem f.vd.toNat s.sew f.imm.toNat (s.g f.vs1).toNat).countMirrored s .vins f, .done) }
/-- `vins` as a single instruction (R208). -/
def execVins (f : WFields) (s : State) : Out := runSingle .vins semVins f s

/-- `vext` (R208): one element into a g register, whatever VL. -/
def semVext : Sem :=
  semScalar .vext (fun f => f.imm.toNat) fun s f mir =>
    BitVec.ofNat 64 (if f.imm.toNat < s.h.vlmax then s.elem mir f.vs2.toNat s.sew f.imm.toNat else 0)
/-- `vext` as a single instruction (R208). -/
def execVext (f : WFields) (s : State) : Out := runSingle .vext semVext f s

/-- `vidx` (R208). -/
def semVidx : Sem := semElem .vidx neverIllegal fun s _ _ e => (e % 2 ^ s.sew, 0)
/-- `vidx` as a single instruction (R208). -/
def execVidx (f : WFields) (s : State) : Out := runSingle .vidx semVidx f s

end Sys2Proof.Machine
end

