-- ==== Sys2Proof/Machine/VectorMem.lean ====
section
/-! DEFINITION. Vector loads, stores and atomics (R211-R223): element addresses, element faults with their resolution (R230-R233,
R440), tagged loads (R228), first-fault loads (R216), and rate-mode loads (R273-R275). -/

namespace Sys2Proof.Machine

/-- What the elements of a vector memory instruction do. -/
inductive MemKind where
  | load | store | atomic (op : AmoOp) | add
  deriving DecidableEq, Repr

/-- How they are addressed (R212; `entry`: the popped stack entry, R299). -/
inductive MemAddr where
  | unit | stride | index | desc | entry
  deriving DecidableEq, Repr

/-- A vector memory instruction. `first`: `vldff`. `loose`: `vstxu`. -/
structure MemForm where
  op    : WOp
  kind  : MemKind
  addr  : MemAddr
  first : Bool := false
  loose : Bool := false
  deriving DecidableEq, Repr

/-! ### Addresses -/

/-- Bytes of a memory element (R212, R222). -/
def MemForm.bytes (m : MemForm) (s : State) (f : WFields) : Nat :=
  if m.kind = .add then addWidth (f.imm.toNat % 4) else s.sew / 8

/-- The class of access for translation. -/
def MemKind.acc : MemKind → Acc
  | .load => .load
  | .store => .store
  | _ => .atomic

/-- The base address (R212): an atomic has no offset. -/
def MemForm.base (m : MemForm) (s : State) (f : WFields) : Word :=
  match m.kind with
  | .load | .store => s.g f.vs3 + (f.imm.setWidth 11).signExtend 64
  | _ => s.g f.vs3

/-- The physical address of the stack record that a context has bound (R295). -/
def State.boundRecord (s : State) (o : CtxRef) : Option Nat := (s.un.binds.find? fun b => b.1 == o).map Prod.snd

/-- The address of element e of the popped entry; none at or beyond its COUNT (R299). -/
def State.entryAddr (s : State) (e : Nat) : Option Word :=
  match s.h.ct.popped, s.boundRecord s.h.own with
  | some p, some pa => if e < p.count then some (s.mem.quad pa + p.off + BitVec.ofNat 64 (64 + e * (s.sew / 8))) else none
  | _, _ => none

/-- The address of element e, and whether it is out of bounds; none where the descriptor is empty (R89, R91, R212). -/
def MemForm.elemAddr (m : MemForm) (s : State) (f : WFields) (mir : Bool) (e : Nat) : Option (Word × Bool) :=
  match m.addr with
  | .unit => some (m.base s f + BitVec.ofNat 64 (e * (s.sew / 8)), false)
  | .stride => some (m.base s f + BitVec.ofNat 64 e * s.g f.vs1, false)
  | .index => some (m.base s f + BitVec.ofNat 64 (s.elem mir f.vs2.toNat s.sew e), false)
  | .desc =>
    let d := s.descAt f
    if d.empty then none else some (d.addr (s.g f.vs3).toInt (bit01 f.orient) e)
  | .entry => (s.entryAddr e).map fun a => (a, false)

/-- The register group of the data: the store data, or the operand of an atomic. -/
def MemForm.dataReg (m : MemForm) (f : WFields) : Nat := if m.kind = .store then f.vd.toNat else f.vs1.toNat

/-- The instruction writes a vector group. -/
def MemForm.writes (m : MemForm) : Bool :=
  match m.kind with
  | .load | .atomic _ => true
  | _ => false

/-- RATE of the descriptor of a load; 0 for every other form (R219). -/
def MemForm.rate (m : MemForm) (s : State) (f : WFields) : Nat :=
  if m.addr = .desc ∧ m.kind = .load then (s.descAt f).rate else 0

/-- The watermark number of a load (R146). -/
def MemForm.mark (m : MemForm) (f : WFields) : Nat := if m.kind = .load then natField f.imm.toNat 12 4 else 0

/-! ### Checks before any element -/

/-- Step 4 of R151 (R88, R219, R221, R222, R227, R273). -/
def MemForm.illegal (m : MemForm) (s : State) (f : WFields) : Bool :=
  let d := s.descAt f
  (match m.kind with
    | .atomic _ => s.sew != 32 && s.sew != 64
    | .add => s.sew != (if f.imm.toNat % 4 = 2 then 64 else 32)
    | _ => false)
  || (m.addr == .desc &&
      (d.illegal s.b8
        || (if m.kind = .add then d.type != (match f.imm.toNat % 4 with | 0 => 2 | 1 => 1 | _ => 0) else d.width != s.sew)
        || (m.kind != .load && d.rate != 0)
        || (m.kind == .load && d.rate != 0 && (d.type != 1 || s.sew != 32))))
  || (m.mark f != 0 && s.wmCell (m.mark f) == 0)

/-- The reason of an orientation fault that needs no page (R85, R88, R211). For a row access through BLOCK = 1 the spec gives condition 3 no
access width; the model takes TYPE's, which is SEW but for a narrow memory-side add (DESIGN CHOICE, log 97). -/
def MemForm.orientReason (m : MemForm) (s : State) (f : WFields) : Option Nat :=
  if m.addr = .desc then
    let d := s.descAt f
    if f.orient then d.columnReason s.sew
    else if d.block = 1 ∧ ¬ d.squarePlane d.width then some 3 else none
  else if f.orient then some 1 else none

/-- Step 5 of R151 at a progress: orientation with the SVAL of R310, then alignment (R88, R213). -/
def MemForm.fault (m : MemForm) (s : State) (f : WFields) (p : Nat) : Option Trap :=
  let n := m.bytes s f
  match m.orientReason s f with
  | some k => some { code := 11, sub := k, val := ((m.elemAddr s f false p).map Prod.fst).getD (Config.openAddress s.tick) }
  | none =>
    match m.addr with
    | .desc => if (s.descAt f).base.toNat % (s.descAt f).bytes = 0 then none else some { code := 6, val := (s.descAt f).base }
    | .index | .entry => none
    | .unit => if (m.base s f).toNat % n = 0 then none else some { code := 6, val := m.base s f }
    | .stride =>
      if (m.base s f).toNat % n = 0 ∧ (s.g f.vs1).toNat % n = 0 then none else some { code := 6, val := m.base s f }

/-! ### Elements -/

/-- What the checks of an element find (R230). -/
inductive Found where
  | absent (level entry : Nat)
  | bad (t : Trap)
  | good (s : State) (p : Place) (act : WatchAct)

/-- The checks of one element access at an address (R213, R217, R230, R85 conditions 5 and 6, R122, R400, R414). -/
def MemForm.check (m : MemForm) (s : State) (f : WFields) (e : Nat) (va : Word) : Found :=
  let n := m.bytes s f
  if ¬ canonical va then .bad { code := 5, val := va }
  else if va.toNat % n ≠ 0 then .bad { code := 6, val := va }
  else match s.translate s.h.space m.kind.acc va with
  | .error x => if x.code = 9 then .absent x.level x.entry else .bad (x.trap va 2 (m.kind != .load))
  | .ok p =>
    match (if f.orient then columnPage p.mt p.sq s.sew else none) with
    | some k => .bad { code := 11, sub := k, val := va }
    | none =>
      match s.checkOwn m.kind.acc va n true e with
      | .error x => .bad (x.trap va 2 (m.kind != .load))
      | .ok (s', p, act) => .good s' p act

/-- A trap of an element, with the lane that holds it (R341). -/
def MemForm.atElem (m : MemForm) (s : State) (f : WFields) (e slot : Nat) (t : Trap) : Trap :=
  { t with lane := s.lane m.op f e slot }

/-- SRC of a fault batch entry (R369). -/
def MemKind.src : MemKind → Nat
  | .load => 2
  | .store => 3
  | _ => 4

/-- Two addresses of one 64 KiB page (R75). -/
def samePage (a b : Word) : Bool := a.toNat / 2 ^ 16 == b.toNat / 2 ^ 16

/-- A page of the hart on which it has a parked element (R232). -/
def State.parkedOn (s : State) (va : Word) : Bool :=
  s.ca.parked.any fun p => p.own == s.h.own && samePage p.va va

/-- Whether a tagged element may issue (R228): PUB of its cell covers it, or it lies outside the range. -/
def State.tagOpen (s : State) (cell va : Word) : Except AccFault Bool :=
  match s.translate s.h.space .load cell with
  | .error x => .error x
  | .ok p =>
    if s.poisoned p.pa 32 then .error { code := 21, sub := 3 }
    else
    let q (k : Nat) : Word := s.mem.quad (p.pa + 8 * k)
    let i := (va - q 1).toNat / 2 ^ fieldOf (q 2) 0 2
    .ok (decide (va.toNat < (q 1).toNat) || decide ((q 3).toNat ≤ i) || decide (i < (q 0).toNat))

/-- What one active element comes to. -/
inductive Did where
  | done (s : State)
  | absent (va : Word) (level entry : Nat)
  | wait
  | trap (t : Trap) (s : State)
  | halt (s : State)

/-- The data of an element as bytes. -/
def MemForm.data (m : MemForm) (s : State) (f : WFields) (e : Nat) : Nat := s.elem false (m.dataReg f) s.sew e

/-- Under protected mode, the copies that meet at the memory slot differ (R398): the address, the index or the data. -/
def MemForm.copiesDiffer (m : MemForm) (s : State) (f : WFields) (e : Nat) : Bool :=
  s.h.vec.pm
    && (m.elemAddr s f false e != m.elemAddr s f true e
        || (m.kind != .load && s.elem false (m.dataReg f) s.sew e != s.elem true (m.dataReg f) s.sew e))

/-- The stochastic bits of a memory-side add (R61, R222). -/
def State.addBits (s : State) (f : WFields) (va : Word) : Option Nat :=
  if natField f.imm.toNat 2 1 = 1 then
    some (hash16 (va.toNat % 2 ^ 32) s.h.sc.srseed.toNat (s.h.sc.srstep.toNat / 2 ^ 12 * 2 ^ 12 + natField f.imm.toNat 4 12))
  else none

/-- An element joins the replay queue (R232, R371). -/
def State.park (s : State) (m : MemForm) (f : WFields) (e : Nat) (va : Word) (level entry : Nat) : State :=
  let seen := s.ca.parked.any fun p => p.own == s.h.own && samePage p.va va && p.reported
  s.onCa fun c => { c with parked := c.parked ++
    [{ hid := s.h.hid, own := s.h.own, va := va, data := leBytes (s.sew / 8) (m.data s f e), elem := e, root := s.h.su.ptroot,
       sup := s.h.su.sup, pc := s.h.sc.pc, col := f.orient, level := level, line := entry / 64, reported := seen, corr := s.h.sc.corr,
       weak := [] }] }

/-- A store element joins the replay queue, or finds no entry (R233). -/
def State.tryPark (s : State) (m : MemForm) (f : WFields) (slot e : Nat) (va : Word) (level entry : Nat) : Did :=
  if 512 ≤ s.ca.parked.countP (fun p => p.hid.core == s.h.hid.core) then
    .trap (m.atElem s f e slot { code := 14, val := va }) s
  else .done (s.park m f e va level entry)

/-- Read a vector element by the lane-group port (R79, R93, R107): a visitor copy of the wanted orientation, or the home. -/
def State.portRead (s : State) (p : Place) (col : Bool) (n e : Nat) : State × Nat :=
  let s := (s.settleOwn col p.pa n).watchHome s.h.su.part s.h.source (s.org e) p.pa n ⟨true, false, false⟩
  (s, leNat (s.sliceBytes s.h.su.part s.h.hid.isle col p.pa n))

/-- An earlier element of this part that wrote the same address (R108). -/
def MemForm.repeats (m : MemForm) (s : State) (f : WFields) (lo e : Nat) (va : Word) : Bool :=
  (List.range' lo (e - lo)).any fun j => s.active f j && (m.elemAddr s f false j).map Prod.fst == some va

/-- The port of a tagged element has read the cell of its watermark (R228), as any read. -/
def MemForm.cellSeen (m : MemForm) (s : State) (f : WFields) (e : Nat) : State :=
  if m.mark f = 0 then s
  else
    let cell := s.wmCell (m.mark f)
    match s.translate s.h.space .load cell with
    | .ok p => (s.markLeaf s.h.space cell p false).watchHome s.h.su.part s.h.source (s.org e) p.pa 32 ⟨true, false, false⟩
    | .error _ => s

/-- Perform one checked element (R214, R215, R221, R222). -/
def MemForm.perform (m : MemForm) (s : State) (f : WFields) (lo e : Nat) (va : Word) (p : Place) : Did :=
  let n := m.bytes s f
  let s1 := (m.cellSeen s f e).markLeaf s.h.space va p (m.kind != .load)
  match m.kind with
  | .load =>
    let r := s1.portRead p f.orient n e
    .done (r.1.setElem f.vd.toNat s.sew e r.2)
  | .store =>
    if m.loose && m.repeats s f lo e va then
      let s2 := { s1 with free := s1.free + 1 }
      if Config.freeChoice s1.free % 2 = 1 then .done s2
      else .done (s2.sendWrite true s2.h.space s2.h.source (s2.org e) va p.pa p.sq (.store (leBytes n (m.data s f e))) none).1
    else .done (s1.sendWrite true s1.h.space s1.h.source (s1.org e) va p.pa p.sq (.store (leBytes n (m.data s f e))) none).1
  | .atomic op =>
    if s1.heldAtHome p.pa n then .wait
    else
      let s1 := s1.settleHome s1.h.su.part s1.h.hid.isle p.pa
      let old := s1.mem.num p.pa n
      let touch : Touch := ⟨true, true, false⟩
      let s2 := match (op.new s.sew old (m.data s f e) 0).1 with
        | some v => s1.homeApply s1.h.space s1.h.source (s1.org e) va p.pa p.sq (leBytes n v) touch false none
        | none => s1.watchHome s1.h.su.part s1.h.source (s1.org e) p.pa n touch
      .done (s2.setElem f.vd.toNat s.sew e old)
  | .add =>
    let r := s1.sendWrite true s1.h.space s1.h.source (s1.org e) va p.pa p.sq
      (.add (f.imm.toNat % 4) (natField f.imm.toNat 3 1 == 1) (s.addBits f va) (BitVec.ofNat 64 (m.data s f e))) none
    .done (r.1.orFlags r.2)

/-- An element whose page is resident waits: its page holds parked elements of the hart, its bytes a held write of the hart, or its tag is not
yet covered (R121, R228, R232). -/
def MemForm.mustWait (m : MemForm) (s : State) (f : WFields) (va : Word) (p : Place) : Except Trap Bool :=
  if m.mark f = 0 then .ok (s.parkedOn va || s.ownHeld p.pa (m.bytes s f))
  else match s.tagOpen (s.wmCell (m.mark f)) va with
    | .error x => .error (x.trap (s.wmCell (m.mark f)) 2 false)
    | .ok b => .ok (!b || s.parkedOn va || s.ownHeld p.pa (m.bytes s f))

/-- One active element from its address on. `lo` is where the part began. Of an integer atomic through an empty descriptor R91 says only that
it performs no access; the old value that it delivers is taken as 0 (DESIGN CHOICE, log 98). -/
def MemForm.elem (m : MemForm) (s : State) (f : WFields) (slot lo e : Nat) : Did :=
  if m.copiesDiffer s f e then
    .trap (m.atElem s f e slot { code := 21, sub := 2, val := ((m.elemAddr s f false e).map Prod.fst).getD 0 }) s
  else
    let zero : Did := .done (if m.writes then s.setElem f.vd.toNat s.sew e 0 else s)
    match m.elemAddr s f false e with
    | none => zero
    | some (va, out) =>
      if out && m.kind != .load && (s.descAt f).clamp == 1 then zero
      else
        let native := !s.h.su.compat
        match m.check s f e va with
        | .bad t => .trap (m.atElem s f e slot t) s
        | .absent level entry =>
          if m.kind = .store ∧ native then s.tryPark m f slot e va level entry
          else if s.parkedOn va then .wait
          else .absent va level entry
        | .good s' p act =>
          if m.kind = .store then
            match act with
            | .trap k => .trap (m.atElem s f e slot { code := 22, sub := k, val := va }) s'
            | .halt _ => .halt s'
            | .pass => if s.parkedOn va then s.tryPark m f slot e va 0 0 else m.perform s' f lo e va p
          else
            match m.mustWait s f va p with
            | .error t => .trap (m.atElem s f e slot t) s
            | .ok true => .wait
            | .ok false =>
              match act with
              | .trap k => .trap (m.atElem s f e slot { code := 22, sub := k, val := va }) s'
              | .halt _ => .halt s'
              | .pass => m.perform s' f lo e va p

/-! ### The fault mask -/

/-- Bit e of mf. -/
def State.mfBit (s : State) (e : Nat) : Bool := s.h.vec.mf.getLsbD e
/-- Write bit e of mf (R231). -/
def State.setMfBit (s : State) (e : Nat) (b : Bool) : State := s.setMf (sliceSet s.h.vec.mf e 1 (bit01 b))

/-- A masked-off element of a load or atomic (R192). -/
def MemForm.skip (m : MemForm) (s : State) (f : WFields) (e : Nat) : State :=
  if m.writes && s.h.vec.ma then s.setElem f.vd.toNat s.sew e 0 else s

/-- Put what has not performed into mf (R231, R440): the active ones of `es`, whose masked-off ones are dealt with, and every element not
yet fed, active or not, since its mask may still be to come. In a reissue the bits stand. -/
def MemForm.restToMf (m : MemForm) (f : WFields) (c : Part) (reissue : Bool) (s : State) (es : List Nat) : State :=
  if reissue then s
  else
    (List.range' c.fed (s.vl - c.fed)).foldl (fun s e => s.setMfBit e true)
      ((es.filter fun e => e < c.fed).foldl (fun s e => if s.active f e then s.setMfBit e true else m.skip s f e) s)

/-- An element held in mf: its number, address and the level of the absent entry. -/
structure Held where
  e     : Nat
  va    : Word
  level : Nat
  deriving DecidableEq, Repr

/-- The pages of held elements, each with its first element and its count (R369). -/
def heldPages (src : Nat) (wr : Bool) (hs : List Held) : List BatchEntry :=
  hs.foldl (fun acc h =>
    if acc.any fun b => samePage b.va h.va then
      acc.map fun b => if samePage b.va h.va then { b with nel := b.nel + 1 } else b
    else acc ++ [{ va := h.va, level := h.level, src := src, wr := wr, first := h.e, nel := 1 }]) []

/-- The lowest address of held elements. -/
def lowestVa (hs : List Held) : Word :=
  match hs with
  | [] => 0
  | h :: t => t.foldl (fun a x => if x.va.toNat < a.toNat then x.va else a) h.va

/-- The residency trap of held elements at an element (R231, R369). -/
def MemForm.batchTrap (m : MemForm) (s : State) (f : WFields) (slot e : Nat) (hs : List Held) : Trap :=
  let pages := heldPages m.kind.src (m.kind != .load) hs
  m.atElem s f e slot { code := 9, sub := min 16 pages.length, val := lowestVa hs, batch := pages }

/-- The lowest element set in mf, or a default. -/
def State.lowestMf (s : State) (d : Nat) : Nat := ((List.range s.vl).find? fun e => s.mfBit e).getD d

/-- End a part in which elements are held: a batch, a wait or a halt at the lowest of them. -/
def MemForm.endHeld (m : MemForm) (s : State) (f : WFields) (slot : Nat) (hs : List Held) : State × SlotEnd :=
  let k := s.lowestMf s.vl
  (s, .trap k (m.batchTrap s f slot k hs))

/-- The end of a part with nothing held: in a reissue the instruction is complete once mf = 0 (R231). -/
def State.endMf (s : State) (c : Part) (reissue : Bool) : State × SlotEnd :=
  if !reissue then endPart c none id s
  else if s.h.vec.mf = 0 then (s, .done) else (s, .part (s.lowestMf c.hi))

/-- In compatibility mode elements of a load or store above an element that faults may have performed, to perform again on restart (R127, R230);
which of the part's do is free (DESIGN CHOICE, log 29). -/
def MemForm.spread (m : MemForm) (f : WFields) (c : Part) (s : State) (es : List Nat) : State :=
  if s.h.su.compat && (m.kind == .load || m.kind == .store) then
    es.foldl (fun s e =>
      let t := { s with free := s.free + 1 }
      if Config.freeChoice s.free % 2 = 1 ∧ s.active f e then
        match m.elem t f c.slot c.lo e with
        | .done u => u
        | _ => t
      else t) s
  else s

/-- An element fault of R230, other than a residency fault. -/
def Trap.ofElement (t : Trap) : Bool := [5, 6, 7, 8, 10, 11, 12].contains t.code

/-- The elements of a part in increasing order (R214, R215, R221, R230, R231, R440), but for those that have performed ahead (`skip`). R108 gives
the elements no order: an instruction that has settled may perform them in another one (`State.element`), and one at the stop point takes this
one, the model's choice (DESIGN CHOICE, log 29). `reissue`: only the elements set in mf perform, and one that has turned out inactive drops out.
`hs`: what has been held. mf that another slot uses is waited for. -/
def MemForm.loop (m : MemForm) (f : WFields) (c : Part) (reissue : Bool) : List Nat → State → List Held → State × SlotEnd
  | [], s, hs => if hs.isEmpty then s.endMf c reissue else m.endHeld (m.restToMf f c reissue s (List.range' c.hi (s.vl - c.hi))) f c.slot hs
  | e :: es, s, hs =>
    let off (s : State) : State := if reissue then s.setMfBit e false else s
    if (reissue && !s.mfBit e) || c.skip.contains e then m.loop f c reissue es s hs
    else if !s.active f e then m.loop f c reissue es (off (m.skip s f e)) hs
    else
      let rest := e :: es ++ List.range' c.hi (s.vl - c.hi)
      match m.elem s f c.slot c.lo e with
      | .done s' => m.loop f c reissue es (off s') hs
      | .absent va level _ =>
        if m.kind ≠ .store ∧ ¬ s.h.su.compat then
          if hs.isEmpty && !c.owns && s.h.vec.mf != 0 then (s, .wait e)
          else m.loop f c reissue es (s.setMfBit e true) (hs ++ [⟨e, va, level⟩])
        else (m.spread f c s es, .trap e (m.batchTrap s f c.slot e [⟨e, va, level⟩]))
      | .wait =>
        if hs.isEmpty then (s, .wait e)
        else
          let s' := m.restToMf f c reissue s rest
          (s', .wait (s'.lowestMf e))
      | .trap t s' =>
        if hs.isEmpty then (if t.ofElement then m.spread f c s' es else s', .trap e t) else m.endHeld (m.restToMf f c reissue s rest) f c.slot hs
      | .halt s' =>
        if hs.isEmpty then (s', .halt e 4) else m.endHeld (m.restToMf f c reissue s rest) f c.slot hs

/-- A part takes up the elements that stand in mf (R231, R370). -/
def MemForm.reissues (m : MemForm) (c : Part) (s : State) : Bool := m.kind != .store && c.owns && s.h.vec.mf != 0

/-- A part of an ordinary load, store or atomic. -/
def MemForm.runPlain (m : MemForm) (f : WFields) (c : Part) (s : State) : State × SlotEnd :=
  let r := m.loop f c (m.reissues c s) c.elems s []
  if r.2 = .done ∧ m.writes then (r.1.tail (r.1.dstOf m.op f) r.1.vl, .done) else r

/-! ### First-fault loads (R216) -/

/-- A later element at which `vldff` ends: it would take a fault, or its page has NS = 1. -/
def MemForm.cuts (m : MemForm) (s : State) (f : WFields) (e : Nat) : Bool :=
  match m.elemAddr s f false e with
  | none => false
  | some (va, _) => match m.check s f e va with
    | .good _ p act => p.ns || act != .pass
    | _ => true

/-- A part of `vldff`: no element is held in mf, and VL ends at the first later element that cuts. -/
def MemForm.runFirst (m : MemForm) (f : WFields) (c : Part) (s : State) : State × SlotEnd :=
  let act := (List.range' c.lo (s.vl - c.lo)).filter fun e => s.active f e
  let cut := ((act.drop 1).find? fun e => m.cuts s f e).getD s.vl
  let c' : Part := { c with hi := min c.hi cut }
  let rec go : List Nat → State → State × SlotEnd
    | [], s => if c.hi < cut then (s, .part c.hi) else (s, .done)
    | e :: es, s =>
      if !s.active f e then go es (m.skip s f e)
      else match m.elem s f c.slot c.lo e with
        | .done s' => go es s'
        | .absent va level _ => (s, .trap e (m.batchTrap s f c.slot e [⟨e, va, level⟩]))
        | .wait => (s, .wait e)
        | .trap t s' => (s', .trap e t)
        | .halt s' => (s', .halt e 4)
  let r := go c'.elems s
  if r.2 = .done then
    let t := if cut < s.vl then r.1.setCtl fun v => { v with vl := BitVec.ofNat 15 cut } else r.1
    (t.tail (t.dstOf m.op f) t.vl, .done)
  else r

/-! ### Rate-mode loads (R273-R275) -/

/-- Quad k of a set record's sweep state (R263). -/
def State.setQuad (s : State) (r : RatedSet) (k : Nat) : Word := s.mem.quad (r.recPa + 8 * k)
/-- PUB of a set. -/
def State.setPub (s : State) (r : RatedSet) : Nat := (s.setQuad r 24).toNat
/-- A sweep of the set is open. -/
def State.setOpen (s : State) (r : RatedSet) : Bool := fieldOf (s.setQuad r 25) 63 1 == 1
/-- OPN of a set. -/
def State.setOpn (s : State) (r : RatedSet) : Nat := fieldOf (s.setQuad r 25) 0 63

/-- The active set and member of the current hart's address space to which an address belongs (R267). -/
def State.memberAt (s : State) (va : Word) : Option (RatedSet × Nat) :=
  s.un.sets.findSome? fun r =>
    if r.part == s.h.su.part && sameSpace r.root s.h.su.ptroot then (r.memberOf va).map fun m => (r, m) else none

/-- The plane of element e of member m that a rate-mode load takes its value from: the previous values where the element has been measured in an
open sweep that has not committed the member (R274). -/
def State.ratePrev (s : State) (r : RatedSet) (m e : Nat) : Bool :=
  s.setOpen r && !r.committed.contains m && r.visits.any fun v => v.m == m && v.measured.contains e

/-- What a rate-mode load returns for element e of member m (R274), and whether it comes from a poisoned word (R400). -/
def State.rateValue (s : State) (rate : Nat) (r : RatedSet) (m e : Nat) : Nat × Bool :=
  let rr := s.rateEntry r m % 8
  let committed := r.committed.contains m
  let age := if ¬ s.setOpen r then s.setPub r % 2 ^ rr else if committed then 0 else (s.setOpn r - 1) % 2 ^ rr + 1
  let prev := s.ratePrev r m e
  let v := s.getPlane r (if prev then 2 else 0) m e
  let slope := s.getPlane r (if prev then 3 else 1) m e
  let blind := s.poisoned (r.recPa + 192) 16 || (rate != 1 && s.entryPoison r m)
  if rate = 1 ∨ age = 0 then (v.1, v.2 || blind)
  else ((Fmt.f32.fmaV (.static 0) false (.fin false age 0) (Fmt.f32.value slope.1) (Fmt.f32.value v.1)).1, v.2 || slope.2 || blind)

/-- The rate unit reads the member's entry, the slope, and where it is not the addressed element itself the value, for a rate-mode load (R274). -/
def State.rateSees (s : State) (r : RatedSet) (m e : Nat) : State :=
  let prev := s.ratePrev r m e
  let sees (s : State) (va : Word) (n : Nat) : State := s.unitSees r s.h.hid s.h.own (s.org e) va n
  let s := sees (sees s (r.entryAddr m) 1) (r.addr (if prev then 3 else 1) m e) 4
  if prev then sees s (r.addr 2 m e) 4 else s

/-- The batch of a rate-mode load: SVAL and SLANE give the lowest faulting element (R230, R343). -/
def MemForm.rateBatch (m : MemForm) (s : State) (f : WFields) (slot : Nat) (hs : List Held) : Trap :=
  { m.batchTrap s f slot ((hs.head?.map Held.e).getD 0) hs with val := (hs.head?.map Held.va).getD 0 }

/-- A rate-mode element that would give a poisoned value (R400). -/
def State.ratePoison (s : State) (f : WFields) (va : Word) : Bool :=
  match s.memberAt va with
  | some (r, k) => (s.rateValue (s.descAt f).rate r k ((r.element k va).getD 0)).2
  | none => false

/-- The faults of a rate-mode load in element order, all before any read (R230, R257): the absent pages below the first other
fault, or that fault. -/
def MemForm.ratePlan (m : MemForm) (s : State) (f : WFields) (slot : Nat) : List Nat → List Held → Option (Trap ⊕ Unit)
  | [], hs => if hs.isEmpty then none else some (.inl (m.rateBatch s f slot hs))
  | e :: es, hs =>
    let batch : Option (Trap ⊕ Unit) := some (.inl (m.rateBatch s f slot hs))
    match m.elemAddr s f false e with
    | none => m.ratePlan s f slot es hs
    | some (va, _) => match m.check s f e va with
      | .absent level _ => m.ratePlan s f slot es (hs ++ [⟨e, va, level⟩])
      | .bad t => if hs.isEmpty then some (.inl (m.atElem s f e slot t)) else batch
      | .good _ p act =>
        if act != .pass then
          (if hs.isEmpty then (match act with
            | .trap k => some (.inl (m.atElem s f e slot { code := 22, sub := k, val := va }))
            | _ => some (.inr ())) else batch)
        else if s.ratePoison f va then
          (if hs.isEmpty then some (.inl (m.atElem s f e slot { code := 21, sub := 3, val := va &&& ~~~7 })) else batch)
        else match m.mustWait s f va p with
          | .error t => if hs.isEmpty then some (.inl (m.atElem s f e slot t)) else batch
          | .ok _ => m.ratePlan s f slot es hs

/-- The value of one element of a rate-mode load. -/
def MemForm.rateElem (m : MemForm) (s : State) (f : WFields) (e : Nat) : State :=
  match m.elemAddr s f false e with
  | none => s.setElem f.vd.toNat s.sew e 0
  | some (va, _) => match m.check s f e va with
    | .good s' p _ =>
      let s1 := s'.markLeaf s'.h.space va p false
      match s.memberAt va with
      | some (r, k) =>
        let s1 := s1.settleHome s1.h.su.part s1.h.hid.isle p.pa
        let i := (r.element k va).getD 0
        let s2 := (s1.watchHome s1.h.su.part s1.h.source (s1.org e) p.pa 4 ⟨true, false, false⟩).rateSees r k i
        s2.setElem f.vd.toNat s.sew e (s.rateValue (s.descAt f).rate r k i).1
      | none =>
        let q := s1.portRead p f.orient 4 e
        q.1.setElem f.vd.toNat s.sew e q.2
    | _ => s

/-- Some element of a rate-mode load waits. -/
def MemForm.rateWaits (m : MemForm) (s : State) (f : WFields) (es : List Nat) : Bool :=
  es.any fun e => match m.elemAddr s f false e with
    | none => false
    | some (va, _) => match m.check s f e va with
      | .good _ p _ => (match m.mustWait s f va p with | .ok b => b | .error _ => false)
      | _ => false

/-- A rate-mode load: indivisible, and all or nothing (R218, R230). -/
def MemForm.runRate (m : MemForm) (f : WFields) (c : Part) (s : State) : State × SlotEnd :=
  if c.hi < s.vl then (s, .part c.lo)
  else if c.lo ≠ 0 then (s.tail (s.dstOf m.op f) s.vl, .done)
  else
    let es := (List.range s.vl).filter fun e => s.active f e
    match m.ratePlan s f c.slot es [] with
    | some (.inl t) => (s, .trap 0 t)
    | some (.inr _) => (s, .halt 0 4)
    | none =>
      if m.rateWaits s f es then (s, .wait 0)
      else
        let t := (List.range s.vl).foldl (fun s e => if s.active f e then m.rateElem s f e else m.skip s f e) s
        (t.tail (t.dstOf m.op f) t.vl, .done)

/-! ### The instructions -/

/-- A load with acquire (R100, R214): imm16[11] of VLD. -/
def MemForm.acquires (m : MemForm) (f : WFields) : Bool := m.kind == .load && natField f.imm.toNat 11 1 == 1

/-- A store with release (R215): imm16[11] of VST. -/
def MemForm.releases (m : MemForm) (f : WFields) : Bool := m.kind == .store && natField f.imm.toNat 11 1 == 1

/-- A part of a vector memory instruction: its release, where it has one, before any element. -/
def MemForm.run (m : MemForm) (f : WFields) (c : Part) (s : State) : State × SlotEnd :=
  if m.rate s f ≠ 0 then m.runRate f c s
  else if m.first then m.runFirst f c s
  else if m.releases f && c.lo < c.hi then
    let r := s.release
    if r.2 then m.runPlain f c r.1 else (r.1, .wait c.lo)
  else m.runPlain f c s

/-! ### Profile samples (R418) -/

/-- One more vector memory or tile instruction of the hart has completed: every 2^(4 PROF)-th writes a profile sample (R417, R418), with
its stride class and the addresses it touched. The timing measurements are free. -/
def State.profile (s : State) (cls : Nat) (vas : List Word) : State :=
  let p := s.h.dbg.prof.toNat
  if p = 0 then s
  else
    let n := s.h.dbg.sample + 1
    let t := s.onDbg fun d => { d with sample := n }
    if n % 2 ^ (4 * p) ≠ 0 then t
    else
      let count (k : Nat) : Nat := min 65535 ((vas.map fun a => a.toNat / k).dedup.length)
      let free := Config.profileTiming s.free
      let b := fieldOf free 48 16 * 2 ^ 48 + count 64 * 2 ^ 32 + count (2 ^ 16) * 2 ^ 16 + fieldOf free 0 16
      { t.traceRec s.h.hid.isle
          { type := 4, hart := s.h.hid, sub := cls, corr := s.h.sc.corr, info := s.vl, a := s.h.sc.pc, b := BitVec.ofNat 64 b }
        with free := s.free + 1 }

/-- The stride class of a vector memory instruction (R418). -/
def MemForm.strideClass (m : MemForm) (f : WFields) : Nat :=
  match m.kind, m.addr with
  | .load, .unit | .store, .unit => 0
  | .load, .stride | .store, .stride => 1
  | .load, .index | .store, .index => 2
  | .load, .desc | .store, .desc => if f.orient then 4 else 3
  | .load, .entry | .store, .entry => 0
  | _, _ => 5

/-- The addresses of the elements that a part has performed, by the registers as it began: its active elements below where it ended, those
above that are clear in mf (R231), and in a reissue only those that were set; a store that CLAMP drops touches nothing (R91). -/
def MemForm.touched (m : MemForm) (f : WFields) (c : Part) (s : State) (r : State × SlotEnd) : List Word :=
  let upTo : Nat := match r.2 with
    | .done => s.vl
    | .part k | .wait k | .halt k _ => k
    | .trap k _ => k
    | .check _ => 0
  let reissue := m.reissues c s
  let done (e : Nat) : Bool := if r.1.h.vec.mf = 0 then decide (e < upTo) else !r.1.mfBit e
  (c.elems.filter fun e => s.active f e && (!reissue || s.mfBit e) && done e && decide (e < r.1.vl)).filterMap fun e =>
    match m.elemAddr s f false e with
    | some (va, out) => if out && m.kind != .load && (s.descAt f).clamp == 1 then none else some va
    | none => none

/-- A part of a vector memory instruction, with its profile sample where it completes (R418). -/
def MemForm.runCounted (m : MemForm) (f : WFields) (c : Part) (s : State) : State × SlotEnd :=
  let r := m.run f c s
  if s.h.dbg.prof = 0 then r
  else
    let vas := (if c.lo = 0 ∧ s.h.vec.mf = 0 then [] else s.h.ct.touched) ++ m.touched f c s r
    let keep (l : List Word) : State := r.1.onCt fun t => { t with touched := l }
    if r.2 = .done then ((keep []).profile (m.strideClass f) vas, .done) else (keep vas, r.2)

/-- A vector memory instruction. -/
def semMem (m : MemForm) : Sem := { illegal := m.illegal, fault := m.fault, run := m.runCounted }

/-- `vld` (R214): unit-stride load. -/
def semVld : Sem := semMem { op := .vld, kind := .load, addr := .unit }
/-- `vld` as a single instruction (R214). -/
def execVld (f : WFields) (s : State) : Out := runSingle .vld semVld f s

/-- `vlds` (R214): strided load. -/
def semVlds : Sem := semMem { op := .vlds, kind := .load, addr := .stride }
/-- `vlds` as a single instruction (R214). -/
def execVlds (f : WFields) (s : State) : Out := runSingle .vlds semVlds f s

/-- `vldx` (R214): gather. -/
def semVldx : Sem := semMem { op := .vldx, kind := .load, addr := .index }
/-- `vldx` as a single instruction (R214). -/
def execVldx (f : WFields) (s : State) : Out := runSingle .vldx semVldx f s

/-- `vldff` (R216): first-fault load. -/
def semVldff : Sem := semMem { op := .vldff, kind := .load, addr := .unit, first := true }
/-- `vldff` as a single instruction (R216). -/
def execVldff (f : WFields) (s : State) : Out := runSingle .vldff semVldff f s

/-- `vldd` (R214): descriptor load. -/
def semVldd : Sem := semMem { op := .vldd, kind := .load, addr := .desc }
/-- `vldd` as a single instruction (R214). -/
def execVldd (f : WFields) (s : State) : Out := runSingle .vldd semVldd f s

/-- `vst` (R215): unit-stride store. -/
def semVst : Sem := semMem { op := .vst, kind := .store, addr := .unit }
/-- `vst` as a single instruction (R215). -/
def execVst (f : WFields) (s : State) : Out := runSingle .vst semVst f s

/-- `vsts` (R215): strided store. -/
def semVsts : Sem := semMem { op := .vsts, kind := .store, addr := .stride }
/-- `vsts` as a single instruction (R215). -/
def execVsts (f : WFields) (s : State) : Out := runSingle .vsts semVsts f s

/-- `vstx` (R215): scatter. -/
def semVstx : Sem := semMem { op := .vstx, kind := .store, addr := .index }
/-- `vstx` as a single instruction (R215). -/
def execVstx (f : WFields) (s : State) : Out := runSingle .vstx semVstx f s

/-- `vstxu` (R215): unordered scatter. -/
def semVstxu : Sem := semMem { op := .vstxu, kind := .store, addr := .index, loose := true }
/-- `vstxu` as a single instruction (R215). -/
def execVstxu (f : WFields) (s : State) : Out := runSingle .vstxu semVstxu f s

/-- `vstd` (R215): descriptor store. -/
def semVstd : Sem := semMem { op := .vstd, kind := .store, addr := .desc }
/-- `vstd` as a single instruction (R215). -/
def execVstd (f : WFields) (s : State) : Out := runSingle .vstd semVstd f s

/-- `vamoAdd` (R221): add at the home, indexed. -/
def semVamoAdd : Sem := semMem { op := .vamoAdd, kind := .atomic .add, addr := .index }
/-- `vamoAdd` as a single instruction (R221). -/
def execVamoAdd (f : WFields) (s : State) : Out := runSingle .vamoAdd semVamoAdd f s

/-- `vamoAnd` (R221): and at the home, indexed. -/
def semVamoAnd : Sem := semMem { op := .vamoAnd, kind := .atomic .and, addr := .index }
/-- `vamoAnd` as a single instruction (R221). -/
def execVamoAnd (f : WFields) (s : State) : Out := runSingle .vamoAnd semVamoAnd f s

/-- `vamoOr` (R221): or at the home, indexed. -/
def semVamoOr : Sem := semMem { op := .vamoOr, kind := .atomic .or, addr := .index }
/-- `vamoOr` as a single instruction (R221). -/
def execVamoOr (f : WFields) (s : State) : Out := runSingle .vamoOr semVamoOr f s

/-- `vamoXor` (R221): xor at the home, indexed. -/
def semVamoXor : Sem := semMem { op := .vamoXor, kind := .atomic .xor, addr := .index }
/-- `vamoXor` as a single instruction (R221). -/
def execVamoXor (f : WFields) (s : State) : Out := runSingle .vamoXor semVamoXor f s

/-- `vamoMin` (R221): min at the home, indexed. -/
def semVamoMin : Sem := semMem { op := .vamoMin, kind := .atomic .min, addr := .index }
/-- `vamoMin` as a single instruction (R221). -/
def execVamoMin (f : WFields) (s : State) : Out := runSingle .vamoMin semVamoMin f s

/-- `vamoMax` (R221): max at the home, indexed. -/
def semVamoMax : Sem := semMem { op := .vamoMax, kind := .atomic .max, addr := .index }
/-- `vamoMax` as a single instruction (R221). -/
def execVamoMax (f : WFields) (s : State) : Out := runSingle .vamoMax semVamoMax f s

/-- `vamoSwap` (R221): swap at the home, indexed. -/
def semVamoSwap : Sem := semMem { op := .vamoSwap, kind := .atomic .swap, addr := .index }
/-- `vamoSwap` as a single instruction (R221). -/
def execVamoSwap (f : WFields) (s : State) : Out := runSingle .vamoSwap semVamoSwap f s

/-- `vamoFadd` (R222): memory-side add, indexed. -/
def semVamoFadd : Sem := semMem { op := .vamoFadd, kind := .add, addr := .index }
/-- `vamoFadd` as a single instruction (R222). -/
def execVamoFadd (f : WFields) (s : State) : Out := runSingle .vamoFadd semVamoFadd f s

/-- `vamoAddDesc` (R221): add at the home, through a descriptor. -/
def semVamoAddDesc : Sem := semMem { op := .vamoAddDesc, kind := .atomic .add, addr := .desc }
/-- `vamoAddDesc` as a single instruction (R221). -/
def execVamoAddDesc (f : WFields) (s : State) : Out := runSingle .vamoAddDesc semVamoAddDesc f s

/-- `vamoAndDesc` (R221): and at the home, through a descriptor. -/
def semVamoAndDesc : Sem := semMem { op := .vamoAndDesc, kind := .atomic .and, addr := .desc }
/-- `vamoAndDesc` as a single instruction (R221). -/
def execVamoAndDesc (f : WFields) (s : State) : Out := runSingle .vamoAndDesc semVamoAndDesc f s

/-- `vamoOrDesc` (R221): or at the home, through a descriptor. -/
def semVamoOrDesc : Sem := semMem { op := .vamoOrDesc, kind := .atomic .or, addr := .desc }
/-- `vamoOrDesc` as a single instruction (R221). -/
def execVamoOrDesc (f : WFields) (s : State) : Out := runSingle .vamoOrDesc semVamoOrDesc f s

/-- `vamoXorDesc` (R221): xor at the home, through a descriptor. -/
def semVamoXorDesc : Sem := semMem { op := .vamoXorDesc, kind := .atomic .xor, addr := .desc }
/-- `vamoXorDesc` as a single instruction (R221). -/
def execVamoXorDesc (f : WFields) (s : State) : Out := runSingle .vamoXorDesc semVamoXorDesc f s

/-- `vamoMinDesc` (R221): min at the home, through a descriptor. -/
def semVamoMinDesc : Sem := semMem { op := .vamoMinDesc, kind := .atomic .min, addr := .desc }
/-- `vamoMinDesc` as a single instruction (R221). -/
def execVamoMinDesc (f : WFields) (s : State) : Out := runSingle .vamoMinDesc semVamoMinDesc f s

/-- `vamoMaxDesc` (R221): max at the home, through a descriptor. -/
def semVamoMaxDesc : Sem := semMem { op := .vamoMaxDesc, kind := .atomic .max, addr := .desc }
/-- `vamoMaxDesc` as a single instruction (R221). -/
def execVamoMaxDesc (f : WFields) (s : State) : Out := runSingle .vamoMaxDesc semVamoMaxDesc f s

/-- `vamoSwapDesc` (R221): swap at the home, through a descriptor. -/
def semVamoSwapDesc : Sem := semMem { op := .vamoSwapDesc, kind := .atomic .swap, addr := .desc }
/-- `vamoSwapDesc` as a single instruction (R221). -/
def execVamoSwapDesc (f : WFields) (s : State) : Out := runSingle .vamoSwapDesc semVamoSwapDesc f s

/-- `vamoFaddDesc` (R222): memory-side add through a descriptor. -/
def semVamoFaddDesc : Sem := semMem { op := .vamoFaddDesc, kind := .add, addr := .desc }
/-- `vamoFaddDesc` as a single instruction (R222). -/
def execVamoFaddDesc (f : WFields) (s : State) : Out := runSingle .vamoFaddDesc semVamoFaddDesc f s

end Sys2Proof.Machine
end

