-- ==== Sys2Proof/Machine/Sweep.lean ====
section
/-! DEFINITION. Rated sets (R261-R276): opening a sweep, drawing and committing members, closing the sweep, and the rate table. -/

namespace Sys2Proof.Machine

/-! ### The set record -/

/-- An access of the set record or of one of its tables at its home, for the instruction (R159, R302): its faults, and a wait where a pin
holds the line under a write, or an earlier write of the hart under a read (R107, R121). A read is then seen at the home (R415), and what the home
has sent the hart's isle comes before it (R107). The record may lie on any page of normal or of host-coherent type: R261 asks for normal memory,
and no rule gives a fault for another (DESIGN CHOICE, log 118). -/
def tableM (acc : Acc) (va : Word) (n : Nat) : M Place := do
  let s0 ← getS
  let p ← scalarCheck acc va n true
  modS fun s => s.touchRest s.h.space va p n
  let s ← getS
  if acc = .load then
    if s.ownHeld p.pa n then waitAt s0
    else do
      modS fun s => (s.settleHome s.h.su.part s.h.hid.isle p.pa).watchHome s.h.su.part s.h.source (s.org 0) p.pa n ⟨true, false, false⟩
      pure p
  else if s.heldAtHome p.pa n then waitAt s0 else pure p

/-- The checks of an access that `tableM` makes later, with nothing of it done but that its page is translated: A is set, and D is not (R363). -/
def lookM (acc : Acc) (va : Word) (n : Nat) : M Place := fun s =>
  if ¬ canonical va then .error (.trap { code := 5, val := va } s)
  else if va.toNat % n ≠ 0 then .error (.trap { code := 6, val := va } s)
  else match s.checkOwn acc va n true 0 with
  | .error x => .error (.trap (x.trap va 1 (acc != .load)) s)
  | .ok (_, p, act) => match act with
    | .trap k => .error (.trap { code := 22, sub := k, val := va } s)
    | .halt _ => .error (.halt 4 s)
    | .pass => if acc ≠ .load ∧ s.heldAtHome p.pa n then .error (.block s) else .ok (p, s.markLeaf s.h.space va p false)

/-- Translation alone, for what the instruction itself does not access (R266): its faults, and A of the leaf entry (R363). -/
def translateM (acc : Acc) (va : Word) : M Place := fun s =>
  if ¬ canonical va then .error (.trap { code := 5, val := va } s)
  else match s.translate s.h.space acc va with
  | .error x => .error (.trap (x.trap va 1 (acc != .load)) s)
  | .ok p =>
    if p.mt = 1 then .error (.trap { code := 7, sub := 2, val := va } s) else .ok (p, s.markLeaf s.h.space va p false)

/-- Bytes written at their home by the hart's sweep or stack instruction (R96, R121). -/
def State.homePut (s : State) (p : Place) (bs : List Byte) : State :=
  s.homeBytes s.h.su.part s.h.source (s.org 0) p.pa p.sq bs ⟨false, true, false⟩ false none

/-- The quads of a set record. -/
def State.recQuads (s : State) (pa : Nat) : List Word := (List.range 32).map fun k => s.mem.quad (pa + 8 * k)

/-- A threshold is finite and not below zero (R261). -/
def thresholdOk (v : Word) : Bool :=
  match Fmt.f64.value v.toNat with
  | .fin neg m _ => !neg || m == 0
  | _ => false

/-- A plane entry obeys R262. -/
def planeOk (p npl msz : Nat) (base w : Word) : Bool :=
  let st := fieldOf w 0 32
  let fmt := fieldOf w 32 4
  if p < 4 then
    fieldOf w 36 28 == 0 && fmt == 1 && base.toNat % 64 == 0 && st % 64 == 0 && decide (4 * 2 ^ msz ≤ st)
  else if p < npl then decide (fmt ≤ 12)
  else base == 0 && w == 0

/-- The header and the plane entries obey R261 and R262. -/
def headerOk (q : List Word) : Bool :=
  let h := q.getD 0 0
  let npl := fieldOf h 36 4
  let msz := fieldOf h 32 4
  let count := fieldOf h 0 32
  fieldOf h 43 21 == 0 && decide (4 ≤ npl) && decide (npl ≤ 8) && decide (6 ≤ msz) && decide (msz ≤ 12)
    && decide (1 ≤ count) && decide (count ≤ 2 ^ 24)
    && (q.getD 1 0).toNat % 8 == 0 && (q.getD 4 0).toNat % 64 == 0
    && q.getD 5 0 == 0 && q.getD 6 0 == 0 && q.getD 7 0 == 0
    && thresholdOk (q.getD 2 0) && thresholdOk (q.getD 3 0)
    && decide (compareV false (Fmt.f64.value (q.getD 2 0).toNat) (Fmt.f64.value (q.getD 3 0).toNat) ≤ 0)
    && (List.range 8).all fun p => planeOk p npl msz (q.getD (8 + 2 * p) 0) (q.getD (9 + 2 * p) 0)

/-- A set as its record describes it (R267). -/
def State.newSet (s : State) (pa : Nat) (q : List Word) : RatedSet :=
  { recPa := pa, recSq := 0, part := s.h.su.part, root := s.h.su.ptroot
    base := Vector.ofFn fun p : Fin 4 => q.getD (8 + 2 * p.val) 0
    stride := Vector.ofFn fun p : Fin 4 => fieldOf (q.getD (9 + 2 * p.val) 0) 0 32
    msz := fieldOf (q.getD 0 0) 32 4, count := fieldOf (q.getD 0 0) 0 32, rtab := q.getD 1 0, pages := [], committed := [], visits := [] }

/-- The active set at a record. -/
def State.setAt (s : State) (pa : Nat) : Option RatedSet := s.un.sets.find? fun r => r.recPa == pa
/-- Change the active set at a record. -/
def State.onSet (s : State) (pa : Nat) (f : RatedSet → RatedSet) : State :=
  s.onUn fun u => { u with sets := u.sets.map fun r => if r.recPa = pa then f r else r }

/-- The address range of a plane (R267). -/
def RatedSet.range (r : RatedSet) (p : Fin 4) : Nat × Nat := (r.base[p].toNat, (r.count - 1) * r.stride[p] + 4 * 2 ^ r.msz)

/-- Two sets of one address space share a plane address (R267). -/
def RatedSet.conflicts (a b : RatedSet) : Bool :=
  a.part == b.part && sameSpace a.root b.root
    && (List.finRange 4).any fun i => (List.finRange 4).any fun j =>
      meets (a.range i).1 (a.range i).2 (b.range j).1 (b.range j).2

/-- Why `swbegin` refuses a record for sweep n, in the order of R266. -/
def State.sweepRefusal (s : State) (pa : Nat) (q : List Word) (n : Word) : Option Nat :=
  if ¬ headerOk q then some 1
  else if fieldOf (q.getD 25 0) 63 1 = 1 then some 3
  else if n ≠ q.getD 24 0 + 1 then some 2
  else if (s.setAt pa).isSome then none
  else if 64 ≤ s.un.sets.countP (fun r => r.part == s.h.su.part) then some 4
  else if s.un.sets.any (fun r => r.conflicts (s.newSet pa q)) then some 5
  else none

/-! ### `swbegin` (R266) -/

/-- A misaligned record address (R302). -/
def recordFault (s : State) (f : WFields) (_ : Nat) : Option Trap :=
  if (s.g f.vs1).toNat % 256 = 0 then none else some { code := 6, val := s.g f.vs1 }

/-- The page of a translated address, its frame and its leaf entry (R364). -/
def pageOf (va : Word) (p : Place) : Nat × Nat × Word := (va.toNat / 2 ^ 16, p.pa - va.toNat % 2 ^ 16, p.pte)

/-- The addresses of planes 0 to 3 are translated: the first and the last element of each member (R266). Which permission this needs no row of R362
says: R for the values, which a commit leaves alone, R and W for the planes that the rate unit writes (DESIGN CHOICE, log 119). -/
def planesM (r : RatedSet) : M (List (Nat × Nat × Word)) := do
  let ps ← (List.range r.count).mapM fun m => (List.finRange 4).mapM fun p => do
    let acc : Acc := if p.val = 0 then .load else .atomic
    let a ← translateM acc (r.addr p m 0)
    let b ← translateM acc (r.addr p m (2 ^ r.msz - 1))
    pure [pageOf (r.addr p m 0) a, pageOf (r.addr p m (2 ^ r.msz - 1)) b]
  pure (ps.flatten.flatten.dedup)

/-- The rate table is read (R266). -/
def rateTableM (r : RatedSet) : M (List (Nat × Nat × Word)) := do
  let ps ← (List.range ((r.count + 1) / 2)).mapM fun i => do
    let p ← tableM .load (r.rtab + BitVec.ofNat 64 i) 1
    pure (pageOf (r.rtab + BitVec.ofNat 64 i) p)
  pure ps.dedup

/-- The members that sweep n visits, in increasing order (R265). -/
def State.visited (s : State) (r : RatedSet) (n : Word) : List Nat :=
  (List.range r.count).filter fun m => n.toNat % 2 ^ (s.rateEntry r m % 8) == 0

/-- Open a sweep (R266): the timetable, then the sweep state. -/
def State.openSweep (s : State) (p : Place) (r : RatedSet) (n : Word) (slots : List (Nat × Place)) : State :=
  let s := slots.foldl (fun s x => s.homePut x.2 (leBytes 4 x.1)) s
  let s := if (s.setAt r.recPa).isSome then s.onSet r.recPa fun _ => r else s.onUn fun u => { u with sets := u.sets ++ [r] }
  s.homePut { p with pa := p.pa + 200 } (leBytes 8 (2 ^ 63 + n.toNat % 2 ^ 63) ++ leBytes 8 0 ++ leBytes 8 slots.length ++ leBytes 8 0)

/-- The work of `swbegin` (R266). An active set keeps the address space that activated it (R267); the rest is what its record says. Every address is
translated and checked before any effect, so that a fault leaves no D set (R363). -/
def swbeginM (f : WFields) : M Unit := do
  let s ← getS
  let n := s.g f.vs3
  let p ← tableM .load (s.g f.vs1) 256
  let s ← getS
  let q := s.recQuads p.pa
  match s.sweepRefusal p.pa q n with
  | some k => modS fun s => s.setG f.vd (BitVec.ofNat 64 (2 ^ 63 + k))
  | none => do
    let _ ← lookM .atomic (s.g f.vs1) 256
    let r := { s.newSet p.pa q with recSq := p.sq, root := ((s.setAt p.pa).map (·.root)).getD s.h.su.ptroot }
    let ps ← planesM r
    let ts ← rateTableM r
    let r := { r with pages := (ps ++ ts).dedup }
    let s ← getS
    let slot (k : Nat) : Word := q.getD 4 0 + BitVec.ofNat 64 (4 * k)
    let _ ← (s.visited r n).zipIdx.mapM fun x => lookM .store (slot x.2) 4
    let _ ← tableM .atomic (s.g f.vs1) 256
    let slots ← (s.visited r n).zipIdx.mapM fun x => do
      let e ← tableM .store (slot x.2) 4
      pure (x.1, e)
    modS fun s => (s.openSweep p r n slots).setG f.vd (BitVec.ofNat 64 slots.length)

/-- `swbegin` (R266). -/
def semSwbegin : Sem := semI neverIllegal recordFault swbeginM
/-- `swbegin` as a single instruction. -/
def execSwbegin (f : WFields) (s : State) : Out := runSingle .swbegin semSwbegin f s

/-! ### `swnext` (R268) -/

/-- Open a member for the current hart (R268). -/
def State.openMember (s : State) (pa : Nat) (va : Word) (m n : Nat) : State :=
  (s.onSet pa fun r => { r with visits := r.visits ++ [⟨s.h.own, m, n, [], 0⟩] }).onCt fun c => { c with member := some ⟨pa, va, m, n⟩ }

/-- The work of `swnext` (R268). A record that is not active has no open sweep. -/
def swnextM (f : WFields) : M Unit := do
  let s ← getS
  let ga := s.g f.vs1
  let p ← tableM .load ga 256
  let s ← getS
  let q := s.recQuads p.pa
  let cur := (q.getD 26 0).toNat
  if fieldOf (q.getD 25 0) 63 1 = 0 ∨ (s.setAt p.pa).isNone then
    modS fun s => s.setG f.vd (BitVec.ofNat 64 (2 ^ 64 - 2))
  else if (q.getD 27 0).toNat ≤ cur then modS fun s => s.setG f.vd (BitVec.ofNat 64 (2 ^ 64 - 1))
  else do
    let _ ← lookM .atomic ga 256
    let e ← tableM .load (q.getD 4 0 + BitVec.ofNat 64 (4 * cur)) 4
    let _ ← tableM .atomic ga 256
    modS fun s =>
      let m := s.mem.num e.pa 4
      let n := fieldOf (q.getD 25 0) 0 63
      let s := (s.homePut { p with pa := p.pa + 208 } (leBytes 8 (cur + 1))).openMember p.pa ga m n
      s.setG f.vd (BitVec.ofNat 64 (n % 2 ^ 32 * 2 ^ 32 + m))

/-- `swnext` (R268). -/
def semSwnext : Sem := semI (fun s _ => s.h.ct.member.isSome) recordFault swnextM
/-- `swnext` as a single instruction. -/
def execSwnext (f : WFields) (s : State) : Out := runSingle .swnext semSwnext f s

/-! ### Commit (R270) -/

/-- The entry of a member with a 4-bit value in place (R264). -/
def State.putEntry (s : State) (p : Place) (m v : Nat) : State :=
  let b := (s.mem.get p.pa).toNat
  s.homePut p (leBytes 1 (if m % 2 = 0 then b / 16 * 16 + v % 16 else b % 16 + v % 16 * 16))

/-- The new entry of a member by the rate rule (R270). -/
def rateRule (entry n : Nat) (delta lo hi : Word) (rmax : Nat) : Nat :=
  let r := entry % 8
  let above (a b : Word) : Bool := compareV false (Fmt.f64.value a.toNat) (Fmt.f64.value b.toNat) == 1
  if entry / 8 % 2 = 1 then entry
  else if above delta hi && decide (0 < r) then entry - 1
  else if above lo delta && decide (r < rmax) && n % 2 ^ (r + 1) == 0 then entry + 1
  else entry

/-- The visit of a hart to a set. -/
def RatedSet.visitOf (r : RatedSet) (o : CtxRef) : Option Visit := r.visits.find? fun v => v.own == o

/-- A member is closed and counted, by the rate unit for the context that had opened it (R270, R276). A count that is poisoned stays so (R400). -/
def State.closeMember (s : State) (r : RatedSet) (hid : HartId) (o : CtxRef) (org : Origin) (m : Nat) : State :=
  let s := s.onSet r.recPa fun r => { r with committed := r.committed ++ [m], visits := r.visits.filter fun v => v.own != o }
  let pa := r.recPa + 224
  s.homeBytes r.part (s.rateUnit r.part pa hid o) org pa r.recSq (leBytes 8 ((s.mem.quad pa).toNat + 1)) ⟨true, true, false⟩ (s.poisoned pa 8) none

/-- Commit a visit, with the place of the member's entry (R270): the new entry. -/
def State.commitVisit (s : State) (r : RatedSet) (hid : HartId) (v : Visit) (p : Place) : State × Nat :=
  let org := s.org 0
  let s := (List.range (2 ^ r.msz)).foldl
    (fun s e => if v.measured.contains e then s else s.putPlane r hid v.own org 1 v.m e (0, false)) s
  let s := s.watchHome r.part (s.rateUnit r.part r.recPa hid v.own) org r.recPa 32 ⟨true, false, false⟩
  let q (k : Nat) := s.mem.quad (r.recPa + 8 * k)
  let e := rateRule (s.rateEntry r v.m) v.n v.delta (q 2) (q 3) (fieldOf (q 0) 40 3)
  ((s.putEntry p v.m e).closeMember r hid v.own org v.m, e)

/-- The words of a set record that a commit reads, RMAX, LO, HI and DONE: the first that is poisoned (R270, R400). -/
def State.commitPoison (s : State) (r : RatedSet) : Option Nat := [0, 2, 3, 28].find? fun k => s.poisoned (r.recPa + 8 * k) 8

/-- Every earlier access of the hart is performed at the homes (R270), or the hart waits. -/
def atHomesM : M Unit := fun s =>
  let t := s.drain
  if t.vectorPending || t.scalarPending then .error (.block t) else .ok ((), t)

/-- Commit the hart's open member (R270, R276): the new entry, if it has one. -/
def commitM : M (Option Nat) := do
  let s ← getS
  match s.h.ct.member with
  | none => pure none
  | some o => do
    atHomesM
    let s ← getS
    match s.setAt o.recPa with
    | none => do modS fun s => s.onCt fun c => { c with member := none }; pure none
    | some r => do
      if s.heldAtHome (r.recPa + 224) 8 then waitAt s
      else match s.commitPoison r with
      | some k => trapM { code := 21, sub := 3, val := o.va + BitVec.ofNat 64 (8 * k) }
      | none => do
        let p ← tableM .atomic (r.rtab + BitVec.ofNat 64 (o.m / 2)) 1
        fun s => match r.visitOf s.h.own with
          | none => .ok (none, s.onCt fun c => { c with member := none })
          | some v =>
            let t := s.commitVisit r s.h.hid v p
            .ok (some t.2, t.1.onCt fun c => { c with member := none })

/-- The work of `swcommit` (R270). -/
def swcommitM (f : WFields) : M Unit := do
  let e ← commitM
  modS fun s => s.setG f.vd (BitVec.ofNat 64 (e.getD 0))

/-- `swcommit` (R270). -/
def semSwcommit : Sem := semI (fun s _ => s.h.ct.member.isNone) noFault swcommitM
/-- `swcommit` as a single instruction. -/
def execSwcommit (f : WFields) (s : State) : Out := runSingle .swcommit semSwcommit f s

/-- Roll back a visit of a cancelled launch (R276). -/
def State.rollbackVisit (s : State) (r : RatedSet) (hid : HartId) (v : Visit) : State :=
  let org : Origin := ⟨0, 0, s.tick⟩
  let s := v.measured.foldl (fun s e =>
    let s := (s.unitSees r hid v.own org (r.addr 2 v.m e) 4).unitSees r hid v.own org (r.addr 3 v.m e) 4
    (s.putPlane r hid v.own org 0 v.m e (s.getPlane r 2 v.m e)).putPlane r hid v.own org 1 v.m e (s.getPlane r 3 v.m e)) s
  s.closeMember r hid v.own org v.m

/-! ### `swend` (R271) -/

/-- The work of `swend` (R271). -/
def swendM (f : WFields) : M Unit := do
  let s ← getS
  let p ← tableM .load (s.g f.vs1) 256
  let s ← getS
  let q := s.recQuads p.pa
  if fieldOf (q.getD 25 0) 63 1 = 0 then modS fun s => s.setG f.vd (BitVec.ofNat 64 (2 ^ 63 + 3))
  else if q.getD 28 0 ≠ q.getD 27 0 then blockM
  else do
    let _ ← lookM .atomic (s.g f.vs1) 256
    releaseM
    let _ ← tableM .atomic (s.g f.vs1) 256
    modS fun s =>
      let n := fieldOf (q.getD 25 0) 0 63
      let s := s.homePut { p with pa := p.pa + 192 } (leBytes 8 n ++ leBytes 8 n)
      let s := if f.imm.toNat % 2 = 1 then s.onUn fun u => { u with sets := u.sets.filter fun r => r.recPa != p.pa } else s
      s.setG f.vd (BitVec.ofNat 64 n)

/-- `swend` (R271). -/
def semSwend : Sem := semI (fun s _ => s.h.ct.member.isSome) recordFault swendM
/-- `swend` as a single instruction. -/
def execSwend (f : WFields) (s : State) : Out := runSingle .swend semSwend f s

/-! ### The rate table (R272) -/

/-- The record and the address of a member's entry; a member beyond COUNT faults at that address (R272). Which SUB of code 7 that is R343 does not
say; the model takes 0 (DESIGN CHOICE, log 120). -/
def entryM (f : WFields) : M (List Word × Word × Nat) := do
  let s ← getS
  let m := (s.g f.vs3).toNat
  let p ← tableM .load (s.g f.vs1) 256
  let s ← getS
  let q := s.recQuads p.pa
  let va := q.getD 1 0 + BitVec.ofNat 64 (m / 2)
  if fieldOf (q.getD 0 0) 0 32 ≤ m then trapM { code := 7, val := va } else pure (q, va, m)

/-- The work of `rtget` (R272). -/
def rtgetM (f : WFields) : M Unit := do
  let (_, va, m) ← entryM f
  let p ← tableM .load va 1
  modS fun s => s.setG f.vd (BitVec.ofNat 64 ((s.mem.get p.pa).toNat / (if m % 2 = 0 then 1 else 16) % 16))

/-- `rtget` (R272). -/
def semRtget : Sem := semI neverIllegal recordFault rtgetM
/-- `rtget` as a single instruction. -/
def execRtget (f : WFields) (s : State) : Out := runSingle .rtget semRtget f s

/-- The work of `rtset` (R272). -/
def rtsetM (f : WFields) : M Unit := do
  let (q, va, m) ← entryM f
  if fieldOf (q.getD 25 0) 63 1 = 1 ∨ (q.getD 24 0).toNat % 2 ^ (f.imm.toNat % 8) ≠ 0 then modS fun s => s.setG f.vd 0
  else do
    let p ← tableM .atomic va 1
    modS fun s => (s.putEntry p m f.imm.toNat).setG f.vd 1

/-- `rtset` (R272). -/
def semRtset : Sem := semI neverIllegal recordFault rtsetM
/-- `rtset` as a single instruction. -/
def execRtset (f : WFields) (s : State) : Out := runSingle .rtset semRtset f s

end Sys2Proof.Machine
end

