-- ==== Sys2Proof/Machine/Engines.lean ====
section
/-! DEFINITION. `ecmd`, `ewait` and `epoll` (R277-R279, R292, R293), completion (R281-R283), the copy engine (R284, R285) and the
collective engine (R287-R291, R441). An engine's work happens in the steps that no word encodes. -/

namespace Sys2Proof.Machine

/-! ### Commands -/

/-- Quad i of a command's record. -/
def Command.q (c : Command) (i : Nat) : Word := quadOf c.record i
/-- The address space of a command (R283). -/
def Command.space (c : Command) : Space := { part := c.own.part, root := c.root, sup := c.sup }
/-- A command's engine as the source of an access. -/
def Command.source (c : Command) : Source :=
  .engine c.hid.isle (match c.engine with | .copy k => some k | _ => none) c.hid c.own
/-- What an access of a command carries (R417). -/
def Command.org (c : Command) (s : State) : Origin := ⟨c.corr, 0, s.tick⟩
/-- SRC of a fault batch entry (R369). -/
def Command.src (c : Command) : Nat := match c.engine with | .copy _ => 6 | .collective _ => 7 | .spill _ => 8

/-- A command of the package by context and position. -/
def State.command (s : State) (o : CtxRef) (k : Nat) : Option Command := s.un.cmds.find? fun c => c.own == o && c.pos == k
/-- Change a command. -/
def State.onCommand (s : State) (c : Command) (f : Command → Command) : State :=
  s.onUn fun u => { u with cmds := u.cmds.map fun x => if x.own = c.own ∧ x.pos = c.pos then f x else x }

/-- Change the hart that holds a context, or its saved state while it is out (R278). -/
def State.onContext (s : State) (o : CtxRef) (res : Hart → Hart) (out : Suspended → Suspended) : State :=
  match s.hartOf o with
  | some h => s.onHart h.hid res
  | none => { s with rg := { s.rg with suspended := s.rg.suspended.map fun x => if x.own = o then out x else x } }

/-- A completion posted into control state (R278). -/
def Control.post (c : Control) (p : Posted) : Control :=
  { c with pending := c.pending.filter fun k => k != p.pos, posted := (c.posted.filter fun x => x.pos != p.pos) ++ [p] }

/-- A hart whose engine command has completed (R282, R295). -/
def Hart.completed (h : Hart) (p : Posted) : Hart :=
  let ct := h.ct.post p
  let ct := match p.bind with
    | some b => { ct with stack := b, popped := none }
    | none => ct
  let ev := if p.ev && h.ev.mask.getLsbD 0 && !h.ev.engine.contains p.pos then { h.ev with engine := h.ev.engine ++ [p.pos] } else h.ev
  { h with ct := ct, ev := ev }

/-- The 16 bytes of a completion record (R281). -/
def Command.cmplBytes (c : Command) (status : Nat) (addr : Word) (rank : Nat) : List Byte :=
  let prog := match c.engine with | .collective _ => c.prog | _ => 0
  leBytes 8 (prog % 2 ^ 32 * 2 ^ 32 + rank % 256 * 2 ^ 8 + status) ++ leBytes 8 addr.toNat

/-- Whether the completion record of a command can be written now (R283, R121). -/
inductive CmplState where
  | ok | wait
  | absent (va : Word) (level : Nat)
  deriving DecidableEq, Repr

/-- The state of a command's completion address. -/
def State.cmplState (s : State) (c : Command) : CmplState :=
  if c.q 7 = 0 ∨ (c.q 7).toNat % 16 ≠ 0 then .ok
  else match s.translate c.space .store (c.q 7) with
    | .error x => if x.code = 9 then .absent (c.q 7) x.level else .ok
    | .ok p => if s.heldAtHome p.pa 16 then .wait else .ok

/-- The record that a context has bound becomes the one a bind record names, or none (R295). -/
def State.rebind (s : State) (c : Command) (bind : Option (Option Word)) : State :=
  match bind with
  | none => s
  | some none => s.onUn fun u => u.unbind c.own
  | some (some va) => match s.translate c.space .load va with
    | .error _ => s
    | .ok p => s.onUn fun u => { (u.unbind c.own) with binds := (u.unbind c.own).binds ++ [(c.own, p.pa)] }

/-- A command leaves its engine (R282): its position stops being pending, EV raises engine completion, its binding is made (R295), and its
windows are free (R425). -/
def State.complete (s : State) (c : Command) (bind : Option (Option Word)) : State :=
  let s := (s.rebind c bind).onUn fun u => { u with
    cmds := u.cmds.filter fun x => !(x.own == c.own && x.pos == c.pos)
    windows := u.windows.filter fun w => !(w.own == c.own && w.pos == c.pos) }
  let p : Posted := ⟨c.pos, fieldOf (c.q 0) 24 1 == 1, bind⟩
  s.onContext c.own (fun h => h.completed p) fun x => { x with ct := x.ct.post p }

/-- The absent pages of an engine's access, each once (R369). -/
def absentPages (xs : List (Word × Nat × Bool)) (src : Nat) : List (Word × Nat × Nat × Bool) :=
  xs.foldl (fun acc x => if acc.any fun a => samePage a.1 x.1 then acc else acc ++ [(x.1, x.2.1, src, x.2.2)]) []

/-- A residency fault holds a command, and cause 34 stands pending at its context (R283). -/
def State.hold (s : State) (c : Command) (xs : List (Word × Nat × Bool)) : State :=
  let pages := sortBy (fun a b => decide (a.1.toNat < b.1.toNat)) (absentPages xs c.src)
  let low := (pages.head?.map Prod.fst).getD 0
  let cause : AsyncCause := { code := 34, sub := min 16 pages.length, sval := low, batch := pages }
  let s := s.onCommand c fun x => { x with held := some ((xs.head?.map Prod.fst).getD 0) }
  s.onContext c.own (fun h => { h with pend := h.pend ++ [cause] }) fun x => { x with pend := x.pend ++ [cause] }

/-- COLLID (R287). -/
def Command.collid (c : Command) : BitVec 32 := (c.q 5).extractLsb' 0 32

/-- A step of a schedule (R288). -/
structure Step where
  sop  : Nat
  peer : Nat
  link : Nat
  win  : Nat
  off  : Nat
  len  : Nat
  deriving DecidableEq, Repr

/-- The fields of a step. -/
def stepOf (w : Word × Word) : Step :=
  { sop := fieldOf w.1 0 4, peer := fieldOf w.1 4 6, link := fieldOf w.1 16 8, win := fieldOf w.1 24 6, off := fieldOf w.1 32 32
    len := fieldOf w.2 0 32 }

/-- The steps of a command. -/
def Command.steps (c : Command) : List Step := c.sched.map stepOf
/-- The steps that a command has not completed. -/
def Command.remaining (c : Command) : List Step := c.steps.drop c.prog

/-- What a step of a command hears from its peer over its causeway port. -/
def Command.word (c : Command) (x : Step) : PeerWord := ⟨x.link, c.collid, x.peer, x.win⟩

/-- What a causeway peer has told a command is void once the command has ended with steps left (R291, R320): the windows that the peer has
reserved for it, and the tokens that wait for it. -/
def State.withdrawWords (s : State) (c : Command) : State :=
  let words (sop : Nat) : List PeerWord := (c.remaining.filter fun x => x.sop == sop).map c.word
  s.onUn fun u => { u with ready := (words 0).foldl List.erase u.ready, tokens := (words 4).foldl List.erase u.tokens }

/-- The engines' table writes for a context are done with, once no access through the old entries is outstanding (R365). -/
def State.engineRemapsDone (s : State) (own : CtxRef) : State :=
  { s with ca := { s.ca with remaps := s.ca.remaps.filter fun r => !(r.writer == own && r.engine) } }

/-- A command ends (R281, R282): its accesses are performed at device scope, then the record is written, then it is complete. Where an
access through a table entry that an engine has written for the context is outstanding (R365), or the record cannot be written yet because
its page is absent (R283) or its line pinned (R121), the command stays with its end. -/
def State.finish (s : State) (c : Command) (status : Nat) (addr : Word) (rank : Nat) (bind : Option (Option Word)) : State :=
  let s := if c.ending.isSome then s else s.withdrawWords c
  let wait (s : State) : State := s.onCommand c fun x => { x with ending := some ⟨status, addr, rank, bind⟩, held := none }
  if s.remapPending c.own true then wait s
  else
    let s := (s.flushPart c.own.part).engineRemapsDone c.own
    if c.q 7 = 0 ∨ (c.q 7).toNat % 16 ≠ 0 then s.complete c bind
    else match s.cmplState c with
      | .absent va level => (wait s).hold c [(va, level, true)]
      | .wait => wait s
      | .ok => match s.translate c.space .store (c.q 7) with
        | .error _ => s.complete c bind
        | .ok p => (((s.markLeaf c.space (c.q 7) p true).sendWrite false c.space c.source (c.org s) (c.q 7) p.pa p.sq
            (.store (c.cmplBytes status addr rank)) none).1.flushPart c.own.part).complete c bind

/-! ### An engine's accesses -/

/-- What an engine finds when it translates addresses (R283). -/
inductive Reach where
  | ok
  | absent (xs : List (Word × Nat × Bool))
  | fault (va : Word)
  | wait
  deriving DecidableEq, Repr

/-- Translate the addresses of an engine in order: absent pages hold it, another fault ends it, and a pinned destination makes it
wait (R121, R283). Device type is refused as to a vector access. -/
def State.reach (s : State) (sp : Space) (n : Nat) : List (Word × Bool) → List (Word × Nat × Bool) → Bool → Reach
  | [], xs, w => if !xs.isEmpty then .absent xs else if w then .wait else .ok
  | (va, wr) :: r, xs, w =>
    match s.translate sp (if wr then .store else .load) va with
    | .error x => if x.code = 9 then s.reach sp n r (xs ++ [(va, x.level, wr)]) w else if xs.isEmpty then .fault va else .absent xs
    | .ok p =>
      if p.mt = 1 then (if xs.isEmpty then .fault va else .absent xs)
      else s.reach sp n r xs (w || (wr && s.heldAtHome p.pa n))

/-- An engine reads bytes by the responsible slice of its isle (R76): the state, the value, and whether a word of it is poisoned. -/
def State.engineRead (s : State) (c : Command) (va : Word) (n : Nat) : State × Nat × Bool :=
  match s.translate c.space .load va with
  | .error _ => (s, 0, false)
  | .ok p =>
    let t := ((s.markLeaf c.space va p false).settleRead c.own.part c.hid.isle false (some c.own) p.pa n).watchHome c.own.part c.source
      (c.org s) p.pa n ⟨true, false, false⟩
    (t, leNat (t.sliceBytes c.own.part c.hid.isle false p.pa n), s.poisoned p.pa n)

/-- An engine writes a value, poisoned when its source is (R400). -/
def State.engineWrite (s : State) (c : Command) (va : Word) (n v : Nat) (bad : Bool) : State :=
  match s.translate c.space .store va with
  | .error _ => s
  | .ok p => ((s.markLeaf c.space va p true).sendWrite false c.space c.source (c.org s) va p.pa p.sq
      (if bad then .spoil (leBytes n v) else .store (leBytes n v)) none).1

/-! ### Copy (R284, R285) -/

/-- The low or high 32 bits of a quad, signed. -/
def signedHalf (w : Word) (hi : Bool) : Int := if hi then (w.extractLsb' 32 32).toInt else (w.extractLsb' 0 32).toInt

/-- The record breaks R284, as far as it does not lie in memory. -/
def copyBad (q : Nat → Word) : Bool :=
  let nd := fieldOf (q 0) 16 8
  let e := 2 ^ fieldOf (q 0) 32 2
  fieldOf (q 0) 34 30 != 0 || fieldOf (q 0) 25 7 != 0 || nd == 0 || decide (6 < nd)
    || (q 1).toNat % e != 0 || (q 2).toNat % e != 0
    || (decide (nd < 2) && (fieldOf (q 3) 32 32 != 0 || q 4 != 0))
    || (if 3 ≤ nd then (q 6).toNat % 64 != 0 else q 6 != 0)

/-- The nest block breaks R284. -/
def nestBad (nd : Nat) (b : List Word) : Bool :=
  (List.range 4).any fun i =>
    fieldOf (b.getD (2 * i) 0) 32 32 != 0 || (decide (nd ≤ i + 2) && (b.getD (2 * i) 0 != 0 || b.getD (2 * i + 1) 0 != 0))

/-- The iterations of a nest of loops, outermost first, as offsets in elements. -/
def loopNest : List (Nat × Int × Int) → Int × Int → List (Int × Int)
  | [], x => [x]
  | (n, ss, ds) :: r, x => (List.range n).flatMap fun i => loopNest r (x.1 + ss * i, x.2 + ds * i)

/-- The source and destination addresses of a copy in the order of R285. -/
def copyPairs (q : Nat → Word) (nest : List Word) : List (Word × Word) :=
  let nd := fieldOf (q 0) 16 8
  let e : Int := (2 ^ fieldOf (q 0) 32 2 : Nat)
  let dims : List (Nat × Int × Int) :=
    [(fieldOf (q 3) 0 32, signedHalf (q 5) false + 1, signedHalf (q 5) true + 1),
     (fieldOf (q 3) 32 32, signedHalf (q 4) false, signedHalf (q 4) true)]
    ++ (List.range 4).map fun i => (fieldOf (nest.getD (2 * i) 0) 0 32, signedHalf (nest.getD (2 * i + 1) 0) false,
         signedHalf (nest.getD (2 * i + 1) 0) true)
  (loopNest (dims.take nd).reverse (0, 0)).map fun x => (q 1 + BitVec.ofInt 64 (e * x.1), q 2 + BitVec.ofInt 64 (e * x.2))

/-- The source and destination of each element of a copy where they lie; `none` where an address has no place now. -/
def State.copyPlaces (s : State) (c : Command) (ps : List (Word × Word)) : List (Option Nat × Option Nat) :=
  let at_ (acc : Acc) (va : Word) : Option Nat := match s.translate c.space acc va with
    | .ok p => some p.pa
    | .error _ => none
  ps.map fun x => (at_ .load x.1, at_ .store x.2)

/-- The last element before element i of a copy that writes what element i reads. Elements are aligned, so that two of them are one or apart
(R284). -/
def lastWriter (xs : List (Option Nat × Option Nat)) (i : Nat) : Option Nat :=
  (List.range i).reverse.find? fun j => (xs.getD j (none, none)).2 == (xs.getD i (none, none)).1

/-- Where element i of a copy finds the value that the loop gives it (R285): the element, itself or an earlier one, whose source is yet to be
read for it, if there is one; or what has been read for an earlier one. -/
def copyFrom (xs : List (Option Nat × Option Nat)) (c : Command) : Nat → Nat → Nat ⊕ (Nat × Bool)
  | 0, i => .inl i
  | n + 1, i => match lastWriter xs i with
    | none => .inl i
    | some j =>
      if c.copied.contains j then .inl i
      else match c.taken.find? fun t => t.1 == j with
        | some t => .inr t.2
        | none => copyFrom xs c n j

/-- The next thing that a copy may do with an element (R285): read its source, or write its destination. Elements go in any order that leaves
memory as the loop would: the places of what comes before in the loop are known, and no write takes from an earlier element what that has
yet to read. -/
inductive CopyMove where
  | take (i : Nat)
  | put (i : Nat) (v : Nat × Bool)
  deriving DecidableEq, Repr

/-- What a copy may do next. -/
def copyMoves (xs : List (Option Nat × Option Nat)) (c : Command) : List CopyMove :=
  let left := (List.range xs.length).filter fun i => !c.copied.contains i
  left.filterMap fun i =>
    let before := left.filter fun j => decide (j < i)
    let x := xs.getD i (none, none)
    match c.taken.find? fun t => t.1 == i with
    | none => if before.all fun j => (xs.getD j (none, none)).2.isSome then some (.take i) else none
    | some t =>
      if before.all fun j => c.taken.any (fun t => t.1 == j) || ((xs.getD j (none, none)).1.isSome && (xs.getD j (none, none)).1 != x.2) then
        some (.put i t.2)
      else none

/-- The quads of a block as an engine reads them, and the first poisoned one's address. -/
def State.engineQuads (s : State) (c : Command) (va : Word) (n : Nat) : State × List Word × Option Word :=
  (List.range n).foldl (fun (x : State × List Word × Option Word) i =>
    let a := va + BitVec.ofNat 64 (8 * i)
    let y := x.1.engineRead c a 8
    (y.1, x.2.1 ++ [BitVec.ofNat 64 y.2.1], x.2.2.or (if y.2.2 then some a else none))) (s, [], none)

/-- The addresses of n quads. -/
def quadAddrs (va : Word) (n : Nat) : List (Word × Bool) := (List.range n).map fun i => (va + BitVec.ofNat 64 (8 * i), false)

/-- Carry on when an engine's addresses are there; hold, wait or end with status 2 when they are not. -/
def State.whenReached (s : State) (c : Command) (r : Reach) (onFault : State → State) (go : State → State) : State :=
  match r with
  | .absent xs => s.hold c xs
  | .wait => s
  | .fault va => (onFault s).finish c 2 va 0 none
  | .ok => go s

/-- Another context has bound the stack record that a bind record leaves bound (R295). -/
def State.boundElsewhere (s : State) (c : Command) (va : Word) : Bool :=
  match s.translate c.space .load va with
  | .ok p => s.un.binds.any fun b => b.2 == p.pa && b.1 != c.own
  | .error _ => false

/-- How a command ends that has waited to write its record: a bind whose stack record another hart has bound meanwhile breaks R295. -/
def State.endingNow (s : State) (c : Command) (e : Ending) : Ending :=
  match e.bind with
  | some (some va) => if s.boundElsewhere c va then ⟨5, 0, 0, none⟩ else e
  | _ => e

/-- An engine reads a command of its queue: words with one wrong bit are corrected (R399). -/
def State.readCommand (s : State) (c : Command) : State :=
  if c.weak.isEmpty then s
  else (s.onCommand c fun x => { x with weak := [] }).count c.hid.isle fun t => { t with corrected := t.corrected + c.weak.length }

/-- A step of the command at a position: nothing while it is held; its end, where that alone is due; else its work. -/
def State.onStep (s : State) (own : CtxRef) (k : BitVec 8) (work : State → Command → State) : State :=
  match s.command own k.toNat with
  | none => s
  | some c =>
    if c.held.isSome then s
    else
      let s := s.readCommand c
      let c := { c with weak := [] }
      match c.ending with
      | some e =>
        let e := s.endingNow c e
        s.finish c e.status e.addr e.rank e.bind
      | none => work s c

/-- A copy ends once every element has been written (R282, R400). -/
def State.copyEnd (s : State) (c : Command) (total : Nat) : State :=
  if c.copied.length < total then s
  else match c.spoilt with
    | none => s.finish c 1 0 0 none
    | some x => s.finish c 2 x.2 0 none

/-- Read the source of element i of a copy, or take the value of an earlier element that the loop would have written there. -/
def State.copyTake (s : State) (c : Command) (n i : Nat) (ps : List (Word × Word)) : State :=
  let keep (s : State) (v : Nat × Bool) : State := s.onCommand c fun x => { x with taken := (i, v) :: x.taken }
  match copyFrom (s.copyPlaces c ps) c i i with
  | .inr v => keep s v
  | .inl j =>
    let src := (ps.getD j (0, 0)).1
    s.whenReached c (s.reach c.space n [(src, false)] [] false) id fun s =>
      let r := s.engineRead c src n
      keep r.1 r.2

/-- Write element i of a copy (R285, R400). Where a later element has written the same place, nothing is left to write. -/
def State.copyPut (s : State) (c : Command) (n i : Nat) (v : Nat × Bool) (ps : List (Word × Word)) : State :=
  let p := ps.getD i (0, 0)
  s.whenReached c (s.reach c.space n [(p.2, true)] [] false) id fun s =>
    let xs := s.copyPlaces c ps
    let later := c.copied.any fun j => decide (i < j) && (xs.getD j (none, none)).2 == (xs.getD i (none, none)).2
    let first : Bool := match c.spoilt with | none => true | some x => decide (i < x.1)
    let c' := { c with copied := i :: c.copied, taken := c.taken.filter fun t => t.1 != i,
                       spoilt := if v.2 && first then some (i, p.1) else c.spoilt }
    let s := if later then s else s.engineWrite c p.2 n v.1 v.2
    (s.onCommand c fun _ => c').copyEnd c' ps.length

/-- A copy goes on by one read or one write, whichever of those that are possible (R285), once its nest block has been read. -/
def State.runCopy (s : State) (c : Command) (nest : List Word) : State :=
  let n := 2 ^ fieldOf (c.q 0) 32 2
  let ps := copyPairs c.q nest
  let moves := copyMoves (s.copyPlaces c ps) c
  let s' := { s with free := s.free + 1 }
  match moves[Config.freeChoice s.free % moves.length]? with
  | none => s.copyEnd c ps.length
  | some (.take i) => s'.copyTake c n i ps
  | some (.put i v) => s'.copyPut c n i v ps

/-- `COPY_COMMAND`: a copy engine goes on with a command (R284, R285). -/
def execCopyCommand (own : CtxRef) (k : BitVec 8) (s : State) : Out :=
  .next (s.onStep own k fun s c => match c.engine with
    | .copy _ =>
      if fieldOf (c.q 0) 16 8 < 3 then s.runCopy c []
      else s.whenReached c (s.reach c.space 8 (quadAddrs (c.q 6) 8) [] false) id fun s =>
        let r := s.engineQuads c (c.q 6) 8
        match r.2.2 with
        | some va => r.1.finish c 2 va 0 none
        | none => if nestBad (fieldOf (c.q 0) 16 8) r.2.1 then r.1.finish c 5 0 0 none else r.1.runCopy c r.2.1
    | _ => s)

/-- `ENGINE_FAULT_RESUME`: the page that a held command waits on has arrived (R283). -/
def execEngineFaultResume (own : CtxRef) (k : BitVec 8) (s : State) : Out :=
  match s.command own k.toNat with
  | none => .next s
  | some c => match c.held with
    | none => .next s
    | some va => match s.translate c.space .load va with
      | .error x => if x.code = 9 then .next s else .next (s.onCommand c fun y => { y with held := none })
      | .ok _ => .next (s.onCommand c fun y => { y with held := none })

/-! ### Collectives: records and schedules -/

/-- The bytes of an element of a collective (R287). -/
def Command.elemBytes (c : Command) : Nat := codeWidth (fieldOf (c.q 0) 32 4) / 8
/-- The record breaks R287. -/
def collectiveBad (q : Nat → Word) : Bool :=
  let fmt := fieldOf (q 0) 32 4
  let n := codeWidth fmt / 8
  fieldOf (q 0) 36 28 != 0 || fieldOf (q 0) 25 7 != 0 || fieldOf (q 0) 20 4 != 0 || decide (2 < fieldOf (q 0) 16 4)
    || !([0, 1, 2, 7, 8].contains fmt) || q 6 != 0 || (q 3).toNat % 64 != 0 || (q 1).toNat % n != 0 || (q 2).toNat % n != 0

/-- A step that obeys R288. Of a causeway port that the partition does not own (R428) the spec does not say what a step that names it does; it
makes the record a bad one (DESIGN CHOICE, log 122). -/
def scheduleStepOk (ports : BitVec 18) (w : Word × Word) : Bool :=
  let x := stepOf w
  fieldOf w.1 30 2 == 0 && fieldOf w.1 10 6 == 0 && decide (x.sop ≤ 4) && fieldOf w.2 32 32 == 0
    && ((decide (x.link ≤ 17) && ports.getLsbD x.link) || (decide (0x20 ≤ x.link) && decide (x.link ≤ 0x27)) || x.link == 0xFF)
    && (x.sop != 4 || x.len == 0)

/-- A schedule header that obeys R288. -/
def scheduleHeadOk (a b : Word) : Bool :=
  fieldOf a 32 32 == 0 && b == 0 && decide (1 ≤ fieldOf a 16 16) && decide (fieldOf a 16 16 ≤ 4096)
    && decide (2 ≤ fieldOf a 0 8) && decide (fieldOf a 0 8 ≤ 64) && decide (fieldOf a 8 8 < fieldOf a 0 8)

/-- A receive step (R289). -/
def Step.receives (x : Step) : Bool := x.sop == 1 || x.sop == 2 || x.sop == 4

/-- The windows that a schedule needs (R289). -/
def Command.needs (c : Command) : List Window :=
  (c.steps.filter Step.receives).map fun x =>
    { own := c.own, pos := c.pos, isle := c.hid.isle, win := x.win, peer := x.peer, len := x.len, size := x.len * c.elemBytes, full := none }

/-- The windows fit in the free store of the isle (R425). -/
def State.windowsFit (s : State) (isle : Nat) (ws : List Window) : Bool :=
  let used := s.un.windows.filter fun w => w.isle == isle
  decide (used.length + ws.length ≤ 64) && decide (((used ++ ws).map Window.size).sum ≤ 2 ^ 21)

/-! ### Acceptance (R278, R280, R289) -/

/-- The engine of a record of a hart (R280). -/
def engineOf (hid : HartId) (record : BitVec 512) : Engine :=
  match fieldOf (quadOf record 0) 0 16 with
  | 2 => .collective hid.isle
  | 3 => .spill hid.isle
  | _ => .copy hid.classroom

/-- How many commands an engine holds (R278). -/
def Engine.depth : Engine → Nat | .copy _ => 64 | .collective _ => 16 | .spill _ => 8

/-- A bind record breaks R295. -/
def bindBad (q : Nat → Word) : Bool :=
  q 0 &&& ~~~0x100FFFF != 0 || q 2 != 0 || q 3 != 0 || q 4 != 0 || q 5 != 0 || q 6 != 0

/-- The record of the current hart as a command at a position. -/
def State.commandOf (s : State) (k : Nat) (record : BitVec 512) : Command :=
  { own := s.h.own, pos := k, engine := engineOf s.h.hid record, hid := s.h.hid, record := record, root := s.h.su.ptroot
    sup := s.h.su.sup, corr := s.h.sc.corr, prog := 0, sched := [], ranks := 0, myRank := 0, held := none,
    taken := [], copied := [], spoilt := none, token := false, ending := none, weak := [] }

/-- A command enters its engine's queue. -/
def State.enqueue (s : State) (c : Command) (ws : List Window) : State :=
  (s.onUn fun u => { u with cmds := u.cmds ++ [c], windows := u.windows ++ ws }).onCt fun t =>
    { t with pending := t.pending ++ [c.pos], posted := t.posted.filter fun p => p.pos != c.pos }

/-- The first address of a list that an engine cannot read (R289). -/
def Reach.firstFault : Reach → Option Word
  | .absent xs => (xs.head?).map Prod.fst
  | .fault va => some va
  | _ => none

/-- A block that acceptance reads: its quads, or the first address that faults or is poisoned (R289, R400). -/
def State.acceptRead (s : State) (c : Command) (va : Word) (n : Nat) : Except Word (State × List Word) :=
  match (s.reach c.space 8 (quadAddrs va n) [] false).firstFault with
  | some x => .error x
  | none =>
    let r := s.engineQuads c va n
    match r.2.2 with
    | some x => .error x
    | none => .ok (r.1, r.2.1)

/-- Accept a collective record (R287-R289): the state, or none when it is refused. -/
def State.acceptCollective (s : State) (c : Command) : Option State :=
  let ends (s : State) (status : Nat) (va : Word) : Option State := some ((s.enqueue c []).finish c status va 0 none)
  if collectiveBad c.q then ends s 5 0
  else match s.acceptRead c (c.q 3) 2 with
  | .error va => ends s 2 va
  | .ok (s1, h) =>
    let a := h.getD 0 0
    let n := fieldOf a 16 16
    if ¬ scheduleHeadOk a (h.getD 1 0) then ends s1 5 0
    else match s1.acceptRead c (c.q 3 + 16) (2 * n) with
    | .error va => ends s1 2 va
    | .ok (s2, r) =>
      let steps := (List.range n).map fun i => (r.getD (2 * i) 0, r.getD (2 * i + 1) 0)
      if steps.any fun x => !scheduleStepOk (s.part c.own.part).ports x then ends s2 5 0
      else
        let c := { c with sched := steps, ranks := fieldOf a 0 8, myRank := fieldOf a 8 8 }
        if s2.windowsFit c.hid.isle c.needs then some (s2.enqueue c c.needs) else none

/-- Accept record k of a batch, or refuse it (R278, R280, R281): the state, and whether it was accepted. -/
def State.acceptRecord (s : State) (k : Nat) (record : BitVec 512) : State × Bool :=
  let c := s.commandOf k record
  let q := c.q
  if s.h.ct.pending.contains k ∨ c.engine.depth ≤ s.un.cmds.countP (fun x => x.engine == c.engine) then (s, false)
  else
    let bad := ((s.enqueue c []).finish c 5 0 0 none, true)
    let noCmpl := q 7 != 0 && (match s.translate c.space .store (q 7) with
      | .error _ => true
      | .ok _ => false)
    if (q 7).toNat % 16 ≠ 0 then bad
    else if noCmpl then ((s.enqueue c []).complete c none, true)
    else match fieldOf (q 0) 0 16 with
      | 1 => if copyBad q then bad else (s.enqueue c [], true)
      | 2 => match s.acceptCollective c with
        | some t => (t, true)
        | none => (s, false)
      | 3 => if bindBad q then bad else (s.enqueue c [], true)
      | _ => bad

/-- The records of a batch in order: the accepted positions (R278, R279). A refused record refuses every later record to its
engine. -/
def State.acceptBatch (s : State) : List (Nat × BitVec 512) → List Engine → List Nat → State × List Nat
  | [], _, acc => (s, acc)
  | (k, r) :: rest, refused, acc =>
    let e := engineOf s.h.hid r
    if refused.contains e then s.acceptBatch rest refused acc
    else
      let x := s.acceptRecord k r
      if x.2 then x.1.acceptBatch rest refused (acc ++ [k]) else s.acceptBatch rest (refused ++ [e]) acc

/-- Elements of one record at the current SEW (R22). -/
def State.perRecord (s : State) : Nat := 512 / s.sew
/-- The number of positions that a batch or a mask of the current configuration can name. -/
def State.positions (s : State) : Nat := s.h.vlmax * s.sew / 512

/-- Record k of a group. -/
def State.groupRecord (s : State) (r k : Nat) : BitVec 512 :=
  let n := s.perRecord
  BitVec.ofNat 512 (((List.range n).map fun i => s.elem false r s.sew (k * n + i) * 2 ^ (i * s.sew)).sum)

/-- A mask register with exactly the elements of some positions set (R279, R293). -/
def State.setPositions (s : State) (m : Nat) (ks : List Nat) : State :=
  let bits := (ks.map fun k => (2 ^ s.perRecord - 1) * 2 ^ (k * s.perRecord)).sum
  s.setMask m (BitVec.ofNat 16384 (if s.h.vec.pm then bits + bits * 2 ^ s.h.mirror else bits))

/-- The lowest element of those `act` holds for in the element group of element e of a mask destination (R397, R398). -/
def State.groupLow (s : State) (m e : Nat) (act : Nat → Bool) : Nat :=
  ((List.range s.h.vlmax).find? fun i => s.chunkOf (.mask m) i == s.chunkOf (.mask m) e && act i).getD e

/-- Under protected mode, where the mask or an active record differs from its mirror: the lowest active element of that group (R396, R398). -/
def State.recordsDiffer (s : State) (f : WFields) : Option Nat :=
  if !s.h.vec.pm then none
  else ((List.range s.vl).find? fun e =>
    (f.me && s.maskBit false f.mr.toNat e != s.maskBit true f.mr.toNat e)
      || (s.active f e && s.elem false f.vs2.toNat s.sew e != s.elem true f.vs2.toNat s.sew e)).map fun e =>
    s.groupLow f.vd.toNat e (s.active f)

/-- The work of `ecmd` (R279). -/
def ecmdM (f : WFields) : M Unit := do
  let s0 ← getS
  match s0.recordsDiffer f with
  | some e => trapM (s0.laneMismatch .ecmd f e 0)
  | none => pure ()
  releaseM
  modS fun s =>
    let ks := (List.range s.positions).filter fun k => decide (k * s.perRecord < s.vl) && s.active f (k * s.perRecord)
    let r := s.acceptBatch (ks.map fun k => (k, s.groupRecord f.vs2.toNat k)) [] []
    (r.1.setPositions f.vd.toNat r.2).countMirrored s0 .ecmd f

/-- `ecmd` (R277-R279). -/
def semEcmd : Sem := semI neverIllegal noFault ecmdM
/-- `ecmd` as a single instruction. -/
def execEcmd (f : WFields) (s : State) : Out := runSingle .ecmd semEcmd f s

/-- The positions that a copy of a mask names (R292). -/
def State.namedBy (s : State) (mir : Bool) (m : Nat) : List Nat :=
  (List.range s.positions).filter fun k => s.maskBit mir m (k * s.perRecord)
/-- The positions that a mask names (R292). -/
def State.named (s : State) (m : Nat) : List Nat := s.namedBy false m

/-- The work of `ewait` (R292). -/
def ewaitM (f : WFields) : M Unit := fun s =>
  if (s.named f.vs2.toNat).any fun k => s.h.ct.pending.contains k then .error (.block s) else .ok ((), s.flushOwn)

/-- `ewait` (R292). -/
def semEwait : Sem := semI neverIllegal noFault ewaitM
/-- `ewait` as a single instruction. -/
def execEwait (f : WFields) (s : State) : Out := runSingle .ewait semEwait f s

/-- The work of `epoll` (R293). Under protected mode both copies of the mask are taken and compared (R396, R398). -/
def epollM (f : WFields) : M Unit := do
  let s ← getS
  let m := f.vs2.toNat
  match (if s.h.vec.pm then (List.range s.positions).find? fun k => (s.namedBy false m).contains k != (s.namedBy true m).contains k else none) with
  | some k => trapM (s.laneMismatch .epoll f (s.groupLow f.vd.toNat (k * s.perRecord) fun _ => true) 0)
  | none => modS fun s => (s.setPositions f.vd.toNat ((s.named m).filter fun k => !s.h.ct.pending.contains k)).countMirrored s .epoll f

/-- `epoll` (R293). -/
def semEpoll : Sem := semI neverIllegal noFault epollM
/-- `epoll` as a single instruction. -/
def execEpoll (f : WFields) (s : State) : Out := runSingle .epoll semEpoll f s

/-! ### Collectives: steps (R289) -/

/-- The isle that a link of a command leads to, where it stays in the package. -/
def Command.isleOf (c : Command) (link : Nat) : Option Nat :=
  if link = 0xFF then some c.hid.isle else if 0x20 ≤ link ∧ link ≤ 0x27 then some (link - 0x20) else none

/-- The command of rank `rank` of the same collective on an isle of the package. -/
def State.rankAt (s : State) (c : Command) (isle rank : Nat) : Option Command :=
  s.un.cmds.find? fun x => x.own.part == c.own.part && x.hid.isle == isle && x.collid == c.collid && x.myRank == rank
    && !x.sched.isEmpty

/-- The identity of ROP for a format (R289). -/
def identityOf (rop fmt : Nat) : Nat :=
  let w := codeWidth fmt
  if fmt ≤ 2 then (match rop with | 0 => 0 | 1 => (fmtOf fmt 0).infinity true | _ => (fmtOf fmt 0).infinity false)
  else match rop with | 0 => 0 | 1 => 2 ^ (w - 1) | _ => 2 ^ (w - 1) - 1

/-- op of R289: the element in place, then the incoming one. -/
def reduceOp (rop fmt a b : Nat) : Nat :=
  let w := codeWidth fmt
  if fmt ≤ 2 then
    let f := fmtOf fmt 0
    match rop with
    | 0 => (f.addV (.static 0) false (f.value a) (f.value b)).1
    | r => (f.minmax (r == 1) a b).1
  else match rop with
    | 0 => (a + b) % 2 ^ w
    | 1 => truncInt w (max (toSigned w a) (toSigned w b))
    | _ => truncInt w (min (toSigned w a) (toSigned w b))

/-- The address of element e of a chunk. -/
def Command.chunk (c : Command) (base : Word) (x : Step) (e : Nat) : Word := base + BitVec.ofNat 64 (c.elemBytes * (x.off + e))

/-- What a step writes: for each element of the chunk its source, if it reads memory, and how the value follows from the source,
the element in place and its index. -/
structure ChunkWork where
  source  : Option Word
  inPlace : Bool
  value   : Nat → Nat → Nat → Nat

/-- The addresses of a chunk's work on an element. -/
def Command.workAddrs (c : Command) (x : Step) (w : ChunkWork) (e : Nat) : List (Word × Bool) :=
  (match w.source with | some b => [(c.chunk b x e, false)] | none => [])
    ++ (if w.inPlace then [(c.chunk (c.q 2) x e, false)] else []) ++ [(c.chunk (c.q 2) x e, true)]

/-- Perform a chunk's work on an element: the state, and the poisoned source if it has one. -/
def State.workOn (s : State) (c : Command) (x : Step) (w : ChunkWork) (e : Nat) : State × Option Word :=
  let n := c.elemBytes
  let dst := c.chunk (c.q 2) x e
  let a : State × Nat × Bool := match w.source with
    | some b => s.engineRead c (c.chunk b x e) n
    | none => (s, 0, false)
  let b : State × Nat × Bool := if w.inPlace then a.1.engineRead c dst n else (a.1, 0, false)
  let bad := a.2.2 || b.2.2
  (b.1.engineWrite c dst n (w.value a.2.1 b.2.1 e) bad,
    if bad then some (if a.2.2 then c.chunk (w.source.getD 0) x e else dst) else none)

/-- The first poisoned source of a step by element, once element e has shown what it has. -/
def Command.spoiltBy (c : Command) (e : Nat) (bad : Option Word) : Option (Nat × Word) :=
  match bad, c.spoilt with
  | none, b => b
  | some va, none => some (e, va)
  | some va, some b => if e < b.1 then some (e, va) else some b

/-- An element of received bytes. -/
def elemOf (n : Nat) (bs : List Byte) (e : Nat) : Nat := leNat ((bs.drop (n * e)).take n)

/-- The work of a step that writes its chunk (R289, R290); `data`: what its window holds. -/
def Command.work (c : Command) (x : Step) (data : List Byte) : ChunkWork :=
  let rop := fieldOf (c.q 0) 16 4
  let fmt := fieldOf (c.q 0) 32 4
  let n := c.elemBytes
  match x.sop with
  | 3 => if (c.q 4).getLsbD c.myRank then ⟨some (c.q 1), false, fun a _ _ => a⟩ else ⟨none, false, fun _ _ _ => identityOf rop fmt⟩
  | 2 => ⟨none, true, fun _ b e => reduceOp rop fmt b (elemOf n data e)⟩
  | _ => ⟨none, false, fun _ _ e => elemOf n data e⟩

/-- The window of a command for its step. -/
def State.windowOf (s : State) (c : Command) (x : Step) : Option Window :=
  s.un.windows.find? fun w => w.own == c.own && w.pos == c.pos && w.win == x.win && w.peer == x.peer

/-- The first window of a command for a step that holds data. -/
def State.windowFull (s : State) (c : Command) (x : Step) : Option Window :=
  s.un.windows.find? fun w => w.own == c.own && w.pos == c.pos && w.win == x.win && w.peer == x.peer && w.full.isSome

/-- Change the first window that equals one. -/
def Units.putWindow (u : Units) (old new : Window) : Units :=
  match u.windows.findIdx? fun w => w == old with
  | some i => { u with windows := u.windows.set i new }
  | none => u

/-- A causeway port carries flits (R424). -/
def State.portUp (s : State) (port : Nat) : Bool := (s.dev.port[port]?.map fun p => p.locked && !p.lost).getD false

/-- Data that a causeway port brings goes into the window of its step, with the sender's LEN, while the port carries flits (R424, R425). -/
def State.takeIn (s : State) (c : Command) (x : Step) (incoming : Option (List Byte)) : State :=
  match incoming, s.windowFull c x, s.windowOf c x with
  | some bs, none, some w =>
    if x.link ≤ 17 ∧ s.portUp x.link then s.onUn fun u => u.putWindow w { w with full := some (bs.length / c.elemBytes, bs) } else s
  | _, _, _ => s

/-- What the window of a step holds: the sender's LEN and the data. -/
def State.arrived (s : State) (c : Command) (x : Step) : Option (Nat × List Byte) := (s.windowFull c x).bind fun w => w.full

/-- Empty a command's window for a step. -/
def State.emptyWindow (s : State) (c : Command) (x : Step) : State :=
  match s.windowFull c x with
  | some w => s.onUn fun u => u.putWindow w { w with full := none }
  | none => s

/-- A command has completed its current step: the next one, or status 1; or status 2 where a source was poisoned (R400). -/
def State.stepDone (s : State) (c : Command) : State :=
  let c' := { c with prog := c.prog + 1, token := false, taken := [], copied := [], spoilt := none }
  let s := s.onCommand c fun _ => c'
  match c.spoilt with
  | some x => s.finish c' 2 x.2 0 none
  | none => if c'.sched.length ≤ c'.prog then s.finish c' 1 0 0 none else s

/-- The step under way of a command that is lost: each element holds its earlier value or the step's (R291). -/
def State.partialStep (s : State) (c : Command) : State :=
  match c.remaining with
  | [] => s
  | x :: _ =>
    match (if x.sop = 3 then some (x.len, []) else if x.sop = 1 ∨ x.sop = 2 then s.arrived c x else none) with
    | none => s
    | some (n, bs) =>
      if n ≠ x.len then s
      else
        let w := c.work x bs
        let es := (List.range x.len).filter fun e => !c.copied.contains e && Config.freeChoice (s.free + e) % 2 == 1
        es.foldl (fun s e => if s.reach c.space c.elemBytes (c.workAddrs x w e) [] false = .ok then (s.workOn c x w e).1 else s)
          { s with free := s.free + x.len }

/-- The commands that an abort for a collective reaches in the package, the first one included (R291). One that has ended ignores it. -/
def State.abortReach (s : State) : Nat → List Command → List Command
  | 0, cs => cs
  | n + 1, cs =>
    let more := cs.flatMap fun c => (c.remaining.filter fun x => x.sop != 3).filterMap fun x =>
      (c.isleOf x.link).bind fun i => s.rankAt c i x.peer
    let new := (more.filter fun d => decide (d.prog < d.sched.length) && d.ending.isNone && !cs.any fun c => c.own == d.own && c.pos == d.pos).dedup
    if new.isEmpty then cs else s.abortReach n (cs ++ new)

/-- The aborts that a command sends over causeway ports that carry flits (R291, R424). -/
def State.abortsOut (s : State) (c : Command) (rank : Nat) : List Sent :=
  ((c.remaining.filter fun x => x.sop != 3 && decide (x.link ≤ 17) && s.portUp x.link).map fun x =>
    ({ port := x.link, collid := c.collid, peer := x.peer, win := 0, len := 0, bytes := [], abort := some rank } : Sent)).dedup

/-- A command ends early with a status, and its abort ends those it reaches with status 4 (R291, R304, R441), but for those that end by
another cause (`spare`). -/
def State.endCollective (s : State) (c : Command) (status rank : Nat) (spare : Command → Bool := fun _ => false) : State :=
  let cs := (s.abortReach s.un.cmds.length [c]).filter fun d => !spare d || (d.own == c.own && d.pos == c.pos)
  cs.foldl (fun s d =>
    let s := s.partialStep d
    let s := s.onUn fun u => { u with sent := u.sent ++ s.abortsOut d rank }
    if d.own = c.own ∧ d.pos = c.pos then s.finish d status 0 (if status = 3 then 0 else rank) none else s.finish d 4 0 rank none) s

/-- A port or straits link of a step has been declared unreachable (R291). -/
def State.linkLost (s : State) (c : Command) (x : Step) : Bool :=
  if x.link ≤ 17 then (s.dev.port[x.link]?.map LinkState.lost).getD false
  else match c.isleOf x.link with
    | some i => s.dev.straits.any fun l => l.2.lost && ((l.1.1.toNat == c.hid.isle && l.1.2.toNat == i) || (l.1.1.toNat == i && l.1.2.toNat == c.hid.isle))
    | none => false

/-- The first remaining step of a command over a causeway port whose peer has been declared unreachable: R291 applies to every collective that
names the port (R424). -/
def State.lostStep (s : State) (c : Command) : Option Step :=
  c.remaining.find? fun x => x.sop != 3 && decide (x.link ≤ 17) && s.linkLost c x

/-- A step of a collective command: its end, where that alone is due or a port it names is lost, or the work of its current step. -/
def State.onCollective (s : State) (own : CtxRef) (k : BitVec 8) (work : State → Command → Step → State) : State :=
  s.onStep own k fun s c => match s.lostStep c, c.remaining.head? with
    | some x, _ => s.endCollective c 4 x.peer
    | none, some x => if x.sop != 3 && s.linkLost c x then s.endCollective c 4 x.peer else work s c x
    | none, none => s

/-- The element of its current step that a command goes on with: a reduction takes them in increasing order (R289), other steps in any order
(R286). -/
def Step.nextElem (x : Step) (seen : List Nat) (free : Nat) : Option Nat :=
  let es := (List.range x.len).filter fun e => !seen.contains e
  if x.sop = 2 then es.head? else es[Config.freeChoice free % es.length]?

/-- A step that writes its chunk from data that is there goes on by one element (R286, R289), and is complete with its last. -/
def State.writeStep (s : State) (c : Command) (x : Step) (data : List Byte) : State :=
  let w := c.work x data
  let go (s : State) (c : Command) : State :=
    if c.copied.length < x.len then s else (if x.sop = 3 then s else s.emptyWindow c x).stepDone c
  match x.nextElem c.copied s.free with
  | none => go s c
  | some e =>
    let s := { s with free := s.free + 1 }
    s.whenReached c (s.reach c.space c.elemBytes (c.workAddrs x w e) [] false) id fun s =>
      let r := s.workOn c x w e
      let c' := { c with copied := e :: c.copied, spoilt := c.spoiltBy e r.2 }
      go (r.1.onCommand c fun _ => c') c'

/-- `COLLECTIVE_INITIALISE` (R289 SOP 3). -/
def execCollectiveInitialise (own : CtxRef) (k : BitVec 8) (s : State) : Out :=
  .next (s.onCollective own k fun s c x => if x.sop = 3 then s.writeStep c x [] else s)

/-- A receive step: the data, or the lengths differ (R441), or nothing has come. -/
def receiveStep (sop : Nat) (own : CtxRef) (k : BitVec 8) (incoming : Option (List Byte)) (s : State) : Out :=
  .next (s.onCollective own k fun s c x =>
    if x.sop ≠ sop then s
    else
      let s := s.takeIn c x incoming
      match s.arrived c x with
      | none => s
      | some (n, bs) => if n ≠ x.len then s.endCollective c 6 x.peer else s.writeStep c x bs)

/-- `COLLECTIVE_RECEIVE` (R289 SOP 1). -/
def execCollectiveReceive (own : CtxRef) (k : BitVec 8) (incoming : Option (List Byte)) (s : State) : Out := receiveStep 1 own k incoming s
/-- `COLLECTIVE_RECEIVE_REDUCE` (R289 SOP 2). -/
def execCollectiveReceiveReduce (own : CtxRef) (k : BitVec 8) (incoming : Option (List Byte)) (s : State) : Out :=
  receiveStep 2 own k incoming s

/-- The empty window of a peer that a send of a command goes to (R289, R320). -/
def State.peerWindow (s : State) (c : Command) (x : Step) (isle : Nat) : Option Window :=
  match s.rankAt c isle x.peer with
  | none => none
  | some d => s.un.windows.find? fun w => w.own == d.own && w.pos == d.pos && w.win == x.win && w.peer == c.myRank && w.full.isNone

/-- A send step reads one more element of its chunk of DST (R286, R289), or, once all are there, is ready to go. -/
def State.readStep (s : State) (c : Command) (x : Step) (go : State → Command → List Byte → State) : State :=
  let n := c.elemBytes
  let ready (s : State) (c : Command) : State :=
    if c.taken.length < x.len then s
    else match c.spoilt with
      | some b => s.finish c 2 b.2 0 none
      | none => go s c ((List.range x.len).flatMap fun e => leBytes n (((c.taken.find? fun t => t.1 == e).map fun t => t.2.1).getD 0))
  match x.nextElem (c.taken.map Prod.fst) s.free with
  | none => ready s c
  | some e =>
    let va := c.chunk (c.q 2) x e
    let s := { s with free := s.free + 1 }
    s.whenReached c (s.reach c.space n [(va, false)] [] false) id fun s =>
      let r := s.engineRead c va n
      let c' := { c with taken := (e, r.2) :: c.taken, spoilt := c.spoiltBy e (if r.2.2 then some va else none) }
      ready (r.1.onCommand c fun _ => c') c'

/-- The message of a step to its peer over a causeway port (R289). -/
def Command.message (c : Command) (x : Step) (bs : List Byte) : Sent :=
  { port := x.link, collid := c.collid, peer := x.peer, win := x.win, len := x.len, bytes := bs, abort := none }

/-- `COLLECTIVE_SEND` (R289 SOP 0, R320): once the peer has reserved the window, the chunk is read and goes into it, or to the causeway port
that leads there. -/
def execCollectiveSend (own : CtxRef) (k : BitVec 8) (s : State) : Out :=
  .next (s.onCollective own k fun s c x =>
    if x.sop ≠ 0 then s
    else match c.isleOf x.link with
      | some i => match s.peerWindow c x i with
        | none => s
        | some w => s.readStep c x fun s c bs => (s.onUn fun u => u.putWindow w { w with full := some (x.len, bs) }).stepDone c
      | none =>
        if s.un.ready.contains (c.word x) && s.portUp x.link then
          s.readStep c x fun s c bs =>
            (s.onUn fun u => { u with ready := u.ready.erase (c.word x), sent := u.sent ++ [c.message x bs] }).stepDone c
        else s)

/-- `COLLECTIVE_TOKEN` (R289 SOP 4): both tokens pass. In the package both ranks stand at the step, neither of them ended; over a causeway
port the token goes out, and the peer's is awaited. -/
def execCollectiveToken (own : CtxRef) (k : BitVec 8) (s : State) : Out :=
  .next (s.onCollective own k fun s c x =>
    if x.sop ≠ 4 then s
    else match c.isleOf x.link with
      | none =>
        let sends := !c.token && s.portUp x.link
        let s := if sends then s.onUn fun u => { u with sent := u.sent ++ [c.message x []] } else s
        if (c.token || sends) && s.un.tokens.contains (c.word x) then
          (s.onUn fun u => { u with tokens := u.tokens.erase (c.word x) }).stepDone c
        else s.onCommand c fun y => { y with token := c.token || sends }
      | some i => match s.rankAt c i x.peer with
        | none => s
        | some d => match d.remaining.head? with
          | none => s
          | some y =>
            if y.sop = 4 ∧ y.peer = c.myRank ∧ y.win = x.win ∧ d.ending.isNone ∧ ¬ (d.own = c.own ∧ d.pos = c.pos) then
              (s.stepDone c).stepDone d
            else s)

/-- `COLLECTIVE_TIMEOUT`: a receive step has waited longer than TIMEOUT (R291). -/
def execCollectiveTimeout (own : CtxRef) (k : BitVec 8) (s : State) : Out :=
  .next (s.onCollective own k fun s c x =>
    if x.receives && fieldOf (c.q 5) 32 32 != 0 && (s.windowFull c x).isNone then s.endCollective c 4 x.peer else s)

/-- End with status 4 each of some commands that has not ended. -/
def State.endEach (s : State) (cs : List Command) (rank : Command → Nat) : State :=
  cs.foldl (fun s c => match s.command c.own c.pos with
    | some d => if d.ending.isSome then s else s.endCollective d 4 (rank d)
    | none => s) s

/-- `COLLECTIVE_ABORT`: an abort arrives at an isle, for one of the ranks that take part in the collective there (R291). A command that has
ended ignores it. -/
def execCollectiveAbort (isle : BitVec 3) (collid : BitVec 32) (rank : BitVec 8) (s : State) : Out :=
  let cs := s.un.cmds.filter fun c => c.hid.isle == isle.toNat && c.collid == collid && decide (c.prog < c.sched.length) && c.ending.isNone
  .next (match cs[Config.freeChoice s.free % cs.length]? with
    | none => s
    | some c => { s with free := s.free + 1 }.endCollective c 4 rank.toNat)

/-- The steps of a command that name a port. -/
def Command.portSteps (c : Command) (port : Nat) : List Step := c.remaining.filter fun x => x.sop != 3 && x.link == port

/-- A causeway port has declared its peer unreachable: the collectives that name it end (R291, R424), also those whose current step is on another
port (DESIGN CHOICE, log 123). What the port has brought from peers is void. -/
def State.portLost (s : State) (port : BitVec 5) : State :=
  let s := s.setLink (.causeway port) { s.linkOf (.causeway port) with lost := true }
  let s := s.onUn fun u => { u with ready := u.ready.filter fun w => w.port != port.toNat, tokens := u.tokens.filter fun w => w.port != port.toNat }
  s.endEach (s.un.cmds.filter fun c => !(c.portSteps port.toNat).isEmpty) fun c => ((c.portSteps port.toNat).head?.map Step.peer).getD 0

/-- Cause 35 with SUB 7 at every hart of two isles whose straits stay unreachable (R426). -/
def State.straitsLost (s : State) (a b : BitVec 3) : State :=
  let s := s.setLink (.straits a b) { s.linkOf (.straits a b) with lost := true, locked := false }
  let hit (h : Hart) : Hart := if h.live ∧ (h.hid.isle = a.toNat ∨ h.hid.isle = b.toNat) then h.raise 35 7 0 else h
  { s with h := hit s.h, others := s.others.map hit }

/-- The two conditions on which a link is given up (R424): 16 failed replays of one flit, or time without lock. -/
def LinkState.dead (l : LinkState) : Bool := decide (16 ≤ l.replays) || !l.locked

/-- `PEER_UNREACHABLE`: a causeway port without lock for 50 microseconds, or after the sixteenth replay, declares its peer unreachable
(R424). -/
def execPeerUnreachable (port : BitVec 5) (s : State) : Out :=
  .next (if port.toNat < 18 ∧ (s.linkOf (.causeway port)).dead then s.portLost port else s)

/-- `STRAITS_LINK_LOST`: a straits link that stays unreachable (R426). -/
def execStraitsLinkLost (a b : BitVec 3) (s : State) : Out :=
  .next (if (s.linkOf (.straits a b)).dead then s.straitsLost a b else s)

/-- `FLIT_REPLAY`: a lost flit is resent; after its sixteenth failed replay the link is given up (R424, R426). -/
def execFlitReplay (l : Link) (s : State) : Out :=
  let x := { s.linkOf l with replays := (s.linkOf l).replays + 1 }
  let s := s.setLink l x
  .next (if x.replays < 16 ∨ x.lost then s
    else match l with
      | .causeway p => s.portLost p
      | .straits a b => s.straitsLost a b)

/-- The engine commands of some contexts that are not complete end with status 3; a collective that has not ended sends its abort (R304). -/
def State.cancelCommands (s : State) (mine : CtxRef → Bool) : State :=
  (s.un.cmds.filter fun c => mine c.own).foldl (fun s c => match s.command c.own c.pos with
    | none => s
    | some d =>
      if !d.sched.isEmpty && d.ending.isNone then s.endCollective d 3 d.myRank (fun x => mine x.own)
      else s.finish d 3 0 0 none) s

end Sys2Proof.Machine
end

