-- ==== Sys2Proof/Machine/Tiles.lean ====
section
/-! DEFINITION. What the matrix instructions compute with: units and their holders (R234), the shape (R236), tiles and their pinned
bytes (R238-R240), accumulators (R242), the order of sums (R69, R70), sparse and scaled operands (R245, R246), and the checksum
state (R247, R249). Core q of the classroom keeps column 64q + c of classroom mode, and column c of a single core q, at column
64q + c of the lists below (R255). -/

namespace Sys2Proof.Machine

/-! ### Units (R234) -/

/-- The unit of a core of the package. -/
def State.unitAt (s : State) (core : Nat) : MatrixUnit := (s.un.matrix.find? fun u => u.core == core).getD ⟨core, none, none, []⟩

/-- Put a unit's record in place. -/
def Units.putUnit (u : Units) (m : MatrixUnit) : Units :=
  if u.matrix.any fun x => x.core == m.core then
    { u with matrix := u.matrix.map fun x => if x.core = m.core then m else x }
  else { u with matrix := u.matrix ++ [m] }

/-- The cores of a hart's classroom (R8). -/
def roomCores (hid : HartId) : List Nat := (List.range 8).map fun q => hid.classroom * 8 + q

/-- The current hart holds its core's unit. -/
def State.holdsUnit (s : State) : Bool := (s.unitAt s.h.hid.core).holder == some s.h.own

/-- A unit is free or held by a context, and no other waits for it. -/
def MatrixUnit.openTo (u : MatrixUnit) (o : CtxRef) : Bool :=
  u.holder == some o || (u.holder.isNone && u.waiters.all fun w => w == o)

/-- Take the core's unit for the current hart (R234), or join those that wait: the state, and whether it holds the unit now. -/
def State.acquireUnit (s : State) : State × Bool :=
  let o := s.h.own
  let u := s.unitAt s.h.hid.core
  if u.holder = some o then (s, true)
  else
    let w := if u.waiters.contains o then u.waiters else u.waiters ++ [o]
    if u.holder.isNone ∧ w.head? = some o then
      let s := s.onUn fun x => x.putUnit { u with holder := some o, last := some o, waiters := w.drop 1 }
      (if u.last = some o then s else s.onMx fun m => { m with acc := Vector.replicate 2 Accum.zero }, true)
    else (s.onUn fun x => x.putUnit { u with waiters := w }, false)

/-- The current hart waits for no unit any more. -/
def State.unwait (s : State) : State :=
  s.onUn fun u => { u with matrix := u.matrix.map fun m => { m with waiters := m.waiters.filter fun w => w != s.h.own } }

/-- Checksum state with the part of one core zero (R234). -/
def Sums.zeroPart (x : Sums) (q : Nat) : Sums :=
  let z (n : Nat) (l : List Word) : List Word := l.zipIdx.map fun v => if v.2 / n = q then 0 else v.1
  { col := z 64 x.col, row := z 128 x.row, colB := z 64 x.colB, rowB := z 128 x.rowB }

/-- An accumulator with the part of one core zero (R234). -/
def Accum.zeroPart (a : Accum) (q : Nat) : Accum :=
  { a with elems := a.elems.setIfInBounds q 0, ckElem := a.ckElem.setIfInBounds q 0, sums := a.sums.zeroPart q,
           ckSums := a.ckSums.zeroPart q }

/-- Take the units of the whole classroom (R235): the part of a unit that comes from another holder is zero. -/
def State.holdRoom (s : State) : State :=
  let o := s.h.own
  let s := (roomCores s.h.hid).zipIdx.foldl (fun s c =>
    let u := s.unitAt c.1
    let s := s.onUn fun x => x.putUnit { u with holder := some o, last := some o }
    if u.last = some o then s else s.onMx fun m => { m with acc := m.acc.map fun a => a.zeroPart c.2 }) s
  s.onMx fun m => { m with hold := .classroom }

/-- Hold the core's unit alone (R235). -/
def State.holdCore (s : State) : State :=
  let s := s.onUn fun u => { u with matrix := u.matrix.map fun m =>
    if m.core ≠ s.h.hid.core ∧ m.holder = some s.h.own then { m with holder := none } else m }
  s.onMx fun m => { m with hold := .core }

/-- Hold no unit (R235). -/
def State.holdNone (s : State) : State :=
  { s with un := s.un.letGo s.h.own }.onMx fun m => { m with hold := .none }

/-! ### Shape (R236) -/

/-- M, N, K, classroom mode, and the list column at which column 0 stands. -/
structure Shape where
  m    : Nat
  n    : Nat
  k    : Nat
  room : Bool
  base : Nat
  deriving DecidableEq, Repr

/-- The fields of TSHAPE, for a core (R236, R255). -/
def shapeOf (ts : BitVec 49) (core : Nat) : Shape :=
  { m := natField ts.toNat 0 16, n := natField ts.toNat 16 16, k := natField ts.toNat 32 16, room := ts.getLsbD 48
    base := if ts.getLsbD 48 then 0 else 64 * (core % 8) }

/-- The current shape. -/
def State.shape (s : State) : Shape := shapeOf s.h.mx.tshape s.h.hid.core

/-- The list columns of a shape that each core holds, in increasing core (R255). -/
def Shape.parts (sh : Shape) : List (Nat × List Nat) :=
  ((List.range 8).map fun q => (q, (List.range sh.n).filter fun j => (sh.base + j) / 64 == q)).filter fun p => !p.2.isEmpty

/-! ### Tiles -/

/-- A tile register, when loaded (R238). -/
def State.tile (s : State) (t : Nat) : Option Tile := (s.h.mx.tiles[t]?).join

/-- Some tile register holds pins, or some log is not empty (R235). -/
def State.matrixBusy (s : State) : Bool :=
  (s.ca.pins.any fun p => p.own == s.h.own && p.tile.isSome) || s.h.mx.acc.toList.any fun a => !a.log.isEmpty

/-- Runs of n in order. -/
def chunks {α : Type} (n : Nat) : Nat → List α → List (List α)
  | 0, _ => []
  | _ + 1, [] => []
  | fuel + 1, xs => xs.take n :: chunks n fuel (xs.drop n)

/-- The columns of rows that are n long. -/
def columnsOf {α : Type} (n : Nat) (rows : List (List α)) : List (List α) :=
  (List.range n).map fun j => rows.filterMap fun r => r[j]?

/-- The codes of a tile's window, row by row, as its pins hold them; an empty window reads as zero (R91, R240). -/
def State.tileRows (s : State) (t : Tile) : List (List Nat) :=
  let w := codeWidth t.ctype / 8
  chunks t.cols t.rows (t.elems.map fun e => match e with
    | some pa => s.mem.num pa w
    | none => 0)

/-- Place compressed elements by a mask: the p-th lowest set bit takes element p, and every other position is zero (R245). -/
def placeBits : Nat → Nat → List Nat → List Nat
  | 0, _, _ => []
  | n + 1, mask, xs =>
    if mask % 2 = 1 then xs.headD 0 :: placeBits n (mask / 2) xs.tail else 0 :: placeBits n (mask / 2) xs

/-- A row of the sparse A operand over the full K (R245). -/
def expandRow (row mask : List Nat) : List Nat :=
  ((chunks 8 row.length row).zip (chunks 3 mask.length mask)).flatMap fun g =>
    placeBits 24 (g.2.getD 0 0 + 2 ^ 8 * g.2.getD 1 0 + 2 ^ 16 * g.2.getD 2 0) g.1

/-- The rows of the A operand of a log entry over the full K, as codes. -/
def State.rowsA (s : State) (e : LogEntry) : List (List Nat) :=
  let rows (t : Nat) : List (List Nat) := ((s.tile t).map fun x => s.tileRows x).getD []
  match e.msk with
  | none => rows e.a
  | some m => ((rows e.a).zip (rows m)).map fun x => expandRow x.1 x.2

/-- The columns of the B operand of a log entry, as codes. -/
def State.colsB (s : State) (e : LogEntry) : List (List Nat) :=
  match s.tile e.b with
  | some t => columnsOf t.cols (s.tileRows t)
  | none => []

/-- A value times an SE8 scale, exactly; a NaN scale makes it NaN (R70, R246). -/
def FVal.scale (v : FVal) (c : Nat) : FVal :=
  if c = 0xFF then .nan false
  else match v with
    | .fin n m e => .fin n m (e + c - 127)
    | v => v

/-- The scale codes of a window, row by row; 1 where the window is empty. -/
def State.scales (s : State) (cols rows : Nat) (ps : List (Option Nat)) : List (List Nat) :=
  chunks cols rows (ps.map fun p => match p with
    | some pa => (s.mem.get pa).toNat
    | none => 127)

/-- Rows of codes as values, scaled where scales are given. -/
def valuesOf (fmt b8 : Nat) (codes : List (List Nat)) (sc : Option (List (List Nat))) : List (List FVal) :=
  let f := fmtOf fmt b8
  match sc with
  | none => codes.map fun r => r.map f.value
  | some sc => (codes.zip sc).map fun r => (r.1.zip r.2).map fun x => (f.value x.1).scale x.2

/-! ### Accumulators -/

/-- A run of bits. -/
def bitRun {n : Nat} (x : BitVec n) (lo w : Nat) : Nat := (x.extractLsb' lo w).toNat
/-- A run of bits replaced. -/
def setRun {n : Nat} (x : BitVec n) (lo w v : Nat) : BitVec n :=
  (x &&& ~~~(BitVec.ofNat n (2 ^ w - 1) <<< lo)) ||| (BitVec.ofNat n (v % 2 ^ w) <<< lo)

/-- The element width of an accumulator (R242). -/
def Accum.width (a : Accum) : Nat := if a.tag = some .fp64 then 64 else 32

/-- Element (i, p), p a list column (R242, R255). -/
def Accum.at (a : Accum) (i p : Nat) : Nat := bitRun (a.elems[p / 64]?.getD 0) ((64 * i + p % 64) * a.width) a.width

/-- Element (i, p) written. -/
def Accum.put (a : Accum) (i p v : Nat) : Accum :=
  let x := setRun (a.elems[p / 64]?.getD 0) ((64 * i + p % 64) * a.width) a.width v
  { a with elems := a.elems.setIfInBounds (p / 64) x }

/-- Every element (i, j) of a shape replaced by a function of it. -/
def Accum.mapShape (a : Accum) (sh : Shape) (f : Nat → Nat → Nat → Nat) : Accum :=
  (List.range sh.m).foldl (fun a i => (List.range sh.n).foldl (fun a j =>
    a.put i (sh.base + j) (f i j (a.at i (sh.base + j)))) a) a

/-- The tag of an operand format (R237). -/
def tagOf (fmt : Nat) : AccTag := match fmt with | 0 => .fp64 | 5 => .int32 | _ => .fp32

/-- The format of a floating tag. -/
def AccTag.fmt : AccTag → Fmt
  | .fp64 => .f64
  | _ => .f32

/-- The products of one element added to it in the order of R69, with R70. R70 gives the sign of an exact zero for a group sum; the fp64
chain has no group, and each of its steps takes the sign that a fused multiply-add gives (DESIGN CHOICE, log 99). -/
def macFloat (fmt : Nat) (xs : List (FVal × FVal)) (c : Nat) : Nat :=
  if fmt = 0 then xs.foldl (fun c p => (Fmt.f64.fmaV (.static 0) false p.1 p.2 (Fmt.f64.value c)).1) c
  else (chunks (if fmt = 1 then 4 else 32) xs.length xs).foldl (fun c g =>
    Fmt.f32.packSum (g.foldl (fun t p => t.add (mulExact p.1 p.2)) ((ESum.dy ⟨0, 0⟩).add (Fmt.f32.value c)))) c

/-- The products of one int8 element added modulo 2^32 (R69). -/
def macInt (xs : List (Int × Int)) (c : Nat) : Nat := truncInt 32 (c + (xs.map fun p => p.1 * p.2).sum)

/-! ### Checksums (R247) -/

/-- An entry of a list; 0 beyond its end. -/
def wordAt (l : List Word) (i : Nat) : Nat := (l.getD i 0).toNat

/-- A list with one entry replaced, made longer where needed. -/
def wordPut (l : List Word) (i v : Nat) : List Word :=
  if i < l.length then l.set i (BitVec.ofNat 64 v) else l ++ List.replicate (i - l.length) 0 ++ [BitVec.ofNat 64 v]

/-- Round to nearest even, and up. -/
def rne : Mode := .static 0
/-- Round towards plus infinity. -/
def rup : Mode := .static 3

/-- One fp64 accumulation. -/
def add64 (mode : Mode) (acc : Nat) (v : FVal) : Nat := (Fmt.f64.addV mode false (Fmt.f64.value acc) v).1

/-- The elementwise sums of rows of k values, in order. -/
def sumRows (mode : Mode) (k : Nat) (rows : List (List FVal)) : List Nat :=
  rows.foldl (fun acc r => (acc.zip r).map fun x => add64 mode x.1 x.2) (List.replicate k 0)

/-- Exact products added to a sum in order (R247); an exact zero has the sign that a fused multiply-add gives (DESIGN CHOICE, log 99). -/
def fmaChain (mode : Mode) (xs : List (FVal × FVal)) (c : Nat) : Nat :=
  xs.foldl (fun c p => (Fmt.f64.fmaV mode false p.1 p.2 (Fmt.f64.value c)).1) c

/-- Magnitudes of a row. -/
def absRow (r : List FVal) : List FVal := r.map FVal.abs
/-- fp64 codes as values. -/
def vals64 (r : List Nat) : List FVal := r.map Fmt.f64.value

/-- The checksum state after a floating multiply of rows A and columns B (R247, R255). -/
def Sums.addFloat (x : Sums) (sh : Shape) (a b : List (List FVal)) : Sums :=
  let ca := vals64 (sumRows rne sh.k a)
  let pa := vals64 (sumRows rup sh.k (a.map absRow))
  let x := b.zipIdx.foldl (fun x c =>
    let p := sh.base + c.2
    { x with col := wordPut x.col p (fmaChain rne (ca.zip c.1) (wordAt x.col p))
             colB := wordPut x.colB p (fmaChain rup (pa.zip (absRow c.1)) (wordAt x.colB p)) }) x
  sh.parts.foldl (fun x q =>
    let bq := q.2.map fun j => b.getD j []
    let cb := vals64 (sumRows rne sh.k bq)
    let pb := vals64 (sumRows rup sh.k (bq.map absRow))
    a.zipIdx.foldl (fun x r =>
      let p := q.1 * 128 + r.2
      { x with row := wordPut x.row p (fmaChain rne (r.1.zip cb) (wordAt x.row p))
               rowB := wordPut x.rowB p (fmaChain rup ((absRow r.1).zip pb) (wordAt x.rowB p)) }) x) x

/-- The elementwise sums of integer rows. -/
def sumInt (k : Nat) (rows : List (List Int)) : List Int :=
  rows.foldl (fun acc r => (acc.zip r).map fun x => x.1 + x.2) (List.replicate k 0)

/-- The checksum state after an int8 multiply (R247). -/
def Sums.addInt (x : Sums) (sh : Shape) (a b : List (List Int)) : Sums :=
  let ca := sumInt sh.k a
  let x := b.zipIdx.foldl (fun x c =>
    { x with col := wordPut x.col (sh.base + c.2) (macInt (ca.zip c.1) (wordAt x.col (sh.base + c.2))) }) x
  sh.parts.foldl (fun x q =>
    let cb := sumInt sh.k (q.2.map fun j => b.getD j [])
    a.zipIdx.foldl (fun x r =>
      { x with row := wordPut x.row (q.1 * 128 + r.2) (macInt (r.1.zip cb) (wordAt x.row (q.1 * 128 + r.2))) }) x) x

/-- The sum of values, or of their magnitudes, in order. -/
def sum64 (mode : Mode) (xs : List FVal) : Nat := xs.foldl (add64 mode) 0

/-- Row i of a shape's list columns as values. -/
def Accum.rowVals (a : Accum) (t : AccTag) (i : Nat) (ps : List Nat) : List FVal := ps.map fun p => t.fmt.value (a.at i p)

/-- A sum of int32 elements modulo 2^32. -/
def sum32 (xs : List Nat) : Nat := xs.sum % 2 ^ 32

/-- Put the actual sums of a shape, with their bounds, into checksum state (R247, R249). -/
def Accum.actual (a : Accum) (sh : Shape) (x : Sums) : Sums :=
  let rows := List.range sh.m
  let cols := (List.range sh.n).map fun j => sh.base + j
  if a.tag = some .int32 then
    let x := cols.foldl (fun x p => { x with col := wordPut x.col p (sum32 (rows.map fun i => a.at i p)) }) x
    sh.parts.foldl (fun x q => rows.foldl (fun x i =>
      { x with row := wordPut x.row (q.1 * 128 + i) (sum32 (q.2.map fun j => a.at i (sh.base + j))) }) x) x
  else
    let t := a.tag.getD .fp64
    let x := cols.foldl (fun x p =>
      let vs := rows.map fun i => t.fmt.value (a.at i p)
      { x with col := wordPut x.col p (sum64 rne vs), colB := wordPut x.colB p (sum64 rup (absRow vs)) }) x
    sh.parts.foldl (fun x q => rows.foldl (fun x i =>
      let vs := a.rowVals t i (q.2.map fun j => sh.base + j)
      { x with row := wordPut x.row (q.1 * 128 + i) (sum64 rne vs), rowB := wordPut x.rowB (q.1 * 128 + i) (sum64 rup (absRow vs)) }) x) x

/-- A row quantity combined over the cores of a shape in increasing q (R255). -/
def combine (tag : Option AccTag) (mode : Mode) (sh : Shape) (l : List Word) (i : Nat) : Nat :=
  let xs := sh.parts.map fun q => wordAt l (q.1 * 128 + i)
  if tag = some .int32 then sum32 xs else sum64 mode (vals64 xs)

/-- One comparison of R249: an actual and an expected sum, and a bound. -/
def mismatch (t : Nat) (actual expected bound : Nat) : Bool :=
  match Fmt.f64.value actual, Fmt.f64.value expected with
  | .fin n1 m1 e1, .fin n2 m2 e2 =>
    (match Fmt.f64.value bound with
      | .nan _ => true
      | .inf _ => false
      | .fin _ m e =>
        let d := (dyOf n1 m1 e1).add (dyOf (!n2) m2 e2)
        decide (0 < (Dy.add ⟨d.v.natAbs, d.e⟩ ⟨-(m : Int), e - t⟩).v))
  | .fin _ _ _, _ => true
  | _, .fin _ _ _ => true
  | _, _ => false

/-- The tolerance of a format (R237, R248). -/
def tolerance (mtol : BitVec 24) (fmt : Nat) : Nat :=
  let field (lo dflt : Nat) : Nat := let v := natField mtol.toNat lo 6; if v = 0 then dflt else v
  match fmt with
  | 0 => field 0 36
  | 1 => field 6 12
  | 4 => field 18 14
  | _ => field 12 14

/-- What a drain finds: actual sums, and the mismatched columns and rows of a shape (R249). -/
def Accum.compare (a : Accum) (sh : Shape) (t : Nat) : Sums × List Nat × List Nat :=
  let s := a.actual sh a.sums
  let cols := (List.range sh.n).filter fun j =>
    let p := sh.base + j
    if a.tag = some .int32 then wordAt s.col p != wordAt a.sums.col p
    else mismatch t (wordAt s.col p) (wordAt a.sums.col p) (wordAt a.sums.colB p)
  let rows := (List.range sh.m).filter fun i =>
    let c := combine a.tag rne sh
    if a.tag = some .int32 then c s.row i != c a.sums.row i
    else mismatch t (c s.row i) (c a.sums.row i) (combine a.tag rup sh a.sums.rowB i)
  (s, cols, rows)

/-- C + delta under a tag (R252, R408). -/
def Accum.shift (a : Accum) (c : Nat) (delta : Word) : Nat :=
  match a.tag with
  | some .int32 => truncInt 32 (toSigned 32 c + delta.toInt)
  | t =>
    let f := (t.getD .fp64).fmt
    (f.addV rne false (f.value c) (Fmt.f64.value delta.toNat)).1

/-- An accumulator after one log entry's products and checksums (R244-R247). -/
def State.macEntry (s : State) (a : Accum) (e : LogEntry) : Accum :=
  let sh := shapeOf e.tshape s.h.hid.core
  let a := { a with tag := some (tagOf e.fmt) }
  let ra := s.rowsA e
  let cb := s.colsB e
  if e.fmt = 5 then
    let ints (x : List (List Nat)) : List (List Int) := x.map fun r => r.map (toSigned 8)
    let b := { a with sums := a.sums.addInt sh (ints ra) (ints cb) }
    b.mapShape sh fun i j c => macInt (((ints ra).getD i []).zip ((ints cb).getD j [])) c
  else
    let b8 := e.b8.toNat
    let va := valuesOf e.fmt b8 ra (e.scaleA.map fun p => s.scales sh.k sh.m p)
    let vb := valuesOf e.fmt b8 cb (e.scaleB.map fun p => columnsOf sh.n (s.scales sh.n sh.k p))
    let b := { a with sums := a.sums.addFloat sh va vb }
    b.mapShape sh fun i j c => macFloat e.fmt ((va.getD i []).zip (vb.getD j [])) c

end Sys2Proof.Machine
end

