-- ==== Sys2Proof/Machine/Matrix.lean ====
section
/-! DEFINITION. The matrix instructions (chapter 11): `settile`, the tile loads and their pins, the accumulator transfers, the
multiply-accumulates with their log, and the checked drain. -/

namespace Sys2Proof.Machine

/-! ### The grant (R235) -/

/-- M, N and K of a request as R235 bounds them, with the classroom or without. -/
def grantShape (v : Word) (room : Bool) : Nat × Nat × Nat :=
  let k := min (fieldOf v 32 16) 256
  (min (fieldOf v 0 16) (if fieldOf v 48 4 = 1 then 64 else 128), min (fieldOf v 16 16) (if room then 512 else 64),
   if fieldOf v 52 1 = 1 then k / 24 * 24 else k)

/-- A request with a bad hint, or a sparse one with no whole group (R235). -/
def requestBad (v : Word) : Bool :=
  fieldOf v 53 11 != 0 || decide (6 < fieldOf v 48 4) || (fieldOf v 52 1 == 1 && (fieldOf v 48 4 == 1 || fieldOf v 48 4 == 2))

/-- A request that releases the unit (R235). -/
def requestZero (v : Word) : Bool := fieldOf v 0 16 == 0 || fieldOf v 16 16 == 0 || fieldOf v 32 16 == 0

/-- TSHAPE and g[rd] after a grant (R235, R236). -/
def State.setShape (s : State) (room : Bool) (g : Nat × Nat × Nat) (d : Reg) : State :=
  let t := s.onMx fun m => { m with tshape := BitVec.ofNat 49 (bit01 room * 2 ^ 48 + g.2.2 * 2 ^ 32 + g.2.1 * 2 ^ 16 + g.1) }
  (t.setG d (BitVec.ofNat 64 (g.2.2 * 2 ^ 32 + g.2.1 * 2 ^ 16 + g.1))).dirty (2 ^ 42)

/-- The work of `settile` and `settile.c` (R235). An exception leaves the units as they were. -/
def settileM (room : Bool) (enc : Nat) (d a : Reg) : M Unit := fun s =>
  let v := s.g a
  let bad : Except Stop (Unit × State) := .error (.trap { code := 1, val := BitVec.ofNat 64 enc } s.unwait)
  if requestBad v then bad
  else if requestZero v then
    if s.matrixBusy then bad
    else .ok ((), s.holdNone.setShape false (0, 0, 0) d)
  else if (grantShape v room).2.2 = 0 then bad
  else
    let q := s.acquireUnit
    if ¬ q.2 then .error (.block q.1)
    else
      let cls := room && (roomCores s.h.hid).all fun c => (q.1.unitAt c).openTo s.h.own
      if s.h.mx.tshape.getLsbD 48 && !cls && s.matrixBusy then bad
      else .ok ((), (if cls then q.1.holdRoom else q.1.holdCore).setShape cls (grantShape v cls) d)

/-- `settile` and `settile.c` with the absence check of R351. -/
def settile (room : Bool) (f3 : Nat) (d a : Reg) (s : State) : Out :=
  let enc := encI 0x10 f3 d a 0
  if !s.h.su.sup && s.h.su.mxa then .next (s.trapHere { code := 19, val := BitVec.ofNat 64 enc })
  else run 4 (settileM room enc d a) s

/-- `settile` (R235). -/
def execSettile (d a : Reg) (s : State) : Out := settile false 3 d a s
/-- `settile.c` (R235). -/
def execSettileC (d a : Reg) (s : State) : Out := settile true 4 d a s

/-! ### Windows (R239) -/

/-- The address of window element (row, col), and whether it is out of bounds; none where the descriptor is empty (R91, R239). -/
def Desc.window (d : Desc) (origin : Int) (orient : Bool) (r c : Nat) : Option (Word × Bool) :=
  if d.empty then none
  else some (d.at (bump (bump (d.coords origin) 0 (if orient then r else c)) 1 (if orient then c else r)))

/-- The addresses of a window, row by row. -/
def Desc.windowOf (d : Desc) (origin : Int) (orient : Bool) (rows cols : Nat) : List (Option (Word × Bool)) :=
  (List.range rows).flatMap fun r => (List.range cols).map fun c => d.window origin orient r c

/-- Step 5 of R151 for a tile instruction: orientation (R85, R88, R310), then alignment (R88). -/
def tileFault (s : State) (f : WFields) (_ : Nat) : Option Trap :=
  let d := s.descAt f
  let reason := if f.orient then d.columnReason d.width
    else if d.block = 1 ∧ ¬ d.squarePlane d.width then some 3 else none
  match reason with
  | some k =>
    let va := (d.window (s.g f.vs3).toInt f.orient 0 0).map Prod.fst
    some { code := 11, sub := k, val := va.getD (Config.openAddress s.tick) }
  | none => if d.base.toNat % d.bytes = 0 then none else some { code := 6, val := d.base }

/-- What the translation of every address of a tile instruction comes to, before any effect (R257). -/
inductive Plan where
  | trap (t : Trap)
  | halt
  | wait
  | go
  deriving DecidableEq, Repr

/-- The batch of a tile instruction's absent pages: no elements, so in order of address (R257, R369). -/
def tileBatch (src : Nat) (wr : Bool) (hs : List Held) : Trap :=
  let ps := (heldPages src wr hs).map fun b => { b with first := 0, nel := 1 }
  { code := 9, sub := min 16 ps.length, val := (hs.head?.map Held.va).getD 0
    batch := sortBy (fun a b => decide (a.va.toNat < b.va.toNat)) ps }

/-- Translate the addresses of a tile instruction in order (R257). `col`: the access width of a column access. -/
def State.plan257 (s : State) (acc : Acc) (src n : Nat) (col : Option Nat) : List Word → List Held → Plan
  | [], hs => if hs.isEmpty then .go else .trap (tileBatch src (acc == .store) hs)
  | va :: vas, hs =>
    let batch : Plan := .trap (tileBatch src (acc == .store) hs)
    match s.translate s.h.space acc va with
    | .error x =>
      if x.code = 9 then s.plan257 acc src n col vas (hs ++ [⟨0, va, x.level⟩])
      else if hs.isEmpty then .trap (x.trap va src (acc == .store)) else batch
    | .ok p =>
      match (match col with | some w => columnPage p.mt p.sq w | none => none) with
      | some k => if hs.isEmpty then .trap { code := 11, sub := k, val := va } else batch
      | none =>
        match s.checkOwn acc va n true 0 with
        | .error x => if hs.isEmpty then .trap (x.trap va src (acc == .store)) else batch
        | .ok (_, _, .trap k) => if hs.isEmpty then .trap { code := 22, sub := k, val := va } else batch
        | .ok (_, _, .halt _) => if hs.isEmpty then .halt else batch
        | .ok (_, _, .pass) => s.plan257 acc src n col vas hs

/-- An address of a tile instruction waits for an own access that is parked or held by a pin (R107, R121, R232). -/
def State.tileWaits (s : State) (acc : Acc) (n : Nat) (vas : List Word) : Bool :=
  vas.any fun va => s.parkedOn va || (match s.translate s.h.space acc va with
    | .ok p => s.ownHeld p.pa n
    | .error _ => false)

/-- The whole translation of a tile instruction. -/
def State.planTile (s : State) (acc : Acc) (src n : Nat) (col : Option Nat) (vas : List Word) : Plan :=
  match s.plan257 acc src n col vas [] with
  | .go => if s.tileWaits acc n vas then .wait else .go
  | p => p

/-- One translated address of a tile instruction is used: its watch record is written, its A and D bits are set. -/
def State.useTile (s : State) (acc : Acc) (va : Word) (n : Nat) : State × Option Place :=
  match s.checkOwn acc va n true 0 with
  | .ok (t, p, _) => (t.markLeaf t.h.space va p (acc == .store), some p)
  | .error _ => (s, none)

/-- The read of one address by the tile fetch unit or the scale cache, which pins it: where it lies. -/
def State.pinRead (s : State) (va : Word) (n : Nat) : State × Option Nat :=
  match s.useTile .load va n with
  | (t, some p) =>
    let t := t.settleHome t.h.su.part t.h.hid.isle p.pa
    (t.watchHome t.h.su.part t.h.source (t.org 0) p.pa n ⟨true, false, false⟩, some p.pa)
  | (t, none) => (t, none)

/-- Pin reads in order. -/
def State.pinReads (s : State) (n : Nat) (vas : List (Option Word)) : State × List (Option Nat) :=
  let r := vas.foldl (fun (x : State × List (Option Nat)) va => match va with
    | none => (x.1, none :: x.2)
    | some a => let y := x.1.pinRead a n; (y.1, y.2 :: x.2)) (s, [])
  (r.1, r.2.reverse)

/-- Establish one pin on each line (R240, R246), but for lines that a tile register has pinned ahead (`State.pinAhead`). -/
def State.pinLines (s : State) (ps : List (Option Nat)) (tile acc : Option Nat) : State :=
  let lines := (ps.filterMap fun p => p.map fun a => a / 64 * 64).dedup
  let new := lines.filter fun l => acc.isSome || !s.ca.pins.any fun p => p.line == l && p.own == s.h.own && p.tile == tile
  s.onCa fun c => { c with pins := c.pins ++ new.map fun l => ⟨l, s.h.own, tile, acc⟩ }

/-- Pins of a tile register of the current hart are removed (R241). -/
def State.dropPins (s : State) (t : Nat) : State :=
  s.onCa fun c => { c with pins := c.pins.filter fun p => !(p.own == s.h.own && p.tile == some t) }

/-- The end of a plan that does not go on. -/
def Plan.stop (p : Plan) (slot : Nat) (s : State) : State × SlotEnd :=
  match p with
  | .trap t => (s, .trap 0 (t.inSlot slot))
  | .halt => (s, .halt 0 4)
  | .wait => (s, .wait 0)
  | .go => (s, .done)

/-- The matrix state has been written (R350), and the instruction is done. -/
def State.mxDone (s : State) : State × SlotEnd := (s.dirty (2 ^ 42), .done)

/-- An accumulator by number. -/
def State.acc (s : State) (x : Nat) : Accum := (s.h.mx.acc[x]?).getD Accum.zero
/-- An accumulator replaced. -/
def State.setAcc (s : State) (x : Nat) (a : Accum) : State := s.onMx fun m => { m with acc := m.acc.setIfInBounds x a }
/-- The scale pins of an accumulator's log are released (R249). -/
def State.dropScales (s : State) (x : Nat) : State :=
  s.onCa fun c => { c with pins := c.pins.filter fun p => !(p.own == s.h.own && p.acc == some x) }

/-- A matrix instruction: it needs the unit (R234), and its other checks. -/
def semMx (illegal : State → WFields → Bool) (fault : State → WFields → Nat → Option Trap)
    (work : WFields → Nat → State → State × SlotEnd) : Sem :=
  { illegal := fun s f => !s.holdsUnit || illegal s f, fault := fault, run := indivisible work }

/-! ### Tiles -/

/-- Rows and columns of the window of `mtld` (R238). -/
def mtldWindow (sh : Shape) (f : WFields) : Nat × Nat :=
  if f.vd.toNat % 2 = 1 then (sh.k, sh.n)
  else (sh.m, match f.imm.toNat with | 0 => sh.k | 1 => sh.k / 3 | _ => sh.k / 8)

/-- Step 4 of `mtld` (R88, R237-R239). -/
def mtldIllegal (s : State) (f : WFields) : Bool :=
  let d := s.descAt f
  let sh := s.shape
  let w := mtldWindow sh f
  let cols := if f.vd.toNat % 2 = 1 ∧ sh.room then min w.2 64 else w.2
  d.illegal s.b8 || decide (d.rank < 2) || (s.tile f.vd.toNat).isSome || decide (2 ^ 20 < w.1 * cols * d.width)
    || (f.imm != 0 && sh.k % 24 != 0) || (if f.imm = 2 then d.type != 9 else decide (5 < d.type))
    || (d.type == 0 && decide (64 < sh.m))

/-- The addresses of the window of `mtld`, row by row. -/
def State.mtldVas (s : State) (f : WFields) : List (Option Word) :=
  let w := mtldWindow s.shape f
  ((s.descAt f).windowOf (s.g f.vs3).toInt f.orient w.1 w.2).map fun x => x.map Prod.fst

/-- The line of one element of the window of an `mtld` that has settled is pinned ahead of the others: the pins of one `mtld` do not take effect at
one instant (R240, R259). -/
def State.pinAhead (s : State) (f : WFields) (e : Nat) : State :=
  match (s.mtldVas f)[e]?.join with
  | none => s
  | some va => match s.translate s.h.space .load va with
    | .error _ => s
    | .ok p => (s.settleHome s.h.su.part s.h.hid.isle p.pa).pinLines [some p.pa] (some f.vd.toNat) none

/-- The work of `mtld` (R239, R240). -/
def mtldWork (f : WFields) (slot : Nat) (s : State) : State × SlotEnd :=
  let d := s.descAt f
  let w := mtldWindow s.shape f
  let win := s.mtldVas f
  match s.planTile .load 5 d.bytes (if f.orient then some d.width else none) (win.filterMap id) with
  | .go =>
    let r := s.pinReads d.bytes win
    let t : Tile := { desc := s.h.vec.desc f.desc, origin := s.g f.vs3, orient := f.orient, kind := BitVec.ofNat 2 f.imm.toNat,
                      rows := w.1, cols := w.2, ctype := d.type, elems := r.2 }
    (r.1.pinLines r.2 (some f.vd.toNat) none |>.onMx fun m => { m with tiles := m.tiles.setIfInBounds f.vd.toNat (some t) }).mxDone
  | p => p.stop slot s

/-- A tile instruction of R257, with its profile sample where it completes (R418). `vas`: the addresses it touches. -/
def tileCounted (vas : State → WFields → List Word) (work : WFields → Nat → State → State × SlotEnd) (f : WFields) (slot : Nat)
    (s : State) : State × SlotEnd :=
  let r := work f slot s
  if r.2 = .done ∧ s.h.dbg.prof ≠ 0 then (r.1.profile 6 (vas s f), .done) else r

/-- The addresses of the window of a tile instruction; a store that CLAMP drops touches nothing (R91). -/
def State.windowVas (s : State) (f : WFields) (store : Bool) (w : Nat × Nat) : List Word :=
  ((s.descAt f).windowOf (s.g f.vs3).toInt f.orient w.1 w.2).filterMap fun x => x.bind fun y =>
    if store && y.2 && (s.descAt f).clamp == 1 then none else some y.1

/-- `mtld` (R238-R240). -/
def semMtld : Sem := semMx mtldIllegal tileFault (tileCounted (fun s f => s.windowVas f false (mtldWindow s.shape f)) mtldWork)
/-- `mtld` as a single instruction. -/
def execMtld (f : WFields) (s : State) : Out := runSingle .mtld semMtld f s

/-- A log entry names a tile register (R241). -/
def LogEntry.names (e : LogEntry) (t : Nat) : Bool := e.a == t || e.b == t || e.msk == some t

/-- The work of `mtrel` (R241). -/
def mtrelWork (f : WFields) (_ : Nat) (s : State) : State × SlotEnd :=
  let t := f.vd.toNat
  ((s.dropPins t).onMx fun m => { m with tiles := m.tiles.setIfInBounds t none }).mxDone

/-- `mtrel` (R241). Of a register that holds no pins but is named in a log R241 says in one sentence that it is only marked free, and in the next that
the instruction is illegal; the model takes the second (DESIGN CHOICE, log 117). -/
def semMtrel : Sem :=
  semMx (fun s f => s.h.mx.acc.toList.any fun a => a.log.any fun e => e.names f.vd.toNat) noFault mtrelWork
/-- `mtrel` as a single instruction. -/
def execMtrel (f : WFields) (s : State) : Out := runSingle .mtrel semMtrel f s

/-! ### Accumulator transfers (R243) -/

/-- The tag of a TYPE that `mald` and `mast` accept (R242). -/
def typeTag (t : Nat) : Option AccTag := match t with | 0 => some .fp64 | 1 => some .fp32 | 7 => some .int32 | _ => none

/-- Step 4 of `mald` and `mast` (R88, R237, R242). -/
def transferIllegal (store : Bool) (s : State) (f : WFields) : Bool :=
  let d := s.descAt f
  let tag := (s.acc f.vd.toNat).tag
  d.illegal s.b8 || decide (d.rank < 2) || (typeTag d.type).isNone || (tag.isSome && tag != typeTag d.type)
    || (d.type == 0 && decide (64 < s.shape.m)) || (store && d.rate != 0)

/-- The work of `maz` (R243). -/
def mazWork (f : WFields) (_ : Nat) (s : State) : State × SlotEnd :=
  ((s.setAcc f.vd.toNat Accum.zero).dropScales f.vd.toNat).mxDone

/-- `maz` (R243). -/
def semMaz : Sem := semMx neverIllegal noFault mazWork
/-- `maz` as a single instruction. -/
def execMaz (f : WFields) (s : State) : Out := runSingle .maz semMaz f s

/-- The contents of a loaded window as an accumulator (R243, R247). -/
def loadedAccum (tag : Option AccTag) (sh : Shape) (vals : List Nat) : Accum :=
  let rows := chunks sh.n sh.m vals
  let a := { Accum.zero with tag := tag }.mapShape sh fun i j _ => (rows.getD i []).getD j 0
  let sums := a.actual sh a.sums
  { a with sums := sums, ckElem := a.elems, ckSums := sums }

/-- The work of `mald` (R243). -/
def maldWork (f : WFields) (slot : Nat) (s : State) : State × SlotEnd :=
  let d := s.descAt f
  let sh := s.shape
  let win := (d.windowOf (s.g f.vs3).toInt f.orient sh.m sh.n).map fun x => x.map Prod.fst
  match s.planTile .load 5 d.bytes (if f.orient then some d.width else none) (win.filterMap id) with
  | .go =>
    let r := win.foldl (fun (x : State × List Nat) va => match va with
      | none => (x.1, 0 :: x.2)
      | some a => match x.1.useTile .load a d.bytes with
        | (t, some p) => let y := t.portRead p f.orient d.bytes 0; (y.1, y.2 :: x.2)
        | (t, none) => (t, 0 :: x.2)) (s, [])
    ((r.1.setAcc f.vd.toNat (loadedAccum (typeTag d.type) sh r.2.reverse)).dropScales f.vd.toNat).mxDone
  | p => p.stop slot s

/-- `mald` (R243). -/
def semMald : Sem :=
  semMx (transferIllegal false) tileFault (tileCounted (fun s f => s.windowVas f false (s.shape.m, s.shape.n)) maldWork)
/-- `mald` as a single instruction. -/
def execMald (f : WFields) (s : State) : Out := runSingle .mald semMald f s

/-- The elements of a shape in increasing order of 64i + j (R243); equal sums, which only a classroom shape has, in increasing or
decreasing i. -/
def storeOrder (sh : Shape) (down : Bool) : List (Nat × Nat) :=
  let is := if down then (List.range sh.m).reverse else List.range sh.m
  (List.range (64 * sh.m + sh.n)).flatMap fun k =>
    is.filterMap fun i => if 64 * i ≤ k ∧ k - 64 * i < sh.n then some (i, k - 64 * i) else none

/-- The work of `mast` (R243). -/
def mastWork (f : WFields) (slot : Nat) (s : State) : State × SlotEnd :=
  let d := s.descAt f
  let sh := s.shape
  let at_ (i j : Nat) : Option Word := match d.window (s.g f.vs3).toInt f.orient i j with
    | some (va, out) => if out && d.clamp == 1 then none else some va
    | none => none
  let vas := (List.range sh.m).flatMap fun i => (List.range sh.n).filterMap fun j => at_ i j
  match s.planTile .store 5 d.bytes (if f.orient then some d.width else none) vas with
  | .go =>
    let a := s.acc f.vd.toNat
    let down := decide (64 < sh.n) && Config.freeChoice s.free % 2 == 1
    let s1 := if 64 < sh.n then { s with free := s.free + 1 } else s
    ((storeOrder sh down).foldl (fun t ij => match at_ ij.1 ij.2 with
      | none => t
      | some va => match t.useTile .store va d.bytes with
        | (t, some p) =>
          (t.sendWrite true t.h.space t.h.source (t.org 0) va p.pa p.sq
            (.store (leBytes d.bytes (a.at ij.1 (sh.base + ij.2)))) none).1
        | (t, none) => t) s1).mxDone
  | p => p.stop slot s

/-- `mast` (R243). -/
def semMast : Sem :=
  semMx (transferIllegal true) tileFault (tileCounted (fun s f => s.windowVas f true (s.shape.m, s.shape.n)) mastWork)
/-- `mast` as a single instruction. -/
def execMast (f : WFields) (s : State) : Out := runSingle .mast semMast f s

/-! ### Multiply-accumulate -/

/-- A tile register is loaded with a kind, a window and a TYPE (R244, R245). -/
def State.tileIs (s : State) (t kind rows cols type : Nat) : Bool :=
  match s.tile t with
  | none => false
  | some x => x.kind.toNat == kind && x.rows == rows && x.cols == cols && x.ctype == type

/-- Step 4 of the multiply-accumulates (R47, R237, R242, R244-R246). -/
def macIllegal (sparse : Bool) (s : State) (f : WFields) : Bool :=
  let fmt := f.imm.toNat
  let sh := s.shape
  let a := s.acc f.vd.toNat
  f.vs1.toNat % 2 != 0 || f.vs2.toNat % 2 != 1
    || !s.tileIs f.vs1.toNat (if sparse then 1 else 0) sh.m (if sparse then sh.k / 3 else sh.k) fmt
    || !s.tileIs f.vs2.toNat 0 sh.k sh.n fmt
    || (sparse && (f.vs3.toNat % 2 != 0 || !s.tileIs f.vs3.toNat 2 sh.m (sh.k / 8) 9 || sh.k % 24 != 0))
    || (a.tag.isSome && a.tag != some (tagOf fmt)) || decide (16 ≤ a.log.length)
    || (fmt == 0 && decide (64 < sh.m)) || (fmt == 4 && s.b8 % 8 == 0)

/-- The armed records of KIND 1 that name the current hart's n-th multiply-accumulate, in increasing entry (R407, R408). -/
def State.accInjections (s : State) (n : Nat) : List Injection :=
  sortBy (fun a b => decide (a.n.toNat < b.n.toNat)) (s.dev.inject.filter fun r =>
    let q := r.record.extractLsb' 0 64
    r.part == s.h.su.part && fieldOf q 32 32 == s.h.su.lid.toNat && fieldOf q 24 8 == 1 && fieldOf q 0 24 == n)

/-- One injection into an accumulator (R408). An element outside the array is none. -/
def Accum.inject (a : Accum) (base : Nat) (r : Injection) : Accum :=
  let q1 := r.record.extractLsb' 64 64
  let i := fieldOf q1 0 16
  let p := base + fieldOf q1 16 16
  if i < (if a.tag = some .fp64 then 64 else 128) ∧ p < 512 then a.put i p (a.shift (a.at i p) (r.record.extractLsb' 128 64)) else a

/-- A multiply-accumulate with its log entry (R244), then the injections that name it (R408). -/
def State.macApply (s : State) (x : Nat) (e : LogEntry) : State :=
  let n := s.h.dbg.mmacs + 1
  let a := s.macEntry (s.acc x) e
  let a := { a with log := a.log ++ [e] }
  let a := (s.accInjections n).foldl (fun a r => a.inject s.shape.base r) a
  ((s.setAcc x a).onDbg fun d => { d with mmacs := n }).clearInjections

/-- The log entry of a multiply-accumulate without scales. -/
def State.entryOf (s : State) (f : WFields) (msk : Option Nat) : LogEntry :=
  { a := f.vs1.toNat, b := f.vs2.toNat, msk := msk, fmt := f.imm.toNat, tshape := s.h.mx.tshape, b8 := BitVec.ofNat 5 s.b8,
    scaleA := none, scaleB := none }

/-- The first word of a tile's window that is poisoned (R400), by its address. -/
def State.tilePoison (s : State) (t : Tile) : Option Word :=
  let d := descOf t.desc
  (((d.windowOf t.origin.toInt t.orient t.rows t.cols).zip t.elems).find? fun x => x.2.any fun pa => s.poisoned pa d.bytes).map fun x =>
    (x.1.map Prod.fst).getD 0 &&& ~~~7

/-- The first poisoned word that a log entry's products would read: of its tiles, or of its scales, which are known by physical address alone. No reader
receives the value of such a word (R400): what a multiply or a replay meets in a line that has gone bad since it was pinned is taken as the machine
check of `mtld` (DESIGN CHOICE, log 124). -/
def State.logPoison (s : State) (e : LogEntry) : Option Word :=
  let tile (t : Nat) : Option Word := (s.tile t).bind s.tilePoison
  let scales := (e.scaleA.getD []).filterMap id ++ (e.scaleB.getD []).filterMap id
  tile e.a <|> tile e.b <|> e.msk.bind tile <|> (scales.find? fun pa => s.poisoned pa 1).map fun pa => BitVec.ofNat 64 (pa / 8 * 8)

/-- Go on unless a log entry reads a poisoned word. -/
def State.unpoisoned (s : State) (es : List LogEntry) (slot : Nat) (work : State × SlotEnd) : State × SlotEnd :=
  match es.findSome? s.logPoison with
  | some va => (s, .trap 0 (({ code := 21, sub := 3, val := va } : Trap).inSlot slot))
  | none => work

/-- The work of `mmac` and `mmacs` (R244, R245). -/
def macWork (msk : WFields → Option Nat) (f : WFields) (slot : Nat) (s : State) : State × SlotEnd :=
  let e := s.entryOf f (msk f)
  s.unpoisoned [e] slot (s.macApply f.vd.toNat e).mxDone

/-- `mmac` (R244). -/
def semMmac : Sem := semMx (macIllegal false) noFault (macWork fun _ => none)
/-- `mmac` as a single instruction. -/
def execMmac (f : WFields) (s : State) : Out := runSingle .mmac semMmac f s

/-- `mmacs` (R245): its operands and its metadata stand in loaded tiles, so it touches no address of its own. -/
def semMmacs : Sem :=
  semMx (macIllegal true) noFault (tileCounted (fun _ _ => []) (macWork fun f => some f.vs3.toNat))
/-- `mmacs` as a single instruction. -/
def execMmacs (f : WFields) (s : State) : Out := runSingle .mmacs semMmacs f s

/-- The address of the scale of each element of a tile, row by row (R246). -/
def State.scaleAddrs (s : State) (t : Tile) (k : Fin 2) : List (Option Word) :=
  let d := descOf t.desc
  (d.windowOf t.origin.toInt t.orient t.rows t.cols).map fun x => x.map fun y =>
    s.h.mx.scb[k] + (y.1 - d.base).sshiftRight s.h.mx.scs[k].toNat

/-- The scale addresses of the operand in a tile register (R246). -/
def State.scalesOf (s : State) (t : Reg) (k : Fin 2) : List (Option Word) := ((s.tile t.toNat).map fun x => s.scaleAddrs x k).getD []

/-- The work of `mmacx` (R246): every scale is translated and pinned before the multiply. -/
def mmacxWork (f : WFields) (slot : Nat) (s : State) : State × SlotEnd :=
  let sa := s.scalesOf f.vs1 0
  let sb := s.scalesOf f.vs2 1
  match s.planTile .load 5 1 none ((sa ++ sb).filterMap id) with
  | .go => s.unpoisoned [s.entryOf f none] slot <|
    let ra := s.pinReads 1 sa
    let rb := ra.1.pinReads 1 sb
    let t := rb.1.pinLines (ra.2 ++ rb.2) none (some f.vd.toNat)
    (t.macApply f.vd.toNat { t.entryOf f none with scaleA := some ra.2, scaleB := some rb.2 }).mxDone
  | p => p.stop slot s

/-- `mmacx` (R246). -/
def semMmacx : Sem :=
  semMx (macIllegal false) noFault (tileCounted (fun s f => (s.scalesOf f.vs1 0 ++ s.scalesOf f.vs2 1).filterMap id) mmacxWork)
/-- `mmacx` as a single instruction. -/
def execMmacx (f : WFields) (s : State) : Out := runSingle .mmacx semMmacx f s

/-! ### Checks (R249-R254) -/

/-- The shape exceeds the limits of an accumulator's format (R237). -/
def State.shapeBad (s : State) (x : Nat) : Bool := (s.acc x).tag == some .fp64 && decide (64 < s.shape.m)

/-- The tolerance of a drain (R248): the smallest of the formats in the log. With an empty log no format is named: that of the
fp64 tag, or an open choice among those that share the fp32 tag. -/
def State.drainTolerance (s : State) (a : Accum) : Nat × State :=
  let t := tolerance s.h.mx.mtol
  match a.log.map fun e => t e.fmt with
  | x :: xs => (xs.foldl min x, s)
  | [] =>
    if a.tag = some .fp32 then
      (t ([1, 2, 4].getD (Config.freeChoice s.free % 3) 1), { s with free := s.free + 1 })
    else (t 0, s)

/-- A drain that passes (R249). -/
def State.drainPass (s : State) (x : Nat) (a : Accum) (sums : Sums) : State :=
  let a := { a with sums := sums, ckElem := a.elems, ckSums := sums, log := [], fix := none }
  ((s.setAcc x a).dropScales x).onMx fun m => { m with pf := m.pf.setIfInBounds x false }

/-- The fix record of a failed drain (R249): one row and one column, and what the column lacks. -/
def fixRecord (a : Accum) (sh : Shape) (sums : Sums) (cols rows : List Nat) : Option (Nat × Nat × Word) :=
  match cols, rows with
  | [c], [r] =>
    let want := wordAt a.sums.col (sh.base + c)
    let got := wordAt sums.col (sh.base + c)
    some (r, c, if a.tag = some .int32 then (BitVec.ofInt 32 ((want : Int) - got)).signExtend 64
      else BitVec.ofNat 64 (add64 rne want (Fmt.f64.value got).neg))
  | _, _ => none

/-- A drain that fails (R249, R250). -/
def State.drainFail (s : State) (x : Nat) (a : Accum) (fix : Option (Nat × Nat × Word)) (cols rows : Nat) : State :=
  (s.setAcc x { a with fix := fix }).onMx fun m =>
    { m with pf := m.pf.setIfInBounds x true, ncol := BitVec.ofNat 10 cols, nrow := BitVec.ofNat 8 rows, la := x == 1 }

/-- The work of `mdrain` (R249). -/
def mdrainWork (f : WFields) (_ : Nat) (s : State) : State × SlotEnd :=
  let x := f.vd.toNat
  let a := s.acc x
  let sh := s.shape
  let t := s.drainTolerance a
  let r := a.compare sh t.1
  if r.2.1.isEmpty && r.2.2.isEmpty then (t.2.drainPass x a r.1).mxDone
  else
    ((t.2.drainFail x a (fixRecord a sh r.1 r.2.1 r.2.2) r.2.1.length r.2.2.length).dirty (2 ^ 42), .check x)

/-- `mdrain` (R249). -/
def semMdrain : Sem := semMx (fun s f => s.shapeBad f.vd.toNat) noFault mdrainWork
/-- `mdrain` as a single instruction. -/
def execMdrain (f : WFields) (s : State) : Out := runSingle .mdrain semMdrain f s

/-- The work of `mloc` (R251): g[gdl], then g[gd]. -/
def mlocWork (f : WFields) (_ : Nat) (s : State) : State × SlotEnd :=
  let v : Word × Word := match (s.acc f.vs1.toNat).fix with
    | some (r, c, delta) => (BitVec.ofNat 64 (2 ^ 63 + c * 2 ^ 16 + r), delta)
    | none => (0, 0)
  ((s.setG f.vs3 v.2).setG f.vd v.1).mxDone

/-- `mloc` (R251). -/
def semMloc : Sem := semMx (fun s f => s.shapeBad f.vs1.toNat) noFault mlocWork
/-- `mloc` as a single instruction. -/
def execMloc (f : WFields) (s : State) : Out := runSingle .mloc semMloc f s

/-- The work of `mfix` (R252). -/
def mfixWork (f : WFields) (_ : Nat) (s : State) : State × SlotEnd :=
  let x := f.vd.toNat
  let a := s.acc x
  match a.fix with
  | some (r, c, delta) =>
    let p := s.shape.base + c
    (s.setAcc x { a.put r p (a.shift (a.at r p) delta) with fix := none }).mxDone
  | none => s.mxDone

/-- `mfix` (R252). -/
def semMfix : Sem := semMx (fun s f => s.shapeBad f.vd.toNat || (s.acc f.vd.toNat).fix.isNone) noFault mfixWork
/-- `mfix` as a single instruction. -/
def execMfix (f : WFields) (s : State) : Out := runSingle .mfix semMfix f s

/-- The work of `mretry` (R253). -/
def mretryWork (f : WFields) (slot : Nat) (s : State) : State × SlotEnd :=
  let a := s.acc f.vd.toNat
  let start := { a with elems := a.ckElem, sums := a.ckSums, fix := none }
  s.unpoisoned a.log slot (s.setAcc f.vd.toNat (a.log.foldl (fun b e => s.macEntry b e) start)).mxDone

/-- `mretry` (R253). -/
def semMretry : Sem := semMx (fun s f => s.shapeBad f.vd.toNat) noFault mretryWork
/-- `mretry` as a single instruction. -/
def execMretry (f : WFields) (s : State) : Out := runSingle .mretry semMretry f s

/-- The selected checksum vector (R254): expected columns, actual columns, expected rows, actual rows. -/
def Accum.vector (a : Accum) (sh : Shape) (sel : Nat) : List Nat :=
  let now := a.actual sh a.sums
  let cols (x : Sums) := (List.range sh.n).map fun j => wordAt x.col (sh.base + j)
  let rows (x : Sums) := (List.range sh.m).map fun i => combine a.tag rne sh x.row i
  match sel with
  | 0 => cols a.sums
  | 1 => cols now
  | 2 => rows a.sums
  | _ => rows now

/-- The work of `mcksum` (R254). -/
def mcksumWork (f : WFields) (_ : Nat) (s : State) : State × SlotEnd :=
  let a := s.acc f.vs1.toNat
  let vs := a.vector s.shape f.imm.toNat
  let wide (v : Nat) : Nat := if a.tag = some .int32 then truncInt 64 (toSigned 32 v) else v
  let t := (List.range s.vl).foldl (fun t e => t.setElem f.vd.toNat 64 e (wide (vs.getD e 0))) s
  (t.tail (t.dstOf .mcksum f) t.vl).mxDone

/-- `mcksum` (R254). At VSTART = VL the tail is all that is left to write (R192). -/
def semMcksum : Sem :=
  let x := semMx (fun s f => s.shapeBad f.vs1.toNat || s.sew != 64) noFault mcksumWork
  { x with run := fun f c s => if c.lo ≠ 0 ∧ s.vl ≤ c.hi then (s.tail (s.dstOf .mcksum f) s.vl, .done) else x.run f c s }
/-- `mcksum` as a single instruction. -/
def execMcksum (f : WFields) (s : State) : Out := runSingle .mcksum semMcksum f s

end Sys2Proof.Machine
end

