-- ==== Sys2Proof/Machine/Stack.lean ====
section
/-! DEFINITION. The activation stack (R294-R301): binding, push, pop, fetch and probe, and what the spill engine does by itself. -/

namespace Sys2Proof.Machine

/-- The bytes of an entry (R296). -/
def entrySize (count sew : Nat) : Nat := 64 + 64 * ((count * sew + 511) / 512)

/-- The code of an element width. -/
def sewCodeOf (sew : Nat) : Nat := match sew with | 8 => 0 | 16 => 1 | 32 => 2 | _ => 3

/-- A hart without a binding (R295). -/
def State.unbound (s : State) : Bool := s.h.ct.stack.isNone || (s.boundRecord s.h.own).isNone

/-- The address of the bound stack record. -/
def State.stackVa (s : State) : Word := s.h.ct.stack.getD 0

/-- No vector element may run before what an earlier check finds. -/
def unboundIllegal (s : State) (_ : WFields) : Bool := s.unbound

/-! ### `apush` (R297) -/

/-- The line addresses of an entry from some line on. -/
def entryLines (base : Word) (size first : Nat) : List Word :=
  (List.range' first (size / 64 - first)).map fun i => base + BitVec.ofNat 64 (64 * i)

/-- The translation of the lines of an entry before any effect, as R257 has it; a wait for own accesses. -/
def pushLinesM (vas : List Word) : M Unit := fun s =>
  match s.planTile .store 3 64 none vas with
  | .trap t => .error (.trap t s)
  | .halt => .error (.halt 4 s)
  | .wait => .error (.block s)
  | .go => .ok ((), s)

/-- Bytes of an entry stored as the vector class stores (R297). -/
def State.pushBytes (s : State) (va : Word) (bs : List Byte) : State :=
  match s.useTile .store va bs.length with
  | (t, some p) => (t.sendWrite true t.h.space t.h.source (t.org 0) va p.pa p.sq (.store bs) none).1
  | (t, none) => t

/-- Under protected mode, the copies of a pushed element differ (R398). -/
def State.copiesApart (s : State) (f : WFields) (e : Nat) : Bool :=
  s.h.vec.pm && s.elem false f.vd.toNat s.sew e != s.elem true f.vd.toNat s.sew e

/-- The machine check of a pushed element whose copies differ (R398). -/
def State.pushMismatch (s : State) (f : WFields) (slot : Nat) (va : Word) (e : Nat) : Trap :=
  { code := 21, sub := 2, val := va, lane := s.lane .apush f e slot }

/-- The beginning of a push, from progress 0: the record is updated and the header written (R296, R297). -/
def beginPushM (f : WFields) (slot : Nat) : M Unit := do
  let s ← getS
  let sv := s.stackVa
  let p ← tableM .load sv 64
  let s ← getS
  let q (k : Nat) : Word := s.mem.quad (p.pa + 8 * k)
  let size := entrySize s.vl s.sew
  let base := q 0 + q 2
  pushLinesM (entryLines base size 0)
  if (q 1).toNat < (q 2).toNat + size then trapM { code := 13, val := sv }
  else if decide (0 < s.vl) && s.copiesApart f 0 then trapM (s.pushMismatch f slot (base + 64) 0)
  else do
    let _ ← tableM .atomic sv 64
    modS fun s =>
      let s := s.homePut { p with pa := p.pa + 16 } (leBytes 8 ((q 2).toNat + size) ++ leBytes 8 (q 2).toNat ++ leBytes 8 ((q 4).toNat + 1))
      let s := s.pushBytes base (leBytes 8 (s.vl + sewCodeOf s.sew * 2 ^ 32) ++ leBytes 8 (q 3).toNat ++ List.replicate 48 0)
      let s := s.onCt fun c => { c with popped := none }
      s.onUn fun u => { u with spilled := u.spilled.filter fun x => !(x.own == s.h.own && x.slot == (q 4).toNat) }

/-- The entry that a push fills: the address of its data, and its slot (R297). -/
def pushedM (f : WFields) (slot lo : Nat) : M (Word × Nat) := do
  let s ← getS
  if lo = 0 then beginPushM f slot else pure ()
  let p ← tableM .load s.stackVa 64
  let s ← getS
  let q (k : Nat) : Word := s.mem.quad (p.pa + 8 * k)
  let data := q 0 + q 3 + 64
  if lo ≠ 0 ∧ lo < s.vl then pushLinesM (entryLines (q 0 + q 3) (entrySize s.vl s.sew) (1 + lo * s.sew / 512)) else pure ()
  pure (data, (q 4).toNat - 1)

/-- The elements of a push in order. Under protected mode the copies are compared (R398). -/
def pushElems (f : WFields) (slot : Nat) (data : Word) : List Nat → State → State × Option (Nat × Trap)
  | [], s => (s, none)
  | e :: es, s =>
    let n := s.sew / 8
    let v := s.elem false f.vd.toNat s.sew e
    let va := data + BitVec.ofNat 64 (e * n)
    if s.copiesApart f e then (s, some (e, s.pushMismatch f slot va e))
    else pushElems f slot data es (s.pushBytes va (leBytes n v))

/-- A part of `apush` (R297). -/
def apushRun (f : WFields) (c : Part) (s : State) : State × SlotEnd :=
  if c.hi ≤ c.lo ∧ c.hi < s.vl then (s, .part c.lo)
  else match pushedM f c.slot c.lo s with
  | .error (.trap t s) => (s, .trap c.lo (t.inSlot c.slot))
  | .error (.block s) => (s, .wait c.lo)
  | .error (.halt r s) => (s, .halt c.lo r)
  | .ok (x, s) =>
    let r := pushElems f c.slot x.1 c.elems s
    endPart c r.2 (fun t => t.setG f.vs3 (BitVec.ofNat 64 x.2)) r.1

/-- `apush` (R297). -/
def semApush : Sem := { illegal := unboundIllegal, fault := noFault, run := apushRun }
/-- `apush` as a single instruction. -/
def execApush (f : WFields) (s : State) : Out := runSingle .apush semApush f s

/-! ### `apop`, `afetch`, `aprobe` -/

/-- The work of `apop` (R298). -/
def apopM (f : WFields) : M Unit := do
  let s ← getS
  let p ← tableM .load s.stackVa 64
  let s ← getS
  let q (k : Nat) : Word := s.mem.quad (p.pa + 8 * k)
  if q 4 = 0 then modS fun s => (s.onCt fun c => { c with popped := none }).setG f.vd (BitVec.ofNat 64 (2 ^ 64 - 1))
  else do
    let hd ← tableM .load (q 0 + q 3) 16
    let _ ← tableM .atomic s.stackVa 64
    modS fun s =>
      let h := s.mem.quad hd.pa
      let slot := (q 4).toNat - 1
      let e : Popped := { off := q 3, count := fieldOf h 0 32, sew := fieldOf h 32 2, slot := slot, arrived := false }
      let s := s.homePut { p with pa := p.pa + 16 } (leBytes 8 (q 3).toNat ++ leBytes 8 (s.mem.quad (hd.pa + 8)).toNat ++ leBytes 8 slot)
      (s.onCt fun c => { c with popped := some e }).setG f.vd (BitVec.ofNat 64 slot)

/-- `apop` (R298). -/
def semApop : Sem := semI unboundIllegal noFault apopM
/-- `apop` as a single instruction. -/
def execApop (f : WFields) (s : State) : Out := runSingle .apop semApop f s

/-- The popped entry cannot be fetched at this SEW (R299). -/
def afetchIllegal (s : State) (_ : WFields) : Bool :=
  s.unbound || (match s.h.ct.popped with
    | none => true
    | some p => p.sew != s.h.vec.sewCode)

/-- `afetch` (R299): elements as those of `vld`. -/
def semAfetch : Sem := { semMem { op := .afetch, kind := .load, addr := .entry } with illegal := afetchIllegal }
/-- `afetch` as a single instruction. -/
def execAfetch (f : WFields) (s : State) : Out := runSingle .afetch semAfetch f s

/-- The work of `aprobe` (R300). -/
def aprobeM (f : WFields) : M Unit := do
  let s ← getS
  let p ← tableM .load s.stackVa 64
  modS fun s =>
    let e := s.h.ct.popped
    let v := bitAt e.isSome 63 + bitAt ((e.map Popped.arrived).getD false) 62 + fieldOf (s.mem.quad (p.pa + 32)) 0 32
    s.setG f.vd (BitVec.ofNat 64 v)

/-- `aprobe` (R300). -/
def semAprobe : Sem := semI unboundIllegal noFault aprobeM
/-- `aprobe` as a single instruction. -/
def execAprobe (f : WFields) (s : State) : Out := runSingle .aprobe semAprobe f s

/-! ### Binding and the spill engine -/

/-- A stack record that R294 refuses, or whose TOP exceeds LIMIT (R295). -/
def stackBad (va : Word) (q : List Word) : Bool :=
  va.toNat % 64 != 0 || (q.getD 0 0).toNat % 64 != 0 || (q.getD 1 0).toNat % 64 != 0 || fieldOf (q.getD 5 0) 4 60 != 0
    || q.getD 6 0 != 0 || q.getD 7 0 != 0 || decide ((q.getD 1 0).toNat < (q.getD 2 0).toNat)

/-- `STACK_BIND`: the spill engine performs a bind record (R295). A record outside normal memory breaks R294. An address that has no place, or
whose page is absent, is found before its alignment is looked at (DESIGN CHOICE, log 121). -/
def execStackBind (own : CtxRef) (k : BitVec 8) (s : State) : Out :=
  .next (s.onStep own k fun s c => match c.engine with
    | .spill _ =>
      let va := c.q 1
      if va = 0 then s.finish c 1 0 0 (some none)
      else match s.translate c.space .load va with
        | .error x => if x.code = 9 then s.hold c [(va, x.level, false)] else s.finish c 2 va 0 none
        | .ok p =>
          if p.mt ≠ 0 then s.finish c 5 0 0 none
          else s.whenReached c (s.reach c.space 8 (quadAddrs va 8) [] false) id fun s =>
            let r := s.engineQuads c va 8
            match r.2.2 with
            | some bad => r.1.finish c 2 bad 0 none
            | none => if stackBad va r.2.1 || s.boundElsewhere c va then r.1.finish c 5 0 0 none else r.1.finish c 1 0 0 (some (some va))
    | _ => s)

/-- Some element of the popped entry has not performed: it is parked or held by a pin (R298). -/
def State.entryInFlight (s : State) (own : CtxRef) (base : Word) (p : Popped) : Bool :=
  let lo := (base + p.off).toNat
  let n := entrySize p.count (8 * 2 ^ p.sew)
  (s.ca.parked.any fun x => x.own == own && meets x.va.toNat x.data.length lo n)
    || s.ca.pinQueue.any fun w => w.src.own == some own && meets w.va.toNat w.op.size lo n

/-- The spill engine reads quad k of a context's bound record: none where nothing is bound, or where the word is poisoned, since no reader
receives its value (R400); what the engine then does by itself the spec does not say, and it does nothing (DESIGN CHOICE, log 125). -/
def State.spillRead (s : State) (own : CtxRef) (k : Nat) : Option (State × Word) :=
  (s.boundRecord own).bind fun pa =>
    if s.poisoned (pa + 8 * k) 8 then none
    else some (s.correct (s.homeIsle own.part pa) (pa + 8 * k) 8, s.mem.quad (pa + 8 * k))

/-- `APOP_ARRIVAL`: the popped entry's lines are there and its elements have performed (R298). It raises its slot, which is kept beside those
raised before it (R41). -/
def execApopArrival (own : CtxRef) (s : State) : Out :=
  match s.hartOf own, s.spillRead own 0 with
  | some h, some (t, base) =>
    match h.ct.popped with
    | none => .next s
    | some p =>
      if p.arrived || s.entryInFlight own base p then .next s
      else
        let t := t.onUn fun u => { u with spilled := u.spilled.filter fun x => !(x.own == own && x.slot == p.slot) }
        .next (t.onHart h.hid fun x =>
          { x with
            ct := { x.ct with popped := some { p with arrived := true } }
            ev := if x.ev.mask.getLsbD 1 && !x.ev.apop.contains p.slot then { x.ev with apop := x.ev.apop ++ [p.slot] } else x.ev })
  | _, _ => .next s

/-- The spill engine acts on a bound record, given DEPTH - KEEP (R301). -/
def State.spillStep (s : State) (own : CtxRef) (act : Nat → State → State) : State :=
  match s.spillRead own 4 with
  | none => s
  | some (t, depth) => match t.spillRead own 5 with
    | none => s
    | some (t, keep) => act (depth.toNat - fieldOf keep 0 4) t

/-- `SPILL_WRITEBACK`: the lowest entry below the top KEEP that is still on chip is written back (R301). No value depends on it. -/
def execSpillWriteback (own : CtxRef) (s : State) : Out :=
  .next (s.spillStep own fun n s => match (List.range n).find? fun i => !s.un.spilled.contains ⟨own, i⟩ with
    | none => s
    | some i => s.onUn fun u => { u with spilled := u.spilled ++ [⟨own, i⟩] })

/-- `SPILL_BRING_BACK`: the entry at slot DEPTH - KEEP comes back on chip (R301). -/
def execSpillBringBack (own : CtxRef) (s : State) : Out :=
  .next (s.spillStep own fun i s => s.onUn fun u => { u with spilled := u.spilled.filter fun x => x != ⟨own, i⟩ })

end Sys2Proof.Machine
end

