-- ==== Sys2Proof/Machine/Priv.lean ====
section
/-! DEFINITION. The VPRIV instructions (R352-R357): `vsave` and `vrest` of the four kinds of save image, and `lgrant`. A kind 2 or 3
image is a run of free bytes that stands for the state it was formed from (`Config.imageByte`); `vrest` restores the newest image
of its kind whose bytes all stand in memory. -/

namespace Sys2Proof.Machine

/-- A VPRIV instruction: no check of its own at steps 4 and 5, and no progress (R355). -/
def semPriv (m : WFields → M Unit) : Sem :=
  { illegal := neverIllegal, fault := noFault, run := fun f c s => endM c.slot (m f s) }

/-! ### Images in memory -/

/-- The address of an image (R355). -/
def imageBaseM (f : WFields) : M Word := do
  let s ← getS
  let ea := s.g f.vs3
  needM (ea.toNat % 64 == 0) { code := 6, val := ea }
  pure ea

/-- The lines of an image of `n` bytes, from byte `lo` on. -/
def imageLines (ea : Word) (lo n : Nat) : List Word := (List.range' (lo / 64) ((n - lo) / 64)).map fun i => ea + BitVec.ofNat 64 (64 * i)

/-- Translate the lines of an image before any byte moves (R257, R355). -/
def planImageM (acc : Acc) (vas : List Word) : M Unit := fun s =>
  match s.planTile acc 9 64 none vas with
  | .trap t => .error (.trap t s)
  | .halt => .error (.halt 4 s)
  | .wait => .error (.block s)
  | .go => .ok ((), s)

/-- Store lines of an image as the vector class stores. -/
def State.putLines (s : State) (vas : List Word) (bytes : Nat → Byte) : State :=
  vas.zipIdx.foldl (fun s x => s.pushBytes x.1 ((List.range 64).map fun i => bytes (64 * x.2 + i))) s

/-- Load lines of an image as the vector class loads. -/
def State.getLines (s : State) (vas : List Word) : State × List Nat :=
  let r := vas.foldl (fun (x : State × List Nat) va =>
    match x.1.useTile .load va 64 with
    | (t, some p) => let y := t.portRead p false 64 0; (y.1, y.2 :: x.2)
    | (t, none) => (t, 0 :: x.2)) (s, [])
  (r.1, r.2.reverse)

/-- The number that lines hold, the first lowest. -/
def linesNat : List Nat → Nat
  | [] => 0
  | x :: xs => x % 2 ^ 512 + 2 ^ 512 * linesNat xs

/-- Write an image: its lines are translated, then stored. -/
def saveM (f : WFields) (n : State → Nat) (bytes : State → Nat → Byte) : M Unit := do
  let ea ← imageBaseM f
  let s ← getS
  let vas := imageLines ea 0 (n s)
  planImageM .store vas
  modS fun s => s.putLines vas (bytes s)

/-- Read lines of an image: they are translated, then loaded. -/
def loadLinesM (vas : List Word) : M (List Nat) := do
  planImageM .load vas
  let s ← getS
  let r := s.getLines vas
  modS fun _ => r.1
  pure r.2

/-! ### Kinds 0 and 1 -/

/-- Byte i of a register. -/
def regByte (x : VReg) (i : Nat) : Byte := BitVec.ofNat 8 (x >>> (8 * i)).toNat

/-- `vsave vs, 0(gb)` (R355): 512 x G bytes. -/
def semVsave : Sem := semPriv fun f =>
  saveM f (fun s => 512 * s.h.groups) fun s i => regByte (s.h.vec.reg f.vd.toNat) i
/-- `vsave` (R355). -/
def execVsave (f : WFields) (s : State) : Out := runSingle .vsave semVsave f s

/-- `vsave.msk` (R355): m0-m7, then mf. -/
def semVsaveMsk : Sem := semPriv fun f =>
  saveM f (fun _ => 18432) fun s i => regByte (if i / 2048 < 8 then s.h.vec.mask (i / 2048) else s.h.vec.mf) (i % 2048)
/-- `vsave.msk` (R355). -/
def execVsaveMsk (f : WFields) (s : State) : Out := runSingle .vsaveMsk semVsaveMsk f s

/-- The work of `vrest vd, gs` (R355): every later bit of vd is zero. -/
def vrestM (f : WFields) : M Unit := do
  let ea ← imageBaseM f
  let s ← getS
  let gs := (s.g f.vs1).toNat
  needM (gs == 1 || gs == 2 || gs == 4) { code := 20, sub := 0, val := ea }
  let ls ← loadLinesM (imageLines ea 0 (512 * min gs s.h.groups))
  modS fun s => s.onVec fun v => { v with v := v.v.setIfInBounds f.vd.toNat (BitVec.ofNat 16384 (linesNat ls)) }
/-- `vrest` of a vector register (R355). -/
def semVrest : Sem := semPriv vrestM
/-- `vrest` of a vector register (R355). -/
def execVrest (f : WFields) (s : State) : Out := runSingle .vrest semVrest f s

/-- The work of `vrest.msk` (R355). Bits beyond the lanes of the grant are dropped, as a reclaim would drop them (R186, R357). -/
def vrestMskM (f : WFields) : M Unit := do
  let ea ← imageBaseM f
  let ls ← loadLinesM (imageLines ea 0 18432)
  let one (k : Nat) : VReg := BitVec.ofNat 16384 (linesNat ((ls.drop (32 * k)).take 32))
  modS fun s =>
    let keep (x : VReg) : VReg := BitVec.ofNat 16384 (x.toNat % 2 ^ (4096 * s.h.groups))
    s.onVec fun v => { v with m := Vector.ofFn fun k : Fin 8 => keep (one k), mf := keep (one 8) }
/-- `vrest.msk` (R355). -/
def semVrestMsk : Sem := semPriv vrestMskM
/-- `vrest.msk` (R355). -/
def execVrestMsk (f : WFields) (s : State) : Out := runSingle .vrestMsk semVrestMsk f s

/-! ### Kinds 2 and 3 -/

/-- The kind of an image. -/
def Image.kind : Image → Nat
  | .matrix _ _ => 2
  | .control _ _ _ => 3

/-- The size of an image (R355). -/
def Image.size : Image → Nat
  | .matrix _ mx => if mx.tshape.getLsbD 48 then 1179648 else 147456
  | .control _ _ _ => 512

/-- The image that `vsave` forms of the current hart. -/
def State.imageOf (s : State) (kind : Nat) : Image :=
  if kind = 2 then .matrix (s.h.hid.core) s.h.mx else .control s.h.ct s.h.ev s.h.sc

/-- Save a kind 2 or 3 image (R355); `vsave.ctl` begins a new count of posted completions. -/
def saveImageM (kind : Nat) (f : WFields) : M Unit := do
  saveM f (fun s => (s.imageOf kind).size) fun s i => Config.imageByte s.un.images.length i
  modS fun s =>
    let t := s.onUn fun u => { u with images := u.images ++ [s.imageOf kind] }
    if kind = 3 then t.onCt fun c => { c with posted := [] } else t

/-- `vsave.mx` (R355). -/
def semVsaveMx : Sem := semPriv (saveImageM 2)
/-- `vsave.mx` (R355). -/
def execVsaveMx (f : WFields) (s : State) : Out := runSingle .vsaveMx semVsaveMx f s
/-- `vsave.ctl` (R355). -/
def semVsaveCtl : Sem := semPriv (saveImageM 3)
/-- `vsave.ctl` (R355). -/
def execVsaveCtl (f : WFields) (s : State) : Out := runSingle .vsaveCtl semVsaveCtl f s

/-- The first n lines of image k. -/
def imageNats (k n : Nat) : List Nat :=
  (List.range n).map fun l => leNat ((List.range 64).map fun i => Config.imageByte k (64 * l + i))

/-- The images of a kind that begin with these lines, newest first. -/
def State.imagesWith (s : State) (kind : Nat) (ls : List Nat) : List Image :=
  (s.un.images.zipIdx.filter fun x =>
    x.1.kind == kind && decide (ls.length * 64 ≤ x.1.size) && imageNats x.2 ls.length == ls).reverse.map Prod.fst

/-- The image at an address, read by its header, then whole (R355). Nothing changes when its header or check value does not
match. -/
def findImageM (kind : Nat) (f : WFields) : M Image := do
  let ea ← imageBaseM f
  let bad : Trap := { code := 20, sub := kind, val := ea }
  let head := imageLines ea 0 64
  planImageM .load head
  let s ← getS
  match s.imagesWith kind (s.getLines head).2 with
  | [] => trapM bad
  | x :: _ => do
    let vas := imageLines ea 0 x.size
    planImageM .load vas
    let r := s.getLines vas
    match (s.imagesWith kind r.2).filter fun y => y.size == x.size with
    | [] => trapM bad
    | y :: _ => do
      modS fun _ => r.1
      pure y

/-- One part of eight moved from one core's place to another's. -/
def movePart (x : Vector (BitVec 262144) 8) (a b : Nat) : Vector (BitVec 262144) 8 :=
  (Vector.replicate 8 0).setIfInBounds b (x[a]?.getD 0)

/-- A part of a list of sums moved from one core's place to another's. -/
def moveSums (n : Nat) (l : List Word) (a b : Nat) : List Word :=
  List.replicate (n * b) 0 ++ (List.range n).map fun i => l.getD (n * a + i) 0

/-- Checksum state moved from one core's place to another's. -/
def Sums.move (x : Sums) (a b : Nat) : Sums :=
  { col := moveSums 64 x.col a b, row := moveSums 128 x.row a b, colB := moveSums 64 x.colB a b, rowB := moveSums 128 x.rowB a b }

/-- An accumulator of a single core moved from one core's place to another's (R255, R391). -/
def Accum.move (x : Accum) (a b : Nat) : Accum :=
  if a = b then x
  else { x with elems := movePart x.elems a b, ckElem := movePart x.ckElem a b, sums := x.sums.move a b, ckSums := x.ckSums.move a b }

/-- Take every unit of the classroom for the current hart (R234, R355), or join those that wait for them. -/
def State.acquireRoom (s : State) : State × Bool :=
  let o := s.h.own
  let s := (roomCores s.h.hid).foldl (fun s c =>
    let u := s.unitAt c
    if u.holder == some o || u.waiters.contains o then s else s.onUn fun x => x.putUnit { u with waiters := u.waiters ++ [o] }) s
  let mine (u : MatrixUnit) : Bool := u.holder == some o || (u.holder.isNone && u.waiters.head? == some o)
  if (roomCores s.h.hid).all fun c => mine (s.unitAt c) then (s.unwait.holdRoom, true) else (s, false)

/-- The work of `vrest.mx` (R355). -/
def vrestMxM (f : WFields) : M Unit := do
  let x ← findImageM 2 f
  match x with
  | .control _ _ _ => pure ()
  | .matrix core mx => fun s =>
    match mx.hold with
    | .none => .ok ((), s.holdNone.onMx fun _ => mx)
    | .classroom =>
      let r := s.acquireRoom
      if r.2 then .ok ((), r.1.onMx fun _ => mx) else .error (.block r.1)
    | .core =>
      let r := s.acquireUnit
      if r.2 then .ok ((), r.1.holdCore.onMx fun _ => { mx with acc := mx.acc.map fun a => a.move (core % 8) (s.h.hid.core % 8) })
      else .error (.block r.1)
/-- `vrest.mx` (R355). -/
def semVrestMx : Sem := semPriv vrestMxM
/-- `vrest.mx` (R355). -/
def execVrestMx (f : WFields) (s : State) : Out := runSingle .vrestMx semVrestMx f s

/-- A hart after `vrest.ctl` of an image (R355, R391): the completions posted since the image was formed are merged, and those with EV
raise engine completion where the saved mask had it. -/
def Hart.restoreControl (h : Hart) (ct : Control) (ev : Events) (sc : Scalar) : Hart :=
  let posted := h.ct.posted
  let up := posted.filter fun p => p.ev && ev.mask.getLsbD 0 && !ev.engine.contains p.pos
  let bind := (posted.filterMap fun p => p.bind).getLast?
  { h with
    sc := { h.sc with frames := sc.frames, lc := sc.lc, lx := sc.lx, larg := sc.larg, corr := sc.corr }
    ev := { h.ev with shadow := ev.shadow, info := ev.info, ldn := ev.ldn, code := ev.code, inHandler := ev.inHandler,
                      engine := ev.engine ++ up.map Posted.pos, apop := ev.apop, checksum := ev.checksum, reach := ev.reach }
    ct := { h.ct with isles := ct.isles, isleIx := ct.isleIx, harts := ct.harts, hartIx := ct.hartIx, kinds := ct.kinds,
                      member := ct.member, stack := bind.getD ct.stack, popped := if bind.isSome then none else ct.popped,
                      pending := ct.pending.filter fun k => posted.all fun p => p.pos != k, posted := [], wm := ct.wm,
                      armed := ct.armed, begun := ct.begun, touched := ct.touched } }

/-- The work of `vrest.ctl` (R355, R391). -/
def vrestCtlM (f : WFields) : M Unit := do
  let x ← findImageM 3 f
  match x with
  | .matrix _ _ => pure ()
  | .control ct ev sc => modS fun s => { s with h := s.h.restoreControl ct ev sc }
/-- `vrest.ctl` (R355). -/
def semVrestCtl : Sem := semPriv vrestCtlM
/-- `vrest.ctl` (R355). -/
def execVrestCtl (f : WFields) (s : State) : Out := runSingle .vrestCtl semVrestCtl f s

/-! ### `lgrant` (R354) -/

/-- The groups that `lgrant` chooses for a request; none where nothing changes. -/
def State.lgrantGroups (s : State) (q : Nat) : Option (List Nat) :=
  let own := groupList s.h.su.lgMap
  let free := freeSlices s.harts s.h.hid.core
  let more := (List.range 4).filter fun i => !own.contains i && decide (0 < free.getD i 0)
  (([4, 2, 1].filter fun g => g ≤ q).find? fun g => decide (g ≤ own.length + more.length)).map fun g => (own ++ more).take g

/-- The work of `lgrant` (R354). -/
def lgrantM (f : WFields) : M Unit := modS fun s =>
  let q := (s.g f.vs1).toNat
  if q = 1 ∨ q = 2 ∨ q = 4 then
    match s.lgrantGroups q with
    | some gs => (s.regrant (mapOf gs)).setG f.vd (BitVec.ofNat 64 gs.length)
    | none => s.setG f.vd 0
  else s.setG f.vd 0
/-- `lgrant` (R354). -/
def semLgrant : Sem := semPriv lgrantM
/-- `lgrant` (R354). -/
def execLgrant (f : WFields) (s : State) : Out := runSingle .lgrant semLgrant f s

end Sys2Proof.Machine
end

