-- ==== Sys2Proof/Machine/Convoy.lean ====
section
/-! DEFINITION. Convoys (R141-R143, R195-R197, R439). The slots of a convoy run one after another, each as far as R195 lets it; a
stop records the progress of every slot. What a slot reads of g registers is what they held before the convoy (R185). -/

namespace Sys2Proof.Machine

/-- What each W operation means. -/
def semOf : WOp → Sem
  | .vadd => semVadd
  | .vsub => semVsub
  | .vrsub => semVrsub
  | .vand => semVand
  | .vor => semVor
  | .vxor => semVxor
  | .vsll => semVsll
  | .vsrl => semVsrl
  | .vsra => semVsra
  | .vmin => semVmin
  | .vmax => semVmax
  | .vminu => semVminu
  | .vmaxu => semVmaxu
  | .vmul => semVmul
  | .vmulh => semVmulh
  | .vmulhu => semVmulhu
  | .vmacc => semVmacc
  | .vsadd => semVsadd
  | .vssub => semVssub
  | .vsaddu => semVsaddu
  | .vssubu => semVssubu
  | .vsel => semVsel
  | .vabsd => semVabsd
  | .vmv => semVmv
  | .vwadd => semVwadd
  | .vwaddu => semVwaddu
  | .vwmul => semVwmul
  | .vwmulu => semVwmulu
  | .vwmacc => semVwmacc
  | .vnsrl => semVnsrl
  | .vnclip => semVnclip
  | .vnclipu => semVnclipu
  | .vfadd => semVfadd
  | .vfsub => semVfsub
  | .vfmul => semVfmul
  | .vfdiv => semVfdiv
  | .vfsqrt => semVfsqrt
  | .vfmin => semVfmin
  | .vfmax => semVfmax
  | .vfabs => semVfabs
  | .vfneg => semVfneg
  | .vfma => semVfma
  | .vfms => semVfms
  | .vfnma => semVfnma
  | .vfnms => semVfnms
  | .vfwma => semVfwma
  | .vfcvt => semVfcvt
  | .vfcvtI => semVfcvtI
  | .vicvtF => semVicvtF
  | .vsf => semVsf
  | .vcmp => semVcmp
  | .vfcmp => semVfcmp
  | .vredsum => semVredsum
  | .vredmax => semVredmax
  | .vredmin => semVredmin
  | .vredmaxu => semVredmaxu
  | .vredminu => semVredminu
  | .vredand => semVredand
  | .vredor => semVredor
  | .vfredsum => semVfredsum
  | .vfredtree => semVfredtree
  | .vfredmax => semVfredmax
  | .vfredmin => semVfredmin
  | .vscan => semVscan
  | .vfscan => semVfscan
  | .vslideup => semVslideup
  | .vslidedown => semVslidedown
  | .vgather => semVgather
  | .vcompress => semVcompress
  | .vexpand => semVexpand
  | .vbcast => semVbcast
  | .vins => semVins
  | .vext => semVext
  | .vidx => semVidx
  | .mand => semMand
  | .mor => semMor
  | .mxor => semMxor
  | .mandn => semMandn
  | .mnot => semMnot
  | .mcount => semMcount
  | .mfirst => semMfirst
  | .mall => semMall
  | .mmov => semMmov
  | .vld => semVld
  | .vlds => semVlds
  | .vldx => semVldx
  | .vldff => semVldff
  | .vldd => semVldd
  | .vst => semVst
  | .vsts => semVsts
  | .vstx => semVstx
  | .vstxu => semVstxu
  | .vstd => semVstd
  | .vamoAdd => semVamoAdd
  | .vamoAnd => semVamoAnd
  | .vamoOr => semVamoOr
  | .vamoXor => semVamoXor
  | .vamoMin => semVamoMin
  | .vamoMax => semVamoMax
  | .vamoSwap => semVamoSwap
  | .vamoFadd => semVamoFadd
  | .vamoAddDesc => semVamoAddDesc
  | .vamoAndDesc => semVamoAndDesc
  | .vamoOrDesc => semVamoOrDesc
  | .vamoXorDesc => semVamoXorDesc
  | .vamoMinDesc => semVamoMinDesc
  | .vamoMaxDesc => semVamoMaxDesc
  | .vamoSwapDesc => semVamoSwapDesc
  | .vamoFaddDesc => semVamoFaddDesc
  | .mtld => semMtld
  | .mtrel => semMtrel
  | .mast => semMast
  | .maz => semMaz
  | .mald => semMald
  | .mmac => semMmac
  | .mmacs => semMmacs
  | .mmacx => semMmacx
  | .mdrain => semMdrain
  | .mloc => semMloc
  | .mfix => semMfix
  | .mretry => semMretry
  | .mcksum => semMcksum
  | .ecmd => semEcmd
  | .ewait => semEwait
  | .epoll => semEpoll
  | .apush => semApush
  | .apop => semApop
  | .afetch => semAfetch
  | .aprobe => semAprobe
  | .swbegin => semSwbegin
  | .swnext => semSwnext
  | .swcommit => semSwcommit
  | .swend => semSwend
  | .rtget => semRtget
  | .rtset => semRtset
  | .vsave => semVsave
  | .vsaveMsk => semVsaveMsk
  | .vsaveMx => semVsaveMx
  | .vsaveCtl => semVsaveCtl
  | .vrest => semVrest
  | .vrestMsk => semVrestMsk
  | .vrestMx => semVrestMx
  | .vrestCtl => semVrestCtl
  | .lgrant => semLgrant

/-- A slot of a convoy. -/
structure Slot where
  op : WOp
  f  : WFields
  deriving DecidableEq, Repr

/-- The unit code of a W class (R142). -/
def unitOf (op8 : Nat) : Option Nat :=
  match op8 with
  | 0x10 | 0x11 | 0x12 | 0x20 => some 0
  | 0x01 | 0x02 | 0x07 | 0x0A => some 1
  | 0x03 | 0x04 | 0x05 | 0x06 => some 2
  | 0x08 | 0x09 => some 3
  | 0x21 | 0x22 => some 4
  | 0x30 | 0x31 | 0x32 | 0x33 => some 5
  | _ => none

/-! ### Checks of the encoding (step 2 of R151) -/

/-- Conditions 1 to 3 of R143: n slots, unit codes below n valid and distinct, the rest empty. -/
def headerBad (nm2 : Nat) (us : List Nat) : Bool :=
  decide (4 < nm2) || ((us.take (nm2 + 2)).any fun u => decide (5 < u)) || ((us.drop (nm2 + 2)).any fun u => u != 7)
    || !decide (us.take (nm2 + 2)).Nodup

/-- A frame ends inside a convoy of n slots (R132). -/
def Scalar.endsInside (sc : Scalar) (n : Nat) : Bool := sc.frames.any fun f => decide ((f.stop - (sc.pc + 4)).toNat < 8 * n)

/-- A slot writes a register that a lower slot reads or writes (condition 6 of R143), by register numbers, or by whole spans with a
VTYPE (R439). -/
def clashes (v : Option Vec) (lower : List Slot) (x : Slot) : Bool :=
  lower.any fun y => (writesOf v x.op x.f).any fun a =>
    (readsOf v y.op y.f).any (fun b => a.meets b) || (writesOf v y.op y.f).any fun b => a.meets b

/-- The slots of the words behind a header, or the first failure: the trap that it is (R143 conditions 4 to 6, R142, R211). `hw` is
the header word. -/
def slotsOfWords (hw : Nat) : List Nat → List Nat → List Slot → Except Trap (List Slot)
  | w :: ws, u :: us, done =>
    let bad : Trap := { code := 1, val := BitVec.ofNat 64 w, lane := BitVec.ofNat 64 (done.length * 2 ^ 16) }
    if w % 4 ≠ 2 then .error { code := 1, val := BitVec.ofNat 64 hw }
    else match decodeW w with
    | .error _ => .error bad
    | .ok (op, f) =>
      if unitOf op.spec.op8 ≠ some u ∨ op = .vldff ∨ clashes none done ⟨op, f⟩ then .error bad
      else slotsOfWords hw ws us (done ++ [⟨op, f⟩])
  | _, _, done => .ok done

/-! ### Chaining (R195) -/

/-- The slots below k that feed slot k (R143). -/
def feeders (v : Vec) (ss : List Slot) (k : Nat) : List Nat :=
  match ss[k]? with
  | none => []
  | some x => (List.range k).filter fun j => match ss[j]? with
    | none => false
    | some y => (readsOf (some v) x.op x.f).any fun a => (writesOf (some v) y.op y.f).any fun b => a.meets b

/-- The input kind of a slot (R195). -/
def Slot.inKind (x : Slot) : Chain :=
  match x.op.spec.inKind with
  | .bcast => if x.f.s1 then .elem else .whole
  | .none => .elem
  | c => c

/-- A feeding slot must be complete before the fed slot begins (R195, R196, R218). -/
def State.wholeLink (s : State) (j k : Slot) : Bool := j.op.spec.outKind != .elem || k.inKind != .elem || s.isI j.op j.f

/-- A SWEEP instruction (R276). -/
def Slot.isSweep (x : Slot) : Bool := x.op.spec.op8 == 0x33

/-- A rate-mode load (R273). -/
def Slot.isRate (s : State) (x : Slot) : Bool := x.op == .vldd && (s.descAt x.f).rate != 0

/-- A conversion that will add 1 to SRSTEP.STEP (R62). -/
def Slot.steps (s : State) (x : Slot) : Bool :=
  (x.op == .vfcvt || x.op == .vfcvtI || x.op == .vicvtF) && s.modeOf (rmCode x.f) == 4 && decide (0 < s.vl)

/-- How many of some slots add to SRSTEP.STEP. -/
def stepsOf (s : State) (ss : List Slot) : BitVec 16 := BitVec.ofNat 16 (ss.countP fun x => x.steps s)

/-! ### Progress -/

/-- Slot progress as VSTART, CPV0 and CPV1 hold it (R24, R25). -/
def Vec.progress (v : Vec) : List Nat :=
  [v.vstart.toNat, fieldOf v.cpv0 0 16, fieldOf v.cpv0 16 16, fieldOf v.cpv0 32 16, fieldOf v.cpv1 0 16, fieldOf v.cpv1 16 16]

/-- The hart is stopped inside a convoy (R24). -/
def Vec.inConvoy (v : Vec) : Bool := fieldOf v.cpv0 63 1 == 1

/-- The progress that a convoy of n slots starts from: as saved, or VSTART for slot 0 alone. -/
def Vec.startProgress (v : Vec) (n : Nat) : List Nat :=
  if v.inConvoy then v.progress.take n else v.vstart.toNat :: List.replicate (n - 1) 0

/-- The progress of a convoy's slots in VSTART, CPV0 and CPV1 (R24, R25). -/
def Vec.saved (v : Vec) (ps : List Nat) : Vec :=
  let p (k : Nat) : Nat := ps.getD k 0
  { v with
    vstart := BitVec.ofNat 15 (p 0)
    cpv0 := BitVec.ofNat 64 (2 ^ 63 + (ps.length - 2) * 2 ^ 60 + p 3 * 2 ^ 32 + p 2 * 2 ^ 16 + p 1)
    cpv1 := BitVec.ofNat 64 (p 5 * 2 ^ 16 + p 4) }

/-- Record a stop (R196). -/
def State.saveProgress (s : State) (ps : List Nat) : State := s.setCtl fun v => v.saved ps

/-- Leave the progress at the elements that a convoy waits at. -/
def State.holdProgress (s : State) (ps : List Nat) : State :=
  if s.h.vec.inConvoy && s.h.vec.progress.take ps.length == ps then s else s.saveProgress ps

/-- Saved progress that cannot be resumed (R26, R192, R197). -/
def State.progressBad (s : State) (ss : List Slot) : Bool :=
  let v := s.h.vec
  let n := ss.length
  let ps := v.startProgress n
  (v.inConvoy && fieldOf v.cpv0 60 3 + 2 != n) || ps.any (fun p => decide (s.vl < p))
    || (List.range n).any fun k =>
      let p := ps.getD k 0
      match ss[k]? with
      | none => false
      | some x => (s.isI x.op x.f && p != 0 && p != s.vl) || (feeders v ss k).any fun j => match ss[j]? with
        | none => false
        | some y => decide (ps.getD j 0 < p) || (s.wholeLink y x && p != 0 && ps.getD j 0 != s.vl)

/-! ### Checks that read state (steps 3 to 5 of R151) -/

/-- The first failure among slots by a check, as a trap in its slot. -/
def firstTrap (ss : List Slot) (check : Nat → Slot → Option Trap) : Option Trap :=
  ss.zipIdx.findSome? fun x => (check x.2 x.1).map fun t => t.inSlot x.2

/-- The first check of steps 3 to 5 that a convoy fails. An absent state is reported with the header (R343, R394). -/
def State.convoyFault (s : State) (hw : Nat) (ss : List Slot) : Option Trap :=
  let ps := s.h.vec.startProgress ss.length
  (firstTrap ss fun _ x => (s.wAccess x.op).map fun c => { code := c, val := BitVec.ofNat 64 hw })
  <|> (if s.progressBad ss then some { code := 1, val := BitVec.ofNat 64 hw } else none)
  <|> (firstTrap ss fun k x =>
        if s.wIllegal4 x.op (semOf x.op) x.f || clashes (some s.h.vec) (ss.take k) x then some { code := 1, val := wEnc x.op x.f } else none)
  <|> (firstTrap ss fun k x => (semOf x.op).fault s x.f (ps.getD k 0))

/-! ### Running -/

/-- A convoy under way: the state, each slot's progress, which slots are complete, and what stopped it. `g0` is the g file that the convoy
reads (R185), `olds` what it reads of the registers that its complete slots have written, and `step` SRSTEP.STEP as it began (R62). `mf` is the slot
whose elements stand in mf, if any do (R231); `ahead` the elements, by slot, that have performed ahead of their turn (R108). -/
structure ConvoyRun where
  s    : State
  ps   : List Nat
  fin  : List Bool
  halt : Option (Nat × SlotEnd)
  g0   : Vector Word 32
  olds : List (Reg × Word)
  step : BitVec 16
  mf   : Option Nat
  ahead : List (Nat × Nat)
  deriving DecidableEq, Repr

/-- The g registers that a slot writes when it completes, in order: a scalar destination, the slot number of `apush`, or both of `mloc`
(R135, R251, R297). -/
def Slot.dests (x : Slot) : List Reg :=
  if x.op = .apush then [x.f.vs3]
  else if x.op = .mloc then [x.f.vs3, x.f.vd]
  else if x.op.spec.vd = .scalar then [x.f.vd] else []

/-- How far a slot may go (R195); none where it cannot begin. A rate-mode load follows every lower SWEEP slot (R317), a matrix instruction every
lower one (R258). -/
def ConvoyRun.limit (r : ConvoyRun) (ss : List Slot) (k : Nat) (x : Slot) : Option Nat :=
  let early (j : Nat) : Bool := match ss[j]? with
    | some y => ((x.isRate r.s && y.isSweep) || (isMatrix x.op && isMatrix y.op)) && !r.fin.getD j true
    | none => false
  if (List.range k).any early then none
  else (feeders r.s.h.vec ss k).foldl (fun (lim : Option Nat) j => match lim, ss[j]? with
    | some l, some y =>
      if r.fin.getD j true then some l
      else if r.s.wholeLink y x then none
      else some (min l (r.ps.getD j 0))
    | l, _ => l) (some r.s.vl)

/-- Slot k has completed, leaving `out` (R135, R196): what it wrote of the g file goes over the live one. -/
def ConvoyRun.slotDone (r : ConvoyRun) (k : Nat) (x : Slot) (out back : State) : ConvoyRun :=
  let old (d : Reg) : Word := r.g0[d.toNat]?.getD 0
  { r with
    s := (x.dests.foldl (fun t d => t.setG d (out.g d)) back).onSc fun sc =>
      { sc with srstep := sc.srstep + bif x.steps back then 1 else 0 }
    ps := r.ps.set k r.s.vl, fin := r.fin.set k true, olds := r.olds ++ x.dests.map fun d => (d, old d) }

/-- The state as slot k meets it: the g file and SRSTEP that it entered the queue with (R62, R185). -/
def ConvoyRun.enter (r : ConvoyRun) (ss : List Slot) (k : Nat) : State :=
  r.s.onSc fun sc => { sc with g := r.g0, srstep := r.step + stepsOf r.s (ss.take k) }

/-- The run after a part of slot k: mf is that slot's, once something stands in it. -/
def ConvoyRun.left (r : ConvoyRun) (k : Nat) (back : State) : ConvoyRun :=
  { r with s := back, mf := if back.h.vec.mf = 0 then none else r.mf.orElse fun _ => some k }

/-- Run slot k up to `want`, as far as R195 lets it. -/
def ConvoyRun.runSlot (r : ConvoyRun) (ss : List Slot) (k want : Nat) : ConvoyRun :=
  match ss[k]?, r.halt, r.fin.getD k true with
  | some x, none, false =>
    match r.limit ss k x with
    | none => r
    | some fed =>
      let hi := min want fed
      let lo := r.ps.getD k 0
      if (hi < r.s.vl ∧ hi ≤ lo) ∨ (r.s.isI x.op x.f ∧ hi < r.s.vl) then r
      else
        let sc0 := r.s.h.sc
        let c : Part := { slot := k, lo := lo, hi := hi, fed := fed, skip := (r.ahead.filter fun a => a.1 == k).map Prod.snd
                          owns := r.mf.all fun j => j == k }
        let e := (semOf x.op).run x.f c (r.enter ss k)
        let back := e.1.onSc fun sc => { sc with g := sc0.g, ldn := sc0.ldn, srstep := sc0.srstep }
        let r := r.left k back
        match e.2 with
        | .done => r.slotDone k x e.1 back
        | .part p | .wait p => { r with ps := r.ps.set k p }
        | .trap p t => { r with ps := r.ps.set k p, halt := some (k, .trap p t) }
        | .halt p c => { r with ps := r.ps.set k p, halt := some (k, .halt p c) }
        | .check a => { r with halt := some (k, .check a) }
  | _, _, _ => r

/-- The order in which the slots of a whole convoy run: a drain that no slot feeds, and before which no matrix instruction stands (R258), runs first, so
that its failure finds nothing begun. Under an element step they run in slot order (R411). -/
def runOrder (v : Vec) (ss : List Slot) : List Nat :=
  let ks := List.range ss.length
  let early (k : Nat) : Bool := match ss[k]? with
    | some x => x.op == .mdrain && (feeders v ss k).isEmpty && (ss.take k).all fun y => !isMatrix y.op
    | none => false
  ks.filter early ++ ks.filter fun k => !early k

/-- What stands of the convoy at the pc from an earlier stop: no more than its progress, where the model's own record is of another. -/
def State.resumed (s : State) (n : Nat) : Option Begun :=
  s.h.ct.begun.filter fun b =>
    s.h.vec.inConvoy && b.pc == s.h.sc.pc && b.fin.length == n && b.ps == s.h.vec.progress.take n

/-- The slot whose elements stand in mf, where no record of the stop says so: the first that may put elements there and stands at the lowest. -/
def State.mfSlot (s : State) (ss : List Slot) (ps : List Nat) : Option Nat :=
  let may := ss.zipIdx.filter fun x => writesMf x.1.op
  ((may.find? fun x => ps.getD x.2 0 == s.lowestMf s.vl).orElse fun _ => may.head?).map Prod.snd

/-- A convoy as it begins or goes on: every slot restarts at its own progress, and reads what it would have read without the stop
(R23, R196). -/
def State.startRun (s : State) (ss : List Slot) : ConvoyRun :=
  let ps := s.h.vec.startProgress ss.length
  let b := s.resumed ss.length
  let olds := (b.map Begun.olds).getD []
  let fin := (b.map Begun.fin).getD (ps.map fun p => s.h.vec.inConvoy && p != 0 && p == s.vl)
  let done := (ss.zip fin).filterMap fun x => if x.2 then some x.1 else none
  { s := s, ps := ps, fin := fin, halt := none, olds := olds
    g0 := olds.foldl (fun g o => g.setIfInBounds o.1.toNat o.2) s.h.sc.g
    step := s.h.sc.srstep - stepsOf s done
    mf := if s.h.vec.mf = 0 then none else (b.bind Begun.mf).orElse fun _ => s.mfSlot ss ps
    ahead := [] }

/-- Run every slot to its target. -/
def State.runSlots (s : State) (ss : List Slot) (order : List Nat) (target : Nat → Slot → Nat) : ConvoyRun :=
  order.foldl (fun r k => match ss[k]? with
    | some x => r.runSlot ss k (target k x)
    | none => r) (s.startRun ss)

/-- The target of each slot under an element step (R411): one element, or all of it where it is indivisible. -/
def stepTarget (s : State) (ps : List Nat) (k : Nat) (x : Slot) : Nat :=
  if s.isI x.op x.f then s.vl else min s.vl (ps.getD k 0 + 1)

/-- A convoy stops: its progress is recorded (R196), with what its complete slots have written and which they are. -/
def ConvoyRun.stop (r : ConvoyRun) (waits : Bool) : State :=
  (if waits then r.s.holdProgress r.ps else r.s.saveProgress r.ps).onCt fun c => { c with begun := some ⟨r.s.h.sc.pc, r.ps, r.olds, r.fin, r.mf⟩ }

/-- A convoy leaves nothing begun. -/
def ConvoyRun.clear (r : ConvoyRun) : State := (r.s.onCt fun c => { c with begun := none }).clearProgress

/-- The end of a run of slots (R196): completion, or a stop with its progress recorded. `waits`: an unfinished convoy that nothing
stopped is waiting. -/
def ConvoyRun.finish (r : ConvoyRun) (waits : Bool) : State :=
  let s := r.s
  if r.fin.all id then r.clear.advance (4 + 8 * r.fin.length)
  else match r.halt with
  | some (_, .trap _ t) => (r.stop false).trapHere t
  | some (_, .halt _ c) => (r.stop false).haltHere c
  | some (k, .check a) =>
    if (r.ps.all fun p => p == 0) && (r.fin.all fun b => !b) && !s.h.su.sup && s.h.ev.mask.getLsbD 2 && !s.h.ev.inHandler then r.clear.checksumFault a k
    else (r.stop false).checksumFault a k
  | _ => if waits then (r.stop true).onDbg fun d => { d with stalled := true } else r.stop false

/-- The unit codes of a header. -/
def codesOf (us : List (BitVec 3)) : List Nat := us.map BitVec.toNat

/-- The slots of the convoy at the pc: every parcel fetched (R130), then the checks of the encoding. -/
def convoySlotsM (hw nm2 : Nat) (us : List Nat) : M (List Slot) := do
  let s ← getS
  let n := nm2 + 2
  let w ← fetchParcels (s.h.sc.pc + 4) (if 4 < nm2 then 0 else 4 * n)
  if headerBad nm2 us || s.h.sc.endsInside n then illegalM hw
  else match slotsOfWords hw ((List.range n).map fun k => natField w (64 * k) 64) us [] with
    | .error t => trapM t
    | .ok ss => pure ss

/-- The header word. -/
def headerWord (nm2 : Nat) (us : List Nat) : Nat := 3 + nm2 * 4 + (us.zipIdx.map fun u => u.1 * 2 ^ (5 + 3 * u.2)).sum

/-- A convoy from its header on, in an order and to the given targets. -/
def runConvoy (nm2 : Nat) (us : List Nat) (order : State → List Slot → List Nat) (target : State → Nat → Slot → Nat) (waits : Bool)
    (s : State) : Out :=
  let hw := headerWord nm2 us
  match convoySlotsM hw nm2 us s with
  | .error e => e.out
  | .ok (ss, s1) => match s1.convoyFault hw ss with
    | some t => .next (s1.trapHere t)
    | none => .next ((s1.runSlots ss (order s1 ss) (target s1)).finish waits)

/-- A convoy header (R141-R143). -/
def execConvoy (nm2 u0 u1 u2 u3 u4 u5 : BitVec 3) (s : State) : Out :=
  let step := s.h.dbg.run == some true && decide (0 < s.vl)
  runConvoy nm2.toNat (codesOf [u0, u1, u2, u3, u4, u5])
    (fun s ss => if step then List.range ss.length else runOrder s.h.vec ss)
    (fun s k x => if step then stepTarget s (s.h.vec.startProgress (nm2.toNat + 2)) k x else s.vl) (!step) s

end Sys2Proof.Machine
end

