-- ==== Sys2Proof/Machine/Events.lean ====
section
/-! DEFINITION. What happens at a hart's stop point and in the memory system by itself: asynchronous traps (R344), the report of parked
stores (R371), user-level events (R41, R442), the replay queue (R372), pin queues (R121), held tagged loads (R228), store buffers
(R76), invalidations and fills (R93, R94), the `fence.sc` token (R106) and host snoops (R420). -/

namespace Sys2Proof.Machine

/-! ### Asynchronous traps -/

/-- The lowest code among causes; the earliest of them. -/
def lowestCause (cs : List AsyncCause) : Option AsyncCause :=
  cs.foldl (fun b c => match b with
    | none => some c
    | some x => if c.code < x.code then some c else some x) none

/-- The asynchronous cause that a hart takes at its stop point (R344): a machine check first; another, the lowest code first, in user
mode or with SSTATUS.AE = 1. -/
def Hart.takable (h : Hart) : Option AsyncCause :=
  if !h.live || h.dbg.halted then none
  else match h.pend.find? fun c => c.code == 35 with
    | some c => some c
    | none => if h.su.sup && !h.su.ae then none else lowestCause h.pend

/-- What stands at the pc: the W instruction, or the first of a convoy. Nothing is changed by looking. -/
def State.headW (s : State) : Option Slot :=
  let word (va : Word) : Option Nat := match fetchInstr va s with
    | .ok (w, _) => some w
    | .error _ => none
  match word s.h.sc.pc with
  | none => none
  | some w =>
    let w' := if w % 4 = 3 then (word (s.h.sc.pc + 4)).getD 0 else w
    if w' % 4 = 2 then (match decodeW w' with
      | .ok (op, f) => some ⟨op, f⟩
      | .error _ => none)
    else none

/-- SLANE for a pre-emption (R343): the progress of slot 0 when the hart is stopped inside a W instruction or a convoy. -/
def State.preemptLane (s : State) : Word :=
  if s.h.vec.vstart = 0 ∧ ¬ s.h.vec.inConvoy then 0
  else match s.headW with
    | some x => s.lane x.op x.f s.h.vec.vstart.toNat 0
    | none => 0

/-- A single W instruction goes on to an element before a stop (R196). -/
def State.partSingle (s : State) (op : WOp) (f : WFields) (target : Nat) : State :=
  if isPriv op || (s.singleFault op (semOf op) f).isSome then s
  else
    let lo := s.h.vec.vstart.toNat
    let hi := min target s.vl
    if (s.isI op f ∧ hi < s.vl) ∨ hi < lo then s
    else
      let r := (semOf op).run f { slot := 0, lo := lo, hi := hi, fed := s.vl } s
      match r.2 with
      | .done => r.1.clearProgress.advance 8
      | .part k | .trap k _ | .wait k | .halt k _ => r.1.setVstart k
      | .check _ => s

/-- A convoy goes on to given progress before a stop (R196). -/
def State.partConvoy (s : State) (nm2 : Nat) (us : List Nat) (ps : List Nat) : State :=
  match convoySlotsM (headerWord nm2 us) nm2 us s with
  | .error _ => s
  | .ok (ss, s1) => match s1.convoyFault (headerWord nm2 us) ss with
    | some _ => s
    | none =>
      let r := s1.runSlots ss (List.range ss.length) fun k _ => min s1.vl (ps.getD k 0)
      if r.fin.all id then r.clear.advance (4 + 8 * r.fin.length)
      else match r.halt with
        | some (_, .check _) => s
        | _ => r.stop false

/-- The instruction at the stop point goes on to given progress: elements may complete before a stop (R196). -/
def State.goOn (s : State) (ps : List Nat) : State :=
  if ps.isEmpty then s
  else match fetchInstr s.h.sc.pc s with
    | .error _ => s
    | .ok (w, s1) => match decodeWord w with
      | .ok (.wide op f) => s1.partSingle op f (ps.getD 0 0)
      | .ok (.plain (.convoy n a b c d e x)) => s1.partConvoy n.toNat (codesOf [a, b, c, d, e, x]) ps
      | _ => s

/-- The trap of an asynchronous cause (R343, R369). -/
def AsyncCause.trap (c : AsyncCause) (lane : Word) : Trap :=
  { code := c.code, sub := c.sub, async := true, val := c.sval, lane := lane
    batch := c.batch.map fun b => { va := b.1, level := b.2.1, src := b.2.2.1, wr := b.2.2.2, first := 0, nel := 1 } }

/-- `ASYNC_TRAP_TAKEN` (R344): the current hart takes the pending cause that comes first, with its vector stream stopped at the given
progress. What stands in the vector queue completes first (R336), and so do the loads that have been issued. -/
def execAsyncTrapTaken (progress : List Nat) (s : State) : Out :=
  let s := s.loadsDone
  if !s.h.queue.isEmpty || !s.h.loads.isEmpty then .next s
  else match s.h.takable with
  | none => .next s
  | some c =>
    let s := s.goOn progress
    let s := { s with h := { s.h with pend := s.h.pend.erase c } }
    .next (s.trapEntry (c.trap (if c.code = 32 then s.preemptLane else 0)) s.h.sc.pc)

/-! ### Parked stores at a stop point (R371) -/

/-- The parked entries of the current hart whose page has not been reported. -/
def State.unreported (s : State) : List Parked := s.ca.parked.filter fun p => p.own == s.h.own && !p.reported

/-- The residency trap for parked stores, where one is due at this stop point (R371): the pages not yet reported in increasing order of their
lowest element (R369), and the lowest address that the hart has parked. In supervisor mode it waits for SSTATUS.AE = 1, as R344 has it of
what comes at a stop point (log 33). -/
def State.parkedReport (s : State) : Option State :=
  let ps := s.unreported
  if ps.isEmpty || (s.h.su.sup && !s.h.su.ae) then none
  else
    let held (l : List Parked) : List Held := l.map fun p => ⟨p.elem, p.va, p.level⟩
    let pages := heldPages 3 true (sortBy (fun a b => decide (a.e < b.e)) (held ps))
    let seen := pages.take 16
    let t : Trap := { code := 9, sub := min 16 pages.length, batch := pages
                      val := lowestVa (held (s.ca.parked.filter fun p => p.own == s.h.own)) }
    let s := s.onCa fun c => { c with parked := c.parked.map fun p =>
      if p.own = s.h.own ∧ (seen.any fun b => samePage b.va p.va) then { p with reported := true } else p }
    some (s.trapHere t)

/-! ### User-level events (R41, R442) -/

/-- The published value of a watermark number of the current hart, where its cell can be read. -/
def State.published (s : State) (k : Nat) : Option Nat :=
  match s.translate s.h.space .load (s.wmCell k) with
  | .ok p => some (s.mem.num p.pa 8)
  | .error _ => none

/-- The armed reaches of the current hart that are met raise cause 4 (R229, R442): in user mode, while ULEMASK.WMR = 1. -/
def State.checkReaches (s : State) : State :=
  if !s.h.live || s.h.su.sup || !s.h.ev.mask.getLsbD 3 then s
  else
    let met := s.h.ct.armed.filter fun a => !s.h.ev.reach.contains a.1 && (match s.published a.1 with
      | some p => decide (a.2.toNat ≤ p)
      | none => false)
    s.onEv fun e => { e with reach := e.reach ++ met.map Prod.fst }

/-- The lowest number of a list. -/
def lowestOf (l : List Nat) : Option Nat := l.foldl (fun b x => match b with
  | none => some x
  | some y => some (min x y)) none

/-- The source that is delivered next, with its cause (R41): checksum fault, watermark reach, engine completion, apop arrival. -/
def Events.next (e : Events) : Option (Nat × Nat) :=
  let one (bit : Nat) (code : Nat) (src : Option Nat) : Option (Nat × Nat) :=
    if e.mask.getLsbD bit then src.map fun n => (code, n) else none
  one 2 3 (lowestOf e.checksum) <|> one 3 4 (lowestOf e.reach) <|> one 0 1 (lowestOf e.engine) <|> one 1 2 (lowestOf e.apop)

/-- A source is no longer raised. -/
def Events.lower (e : Events) (code n : Nat) : Events :=
  match code with
  | 1 => { e with engine := e.engine.filter fun x => x != n }
  | 2 => { e with apop := e.apop.filter fun x => x != n }
  | 3 => { e with checksum := e.checksum.filter fun x => x != n }
  | _ => { e with reach := e.reach.filter fun x => x != n }

/-- A hart that may take an event (R41): in user mode, with no handler running. -/
def Hart.canDeliver (h : Hart) : Bool := h.live && !h.dbg.halted && !h.su.sup && !h.ev.inHandler

/-- The hart stands inside the W instruction or convoy at its pc: that is no boundary between instructions (R41). -/
def State.insideW (s : State) : Bool :=
  (s.h.vec.vstart != 0 || s.h.vec.inConvoy || s.h.vec.mf != 0) && (match s.headW with
    | some x => !isPriv x.op
    | none => false)

/-- The instruction at the pc is `wait event`. -/
def State.atWait (s : State) : Bool :=
  match fetchInstr s.h.sc.pc s with
  | .ok (w, _) => (match decodeWord w with
    | .ok (.plain .waitEvent) => true
    | _ => false)
  | .error _ => false

/-- A raised source is delivered (R41); a hart at `wait event` resumes after it (R179). A reach is disarmed (R229). -/
def Hart.takeEvent (h : Hart) (code n : Nat) (atWait : Bool) : Hart :=
  let h := { h with ev := h.ev.lower code n, ct := if code = 4 then { h.ct with armed := h.ct.armed.filter fun a => a.1 != n } else h.ct }
  let h := if atWait then { h with sc := h.sc.endAt (h.sc.pc + 4) } else h
  h.deliver code n h.sc.pc

/-- `USER_EVENT_DELIVERY` (R41): the current hart takes its next raised source, where it can. Vector work in its queue goes on; a load that has been
issued performs first, since its register may be exchanged. A hart that is to step does its step first (R411): only a `wait event` at its pc
is done by the delivery. -/
def execUserEventDelivery (s : State) : Out :=
  if s.h.canDeliver && !s.insideW && (s.h.dbg.run.isNone || s.atWait) then
    match s.h.ev.next with
    | some x =>
      let t := s.loadsDone
      if t.h.loads.isEmpty then .next { t with h := t.h.takeEvent x.1 x.2 t.atWait } else .next t
    | none => .next s
  else .next s

/-- `WATERMARK_REACH` (R442): the armed reaches of a hart are compared with PUB. -/
def execWatermarkReach (hid : HartId) (s : State) : Out := .next (s.asHart hid State.checkReaches)

/-! ### The replay queue (R372) -/

/-- What a woken entry comes to. -/
inductive Drained where
  | performed (s : State)
  | absent (level entry : Nat)
  | halted (s : State)
  | lost (s : State)

/-- Raise the cause that a discarded entry met at its context's next stop point (R372). -/
def State.loseParked (s : State) (e : Parked) (code sub : Nat) : State :=
  let c : AsyncCause := { code := code, sub := sub, sval := e.va, batch := [] }
  s.onContext e.own (fun h => { h with pend := h.pend ++ [c] }) fun x => { x with pend := x.pend ++ [c] }

/-- What the watchpoints of its own context do to a parked element as it performs (R414): those it hits, and the first that traps or
halts. -/
def State.parkedWatch (s : State) (e : Parked) : List (Hart × Fin 8) × WatchAct :=
  match s.hartOf e.own with
  | none => ([], .pass)
  | some h =>
    let hits := h.sc.watchHits e.va e.data.length Acc.store.touch e.sup
    let h' := { h with su := { h.su with sup := e.sup } }
    (hits.map fun k => (h, k), ((hits.map h'.watchAct).find? (· != .pass)).getD .pass)

/-- One woken entry walks again, and performs at its home, waits, or is discarded (R372, R414). One that a watchpoint halts stays where it
is: the hart halts with it unperformed. -/
def State.drainParked (s : State) (e : Parked) : Drained :=
  let sp : Space := ⟨e.own.part, e.root, e.sup, []⟩
  match s.translate sp .store e.va with
  | .error f => if f.code = 9 then .absent f.level f.entry else .lost (s.loseParked e f.code f.sub)
  | .ok p =>
    let bad : Option (Nat × Nat) :=
      match (if e.col then columnPage p.mt p.sq (8 * e.data.length) else none) with
      | some k => some (11, k)
      | none =>
        if p.mt = 1 then some (7, 2)
        else if (s.pinsOn p.pa e.data.length).any fun q => q.own == e.own then some (12, 0)
        else none
    match bad with
    | some x => .lost (s.loseParked e x.1 x.2)
    | none =>
      let src : Source := .hart e.hid e.own e.pc e.sup
      let org : Origin := ⟨e.corr, e.elem, s.tick⟩
      match s.parkedWatch e with
      | (_, .trap k) => .lost (s.loseParked e 22 k)
      | (_, .halt _) => .halted (s.onHart e.hid fun x => { x with dbg := { x.dbg with hreq := some 4 } })
      | (hits, .pass) =>
        let s := hits.foldl (fun t k => t.traceRec e.hid.isle (watchRec k.1.hid k.2 src org e.va)) s
        .performed ((s.markLeaf sp e.va p true).sendWrite true sp src org e.va p.pa p.sq (.store e.data) none).1

/-- An entry of a replay queue is read: words with one wrong bit are corrected (R399). -/
def State.readParked (s : State) (e : Parked) : State :=
  if e.weak.isEmpty then s
  else (s.onCa fun c => { c with parked := c.parked.map fun p => if p = e then { e with weak := [] } else p }).count e.hid.isle
    fun t => { t with corrected := t.corrected + e.weak.length }

/-- The oldest entries of a context drain in order until one waits (R372). -/
def State.drainContext (s : State) (o : CtxRef) : Nat → State
  | 0 => s
  | n + 1 => match s.ca.parked.find? fun p => p.own == o with
    | none => s
    | some e =>
      let s := s.readParked e
      let e := { e with weak := [] }
      let gone (t : State) : State := t.onCa fun c => { c with parked := c.parked.erase e }
      match s.drainParked e with
      | .performed t => (gone t).drainContext o n
      | .lost t => (gone t).drainContext o n
      | .halted t => t
      | .absent level entry => s.onCa fun c => { c with parked := c.parked.map fun p =>
          if p = e then { e with level := level, line := entry / 64 } else p }

/-- `PARKED_ENTRY_WAKE` (R372): the entries that wait on a table line wake, hart by hart (R419). `line` is any address in it. -/
def execParkedEntryWake (line : BitVec 52) (s : State) : Out :=
  let woken := sortBy (fun a b => decide (a.hid.toNat < b.hid.toNat)) (s.ca.parked.filter fun p => p.line == line.toNat / 64)
  let os := (woken.map Parked.own).dedup
  .next (os.foldl (fun s o => s.drainContext o s.ca.parked.length) s)

/-! ### Held writes and loads -/

/-- The host writes its own memory (R420): every copy of the line in the package has gone by then, and watchpoints with device and
system scope in every partition see the write. -/
def State.hostPut (s : State) (org : Origin) (pa : Nat) (bs : List Byte) : State :=
  let s := ((List.range 8).map (BitVec.ofNat 3)).foldl (fun s p => s.watchHome p .host org pa bs.length ⟨false, true, false⟩) s
  { s with
    mem := s.mem.put pa bs
    ca := { s.ca with
      visitor := s.ca.visitor.filter fun v => !meets v.unit.1 v.unit.2 pa bs.length
      l1 := s.ca.l1.filter fun l => !meets l.line 64 pa bs.length
      code := s.ca.code.filter fun l => !meets l.line 64 pa bs.length }.cleared pa bs.length }

/-- The core whose L1 line a write updates: that of the hart that makes a scalar store (R76). -/
def PinWait.core (w : PinWait) : Option Nat :=
  match w.src with
  | .hart hid _ _ _ => if w.vec then none else some hid.core
  | _ => none

/-- A held write performs at its home (R121). The flags of a memory-side add reach its hart (R67); one that finds its word poisoned writes
nothing (R400), and its machine check, which R343 gives a precise place, comes at the stop point, since its instruction has retired (DESIGN
CHOICE, log 100). -/
def State.performHeld (s : State) (w : PinWait) : State :=
  match w.src, w.op with
  | .host, .store bs => s.hostPut w.org w.pa bs
  | _, _ =>
    let part : BitVec 3 := (w.src.own.map fun o => o.part).getD 0
    let sup := match w.src with
      | .hart _ _ _ sup => sup
      | _ => false
    if w.op.isAdd && s.poisoned w.pa w.op.size then
      match w.src.own with
      | some o =>
        let c : AsyncCause := { code := 21, sub := 3, sval := w.va &&& ~~~7, batch := [] }
        s.onContext o (fun h => { h with pend := h.pend ++ [c] }) fun x => { x with pend := x.pend ++ [c] }
      | none => s
    else
      let r := s.homeWrite ⟨part, w.root, sup, []⟩ w.src w.org w.va w.pa w.sq w.op w.core
      match w.src.own.bind fun o => r.1.hartOf o with
      | some h => r.1.onHart h.hid fun x => { x with sc := { x.sc with fflags := x.sc.fflags ||| BitVec.ofNat 5 r.2 } }
      | none => r.1

/-- `PINNED_WRITE_PERFORM` (R121): the first write held on a line performs once no pin rests on it. -/
def execPinnedWritePerform (line : BitVec 52) (s : State) : Out :=
  let base := line.toNat / 64 * 64
  match s.ca.pinQueue.find? fun w => w.pa / 64 * 64 == base with
  | none => .next s
  | some w =>
    if !(s.pinsOn w.pa w.op.size).isEmpty then .next s
    else .next ((s.onCa fun c => { c with pinQueue := c.pinQueue.erase w }).performHeld w)

/-- The current hart's instruction goes on by one element of a tagged load (R228). -/
def State.issueTagged (s : State) : State :=
  let v := s.h.vec
  if !s.h.live || s.h.dbg.halted || !s.h.dbg.stalled || !s.h.queue.isEmpty then s
  else match s.headW with
    | none => s
    | some x =>
      let tagged := x.op.spec.op8 == 0x10 && natField x.f.imm.toNat 12 4 != 0
      if tagged then s.goOn ((v.progress.take 1).map (· + 1) ++ v.progress.drop 1) else s

/-- `TAGGED_ELEMENT_ISSUE` (R228): the element that a hart's tagged load holds back issues, where a publication covers it. -/
def execTaggedElementIssue (hid : HartId) (s : State) : Out := .next (s.asHart hid State.issueTagged)

/-! ### Copies and their invalidation -/

/-- `STORE_BUFFER_DRAIN` (R76): the oldest buffered store of a hart leaves its buffer. -/
def execStoreBufferDrain (hid : HartId) (s : State) : Out := .next (s.drainN hid 1)

/-- `SQUARE_INVALIDATION` (R94, R426): an isle applies the oldest invalidation that one home isle has sent to it. -/
def execSquareInvalidation (chan : Channel) (s : State) : Out := .next (s.onCa fun c => c.deliver chan.home.toNat chan.isle.toNat)

/-- The partition that an isle belongs to. -/
def State.partOf (s : State) (isle : Nat) : Option (BitVec 3) :=
  ((List.range 8).map (BitVec.ofNat 3)).find? fun p => (s.part p).has isle

/-- A line that may be copied: pool memory of the partition, or host memory (R76). -/
def State.copyable (s : State) (part : BitVec 3) (pa : Nat) : Bool := s.poolOk part pa || rangeType pa == some 2

/-- A store of line copies that has one more than it can hold gives up its oldest (R11, R12; which one is the model's choice: DESIGN CHOICE,
log 101). `p` says which copies are the store's. -/
def evictOver {α : Type} (n : Nat) (p : α → Bool) (l : List α) : List α := if n < l.countP p then l.eraseP p else l

/-- The slice of an isle that answers for an address: the one with the classroom and slice numbers of its home now (R77, R403). -/
def State.sliceIn (s : State) (pa : Nat) : Nat := s.homeSlice pa % 128

/-- A visitor slice receives a line copy: a row line, or the column line at its top element (R82, R93, R94). The fill comes after
what the home has sent before it (R427). A slice holds 1 MiB (R12). -/
def State.fillVisitor (s : State) (home isle line : Nat) (col : Option (BitVec 2)) : State :=
  s.onCa fun c =>
    let c := c.flushPair home isle
    let v : VisitorLine := match col with
      | none => ⟨isle, line, 0, false, s.mem.bytes line 64⟩
      | some q => ⟨isle, line, q, true, columnBytes s.mem q line⟩
    let vs := (c.visitor.filter fun x => !(x.isle == isle && x.line == line && x.col == v.col)) ++ [v]
    { c with visitor := evictOver 16384 (fun x => x.isle == isle && s.sliceIn x.line == s.sliceIn line) vs }

/-- A column line begins at an element of a square's first row (R82). -/
def columnTop (q : BitVec 2) (line : Nat) : Bool :=
  let w := match q.toNat with | 1 => 2 | 2 => 4 | _ => 8
  q != 0 && decide (line % (unitOfByte q line).2 < 64) && line % w == 0

/-- A scalar L1 of 64 KiB receives a line from the responsible slice of its isle (R11, R76). -/
def State.fillL1 (s : State) (part : BitVec 3) (core line : Nat) : State :=
  let s := s.settleRead part (coreIsle core) false none line 64
  let new : L1Line := ⟨core, line, s.sliceBytes part (coreIsle core) false line 64⟩
  s.onCa fun c => { c with
    l1 := evictOver 1024 (fun x => x.core == core) ((c.l1.filter fun x => !(x.core == core && x.line == line)) ++ [new]) }

/-- An L1 instruction cache of 64 KiB receives a line from the home (R11); what the home has sent its isle comes first (R427). -/
def State.fillCode (s : State) (part : BitVec 3) (core line : Nat) : State :=
  let s := s.settle part (coreIsle core) (fun _ => false) none line 64
  let new : L1Line := ⟨core, line, s.mem.bytes line 64⟩
  s.onCa fun c => { c with
    code := evictOver 1024 (fun x => x.core == core) ((c.code.filter fun x => !(x.core == core && x.line == line)) ++ [new]) }

/-- `VISITOR_FILL` (R94): the visitor slice of an isle receives a line fill from its home, and the scalar L1 of a core the line, if one
asked for it (R76). -/
def execVisitorFill (isle : BitVec 3) (line : BitVec 52) (col : Option (BitVec 2)) (core : Option (BitVec 11)) (s : State) : Out :=
  match s.partOf isle.toNat with
  | none => .next s
  | some part =>
    let a := line.toNat
    let ok := match col with
      | none => a % 64 == 0
      | some q => columnTop q a
    if !s.copyable part a || !ok then .next s
    else
      let s := if s.homeIsle part a = isle.toNat then s else s.fillVisitor (s.homeIsle part a) isle.toNat a col
      match core, col with
      | some k, none => if coreIsle k.toNat = isle.toNat then .next (s.fillL1 part k.toNat a) else .next s
      | _, _ => .next s

/-- A round of the token has ended and another begins: every `fence.sc` of the partition that had issued before it began is served (R106). -/
def Hart.roundDone (h : Hart) (part : BitVec 3) : Hart := if h.su.part = part then { h with fence := h.fence.map (· - 1) } else h

/-- `FENCE_TOKEN_ARRIVAL` (R106): the token of a partition reaches its next isle, which applies every invalidation sent to it. A round begins
and ends at the partition's first isle. -/
def execFenceTokenArrival (part : BitVec 3) (s : State) : Out :=
  let b := s.part part
  if !b.used then .next s
  else
    let next := (s.dev.token[part.toNat].toNat + 1) % 2 ^ b.size.toNat
    let s := { s with dev := { s.dev with token := s.dev.token.set part.toNat (BitVec.ofNat 3 next) } }
    let s := s.onCa fun c => c.flushIsle (b.base.toNat + next)
    .next (if next = 0 then { s with h := s.h.roundDone part, others := s.others.map fun h => h.roundDone part } else s)

/-! ### Host snoops (R420) -/

/-- The home slice answers with a line's bytes, and whether a word of it is poisoned (R400); what it reads with one wrong bit is corrected
(R399). -/
def State.answerSnoop (s : State) (line : BitVec 52) : State :=
  let a := line.toNat / 64 * 64
  if rangeType a = some 2 then
    (s.correct (s.packageHome a) a 64).onCa fun c => { c with snoops := c.snoops ++ [⟨a, s.mem.bytes a 64, s.poisoned a 64⟩] }
  else s

/-- `SNP_DATA` (R420): the line's bytes are given to the host; copies stay. -/
def execSnpData (line : BitVec 52) (s : State) : Out := .next (s.answerSnoop line)

/-- `SNP_INV` (R420): the line's bytes are given to the host, and no copy of the line stays in the package. -/
def execSnpInv (line : BitVec 52) (s : State) : Out :=
  let a := line.toNat / 64 * 64
  if rangeType a = some 2 then
    .next ((s.answerSnoop line).onCa fun c => { c with
      visitor := c.visitor.filter fun v => !meets v.unit.1 v.unit.2 a 64
      l1 := c.l1.filter fun l => l.line != a
      code := c.code.filter fun l => l.line != a })
  else .next s

/-- `SNP_CUR` (R420): the line's current bytes are given to the host; nothing else changes. -/
def execSnpCur (line : BitVec 52) (s : State) : Out := .next (s.answerSnoop line)

end Sys2Proof.Machine
end

