-- ==== Sys2Proof/Machine/Lifecycle.lean ====
section
/-! DEFINITION. The end of a hart's share (R34, R276), the registrar's services (R389), cancellation (R392, R304, R374, R276) and the
firmware services (R436). -/

namespace Sys2Proof.Machine

/-! ### `wait end` -/

/-- The work of `wait end` (R34, R276): the open member is committed, everything earlier is performed at device scope, the accepted
commands complete, and the hart is free. -/
def waitEndM : M Unit := do
  let _ ← commitM
  releaseM
  let s ← getS
  if s.un.cmds.any fun c => c.own == s.h.own then blockM
  else modS State.endHart

/-- `wait end` (R34). -/
def execWaitEnd (s : State) : Out := runJump waitEndM s

/-! ### Cancellation -/

/-- The contexts of a launch: of its resident harts, and its suspended ones. -/
def State.contextsOf (s : State) (part : BitVec 3) (lid : BitVec 32) : List CtxRef :=
  ((s.harts.filter fun h => h.su.part == part && h.su.lid == lid).map Hart.own)
    ++ (s.rg.suspended.filter fun c => c.own.part == part && c.lid == lid).map Suspended.own

/-- The open members of some contexts are rolled back (R276). -/
def State.rollbackAll (s : State) (os : List CtxRef) : State :=
  let vs := s.un.sets.flatMap fun r => (r.visits.filter fun v => os.contains v.own).map fun v => (r.recPa, v)
  vs.foldl (fun s x => match s.un.sets.find? fun r => r.recPa == x.1 with
    | none => s
    | some r => s.rollbackVisit r (((s.hartOf x.2.own).map Hart.hid).getD 0) x.2) s

/-- Cancel an open launch (R392). -/
def State.cancel (s : State) (part : BitVec 3) (lid : BitVec 32) : State :=
  match s.rg.launches.find? fun l => l.part == part && l.lid == lid && !l.fin with
  | none => s
  | some l =>
    if l.cancelled then s
    else
      let os := s.contextsOf part lid
      let gone := s.rg.suspended.filter fun c => c.own.part == part && c.lid == lid
      let s := s.withdraw part lid none
      let s := gone.foldl (fun s c => s.withdraw part lid (some c.own.ctx)) s
      let s := s.cancelCommands fun o => os.contains o
      let s := s.rollbackAll os
      let s := s.onCa fun c => { c with
        parked := c.parked.filter fun p => !os.contains p.own
        pins := c.pins.filter fun p => !os.contains p.own }
      let s := { s with
        rg := { (s.rg.onLaunch part lid fun x => { x with cancelled := true, harts := x.harts - gone.length }) with
          suspended := s.rg.suspended.filter fun c => !(c.own.part == part && c.lid == lid) }
        un := gone.foldl (fun (u : Units) (c : Suspended) => (u.letGo c.own).unbind c.own) s.un }
      let mine := s.harts.filter fun h => h.su.part == part && h.su.lid == lid
      let s := mine.foldl (fun (s : State) h => s.onHart h.hid fun x => { (x.raise 33 0 0) with ct := { x.ct with member := none } }) s
      s.clearInjections

/-- `MANAGEMENT_WINDOW_CANCEL` (R392). -/
def execManagementWindowCancel (part : BitVec 3) (lid : BitVec 32) (s : State) : Out := .next (s.cancel part lid)

/-! ### Services of `trap` -/

/-- A `trap` with a service code from user mode is a software trap (R176). -/
def softwareTrap (code : Nat) (s : State) : Out :=
  .next (s.trapEntry { code := 16, val := BitVec.ofNat 64 code } (s.h.sc.pc + 4))

/-- The current hart's launch has been cancelled. -/
def State.launchCancelled (s : State) : Bool :=
  s.rg.launches.any fun l => l.part == s.h.su.part && l.lid == s.h.su.lid && !l.fin && l.cancelled

/-- `trap 0x010` (R389): yield. It waits until every earlier vector instruction has completed, flags and all (R67, R336); what the store buffer
holds has reached its homes. A context of a cancelled launch is no longer used (R392), so its hart ends. -/
def execYield (s : State) : Out :=
  if !s.h.su.sup then softwareTrap 0x010 s
  else if s.vectorBusy then (Stop.block s).out
  else
    let s := s.drain
    .next (if s.launchCancelled then s.endHart else s.suspend)

/-- `trap 0x011` (R389, R392): cancel the launch that g10[31:0] names. -/
def execCancelLaunch (s : State) : Out :=
  if !s.h.su.sup then softwareTrap 0x011 s
  else .next ((s.cancel s.h.su.part ((s.g 10).setWidth 32)).advance 4)

/-- Write what a firmware service gives into the 4 KiB buffer at g10 (R436). The manual gives no layout: the bytes are an open function of what
they report. -/
def serviceM (bytes : State → Nat → Byte) : M Unit := do
  let s0 ← getS
  let va := s0.g 10
  let p ← scalarCheck .store va 4096 true
  modS fun s => (List.range 64).foldl (fun s i =>
    (s.sendWrite false s.h.space s.h.source (s.org 0) (va + BitVec.ofNat 64 (64 * i)) (p.pa + 64 * i) p.sq
      (.store ((List.range 64).map fun j => bytes s0 (64 * i + j))) none).1) s.drain

/-- The telemetry counters of the current hart's isle (R436). -/
def State.counters (s : State) : List Nat :=
  match s.dev.tele[s.h.hid.isle]? with
  | some t => [t.reportDrops, t.portDrops, t.mirrorRetry, t.corrected, t.shoalOver]
  | none => []

/-- `trap 0x000` (R436): firmware version and identity certificate. From supervisor mode a `trap` is a call (R176): whether SVAL and SEPC are
written too can be read either way, and the model writes neither (DESIGN CHOICE, log 102). -/
def execFirmwareVersion (s : State) : Out :=
  if s.h.su.sup then run 4 (serviceM fun s i => Config.versionByte s.dev.boot.version i) s else softwareTrap 0x000 s

/-- `trap 0x001` (R436): the isle's telemetry counters; SVAL and SEPC as for `trap 0x000` (log 102). -/
def execFirmwareTelemetry (s : State) : Out :=
  if s.h.su.sup then run 4 (serviceM fun s i => Config.telemetryByte s.counters i) s else softwareTrap 0x001 s

end Sys2Proof.Machine
end

