-- ==== Sys2Proof/Machine/ScalarFp.lean ====
section
/-! DEFINITION. Scalar floating point (R170-R175). -/

namespace Sys2Proof.Machine

/-- An fp instruction: illegal where its dynamic rounding mode is not one of the four static modes (R59), else its result is
delivered and its flags are ORed in (R170). -/
def fpOp (op : Nat) (d a b : Reg) (rm : BitVec 3) (single : Bool) (f : Fmt → Mode → FRes) (s : State) : Out :=
  if s.modeOk rm.toNat then .next ((s.putFloat d (f (scalarFmt single) (.static (s.modeOf rm.toNat)))).advance 4)
  else illegal (encFp op d a b rm.toNat single) s

/-- An fp instruction without a rounding field. -/
def fpPlain (d : Reg) (r : FRes) (s : State) : Out := .next ((s.putFloat d r).advance 4)

/-- `fadd` (R170). -/
def execFadd (d a b : Reg) (rm : BitVec 3) (single : Bool) (s : State) : Out :=
  fpOp 0 d a b rm single (fun f m => f.addV m false (s.fval single a) (s.fval single b)) s
/-- `fsub` (R170). -/
def execFsub (d a b : Reg) (rm : BitVec 3) (single : Bool) (s : State) : Out :=
  fpOp 1 d a b rm single (fun f m => f.addV m false (s.fval single a) (s.fval single b).neg) s
/-- `fmul` (R170). -/
def execFmul (d a b : Reg) (rm : BitVec 3) (single : Bool) (s : State) : Out :=
  fpOp 2 d a b rm single (fun f m => f.mulV m false (s.fval single a) (s.fval single b)) s
/-- `fdiv` (R170). -/
def execFdiv (d a b : Reg) (rm : BitVec 3) (single : Bool) (s : State) : Out :=
  fpOp 3 d a b rm single (fun f m => f.divV m false (s.fval single a) (s.fval single b)) s
/-- `fsqrt` (R170). -/
def execFsqrt (d a : Reg) (rm : BitVec 3) (single : Bool) (s : State) : Out :=
  fpOp 4 d a 0 rm single (fun f m => f.sqrtV m false (s.fval single a)) s
/-- `fmin` (R171). -/
def execFmin (d a b : Reg) (single : Bool) (s : State) : Out :=
  fpPlain d ((scalarFmt single).minmax false (s.g a).toNat (s.g b).toNat) s
/-- `fmax` (R171). -/
def execFmax (d a b : Reg) (single : Bool) (s : State) : Out :=
  fpPlain d ((scalarFmt single).minmax true (s.g a).toNat (s.g b).toNat) s
/-- `fcmp` (R172). -/
def execFcmp (d a b : Reg) (cond : BitVec 3) (single : Bool) (s : State) : Out :=
  let r := (scalarFmt single).cmp cond.toNat (s.g a).toNat (s.g b).toNat
  fpPlain d (bit01 r.1, r.2) s
/-- `fclass` (R173). -/
def execFclass (d a : Reg) (single : Bool) (s : State) : Out :=
  fpPlain d ((scalarFmt single).classCode (s.g a).toNat, 0) s

/-- The conversions of R174. -/
def convert (code : Nat) (single : Bool) (m : Mode) (a : Word) : FRes :=
  let f := scalarFmt single
  let x := f.value a.toNat
  let wide (r : FRes) : FRes := ((BitVec.ofInt 64 (toSigned 32 r.1)).toNat, r.2)
  match code with
  | 0 => toIntV m true 64 x
  | 1 => toIntV m false 64 x
  | 2 => f.ofInt m false a.toInt
  | 3 => f.ofInt m false a.toNat
  | 4 => f.convV m false ((scalarFmt !single).value a.toNat)
  | 5 => wide (toIntV m true 32 x)
  | _ => wide (toIntV m false 32 x)

/-- `fcvt` (R174). -/
def execFcvt (d a : Reg) (code : Reg) (rm : BitVec 3) (single : Bool) (s : State) : Out :=
  fpOp 7 d a code rm single (fun _ m => convert code.toNat single m (s.g a)) s

/-- The fused forms (R175): the product and the addend with their signs. -/
def fused (negP negC : Bool) (d a b c : Reg) (rm : BitVec 2) (single : Bool) (s : State) : Out :=
  let x := s.fval single a
  let z := s.fval single c
  fpPlain d ((scalarFmt single).fmaV (.static rm.toNat) false (if negP then x.neg else x) (s.fval single b)
    (if negC then z.neg else z)) s

/-- `fma` (R175). -/
def execFma (d a b c : Reg) (rm : BitVec 2) (single : Bool) (s : State) : Out := fused false false d a b c rm single s
/-- `fms` (R175). -/
def execFms (d a b c : Reg) (rm : BitVec 2) (single : Bool) (s : State) : Out := fused false true d a b c rm single s
/-- `fnma` (R175). -/
def execFnma (d a b c : Reg) (rm : BitVec 2) (single : Bool) (s : State) : Out := fused true true d a b c rm single s
/-- `fnms` (R175). -/
def execFnms (d a b c : Reg) (rm : BitVec 2) (single : Bool) (s : State) : Out := fused true false d a b c rm single s

end Sys2Proof.Machine
end

