-- ==== Sys2Proof/Machine/Dispatch.lean ====
section
/-! DEFINITION. One arm per instruction. -/

namespace Sys2Proof.Machine

def exec (i : Instr) (s : State) : Host.Outcome State Fault Refusal :=
  match i with
  | .cMv d => Sys2Proof.Machine.execCMv d s
  | .cAdd d f => Sys2Proof.Machine.execCAdd d f s
  | .cSub d f => Sys2Proof.Machine.execCSub d f s
  | .cAddi d imm => Sys2Proof.Machine.execCAddi d imm s
  | .cAnd d f => Sys2Proof.Machine.execCAnd d f s
  | .cOr d f => Sys2Proof.Machine.execCOr d f s
  | .cXor d f => Sys2Proof.Machine.execCXor d f s
  | .cSlli d amt => Sys2Proof.Machine.execCSlli d amt s
  | .cSrai d amt => Sys2Proof.Machine.execCSrai d amt s
  | .cLd d off => Sys2Proof.Machine.execCLd d off s
  | .cSt r off => Sys2Proof.Machine.execCSt r off s
  | .cLi d imm => Sys2Proof.Machine.execCLi d imm s
  | .cBeqz off => Sys2Proof.Machine.execCBeqz off s
  | .cBnez off => Sys2Proof.Machine.execCBnez off s
  | .cJ off => Sys2Proof.Machine.execCJ off s
  | .add d a b w => Sys2Proof.Machine.execAdd d a b w s
  | .sub d a b w => Sys2Proof.Machine.execSub d a b w s
  | .and d a b w => Sys2Proof.Machine.execAnd d a b w s
  | .or d a b w => Sys2Proof.Machine.execOr d a b w s
  | .xor d a b w => Sys2Proof.Machine.execXor d a b w s
  | .sll d a b w => Sys2Proof.Machine.execSll d a b w s
  | .srl d a b w => Sys2Proof.Machine.execSrl d a b w s
  | .sra d a b w => Sys2Proof.Machine.execSra d a b w s
  | .slt d a b w => Sys2Proof.Machine.execSlt d a b w s
  | .sltu d a b w => Sys2Proof.Machine.execSltu d a b w s
  | .min d a b w => Sys2Proof.Machine.execMin d a b w s
  | .max d a b w => Sys2Proof.Machine.execMax d a b w s
  | .minu d a b w => Sys2Proof.Machine.execMinu d a b w s
  | .maxu d a b w => Sys2Proof.Machine.execMaxu d a b w s
  | .mul d a b w => Sys2Proof.Machine.execMul d a b w s
  | .mulh d a b => Sys2Proof.Machine.execMulh d a b s
  | .mulhu d a b => Sys2Proof.Machine.execMulhu d a b s
  | .div d a b w => Sys2Proof.Machine.execDiv d a b w s
  | .divu d a b w => Sys2Proof.Machine.execDivu d a b w s
  | .rem d a b w => Sys2Proof.Machine.execRem d a b w s
  | .remu d a b w => Sys2Proof.Machine.execRemu d a b w s
  | .rol d a b w => Sys2Proof.Machine.execRol d a b w s
  | .ror d a b w => Sys2Proof.Machine.execRor d a b w s
  | .clz d a w => Sys2Proof.Machine.execClz d a w s
  | .ctz d a w => Sys2Proof.Machine.execCtz d a w s
  | .popc d a w => Sys2Proof.Machine.execPopc d a w s
  | .sext d a n => Sys2Proof.Machine.execSext d a n s
  | .zext d a n => Sys2Proof.Machine.execZext d a n s
  | .addi d a imm => Sys2Proof.Machine.execAddi d a imm s
  | .andi d a imm => Sys2Proof.Machine.execAndi d a imm s
  | .ori d a imm => Sys2Proof.Machine.execOri d a imm s
  | .xori d a imm => Sys2Proof.Machine.execXori d a imm s
  | .slti d a imm => Sys2Proof.Machine.execSlti d a imm s
  | .sltiu d a imm => Sys2Proof.Machine.execSltiu d a imm s
  | .addiw d a imm => Sys2Proof.Machine.execAddiw d a imm s
  | .slli d a w amt => Sys2Proof.Machine.execSlli d a w amt s
  | .srli d a w amt => Sys2Proof.Machine.execSrli d a w amt s
  | .srai d a w amt => Sys2Proof.Machine.execSrai d a w amt s
  | .ldhi d imm => Sys2Proof.Machine.execLdhi d imm s
  | .pcadd d imm => Sys2Proof.Machine.execPcadd d imm s
  | .ldB d a imm => Sys2Proof.Machine.execLdB d a imm s
  | .ldH d a imm => Sys2Proof.Machine.execLdH d a imm s
  | .ldW d a imm => Sys2Proof.Machine.execLdW d a imm s
  | .ldD d a imm => Sys2Proof.Machine.execLdD d a imm s
  | .ldBu d a imm => Sys2Proof.Machine.execLdBu d a imm s
  | .ldHu d a imm => Sys2Proof.Machine.execLdHu d a imm s
  | .ldWu d a imm => Sys2Proof.Machine.execLdWu d a imm s
  | .stB r a imm => Sys2Proof.Machine.execStB r a imm s
  | .stH r a imm => Sys2Proof.Machine.execStH r a imm s
  | .stW r a imm => Sys2Proof.Machine.execStW r a imm s
  | .stD r a imm => Sys2Proof.Machine.execStD r a imm s
  | .stRelB r a imm => Sys2Proof.Machine.execStRelB r a imm s
  | .stRelH r a imm => Sys2Proof.Machine.execStRelH r a imm s
  | .stRelW r a imm => Sys2Proof.Machine.execStRelW r a imm s
  | .stRelD r a imm => Sys2Proof.Machine.execStRelD r a imm s
  | .ldAcqW d a imm => Sys2Proof.Machine.execLdAcqW d a imm s
  | .ldAcqD d a imm => Sys2Proof.Machine.execLdAcqD d a imm s
  | .ldAcqWu d a imm => Sys2Proof.Machine.execLdAcqWu d a imm s
  | .amoAdd d a b dw acq rel => Sys2Proof.Machine.execAmoAdd d a b dw acq rel s
  | .amoAnd d a b dw acq rel => Sys2Proof.Machine.execAmoAnd d a b dw acq rel s
  | .amoOr d a b dw acq rel => Sys2Proof.Machine.execAmoOr d a b dw acq rel s
  | .amoXor d a b dw acq rel => Sys2Proof.Machine.execAmoXor d a b dw acq rel s
  | .amoMin d a b dw acq rel => Sys2Proof.Machine.execAmoMin d a b dw acq rel s
  | .amoMax d a b dw acq rel => Sys2Proof.Machine.execAmoMax d a b dw acq rel s
  | .amoMinu d a b dw acq rel => Sys2Proof.Machine.execAmoMinu d a b dw acq rel s
  | .amoMaxu d a b dw acq rel => Sys2Proof.Machine.execAmoMaxu d a b dw acq rel s
  | .amoSwap d a b dw acq rel => Sys2Proof.Machine.execAmoSwap d a b dw acq rel s
  | .amoCas d a b dw acq rel => Sys2Proof.Machine.execAmoCas d a b dw acq rel s
  | .amoFadd d a b dw acq rel => Sys2Proof.Machine.execAmoFadd d a b dw acq rel s
  | .bEq a b imm => Sys2Proof.Machine.execBEq a b imm s
  | .bNe a b imm => Sys2Proof.Machine.execBNe a b imm s
  | .bLt a b imm => Sys2Proof.Machine.execBLt a b imm s
  | .bGe a b imm => Sys2Proof.Machine.execBGe a b imm s
  | .bLtu a b imm => Sys2Proof.Machine.execBLtu a b imm s
  | .bGeu a b imm => Sys2Proof.Machine.execBGeu a b imm s
  | .jal d imm => Sys2Proof.Machine.execJal d imm s
  | .jalr d a imm => Sys2Proof.Machine.execJalr d a imm s
  | .loop k a len => Sys2Proof.Machine.execLoop k a len s
  | .fence scope => Sys2Proof.Machine.execFence scope s
  | .orderSv => Sys2Proof.Machine.execOrderSv s
  | .orderVs => Sys2Proof.Machine.execOrderVs s
  | .fenceSc scope => Sys2Proof.Machine.execFenceSc scope s
  | .fenceI => Sys2Proof.Machine.execFenceI s
  | .fadd d a b rm single => Sys2Proof.Machine.execFadd d a b rm single s
  | .fsub d a b rm single => Sys2Proof.Machine.execFsub d a b rm single s
  | .fmul d a b rm single => Sys2Proof.Machine.execFmul d a b rm single s
  | .fdiv d a b rm single => Sys2Proof.Machine.execFdiv d a b rm single s
  | .fsqrt d a rm single => Sys2Proof.Machine.execFsqrt d a rm single s
  | .fmin d a b single => Sys2Proof.Machine.execFmin d a b single s
  | .fmax d a b single => Sys2Proof.Machine.execFmax d a b single s
  | .fcvt d a code rm single => Sys2Proof.Machine.execFcvt d a code rm single s
  | .fcmp d a b cond single => Sys2Proof.Machine.execFcmp d a b cond single s
  | .fclass d a single => Sys2Proof.Machine.execFclass d a single s
  | .fma d a b c rm single => Sys2Proof.Machine.execFma d a b c rm single s
  | .fms d a b c rm single => Sys2Proof.Machine.execFms d a b c rm single s
  | .fnma d a b c rm single => Sys2Proof.Machine.execFnma d a b c rm single s
  | .fnms d a b c rm single => Sys2Proof.Machine.execFnms d a b c rm single s
  | .trap code => Sys2Proof.Machine.execTrap code s
  | .brk => Sys2Proof.Machine.execBrk s
  | .eret => Sys2Proof.Machine.execEret s
  | .waitEnd => Sys2Proof.Machine.execWaitEnd s
  | .waitEvent => Sys2Proof.Machine.execWaitEvent s
  | .rdsr d n => Sys2Proof.Machine.execRdsr d n s
  | .wrsr n r => Sys2Proof.Machine.execWrsr n r s
  | .xchsr d n r => Sys2Proof.Machine.execXchsr d n r s
  | .setvl d a => Sys2Proof.Machine.execSetvl d a s
  | .setvlK d a => Sys2Proof.Machine.execSetvlK d a s
  | .settype d imm => Sys2Proof.Machine.execSettype d imm s
  | .settile d a => Sys2Proof.Machine.execSettile d a s
  | .settileC d a => Sys2Proof.Machine.execSettileC d a s
  | .dset n a imm => Sys2Proof.Machine.execDset n a imm s
  | .dget d n q => Sys2Proof.Machine.execDget d n q s
  | .dput n a imm => Sys2Proof.Machine.execDput n a imm s
  | .wmpub k a => Sys2Proof.Machine.execWmpub k a s
  | .wmrd d k => Sys2Proof.Machine.execWmrd d k s
  | .wmwait k a => Sys2Proof.Machine.execWmwait k a s
  | .launch d a imm => Sys2Proof.Machine.execLaunch d a imm s
  | .convoy nm2 u0 u1 u2 u3 u4 u5 => Sys2Proof.Machine.execConvoy nm2 u0 u1 u2 u3 u4 u5 s
  | .vadd f => Sys2Proof.Machine.execVadd f s
  | .vsub f => Sys2Proof.Machine.execVsub f s
  | .vrsub f => Sys2Proof.Machine.execVrsub f s
  | .vand f => Sys2Proof.Machine.execVand f s
  | .vor f => Sys2Proof.Machine.execVor f s
  | .vxor f => Sys2Proof.Machine.execVxor f s
  | .vsll f => Sys2Proof.Machine.execVsll f s
  | .vsrl f => Sys2Proof.Machine.execVsrl f s
  | .vsra f => Sys2Proof.Machine.execVsra f s
  | .vmin f => Sys2Proof.Machine.execVmin f s
  | .vmax f => Sys2Proof.Machine.execVmax f s
  | .vminu f => Sys2Proof.Machine.execVminu f s
  | .vmaxu f => Sys2Proof.Machine.execVmaxu f s
  | .vmul f => Sys2Proof.Machine.execVmul f s
  | .vmulh f => Sys2Proof.Machine.execVmulh f s
  | .vmulhu f => Sys2Proof.Machine.execVmulhu f s
  | .vmacc f => Sys2Proof.Machine.execVmacc f s
  | .vsadd f => Sys2Proof.Machine.execVsadd f s
  | .vssub f => Sys2Proof.Machine.execVssub f s
  | .vsaddu f => Sys2Proof.Machine.execVsaddu f s
  | .vssubu f => Sys2Proof.Machine.execVssubu f s
  | .vsel f => Sys2Proof.Machine.execVsel f s
  | .vabsd f => Sys2Proof.Machine.execVabsd f s
  | .vmv f => Sys2Proof.Machine.execVmv f s
  | .vwadd f => Sys2Proof.Machine.execVwadd f s
  | .vwaddu f => Sys2Proof.Machine.execVwaddu f s
  | .vwmul f => Sys2Proof.Machine.execVwmul f s
  | .vwmulu f => Sys2Proof.Machine.execVwmulu f s
  | .vwmacc f => Sys2Proof.Machine.execVwmacc f s
  | .vnsrl f => Sys2Proof.Machine.execVnsrl f s
  | .vnclip f => Sys2Proof.Machine.execVnclip f s
  | .vnclipu f => Sys2Proof.Machine.execVnclipu f s
  | .vfadd f => Sys2Proof.Machine.execVfadd f s
  | .vfsub f => Sys2Proof.Machine.execVfsub f s
  | .vfmul f => Sys2Proof.Machine.execVfmul f s
  | .vfdiv f => Sys2Proof.Machine.execVfdiv f s
  | .vfsqrt f => Sys2Proof.Machine.execVfsqrt f s
  | .vfmin f => Sys2Proof.Machine.execVfmin f s
  | .vfmax f => Sys2Proof.Machine.execVfmax f s
  | .vfabs f => Sys2Proof.Machine.execVfabs f s
  | .vfneg f => Sys2Proof.Machine.execVfneg f s
  | .vfma f => Sys2Proof.Machine.execVfma f s
  | .vfms f => Sys2Proof.Machine.execVfms f s
  | .vfnma f => Sys2Proof.Machine.execVfnma f s
  | .vfnms f => Sys2Proof.Machine.execVfnms f s
  | .vfwma f => Sys2Proof.Machine.execVfwma f s
  | .vfcvt f => Sys2Proof.Machine.execVfcvt f s
  | .vfcvtI f => Sys2Proof.Machine.execVfcvtI f s
  | .vicvtF f => Sys2Proof.Machine.execVicvtF f s
  | .vsf f => Sys2Proof.Machine.execVsf f s
  | .vcmp f => Sys2Proof.Machine.execVcmp f s
  | .vfcmp f => Sys2Proof.Machine.execVfcmp f s
  | .vredsum f => Sys2Proof.Machine.execVredsum f s
  | .vredmax f => Sys2Proof.Machine.execVredmax f s
  | .vredmin f => Sys2Proof.Machine.execVredmin f s
  | .vredmaxu f => Sys2Proof.Machine.execVredmaxu f s
  | .vredminu f => Sys2Proof.Machine.execVredminu f s
  | .vredand f => Sys2Proof.Machine.execVredand f s
  | .vredor f => Sys2Proof.Machine.execVredor f s
  | .vfredsum f => Sys2Proof.Machine.execVfredsum f s
  | .vfredtree f => Sys2Proof.Machine.execVfredtree f s
  | .vfredmax f => Sys2Proof.Machine.execVfredmax f s
  | .vfredmin f => Sys2Proof.Machine.execVfredmin f s
  | .vscan f => Sys2Proof.Machine.execVscan f s
  | .vfscan f => Sys2Proof.Machine.execVfscan f s
  | .vslideup f => Sys2Proof.Machine.execVslideup f s
  | .vslidedown f => Sys2Proof.Machine.execVslidedown f s
  | .vgather f => Sys2Proof.Machine.execVgather f s
  | .vcompress f => Sys2Proof.Machine.execVcompress f s
  | .vexpand f => Sys2Proof.Machine.execVexpand f s
  | .vbcast f => Sys2Proof.Machine.execVbcast f s
  | .vins f => Sys2Proof.Machine.execVins f s
  | .vext f => Sys2Proof.Machine.execVext f s
  | .vidx f => Sys2Proof.Machine.execVidx f s
  | .mand f => Sys2Proof.Machine.execMand f s
  | .mor f => Sys2Proof.Machine.execMor f s
  | .mxor f => Sys2Proof.Machine.execMxor f s
  | .mandn f => Sys2Proof.Machine.execMandn f s
  | .mnot f => Sys2Proof.Machine.execMnot f s
  | .mcount f => Sys2Proof.Machine.execMcount f s
  | .mfirst f => Sys2Proof.Machine.execMfirst f s
  | .mall f => Sys2Proof.Machine.execMall f s
  | .mmov f => Sys2Proof.Machine.execMmov f s
  | .vld f => Sys2Proof.Machine.execVld f s
  | .vlds f => Sys2Proof.Machine.execVlds f s
  | .vldx f => Sys2Proof.Machine.execVldx f s
  | .vldff f => Sys2Proof.Machine.execVldff f s
  | .vldd f => Sys2Proof.Machine.execVldd f s
  | .vst f => Sys2Proof.Machine.execVst f s
  | .vsts f => Sys2Proof.Machine.execVsts f s
  | .vstx f => Sys2Proof.Machine.execVstx f s
  | .vstxu f => Sys2Proof.Machine.execVstxu f s
  | .vstd f => Sys2Proof.Machine.execVstd f s
  | .vamoAdd f => Sys2Proof.Machine.execVamoAdd f s
  | .vamoAnd f => Sys2Proof.Machine.execVamoAnd f s
  | .vamoOr f => Sys2Proof.Machine.execVamoOr f s
  | .vamoXor f => Sys2Proof.Machine.execVamoXor f s
  | .vamoMin f => Sys2Proof.Machine.execVamoMin f s
  | .vamoMax f => Sys2Proof.Machine.execVamoMax f s
  | .vamoSwap f => Sys2Proof.Machine.execVamoSwap f s
  | .vamoFadd f => Sys2Proof.Machine.execVamoFadd f s
  | .vamoAddDesc f => Sys2Proof.Machine.execVamoAddDesc f s
  | .vamoAndDesc f => Sys2Proof.Machine.execVamoAndDesc f s
  | .vamoOrDesc f => Sys2Proof.Machine.execVamoOrDesc f s
  | .vamoXorDesc f => Sys2Proof.Machine.execVamoXorDesc f s
  | .vamoMinDesc f => Sys2Proof.Machine.execVamoMinDesc f s
  | .vamoMaxDesc f => Sys2Proof.Machine.execVamoMaxDesc f s
  | .vamoSwapDesc f => Sys2Proof.Machine.execVamoSwapDesc f s
  | .vamoFaddDesc f => Sys2Proof.Machine.execVamoFaddDesc f s
  | .mtld f => Sys2Proof.Machine.execMtld f s
  | .mtrel f => Sys2Proof.Machine.execMtrel f s
  | .mast f => Sys2Proof.Machine.execMast f s
  | .maz f => Sys2Proof.Machine.execMaz f s
  | .mald f => Sys2Proof.Machine.execMald f s
  | .mmac f => Sys2Proof.Machine.execMmac f s
  | .mmacs f => Sys2Proof.Machine.execMmacs f s
  | .mmacx f => Sys2Proof.Machine.execMmacx f s
  | .mdrain f => Sys2Proof.Machine.execMdrain f s
  | .mloc f => Sys2Proof.Machine.execMloc f s
  | .mfix f => Sys2Proof.Machine.execMfix f s
  | .mretry f => Sys2Proof.Machine.execMretry f s
  | .mcksum f => Sys2Proof.Machine.execMcksum f s
  | .ecmd f => Sys2Proof.Machine.execEcmd f s
  | .ewait f => Sys2Proof.Machine.execEwait f s
  | .epoll f => Sys2Proof.Machine.execEpoll f s
  | .apush f => Sys2Proof.Machine.execApush f s
  | .apop f => Sys2Proof.Machine.execApop f s
  | .afetch f => Sys2Proof.Machine.execAfetch f s
  | .aprobe f => Sys2Proof.Machine.execAprobe f s
  | .swbegin f => Sys2Proof.Machine.execSwbegin f s
  | .swnext f => Sys2Proof.Machine.execSwnext f s
  | .swcommit f => Sys2Proof.Machine.execSwcommit f s
  | .swend f => Sys2Proof.Machine.execSwend f s
  | .rtget f => Sys2Proof.Machine.execRtget f s
  | .rtset f => Sys2Proof.Machine.execRtset f s
  | .vsave f => Sys2Proof.Machine.execVsave f s
  | .vsaveMsk f => Sys2Proof.Machine.execVsaveMsk f s
  | .vsaveMx f => Sys2Proof.Machine.execVsaveMx f s
  | .vsaveCtl f => Sys2Proof.Machine.execVsaveCtl f s
  | .vrest f => Sys2Proof.Machine.execVrest f s
  | .vrestMsk f => Sys2Proof.Machine.execVrestMsk f s
  | .vrestMx f => Sys2Proof.Machine.execVrestMx f s
  | .vrestCtl f => Sys2Proof.Machine.execVrestCtl f s
  | .lgrant f => Sys2Proof.Machine.execLgrant f s
  | .yield => Sys2Proof.Machine.execYield s
  | .cancelLaunch => Sys2Proof.Machine.execCancelLaunch s
  | .firmwareVersion => Sys2Proof.Machine.execFirmwareVersion s
  | .firmwareTelemetry => Sys2Proof.Machine.execFirmwareTelemetry s
  | .vtypeWrite v => Sys2Proof.Machine.execVtypeWrite v s
  | .vlWrite v => Sys2Proof.Machine.execVlWrite v s
  | .modeWrite v => Sys2Proof.Machine.execModeWrite v s
  | .ptrootWrite v => Sys2Proof.Machine.execPtrootWrite v s
  | .hdropWrite n v => Sys2Proof.Machine.execHdropWrite n v s
  | .registerWrite r v => Sys2Proof.Machine.execRegisterWrite r v s
  | .asyncTrapTaken progress => Sys2Proof.Machine.execAsyncTrapTaken progress s
  | .userEventDelivery => Sys2Proof.Machine.execUserEventDelivery s
  | .launchPortWrite offset data => Sys2Proof.Machine.execLaunchPortWrite offset data s
  | .placement part => Sys2Proof.Machine.execPlacement part s
  | .reclaimDeadline hid => Sys2Proof.Machine.execReclaimDeadline hid s
  | .launchComplete part lid => Sys2Proof.Machine.execLaunchComplete part lid s
  | .copyCommand own k => Sys2Proof.Machine.execCopyCommand own k s
  | .stackBind own k => Sys2Proof.Machine.execStackBind own k s
  | .collectiveInitialise own k => Sys2Proof.Machine.execCollectiveInitialise own k s
  | .collectiveSend own k => Sys2Proof.Machine.execCollectiveSend own k s
  | .collectiveReceive own k incoming => Sys2Proof.Machine.execCollectiveReceive own k incoming s
  | .collectiveReceiveReduce own k incoming => Sys2Proof.Machine.execCollectiveReceiveReduce own k incoming s
  | .collectiveToken own k => Sys2Proof.Machine.execCollectiveToken own k s
  | .collectiveTimeout own k => Sys2Proof.Machine.execCollectiveTimeout own k s
  | .collectiveAbort isle collid rank => Sys2Proof.Machine.execCollectiveAbort isle collid rank s
  | .engineFaultResume own k => Sys2Proof.Machine.execEngineFaultResume own k s
  | .apopArrival own => Sys2Proof.Machine.execApopArrival own s
  | .spillWriteback own => Sys2Proof.Machine.execSpillWriteback own s
  | .spillBringBack own => Sys2Proof.Machine.execSpillBringBack own s
  | .parkedEntryWake line => Sys2Proof.Machine.execParkedEntryWake line s
  | .pinnedWritePerform line => Sys2Proof.Machine.execPinnedWritePerform line s
  | .taggedElementIssue hid => Sys2Proof.Machine.execTaggedElementIssue hid s
  | .watermarkReach hid => Sys2Proof.Machine.execWatermarkReach hid s
  | .storeBufferDrain hid => Sys2Proof.Machine.execStoreBufferDrain hid s
  | .squareInvalidation chan => Sys2Proof.Machine.execSquareInvalidation chan s
  | .visitorFill isle line col core => Sys2Proof.Machine.execVisitorFill isle line col core s
  | .fenceTokenArrival part => Sys2Proof.Machine.execFenceTokenArrival part s
  | .snpData line => Sys2Proof.Machine.execSnpData line s
  | .snpInv line => Sys2Proof.Machine.execSnpInv line s
  | .snpCur line => Sys2Proof.Machine.execSnpCur line s
  | .flitReplay link => Sys2Proof.Machine.execFlitReplay link s
  | .peerUnreachable port => Sys2Proof.Machine.execPeerUnreachable port s
  | .straitsLinkLost a b => Sys2Proof.Machine.execStraitsLinkLost a b s
  | .scrub addr found => Sys2Proof.Machine.execScrub addr found s
  | .migrateBlock => Sys2Proof.Machine.execMigrateBlock s
  | .injectionRecordWrite part n record => Sys2Proof.Machine.execInjectionRecordWrite part n record s
  | .haltRequest hid => Sys2Proof.Machine.execHaltRequest hid s
  | .debugResume hid step stepk => Sys2Proof.Machine.execDebugResume hid step stepk s
  | .debugRegisterRead hid dsel => Sys2Proof.Machine.execDebugRegisterRead hid dsel s
  | .debugRegisterWrite hid dsel v => Sys2Proof.Machine.execDebugRegisterWrite hid dsel v s
  | .deviceReset => Sys2Proof.Machine.execDeviceReset s
  | .bootGo => Sys2Proof.Machine.execBootGo s
  | .bootComplete fw => Sys2Proof.Machine.execBootComplete fw s
  | .fixedLimitReached isle ratio => Sys2Proof.Machine.execFixedLimitReached isle ratio s
  | .ratioRecovery isle => Sys2Proof.Machine.execRatioRecovery isle s
  | .policyImageUpdate addr len => Sys2Proof.Machine.execPolicyImageUpdate addr len s
  | .powerOff => Sys2Proof.Machine.execPowerOff s
  | .clkrWrite isle v => Sys2Proof.Machine.execClkrWrite isle v s
  | .referenceCounterRestart isle => Sys2Proof.Machine.execReferenceCounterRestart isle s
  | .lockLost link => Sys2Proof.Machine.execLockLost link s
  | .lockRegained link => Sys2Proof.Machine.execLockRegained link s
  | .managementWindowCancel part lid => Sys2Proof.Machine.execManagementWindowCancel part lid s
  | .rollbackFloorRaise version => Sys2Proof.Machine.execRollbackFloorRaise version s
  | .serdesCalibration link => Sys2Proof.Machine.execSerdesCalibration link s
  | .extentRelease base size => Sys2Proof.Machine.execExtentRelease base size s

end Sys2Proof.Machine
end

