-- ==== Sys2Proof/Machine/Run.lean ====
section
/-! DEFINITION. Fetching, decoding and running the instruction at the pc (R130, R149, R151). -/

namespace Sys2Proof.Machine

/-- Run the instruction at the pc: fetch every parcel (R130), decode, and run it; an encoding that is refused is an
illegal-instruction exception (R149). -/
noncomputable def State.runInstr (s : State) : Out :=
  match fetchInstr s.h.sc.pc s with
  | .error e => e.out
  | .ok (w, t) =>
    match decodeWord w with
    | .ok d => exec d.instr t
    | .error _ =>
      match slotCount w with
      | none => illegal w t
      | some n => match fetchParcels (t.h.sc.pc + 4) (4 * n) t with
        | .error e => e.out
        | .ok (_, u) => illegal w u

/-- The outcome with its next state changed. -/
def Out.map (o : Out) (f : State → State) : Out :=
  match o with
  | .next s => .next (f s)
  | .fault r => .fault r
  | .refused r => .refused r

/-- The current hart waits where it is. -/
def State.stall (s : State) : State := s.onDbg fun d => { d with stalled := true }

/-- The W instruction or the convoy at the pc, fetched whole (R130). -/
def headSlotsM : M (List Slot) := do
  let s ← getS
  let w ← fetchInstr s.h.sc.pc
  match decodeWord w with
  | .ok (.wide op f) => pure [⟨op, f⟩]
  | .ok (.plain (.convoy n a b c d e x)) =>
    let us := codesOf [a, b, c, d, e, x]
    convoySlotsM (headerWord n.toNat us) n.toNat us
  | _ => blockM

/-- The length of a single, or of a convoy. -/
def lengthOfSlots (ss : List Slot) : Nat := if ss.length = 1 then 8 else 4 + 8 * ss.length

end Sys2Proof.Machine
end

