-- ==== Sys2Proof/Machine/Ecc.lean ====
section
/-! DEFINITION. ECC on the registers of a hart (R399, R401): a wrong bit is corrected and counted by the first instruction that reads its
word, a word that cannot be corrected raises a machine check there, and a word that is written anew is good. A vector operand is read element by
element; of every other source an instruction is taken to read the whole, and to write anew only what it is sure to write (DESIGN CHOICE,
log 104). -/

namespace Sys2Proof.Machine

/-- The g registers that an instruction without vector operands reads, and those it writes (R134, R153-R182, R224-R229, R235). -/
def gUses (ldn : Reg) (i : Instr) : List Reg × List Reg :=
  match i with
  | .cMv d | .cAddi d _ | .cSlli d _ | .cSrai d _ | .cLd d _ => ([ldn], [d])
  | .cAdd d f | .cSub d f | .cAnd d f | .cOr d f | .cXor d f => ([ldn, f], [d])
  | .cSt r _ => ([ldn, r], [])
  | .cLi d _ => ([], [d])
  | .cBeqz _ | .cBnez _ => ([ldn], [])
  | .add d a b _ | .sub d a b _ | .and d a b _ | .or d a b _ | .xor d a b _ | .sll d a b _ | .srl d a b _ | .sra d a b _
  | .slt d a b _ | .sltu d a b _ | .min d a b _ | .max d a b _ | .minu d a b _ | .maxu d a b _ | .mul d a b _ | .mulh d a b
  | .mulhu d a b | .div d a b _ | .divu d a b _ | .rem d a b _ | .remu d a b _ | .rol d a b _ | .ror d a b _ => ([a, b], [d])
  | .clz d a _ | .ctz d a _ | .popc d a _ | .sext d a _ | .zext d a _ | .addi d a _ | .andi d a _ | .ori d a _ | .xori d a _
  | .slti d a _ | .sltiu d a _ | .addiw d a _ | .slli d a _ _ | .srli d a _ _ | .srai d a _ _ => ([a], [d])
  | .ldhi d _ | .pcadd d _ | .jal d _ | .rdsr d _ | .wmrd d _ | .dget d _ _ | .settype d _ => ([], [d])
  | .ldB d a _ | .ldH d a _ | .ldW d a _ | .ldD d a _ | .ldBu d a _ | .ldHu d a _ | .ldWu d a _ | .ldAcqW d a _ | .ldAcqD d a _
  | .ldAcqWu d a _ | .jalr d a _ | .setvl d a | .setvlK d a | .settile d a | .settileC d a | .launch d a _ | .xchsr d _ a => ([a], [d])
  | .stB r a _ | .stH r a _ | .stW r a _ | .stD r a _ | .stRelB r a _ | .stRelH r a _ | .stRelW r a _ | .stRelD r a _ => ([r, a], [])
  | .amoAdd d a b _ _ _ | .amoAnd d a b _ _ _ | .amoOr d a b _ _ _ | .amoXor d a b _ _ _ | .amoMin d a b _ _ _ | .amoMax d a b _ _ _
  | .amoMinu d a b _ _ _ | .amoMaxu d a b _ _ _ | .amoSwap d a b _ _ _ | .amoFadd d a b _ _ _ => ([a, b], [d])
  | .amoCas d a b _ _ _ => ([d, a, b], [d])
  | .bEq a b _ | .bNe a b _ | .bLt a b _ | .bGe a b _ | .bLtu a b _ | .bGeu a b _ => ([a, b], [])
  | .loop _ a _ | .wrsr _ a | .dset _ a _ | .dput _ a _ | .wmpub _ a | .wmwait _ a => ([a], [])
  | .fadd d a b _ _ | .fsub d a b _ _ | .fmul d a b _ _ | .fdiv d a b _ _ | .fmin d a b _ | .fmax d a b _ | .fcmp d a b _ _ => ([a, b], [d])
  | .fsqrt d a _ _ | .fcvt d a _ _ _ | .fclass d a _ => ([a], [d])
  | .fma d a b c _ _ | .fms d a b c _ _ | .fnma d a b c _ _ | .fnms d a b c _ _ => ([a, b, c], [d])
  | .cancelLaunch | .firmwareVersion | .firmwareTelemetry => ([10], [])
  | _ => ([], [])

/-- The g registers that a W instruction reads. -/
def Slot.gReads (x : Slot) : List Reg :=
  let sp := x.op.spec
  let one (u : FieldUse) (r : Reg) : List Reg := if u = .scalar then [r] else []
  (if x.f.s1 then [x.f.vs1] else one sp.vs1 x.f.vs1) ++ one sp.vs2 x.f.vs2 ++ one sp.vs3 x.f.vs3
    ++ if sp.vdAcc = .read ∨ sp.vdAcc = .both then one sp.vd x.f.vd else []

/-- A word lies in a run of registers, of which `n` words a register are in use. -/
def RegRun.holds (a : RegRun) (n : Nat) (w : BadWord) : Bool :=
  match w, a.file with
  | .v r k, .v | .m r k, .m => decide (a.first ≤ r) && decide (r < a.first + a.count) && decide (k < n)
  | .mf k, .mf => decide (k < n)
  | .acc r _, .a => decide (a.first ≤ r) && decide (r < a.first + a.count)
  | _, _ => false

/-- A word that a save image of an operation holds (R352, R355). -/
def inImage (save : Bool) (op : WOp) (r : Reg) (w : BadWord) : Bool :=
  match w with
  | .v k _ => op == (if save then .vsave else .vrest) && k == r.toNat
  | .m _ _ | .mf _ => op == if save then .vsaveMsk else .vrestMsk
  | .acc _ _ | .check _ _ => op == if save then .vsaveMx else .vrestMx
  | .shadow _ => op == if save then .vsaveCtl else .vrestCtl
  | .g _ | .d _ _ => false

/-- The first active element, from a progress on, whose part of a vector operand lies in word k of register r (R189). An operand that the instruction
reads as a whole is read where it goes on. -/
def State.readIn (s : State) (x : Slot) (lo : Nat) (use : FieldUse) (sp : Span) (first : Reg) (r k : Nat) : Option Nat :=
  let v := s.h.vec
  let c := spanOf v x.f sp
  if use ≠ .vec ∨ r < first.toNat ∨ first.toNat + c ≤ r ∨ 64 * s.h.groups ≤ k then none
  else if sp = .single ∨ x.inKind ≠ .elem ∨ s.isI x.op x.f then some lo
  else
    let w := v.sew * c / v.grp
    let a := (r - first.toNat) * s.per w + 64 * (k % (if v.pm then 32 * s.h.groups else 64 * s.h.groups)) / w
    (List.range' a (max 1 (64 / w))).find? fun e => decide (lo ≤ e) && decide (e < s.vl) && s.active x.f e

/-- The first element, from a progress on, whose bit of a mask operand lies in word k of mask register r. -/
def State.readMask (s : State) (x : Slot) (lo : Nat) (use : FieldUse) (n r k : Nat) : Option Nat :=
  if use ≠ .mask ∨ r ≠ n ∨ 64 * s.h.groups ≤ k then none
  else if s.isI x.op x.f then some lo
  else
    (List.range' (64 * (k % (if s.h.vec.pm then 32 * s.h.groups else 64 * s.h.groups))) 64).find? fun e => decide (lo ≤ e) && decide (e < s.vl)

/-- Whether a W instruction that goes on from a progress reads a word, and at which element, where one reads it (R343, R401). -/
def State.slotReads (s : State) (x : Slot) (lo : Nat) (w : BadWord) : Option (Option Nat) :=
  let sp := x.op.spec
  let vector := decide (sp.op8 ≤ 0x12)
  let at_ (b : Bool) (e : Option Nat) : Option (Option Nat) := if b then some e else none
  let from_ (es : List (Option Nat)) : Option (Option Nat) := match es.filterMap id with
    | [] => none
    | e :: l => some (some (l.foldl min e))
  let readsVd := sp.vdAcc == .read || sp.vdAcc == .both
  if inImage true x.op x.f.vd w then some none
  else match w with
  | .g r => at_ (x.gReads.any fun d => d.toNat == r) none
  | .shadow _ => none
  | .d r _ => at_ (sp.desc && x.f.desc.toNat == r) (if vector then some lo else none)
  | .v r k => from_ [if x.f.s1 then none else s.readIn x lo sp.vs1 sp.vs1Span x.f.vs1 r k, s.readIn x lo sp.vs2 sp.vs2Span x.f.vs2 r k,
      s.readIn x lo sp.vs3 sp.vs3Span x.f.vs3 r k, if readsVd then s.readIn x lo sp.vd sp.vdSpan x.f.vd r k else none]
  | .m r k => from_ [if x.f.s1 then none else s.readMask x lo sp.vs1 x.f.vs1.toNat r k, s.readMask x lo sp.vs2 x.f.vs2.toNat r k,
      if readsVd then s.readMask x lo sp.vd x.f.vd.toNat r k else none, if x.f.me then s.readMask x lo .mask x.f.mr.toNat r k else none]
  | .mf k => at_ (writesMf x.op && decide (k < 64 * s.h.groups)) (some lo)
  | .acc _ _ => at_ ((readsOf (some s.h.vec) x.op x.f).any fun a => a.holds 0 w) none
  | .check a _ => at_ (x.op == .mretry && x.f.vd.toNat % 2 == a) none

/-- A word that a completed W instruction is sure to have written whole. -/
def State.slotWrites (s : State) (x : Slot) (w : BadWord) : Bool :=
  let full := (!x.f.me || s.h.vec.ma) && !s.h.vec.ta && decide (0 < s.vl)
  match w with
  | .g r => x.dests.any fun d => d.toNat == r
  | .v _ _ | .m _ _ => (full && decide (x.op.spec.op8 < 0x20) && (writesOf (some s.h.vec) x.op x.f).any fun a => a.holds (64 * s.h.groups) w)
      || inImage false x.op x.f.vd w
  | .mf _ | .shadow _ => inImage false x.op x.f.vd w
  | .acc a _ | .check a _ => (x.op == .maz && x.f.vd.toNat == a) || inImage false x.op x.f.vd w
  | .d _ _ => false

/-- Where some slots, each at its progress, read a word first: the slot, and the element if one reads it. What a lower slot is sure to write is
read as written. -/
def State.slotsRead (s : State) (ss : List Slot) (ps : List Nat) (w : BadWord) : Option (Nat × Option Nat) :=
  ss.zipIdx.findSome? fun x =>
    if (ss.take x.2).any fun y => s.slotWrites y w then none else (s.slotReads x.1 (ps.getD x.2 0) w).map fun e => (x.2, e)

/-- A word that a scalar instruction reads. -/
def scalarReads (ldn : Reg) (i : Instr) (w : BadWord) : Bool :=
  match w, i with
  | .d r k, .dget _ n q => r == n.toNat && k == q.toNat
  | .d r _, .dput n _ _ => r == n.toNat
  | .g r, i => (gUses ldn i).1.any fun d => d.toNat == r
  | _, _ => false

/-- A word that a completed scalar instruction has written whole. -/
def scalarWrites (ldn : Reg) (i : Instr) (w : BadWord) : Bool :=
  match w, i with
  | .d r _, .dset n _ _ => r == n.toNat
  | .g r, i => (gUses ldn i).2.any fun d => d.toNat == r
  | _, _ => false

/-- What stands at the pc: some slots, or a scalar instruction. -/
inductive AtPc where
  | slots (ss : List Slot)
  | scalar (i : Instr)
  | nothing

/-- What stands at the pc of the current hart. -/
def State.atPc (s : State) : AtPc :=
  match headSlotsM s with
  | .ok (ss, _) => .slots ss
  | .error _ => match fetchInstr s.h.sc.pc s with
    | .ok (w, _) => (match decodeWord w with
      | .ok (.plain i) => .scalar i
      | _ => .nothing)
    | .error _ => .nothing

/-- Where what stands at the pc reads a word first. -/
def State.pcReads (s : State) (w : BadWord) : Option (Nat × Option Nat) :=
  match s.atPc with
  | .slots ss => s.slotsRead ss (if ss.length = 1 then [s.h.vec.vstart.toNat] else s.h.vec.startProgress ss.length) w
  | .scalar i => if scalarReads s.h.sc.ldn i w then some (0, none) else none
  | .nothing => none

/-- What stands at the pc writes a word whole, once it is complete. -/
def State.pcWrites (s : State) (w : BadWord) : Bool :=
  match s.atPc with
  | .slots ss => ss.any fun x => s.slotWrites x w
  | .scalar i => scalarWrites s.h.sc.ldn i w
  | .nothing => false

/-- A machine check of a word that cannot be corrected (R401). -/
def badWordTrap : Trap := { code := 21, sub := 4 }

/-- Words with one wrong bit that are read are corrected, and counted in the telemetry of the hart's isle (R399). -/
def State.correctWords (s : State) (reads : BadWord → Bool) : State :=
  let found := s.h.weak.countP reads
  if found = 0 then s
  else { s with h := { s.h with weak := s.h.weak.filter fun w => !reads w } }.count s.h.hid.isle fun t => { t with corrected := t.corrected + found }

/-- The first check of R151 that a single or a convoy fails. -/
def State.slotsFault (s : State) (ss : List Slot) : Option Trap :=
  match ss with
  | [x] => s.singleFault x.op (semOf x.op) x.f
  | _ => s.convoyFault 0 ss

/-- The machine check of some slots that come to a word that cannot be corrected (R343, R401): everything before the element that reads it goes
first. None where they fault, or stop, before that. -/
def State.slotsCheck (s : State) (ss : List Slot) : Option State :=
  let ps := if ss.length = 1 then [s.h.vec.vstart.toNat] else s.h.vec.startProgress ss.length
  match (if (s.slotsFault ss).isSome then none else s.h.bad.findSome? fun w => s.slotsRead ss ps w) with
  | none => none
  | some (j, none) => some (s.trapHere (badWordTrap.inSlot j))
  | some (j, some e) =>
    let t := s.goOn ((List.range ss.length).map fun i => if i < j then s.vl else if i = j then e else ps.getD i 0)
    let at_ := if ss.length = 1 then t.h.vec.vstart.toNat else (t.h.vec.startProgress ss.length).getD j 0
    if at_ = e then ss[j]?.map fun x => t.trapHere { badWordTrap with lane := s.lane x.op x.f e j } else none

/-- The machine check of what stands at the pc, where it reads a word that cannot be corrected (R401). -/
def State.wordCheck (s : State) : Option State :=
  match s.atPc with
  | .slots ss => s.slotsCheck ss
  | .scalar i => if s.h.bad.any (scalarReads s.h.sc.ldn i) then some (s.trapHere badWordTrap) else none
  | .nothing => none

/-- A value of SCAUSE that no trap leaves: its code names no cause. -/
def noCause : BitVec 17 := BitVec.allOnes 17

/-- The instruction at the pc completes: with no trap, no wait, no halt, and without the end of its hart. A write of SCAUSE by the
instruction does not count. -/
noncomputable def State.completes (s : State) : Bool :=
  match (s.onSu fun u => { u with scause := noCause }).runInstr with
  | .next t => t.h.hid == s.h.hid && t.h.live && t.h.su.scause == noCause && !t.h.dbg.stalled && !t.h.dbg.halted
  | _ => false

/-- Run the instruction at the pc, with the marks on the words that it reads and writes (R399, R401). -/
noncomputable def State.runMarked (s : State) : Out :=
  if s.h.weak.isEmpty && s.h.bad.isEmpty then s.runInstr
  else match s.wordCheck with
    | some t => .next t
    | none =>
      let s := s.correctWords fun w => (s.pcReads w).isSome
      if s.completes then Out.map s.runInstr fun t => { t with h := { t.h with
        weak := t.h.weak.filter fun w => !s.pcWrites w, bad := t.h.bad.filter fun w => !s.pcWrites w } }
      else s.runInstr

end Sys2Proof.Machine
end

