-- ==== Sys2Proof/Machine/Outside.lean ====
section
/-! DEFINITION. What comes from outside the harts' streams and is no row of the opcode table: the host's writes (R420), poison from the
pool (R399, R422), what firmware does after boot (R80, R422, R428, R434), a tutor that fails (R431), errors that ECC finds (R399,
R401), fills of the instruction stores (R11, R32), and what the causeway brings (R289, R424). -/

namespace Sys2Proof.Machine

/-- The host writes its own memory (R420), line by line: a line that a pin rests on, or that an earlier write waits on, it writes once that is over, as
every other writer does (R240). -/
def State.hostWrite (s : State) (addr : BitVec 48) (bs : List Byte) : State :=
  let pa := 2 ^ 51 + addr.toNat
  let bs := bs.take (2 ^ 48 - addr.toNat)
  let org : Origin := ⟨0, 0, s.tick⟩
  (List.range ((pa % 64 + bs.length + 63) / 64)).foldl (fun s i =>
    let lo := 64 * i - pa % 64
    let part := (bs.take (64 * i + 64 - pa % 64)).drop lo
    if s.heldAtHome (pa + lo) part.length then s.queueWrite ⟨false, pa + lo, 0, 0, .host, 0, .store part, org⟩
    else s.hostPut org (pa + lo) part) s

/-- A pool device returns a line with CXL poison: all eight words are poisoned (R399). -/
def State.poolPoison (s : State) (line : Nat) : State :=
  if s.enumerated (line / 64 * 64) then s.onCa fun c => c.poisonWords (line / 64 * 64) 64 else s

/-- A shoal evicts a line, unless the line is resident and its mapping stands (R80). -/
def State.evictShoal (s : State) (isle line : Nat) : State :=
  s.onCa fun c => { c with shoal := c.shoal.filter fun l => !(l.isle == isle && l.line == line && !(l.kept && s.mappingStands l)) }

/-- A register word of a hart with one more wrong bit (R399). Which bits they are is not said; the second is taken to be another one
(DESIGN CHOICE, log 48). -/
def Hart.flip (h : Hart) (w : BadWord) : Hart :=
  if h.bad.contains w then h
  else if h.weak.contains w then { h with weak := h.weak.filter (· != w), bad := h.bad ++ [w] }
  else { h with weak := h.weak ++ [w] }

/-- One bit of word k of a replay-queue entry goes wrong: it can be corrected as the entry is read (R399), unless another bit of the word is wrong
already; then its element is lost, and cause 35 with SUB 6 gives its address (R401). -/
def State.replayError (s : State) (n k : Nat) : State :=
  match s.ca.parked[n]? with
  | none => s
  | some e =>
    if e.weak.contains k then (s.onCa fun c => { c with parked := c.parked.eraseIdx n }).loseParked e 35 6
    else s.onCa fun c => { c with parked := c.parked.set n { e with weak := e.weak ++ [k] } }

/-- One bit of word k of an engine command goes wrong: it can be corrected as the engine reads it (R399), unless another bit of the word is wrong
already; then the command ends with status 2, if it has not ended, and its hart takes cause 35 with SUB 7 (R401). -/
def State.commandError (s : State) (n k : Nat) : State :=
  match s.un.cmds[n]? with
  | none => s
  | some c =>
    if c.weak.contains k then
      let x : AsyncCause := { code := 35, sub := 7, sval := 0, batch := [] }
      let s := s.onContext c.own (fun h => { h with pend := h.pend ++ [x] }) fun o => { o with pend := o.pend ++ [x] }
      if c.ending.isSome then s.onUn fun u => { u with cmds := u.cmds.set n { c with weak := c.weak.filter (· != k) } } else s.finish c 2 0 0 none
    else s.onUn fun u => { u with cmds := u.cmds.set n { c with weak := c.weak ++ [k] } }

/-- State of a partition's registrar that cannot be corrected: every hart of the partition takes cause 35 with SUB 7, and no engine command is
affected (R401; which harts take it is not said: DESIGN CHOICE, log 105). -/
def State.loseRegistrar (s : State) (part : BitVec 3) : State :=
  let hit (h : Hart) : Hart := if h.live ∧ h.su.part = part then h.raise 35 7 0 else h
  { s with h := hit s.h, others := s.others.map hit }

/-- The L1 instruction cache of the current hart's core receives the line of an address (R11). -/
def State.fillCodeAt (s : State) (va : Word) : State :=
  match s.translate s.h.space .fetch va with
  | .ok p => if s.h.live && s.copyable s.h.su.part p.pa then s.fillCode s.h.su.part s.h.hid.core (p.pa / 64 * 64) else s
  | .error _ => s

/-- The current hart's loop buffer receives its innermost active body, when that has at most 256 bytes and all of it can be fetched (R32). -/
def State.fillLoop (s : State) : State :=
  match s.h.sc.frames.head? with
  | none => s
  | some f =>
    let n := (f.stop - f.start).toNat
    let bs := (List.range n).filterMap fun i =>
      match s.translate s.h.space .fetch (f.start + BitVec.ofNat 64 i) with
      | .ok p => some ((s.settleCode (f.start + BitVec.ofNat 64 i) p.pa 1).codeByte (f.start + BitVec.ofNat 64 i) p.pa)
      | .error _ => none
    let s := (List.range n).foldl (fun (s : State) i => match s.translate s.h.space .fetch (f.start + BitVec.ofNat 64 i) with
      | .ok p => s.settleCode (f.start + BitVec.ofNat 64 i) p.pa 1
      | .error _ => s) s
    if s.h.live ∧ n ≤ 256 ∧ bs.length = n then { s with h := { s.h with loop := some ⟨f.start, bs⟩ } } else s

/-- What each thing from outside does. -/
def State.happens (s : State) (o : Outside) : State :=
  match o with
  | .hostWrite addr bs => s.hostWrite addr bs
  | .cxlPoison line => s.poolPoison line.toNat
  | .extentAdd base size => s.addExtent base size
  | .tutorFailure isle reason => s.tutorFails isle reason
  | .partitionChange part load => s.changePartition part load
  | .powerLimit isle watts =>
    if s.dev.boot.running then s.setClock isle fun c => { c with watts := storedWatts watts } else s
  | .shoalReserve isle lines =>
    if s.dev.boot.running then { s with dev := { s.dev with reserve := s.dev.reserve.set isle.toNat (storedReserve lines) } } else s
  | .shoalEvict isle line => s.evictShoal isle.toNat (line.toNat / 64 * 64)
  | .flitAcknowledged l => if (s.linkOf l).lost then s else s.setLink l { s.linkOf l with replays := 0 }
  | .memoryError a => s.flip (a.toNat / 8)
  | .registerError hid w => s.onHart hid fun h => h.flip w
  | .replayError n k => s.replayError n k
  | .commandError n k => s.commandError n k
  | .registrarError part => s.loseRegistrar part
  | .codeFill hid va => s.asHart hid fun s => s.fillCodeAt va
  | .loopFill hid => s.asHart hid State.fillLoop
  | .peerToken w => if s.portUp w.port then s.onUn fun u => { u with tokens := u.tokens ++ [w] } else s
  | .peerReady w => if s.portUp w.port then s.onUn fun u => { u with ready := u.ready ++ [w] } else s

end Sys2Proof.Machine
end

