-- ==== Sys2Proof/Machine/Queue.lean ====
section
/-! DEFINITION. The vector queue (R306) and the loads that a scalar stream has issued (R107). A settled W instruction or convoy is placed in the
queue (R336), the scalar stream runs ahead, and the entry performs later with what it took from the state as it entered (R185): in its turn, before
entries that it does not depend on, or element by element (R108). Whether the scalar stream runs ahead, and what of the queue performs when, the
agenda says; where it does not, each instruction runs whole in its turn. -/

namespace Sys2Proof.Machine

/-! ### What may stand in the queue -/

/-- The memory form of a vector memory operation. -/
def memForm (op : WOp) : Option MemForm :=
  let plain (k : MemKind) (a : MemAddr) : Option MemForm := some { op := op, kind := k, addr := a }
  match op with
  | .vld => plain .load .unit
  | .vlds => plain .load .stride
  | .vldx => plain .load .index
  | .vldff => some { op := op, kind := .load, addr := .unit, first := true }
  | .vldd => plain .load .desc
  | .afetch => plain .load .entry
  | .vst => plain .store .unit
  | .vsts => plain .store .stride
  | .vstx => plain .store .index
  | .vstxu => some { op := op, kind := .store, addr := .index, loose := true }
  | .vstd => plain .store .desc
  | .vamoAdd => plain (.atomic .add) .index
  | .vamoAnd => plain (.atomic .and) .index
  | .vamoOr => plain (.atomic .or) .index
  | .vamoXor => plain (.atomic .xor) .index
  | .vamoMin => plain (.atomic .min) .index
  | .vamoMax => plain (.atomic .max) .index
  | .vamoSwap => plain (.atomic .swap) .index
  | .vamoFadd => plain .add .index
  | .vamoAddDesc => plain (.atomic .add) .desc
  | .vamoAndDesc => plain (.atomic .and) .desc
  | .vamoOrDesc => plain (.atomic .or) .desc
  | .vamoXorDesc => plain (.atomic .xor) .desc
  | .vamoMinDesc => plain (.atomic .min) .desc
  | .vamoMaxDesc => plain (.atomic .max) .desc
  | .vamoSwapDesc => plain (.atomic .swap) .desc
  | .vamoFaddDesc => plain .add .desc
  | _ => none

/-- A W instruction that the scalar stream may leave behind it in the queue, once it has settled. The stream itself waits for a result in a g
register (R105), for a drain (R40), and for an acquire: a load with acquire, a tagged load, `ewait` (R100, R101). A STACK or SWEEP instruction
settles only as it performs, since its faults are found in the record that it reads at the home. -/
def mayQueue (x : Slot) : Bool :=
  x.dests.isEmpty && match memForm x.op with
  | some m => m.mark x.f == 0 && !m.acquires x.f
  | none => decide (x.op.spec.op8 ≤ 0x0A) || (isMatrix x.op && x.op != .mdrain) || x.op == .ecmd || x.op == .epoll

/-- A W instruction that releases: a store with release, `ecmd` (R101, R279). -/
def Slot.releases (x : Slot) : Bool := x.op == .ecmd || (memForm x.op).any fun m => m.releases x.f

/-- The registers that the addresses of a vector memory instruction depend on: its index group and its mask. -/
def addressRuns (v : Vec) (x : Slot) : List RegRun :=
  match memForm x.op with
  | none => []
  | some m => (if m.addr = .index then [⟨.v, x.f.vs2.toNat, spanOf v x.f x.op.spec.vs2Span⟩] else [])
      ++ if x.f.me then [⟨.m, x.f.mr.toNat, 1⟩] else []

/-- The slots of a queue entry. -/
def Queued.convoy (q : Queued) : List Slot := q.slots.map fun x => ⟨x.1, x.2⟩

/-- What the entries of a queue write. -/
def Hart.queueWrites (h : Hart) : List RegRun :=
  h.queue.flatMap fun q => q.slots.flatMap fun x => writesOf (some { h.vec with vtype := q.vtype, vl := q.vl }) x.1 x.2

/-- The addresses of some slots are known as they enter the queue: nothing that their index and mask registers hold is still to come from
the queue or from a lower slot. -/
def State.addressesKnown (s : State) (ss : List Slot) : Bool :=
  ss.zipIdx.all fun x =>
    let early := s.h.queueWrites ++ (ss.take x.2).flatMap fun y => writesOf (some s.h.vec) y.op y.f
    (addressRuns s.h.vec x.1).all fun a => early.all fun b => !a.meets b

/-- An access of a W instruction: the element, where it has elements, its address, its bytes, and its class. -/
structure Access where
  e   : Nat
  va  : Word
  n   : Nat
  acc : Acc
  deriving DecidableEq, Repr

/-- The accesses of a W instruction of the vector memory and matrix classes, as the registers give their addresses. -/
def State.accesses (s : State) (x : Slot) : List Access :=
  let whole (acc : Acc) (n : Nat) (vas : List Word) : List Access := vas.map fun va => ⟨0, va, n, acc⟩
  match memForm x.op with
  | some m => (List.range s.vl).filterMap fun e =>
      (if s.active x.f e then m.elemAddr s x.f false e else none).map fun a => ⟨e, a.1, m.bytes s x.f, m.kind.acc⟩
  | none => match x.op with
    | .mtld => whole .load (s.descAt x.f).bytes (s.windowVas x.f false (mtldWindow s.shape x.f))
    | .mald => whole .load (s.descAt x.f).bytes (s.windowVas x.f false (s.shape.m, s.shape.n))
    | .mast => whole .store (s.descAt x.f).bytes (s.windowVas x.f true (s.shape.m, s.shape.n))
    | .mmacx => whole .load 1 ((s.scalesOf x.f.vs1 0 ++ s.scalesOf x.f.vs2 1).filterMap id)
    | _ => []

/-! ### An entry performs -/

/-- The state as an entry of the queue meets it (R185): the scalar registers, VL and VTYPE that it entered with, its own progress, and its
addresses as translated. -/
def State.entering (s : State) (q : Queued) : State :=
  { s with h := { s.h with
    sc := q.sc
    vec := { s.h.vec with vl := q.vl, vtype := q.vtype, vstart := q.vstart, cpv0 := q.cpv0, cpv1 := q.cpv1 }
    ct := { s.h.ct with begun := q.begun }
    held := q.tables, heldAt := some q.tick, queue := [] } }

/-- The run of an entry as it goes on. -/
def State.entryRun (s : State) (q : Queued) : ConvoyRun := { (s.entering q).startRun q.convoy with ahead := q.ahead }

/-- The entry as it stands after part of its work (R196). -/
def Queued.keep (q : Queued) (r : ConvoyRun) : Queued :=
  let q := { q with sc := { r.s.h.sc with fflags := 0 } }
  match r.ps with
  | [p] => { q with vstart := BitVec.ofNat 15 p }
  | ps =>
    let v := r.s.h.vec.saved ps
    { q with vstart := v.vstart, cpv0 := v.cpv0, cpv1 := v.cpv1, begun := some ⟨q.sc.pc, ps, r.olds, r.fin, r.mf⟩ }

/-- The live state again after an entry has gone on: flags are ORed in (R67), SRSTEP has moved on (R62), and everything else that the
scalar stream holds stands. -/
def State.rejoin (s : State) (q : Queued) (t : State) (queue : List Queued) : State :=
  let v := s.h.vec
  let sc : Scalar := { s.h.sc with
    fflags := s.h.sc.fflags ||| t.h.sc.fflags
    srstep := s.h.sc.srstep + (t.h.sc.srstep - q.sc.srstep) }
  { t with h := { t.h with
    sc := sc
    vec := { t.h.vec with vl := v.vl, vtype := v.vtype, vstart := v.vstart, cpv0 := v.cpv0, cpv1 := v.cpv1 }
    ct := { t.h.ct with begun := s.h.ct.begun }
    held := s.h.held, heldAt := s.h.heldAt, queue := queue } }

/-- A cause that comes at the stop point, since the instruction that met it has settled. -/
def State.later (s : State) (t : Trap) : State :=
  { s with h := { s.h with pend := s.h.pend ++ [{ code := t.code, sub := t.sub, sval := t.val, batch := [] }] } }

/-- What a settled instruction meets as it performs after all, poison that has arisen since being one: its element does not perform, an `mtld` gives
up its pins, and its cause comes at the stop point (DESIGN CHOICE, log 103). -/
def ConvoyRun.pass (r : ConvoyRun) (ss : List Slot) : ConvoyRun :=
  let drop (k : Nat) (s : State) : State := match ss[k]? with
    | some x => if x.op = .mtld then s.dropPins x.f.vd.toNat else s
    | none => s
  let past (k p : Nat) (s : State) : ConvoyRun :=
    let whole := ss[k]?.any fun x => r.s.isI x.op x.f
    { r with s := drop k s, ps := r.ps.set k (if whole then r.s.vl else p + 1), fin := if whole then r.fin.set k true else r.fin }
  match r.halt with
  | some (k, .trap p t) => past k p (r.s.later t)
  | some (k, .halt p c) => past k p (r.s.onDbg fun d => { d with hreq := some (BitVec.ofNat 4 c) })
  | _ => r

/-- Entry k of the current hart's queue goes on, up to given progress of its slots, or as far as it can where none is given. Words of it with one
wrong bit are corrected (R399); where it comes to one that cannot be corrected it is given up, and the machine check comes at the stop point
(DESIGN CHOICE, log 103). -/
def State.performEntry (s : State) (k : Nat) (ps : List Nat) : State :=
  match s.h.queue[k]? with
  | none => s
  | some q =>
    let ss := q.convoy
    let r := s.entryRun q
    let reads (w : BadWord) : Bool := (r.s.slotsRead ss r.ps w).isSome
    if s.h.bad.any reads then
      ss.foldl (fun (t : State) x => if x.op = .mtld then t.dropPins x.f.vd.toNat else t)
        ({ s with h := { s.h with queue := s.h.queue.eraseIdx k } }.later badWordTrap)
    else
      let r := { r with s := r.s.correctWords reads }
      let r := (List.range ss.length).foldl (fun r i => r.runSlot ss i (if ps.isEmpty then r.s.vl else min r.s.vl (ps.getD i 0))) r
      let r := r.pass ss
      s.rejoin q r.s (if r.fin.all id then s.h.queue.eraseIdx k else s.h.queue.set k (q.keep r))

/-- Entries perform, oldest first, until one waits; at most n turns of the head. -/
def State.performN (s : State) : Nat → State
  | 0 => s
  | n + 1 =>
    let t := s.performEntry 0 []
    if t.h.queue.length < s.h.queue.length ∨ s.h.pend.length < t.h.pend.length then t.performN n else t

/-- Every entry performs, as far as it can. An entry may take a turn more for each element that does not perform. -/
def State.performAll (s : State) : State := s.performN (s.h.queue.length + (s.h.queue.map fun q => q.slots.length * q.vl.toNat).sum)

/-! ### Which order is free -/

/-- A W instruction with accesses to memory, or with effects of a unit, that other memory accesses must keep their order to: `ecmd` and stores with
release (R101), rate-mode loads (R273), STACK, SWEEP and VPRIV instructions. -/
def State.strict (s : State) (x : Slot) : Bool :=
  x.releases || x.isRate s || (decide (0x32 ≤ x.op.spec.op8) && x.op != .afetch)

/-- Where the accesses of some slots lie; `none` for one whose page is not there. -/
def State.footprint (s : State) (ss : List Slot) : List (Option (Nat × Nat)) :=
  (ss.flatMap s.accesses).map fun a => match s.translate s.h.space a.acc a.va with
    | .ok p => some (p.pa, a.n)
    | .error _ => none

/-- No access of one list meets one of another. -/
def apart (a b : List (Option (Nat × Nat))) : Bool :=
  a.all fun x => b.all fun y => match x, y with
    | some x, some y => !meets x.1 x.2 y.1 y.2
    | _, _ => false

/-- A W instruction that touches memory or acts on a unit outside the registers. -/
def Slot.acts (x : Slot) : Bool := (memForm x.op).isSome || decide (0x20 ≤ x.op.spec.op8)

/-- Two W instructions of classes whose instructions stay in program order: matrix instructions (R258), engine and STACK instructions; under protected
mode those that are counted (R408); conversions that step SRSTEP (R62). -/
def State.oneClass (s : State) (x : Slot) (t : State) (y : Slot) : Bool :=
  (isMatrix x.op && isMatrix y.op) || (decide (0x30 ≤ x.op.spec.op8) && decide (0x30 ≤ y.op.spec.op8))
    || (s.h.vec.pm && t.h.vec.pm && isMirrored x.op && isMirrored y.op) || (x.steps s && y.steps t)

/-- Later slots `xs`, as `s` has them, may go before earlier slots `ys`, as `t` has them (R105, R107): neither takes a register from the other,
no two of them are of one class, and their accesses to memory are to different places. Settled loads leave mf alone. -/
def State.mayPass (s : State) (xs : List Slot) (t : State) (ys : List Slot) : Bool :=
  let w (u : State) (l : List Slot) : List RegRun := (l.flatMap fun x => writesOf (some u.h.vec) x.op x.f).filter fun a => a.file != .mf
  let r (u : State) (l : List Slot) : List RegRun := l.flatMap fun x => readsOf (some u.h.vec) x.op x.f
  let free (a b : List RegRun) : Bool := a.all fun x => b.all fun y => !x.meets y
  free (w s xs) (w t ys) && free (w s xs) (r t ys) && free (r s xs) (w t ys)
    && (xs.all fun x => ys.all fun y => !s.oneClass x t y)
    && ((xs.all fun x => !x.acts) || (ys.all fun y => !y.acts)
        || ((xs.all fun x => !s.strict x) && (ys.all fun y => !t.strict y) && apart (s.footprint xs) (t.footprint ys)))

/-- Some slots, as `u` has them, may go before the first k entries of the queue. -/
def State.passesEntries (s u : State) (ss : List Slot) (k : Nat) : Bool :=
  (s.h.queue.take k).all fun q => u.mayPass ss (s.entering q) q.convoy

/-- Entry k of the queue may go on before those ahead of it. -/
def State.entryFree (s : State) (k : Nat) : Bool :=
  match s.h.queue[k]? with
  | some q => s.passesEntries (s.entering q) q.convoy k
  | none => false

/-- Entry k of the queue goes on, where those ahead of it let it (R107, R393). -/
def State.performFree (k : Nat) (ps : List Nat) (s : State) : State := if s.entryFree k then s.performEntry k ps else s

/-- Elements before element e, of a slot that stands at `lo`, that have yet to perform and write the same bytes: they come first (R108). -/
def State.elementsBefore (s : State) (x : Slot) (m : MemForm) (lo e : Nat) (done : List Nat) : Bool :=
  m.kind != .load && !m.loose && (match (s.accesses x).find? fun a => a.e == e with
    | none => false
    | some a => (s.accesses x).any fun b => decide (lo ≤ b.e) && decide (b.e < e) && !done.contains b.e
        && !apart (match s.translate s.h.space a.acc a.va with | .ok p => [some (p.pa, a.n)] | .error _ => [none])
          (match s.translate s.h.space b.acc b.va with | .ok p => [some (p.pa, b.n)] | .error _ => [none]))

/-- An instruction whose elements go strictly in increasing order: an atomic in compatibility mode (R230, R347). -/
def MemForm.inOrder (m : MemForm) (s : State) : Bool := s.h.su.compat && m.kind != .load && m.kind != .store

/-- Element e of slot j of entry k performs ahead of its turn (R108): of an ordinary load, store or atomic that no slot feeds. Of an `mtld` the line of
a window element is pinned (R240, R259). -/
def State.performElement (k j e : Nat) (s : State) : State :=
  match s.h.queue[k]? with
  | none => s
  | some q =>
    let ss := q.convoy
    let r := s.entryRun q
    let u := r.enter ss j
    let back (t : State) (q' : Queued) : State :=
      s.rejoin q (t.onSc fun sc => { sc with srstep := q.sc.srstep }) (s.h.queue.set k q')
    match ss[j]? with
    | none => s
    | some x =>
      let lo := r.ps.getD j 0
      if !s.entryFree k || r.fin.getD j true || !(feeders u.h.vec ss j).isEmpty || !s.h.bad.isEmpty then s
      else if x.op = .mtld then back (u.pinAhead x.f e) q
      else match memForm x.op with
        | none => s
        | some m =>
          let done := (q.ahead.filter fun a => a.1 == j).map Prod.snd
          if m.first || m.inOrder u || m.rate u x.f != 0 || m.releases x.f || decide (e < lo) || decide (u.vl ≤ e) || done.contains e || !u.active x.f e
              || u.elementsBefore x m lo e done then s
          else match m.elem u x.f j e e with
            | .done t => back t { q with ahead := (j, e) :: q.ahead }
            | _ => s

/-! ### Placing an entry -/

/-- A single or a convoy settles at once (R336): run after everything in the queue, it completes with no fault, no wait and no element
that leaves it unperformed. A release waits for what its own hart has parked or held by pins, but settles without it. -/
def State.settles (s : State) (ss : List Slot) : Bool :=
  let r := s.runSlots ss (List.range ss.length) fun _ _ => s.vl
  (s.slotsFault ss).isNone && r.fin.all id && r.s.ca.parked.length == s.ca.parked.length

/-- The state after everything before an instruction, as far as it decides whether that settles: what the queue holds performs; where the hart's
releases would wait for its parked and held writes, these are left out. -/
def State.foreseen (s : State) (ss : List Slot) : State :=
  let wait := (ss.any Slot.releases) || s.h.queue.any fun q => q.convoy.any Slot.releases
  let s := if wait then s.onCa fun c => { c with
      parked := c.parked.filter fun p => p.own != s.h.own, pinQueue := c.pinQueue.filter fun w => w.src.hartOwn != some s.h.own } else s
  s.performAll

/-- The slots as they stand in the queue: a settled `vldff` is a `vld` of the elements that it loads (R216). -/
def queuedSlots (ss : List Slot) : List (WOp × WFields) := ss.map fun x => (if x.op = .vldff then .vld else x.op, x.f)

/-- The table entries that the accesses of some slots are translated through (R365), with A and D set in them (R363). `late` has their addresses. -/
def State.tablesOf (s late : State) (ss : List Slot) : State × List (Nat × Word) :=
  let as_ := ss.flatMap late.accesses
  (as_.foldl (fun s a => match s.translate s.h.space a.acc a.va with
    | .ok p => s.markLeaf s.h.space a.va p (a.acc != .load)
    | .error _ => s) s, (as_.flatMap fun a => s.path s.h.space a.va).dedup)

/-- The queue with a single or convoy placed last, and the pc after it. `late` is the state after everything before it. A `vldff` leaves VL at what it
loads (R216). -/
def State.enterQueue (s late : State) (ss : List Slot) : State :=
  let len := lengthOfSlots ss
  let s := if ss.any fun x => x.op == .vldff then
      s.setCtl fun v => { v with vl := (late.runSlots ss (List.range ss.length) fun _ _ => late.vl).s.h.vec.vl } else s
  let v := s.h.vec
  let r := s.tablesOf late ss
  let q : Queued :=
    { slots := queuedSlots ss, tick := s.tick, sc := { s.h.sc with fflags := 0, srstep := late.h.sc.srstep }, vl := v.vl, vtype := v.vtype
      vstart := 0, cpv0 := 0, cpv1 := 0, begun := none, tables := r.2, ahead := [] }
  ({ r.1 with h := { r.1.h with queue := s.h.queue ++ [q] } }).advance len

/-- No load that has been issued must come before some slots: none of them reads or writes its register, releases (R101), or saves or restores
registers. -/
def State.loadsClear (s : State) (ss : List Slot) : Bool :=
  ss.all fun x => s.h.loads.all fun l => !x.releases && !isPriv x.op && !x.gReads.contains l.d && !x.dests.contains l.d

/-- Loads that have been issued come before some slots, where they must. -/
def State.loadsBefore (s : State) (ss : List Slot) : State := if s.loadsClear ss then s else s.loadsDone

/-- The scalar stream places the W instruction or the convoy at its pc in the vector queue, where that has settled already; its elements are
yet to perform (R306, R336). -/
def State.place (s : State) : Option State :=
  let v := s.h.vec
  if v.vstart != 0 || v.cpv0 != 0 || v.mf != 0 then none
  else match headSlotsM s with
  | .error _ => none
  | .ok (ss, t) =>
    let t := t.loadsBefore ss
    let late := t.foreseen ss
    let reads (w : BadWord) : Bool := (t.slotsRead ss (ss.map fun _ => 0) w).isSome
    if !(ss.all mayQueue) || !late.h.queue.isEmpty || !t.addressesKnown ss || !t.loadsClear ss || t.h.bad.any reads
        || !late.settles ss then none
    else some (t.enterQueue late ss)

/-! ### Issuing a load -/

/-- A scalar load that may be issued and perform later: its register, whether it extends the sign, its bytes, its address and its length. -/
def State.lateForm (s : State) (i : Instr) : Option (Reg × Bool × Nat × Word × Nat) :=
  match i with
  | .cLd d off => some (d, false, 8, s.ld + BitVec.ofNat 64 (8 * off.toNat), 2)
  | .ldB d a imm => some (d, true, 1, s.ea a imm, 4)
  | .ldH d a imm => some (d, true, 2, s.ea a imm, 4)
  | .ldW d a imm => some (d, true, 4, s.ea a imm, 4)
  | .ldD d a imm => some (d, true, 8, s.ea a imm, 4)
  | .ldBu d a imm => some (d, false, 1, s.ea a imm, 4)
  | .ldHu d a imm => some (d, false, 2, s.ea a imm, 4)
  | .ldWu d a imm => some (d, false, 4, s.ea a imm, 4)
  | _ => none

/-- The registers of loads that have been issued. -/
def Hart.awaited (h : Hart) : List Reg := h.loads.map LateLoad.d

/-- An instruction reads or writes no register that a load is yet to write. -/
def State.clearOfLoads (s : State) (i : Instr) : Bool :=
  let g := gUses s.h.sc.ldn i
  s.h.awaited.all fun d => !g.1.contains d && !g.2.contains d

/-- The scalar load at the pc is issued, its checks and its translation done (R159, R336): it performs later, and the scalar stream goes on (R107). It
may be a load of normal or host-coherent memory with no write of the hart to its bytes that a pin holds or will hold. -/
def State.issueLoad (s : State) : Option State :=
  match s.atPc with
  | .scalar i => match s.lateForm i with
    | none => none
    | some (d, signed, n, va, len) =>
      if !s.clearOfLoads i || (s.h.weak ++ s.h.bad).any (fun w => scalarReads s.h.sc.ldn i w || scalarWrites s.h.sc.ldn i w) then none
      else match fetchInstr s.h.sc.pc s with
        | .error _ => none
        | .ok (_, s) => match scalarCheck .load va n false s with
          | .error _ => none
          | .ok (p, t) =>
            if p.mt = 1 || t.ownHeld p.pa n || t.bufHeld p.pa n then none
            else some (({ t with h := { t.h with
              sc := { t.h.sc with ldn := d }
              loads := t.h.loads ++ [(⟨d, signed, n, p.pa, va, t.h.sc.pc, t.org 0⟩ : LateLoad)] } }).advance len)
  | _ => none

end Sys2Proof.Machine
end

