-- ==== Sys2Proof/Machine/Turn.lean ====
section
/-! DEFINITION. One turn of a hart and of the package: what stands before the instruction at the pc (R344, R371, R41, R410), running it,
alone or ahead of the vector queue (R306, R336), debug steps (R411), and the agenda. The agenda is given from outside: it says whose
turn comes next, which step that no word encodes, and when the vector queue and issued loads move. With an empty agenda the current hart goes on. -/

namespace Sys2Proof.Machine

/-- A hart that was stepping halts after its step (R411), unless the step waits, has halted it already, or has ended it. -/
def State.afterStep (armed : Option Bool) (s : State) : State :=
  if armed.isSome && s.h.live && !s.h.dbg.halted && !s.h.dbg.stalled then s.haltHere 3 else s

/-- A user-level event is to be delivered before the instruction at the pc (R41, R442). A hart that is to step takes one only at a `wait event` (R411). -/
def State.eventDue (s : State) : Bool :=
  s.h.canDeliver && !s.insideW && (s.h.dbg.run.isNone || s.atWait) && s.checkReaches.h.ev.next.isSome

/-- A trap that a hart takes before it comes to the instruction at its pc: the state after it, where there is one. -/
def State.beforeInstr (s : State) : Option Out :=
  if s.h.takable.isSome then some (execAsyncTrapTaken [] s)
  else s.parkedReport.map .next

/-- The work of a hart's turn with nothing of it queued or issued before. A step ends with what it did: the instruction at the pc, or the delivery
that ends its `wait event` (R411). -/
noncomputable def State.work (s : State) (armed : Option Bool) : Out :=
  match s.beforeInstr with
  | some o => Out.map o (State.afterStep armed)
  | none =>
    let t := s.checkReaches
    Out.map (if s.eventDue then execUserEventDelivery t else t.runMarked) (State.afterStep armed)

/-- How far each slot of the instruction at the stop point goes before a requested halt (R410, R196): a free choice. -/
def State.freeStop (s : State) : State :=
  let t := s.goOn ((List.range 6).map fun k => Config.freeChoice (s.free + k) % (s.vl + 1))
  { t with free := s.free + 6 }

/-- One turn of a hart with nothing queued or issued before: a halt that is due (R410, R415), or its work. -/
noncomputable def State.calmTurn (s : State) : Out :=
  match s.h.dbg.hreq with
  | some reason =>
    let t := (s.onDbg fun d => { d with hreq := none }).freeStop
    .next (t.haltHere reason.toNat)
  | none => (s.onDbg fun d => { d with stalled := false }).work s.h.dbg.run

/-- Nothing that the current hart has queued or issued is still to perform. -/
def Hart.calm (h : Hart) : Bool := h.queue.isEmpty && h.loads.isEmpty

/-- What the hart has queued and issued completes, and then its turn comes (R336); while not all of it can, the hart waits. -/
noncomputable def State.drainedTurn (s : State) : Out :=
  let t := s.loadsDone.performAll.loadsDone
  if t.h.calm then t.calmTurn else .next t.stall

/-- Something other than a user-level event falls at the stop point of the current hart. -/
def State.haltDue (s : State) : Bool :=
  s.h.dbg.hreq.isSome || s.h.dbg.run.isSome || s.h.takable.isSome || s.parkedReport.isSome

/-- Something falls at the stop point of the current hart. -/
def State.stopDue (s : State) : Bool := s.haltDue || s.eventDue

/-- The scalar instructions that the model lets pass what stands in the vector queue: integer and floating-point operations, transfers and
loops, loads, stores without release, atomics without release, vector configuration and `order.sv`. Every other waits for the queue; the
manual would let some of those pass too. -/
def runsAhead (i : Instr) : Bool :=
  match i with
  | .cMv _ | .cAddi _ _ | .cSlli _ _ | .cSrai _ _ | .cLd _ _ | .cAdd _ _ | .cSub _ _ | .cAnd _ _ | .cOr _ _ | .cXor _ _ | .cSt _ _
  | .cLi _ _ | .cBeqz _ | .cBnez _ | .cJ _ | .add _ _ _ _ | .sub _ _ _ _ | .and _ _ _ _ | .or _ _ _ _ | .xor _ _ _ _ | .sll _ _ _ _
  | .srl _ _ _ _ | .sra _ _ _ _ | .slt _ _ _ _ | .sltu _ _ _ _ | .min _ _ _ _ | .max _ _ _ _ | .minu _ _ _ _ | .maxu _ _ _ _
  | .mul _ _ _ _ | .mulh _ _ _ | .mulhu _ _ _ | .div _ _ _ _ | .divu _ _ _ _ | .rem _ _ _ _ | .remu _ _ _ _ | .rol _ _ _ _
  | .ror _ _ _ _ | .clz _ _ _ | .ctz _ _ _ | .popc _ _ _ | .sext _ _ _ | .zext _ _ _ | .addi _ _ _ | .andi _ _ _ | .ori _ _ _
  | .xori _ _ _ | .slti _ _ _ | .sltiu _ _ _ | .addiw _ _ _ | .slli _ _ _ _ | .srli _ _ _ _ | .srai _ _ _ _ | .ldhi _ _ | .pcadd _ _
  | .ldB _ _ _ | .ldH _ _ _ | .ldW _ _ _ | .ldD _ _ _ | .ldBu _ _ _ | .ldHu _ _ _ | .ldWu _ _ _ | .ldAcqW _ _ _ | .ldAcqD _ _ _
  | .ldAcqWu _ _ _ | .stB _ _ _ | .stH _ _ _ | .stW _ _ _ | .stD _ _ _ | .bEq _ _ _ | .bNe _ _ _ | .bLt _ _ _ | .bGe _ _ _
  | .bLtu _ _ _ | .bGeu _ _ _ | .jal _ _ | .jalr _ _ _ | .loop _ _ _ | .orderSv | .fadd _ _ _ _ _ | .fsub _ _ _ _ _
  | .fmul _ _ _ _ _ | .fdiv _ _ _ _ _ | .fsqrt _ _ _ _ | .fmin _ _ _ _ | .fmax _ _ _ _ | .fcvt _ _ _ _ _ | .fcmp _ _ _ _ _
  | .fclass _ _ _ | .fma _ _ _ _ _ _ | .fms _ _ _ _ _ _ | .fnma _ _ _ _ _ _ | .fnms _ _ _ _ _ _ | .setvl _ _ | .setvlK _ _
  | .settype _ _ => true
  | .amoAdd _ _ _ _ _ rel | .amoAnd _ _ _ _ _ rel | .amoOr _ _ _ _ _ rel | .amoXor _ _ _ _ _ rel | .amoMin _ _ _ _ _ rel
  | .amoMax _ _ _ _ _ rel | .amoMinu _ _ _ _ _ rel | .amoMaxu _ _ _ _ _ rel | .amoSwap _ _ _ _ _ rel | .amoCas _ _ _ _ _ rel
  | .amoFadd _ _ _ _ _ rel => !rel
  | _ => false

/-- The scalar instructions, among those that pass the queue, that a load which has been issued may follow: all but stores and atomics, which come
after every earlier load of their stream (R107), and `order.sv`. -/
def passesLoads (i : Instr) : Bool :=
  match i with
  | .cSt _ _ | .stB _ _ _ | .stH _ _ _ | .stW _ _ _ | .stD _ _ _ | .orderSv | .amoAdd _ _ _ _ _ _ | .amoAnd _ _ _ _ _ _
  | .amoOr _ _ _ _ _ _ | .amoXor _ _ _ _ _ _ | .amoMin _ _ _ _ _ _ | .amoMax _ _ _ _ _ _ | .amoMinu _ _ _ _ _ _
  | .amoMaxu _ _ _ _ _ _ | .amoSwap _ _ _ _ _ _ | .amoCas _ _ _ _ _ _ | .amoFadd _ _ _ _ _ _ => false
  | i => runsAhead i

/-- What stands at the pc may go before all that the current hart has queued and issued: a scalar instruction that takes nothing from a load still to
come; the end of an event's handler; a W instruction or convoy that nothing in the queue must come before (R105, R107). -/
def State.goesAhead (s : State) : Bool :=
  match s.atPc with
  | .scalar .eret => !s.h.su.sup && s.h.loads.isEmpty
  | .scalar i => runsAhead i && (s.h.loads.isEmpty || (passesLoads i && s.clearOfLoads i))
  | .slots ss =>
    decide (s.h.queue.length < 64) && (ss.all fun x => !isPriv x.op) && s.loadsClear ss && s.passesEntries s ss s.h.queue.length
  | .nothing => false

/-- One turn of the current hart: nothing when it holds no context or is halted. While it has queued or issued something, an event is delivered (R41),
or what stands at the pc runs, if that may go ahead and completes; everything else comes after what it has queued and issued (R336). -/
noncomputable def State.hartTurn (s : State) : Out :=
  if !s.h.live || s.h.dbg.halted then .next s
  else if s.h.calm then s.calmTurn
  else
    let t := s.onDbg fun d => { d with stalled := false }
    if t.haltDue then s.drainedTurn
    else if t.eventDue then execUserEventDelivery t.checkReaches
    else if t.goesAhead && t.wordCheck.isNone && t.completes then t.runMarked
    else s.drainedTurn

/-- One turn of the current hart in which a W instruction or convoy at its pc enters the vector queue, where it has settled, in place of
running now (R306, R336). While all 64 entries are taken it waits there. -/
noncomputable def State.aheadTurn (s : State) : Out :=
  if !s.h.live || s.h.dbg.halted || s.stopDue then s.hartTurn
  else if 64 ≤ s.h.queue.length ∧ s.headW.isSome then .next s.stall
  else match (s.onDbg fun d => { d with stalled := false }).place with
    | some t => .next t
    | none => s.hartTurn

/-- One turn of the current hart in which the scalar load at its pc is issued and performs later (R107). -/
noncomputable def State.lateTurn (s : State) : Out :=
  if !s.h.live || s.h.dbg.halted || s.stopDue then s.hartTurn
  else match (s.onDbg fun d => { d with stalled := false }).issueLoad with
    | some t => .next t
    | none => s.hartTurn

/-- One turn of the package. Without power only a power-on is taken (R4, R431). A step of the agenda that a word encodes is no event,
and is passed over. -/
noncomputable def State.turn (s : State) : Out :=
  let t := { s with tick := s.tick + 1 }
  match s.agenda with
  | .event .deviceReset :: r => exec .deviceReset { t with agenda := r }
  | a =>
    if !s.dev.power then .fault .poweredOff
    else match a with
      | [] => t.hartTurn
      | .run hid :: r => ({ t with agenda := r }.switchTo hid).hartTurn
      | .ahead hid :: r => ({ t with agenda := r }.switchTo hid).aheadTurn
      | .late hid :: r => ({ t with agenda := r }.switchTo hid).lateTurn
      | .load hid k :: r => .next ({ t with agenda := r }.asHart hid fun s => s.performLoad k)
      | .store hid k :: r => .next ({ t with agenda := r }.asHart hid fun s => s.drainPast s.h k)
      | .vector hid k ps :: r => .next ({ t with agenda := r }.asHart hid (State.performFree k ps))
      | .element hid k slot e :: r => .next ({ t with agenda := r }.asHart hid (State.performElement k slot e))
      | .event i :: r => if (encodeNat i).isSome then .next { t with agenda := r } else exec i { t with agenda := r }
      | .outside o :: r => .next ({ t with agenda := r }.happens o)

/-! ### Placing an instruction to be fetched -/

/-- The current hart is about to come to the instruction at its pc: it holds a context, is not halted, nothing is pending at it, and
its turn is next. -/
def State.poised (s : State) : State :=
  { s with
    h := { s.h with
      live := true, pend := []
      ev := { s.h.ev with engine := [], apop := [], checksum := [], reach := [], waiting := false }
      ct := { s.h.ct with armed := [] }
      dbg := { s.h.dbg with halted := false, hreq := none }
      queue := [], loads := [], held := [], heldAt := none, fence := none, loop := none, weak := [], bad := [] }
    ca := { s.ca with code := [], parked := s.ca.parked.map fun p => if p.own = s.h.own then { p with reported := true } else p }
    dev := { s.dev with power := true }
    agenda := [] }

/-- The bytes of an instruction written where the pc is translated to, when it is. -/
def State.placeCode (s : State) (bs : List Byte) : State :=
  match s.translate s.h.space .fetch s.h.sc.pc with
  | .ok p => { s with mem := s.mem.put p.pa bs }
  | .error _ => s

/-- A leaf of level 1 that maps the first 4 TiB to themselves, for the mode of the hart (R360, R362). -/
def loaderLeaf (sup : Bool) : Nat := 0xCF + bitAt (!sup) 4

/-- The physical address of the loader's table. -/
def loaderRoot : Nat := 2 ^ 42 - 2 ^ 16

/-- The partition of the loader: the whole package, with the first 4 TiB of the pool. -/
def loaderPart : PartBlock :=
  { size := 3, base := 0, lroot := 0, win := #v[(0x1000, 0), (0, 0), (0, 0), (0, 0)], ports := 0 }

/-- A program is loaded at 0x10000: a table that maps it, pool memory behind it on every isle, and no watchpoint on fetch. -/
def State.load (s : State) (bs : List Byte) : State :=
  { s with
    h := { s.h with
      sc := { s.h.sc with pc := 0x10000, wpc := Vector.replicate 8 0 }
      su := { s.h.su with ptroot := BitVec.ofNat 64 loaderRoot, part := 0 } }
    mem := (s.mem.putNum loaderRoot 8 (loaderLeaf s.h.su.sup)).put 0x10000 bs
    ca := { s.ca with poison := s.ca.poison.filter fun w => !meets (8 * w) 8 0x10000 8 && 8 * w != loaderRoot }
    rg := { s.rg with parts := s.rg.parts.set 0 loaderPart }
    dev := { s.dev with extents := s.dev.extents ++ [(0, 2 ^ 42)], ipmap := Vector.replicate 8 0x101 } }

/-- The instruction in these bytes is the one that the current hart would fetch. -/
def State.wouldFetch (s : State) (bs : List Byte) : Bool :=
  match fetchInstr s.h.sc.pc s with
  | .ok (w, _) => w == leNat bs % 2 ^ (8 * lengthOf (leNat bs))
  | .error _ => false

end Sys2Proof.Machine
end

