-- ==== Sys2Proof/Machine/Step.lean ====
section
/-! DEFINITION. One step of the package, and an instruction placed where the next step fetches. -/

namespace Sys2Proof.Machine

/-- One step: the turn that the agenda names, or the current hart's. -/
noncomputable def step (s : State) : Host.Outcome State Fault Refusal := s.turn

/-- The state with an instruction placed so that the very next step fetches and runs it: at the pc where that is translated, else
loaded at 0x10000. -/
def State.withFetchWord (s : State) (nbits w : Nat) : State :=
  let bs := leBytes 8 (w % 2 ^ nbits)
  let t := s.poised
  if (t.placeCode bs).wouldFetch bs then t.placeCode bs else t.load bs

end Sys2Proof.Machine
end

