-- ==== Sys2Proof/Safety.lean ====
section
/-! DEFINITION. The terms that claims use: what an instruction that completes leaves, what it leaves alone, and the invariant that
every step keeps. -/

namespace Sys2Proof.Machine

/-! ### What stands -/

/-- Nothing but scalar registers of the current hart has changed. -/
def OnlyScalar (s t : State) : Prop := t = { s with h := { s.h with sc := t.h.sc } }

/-- The scalar registers that only particular instructions write stand: CORR, LARG, the watchpoints, FFLAGS, FRM, SRSEED and
SRSTEP. -/
def SpecialsStand (a b : Scalar) : Prop :=
  b.corr = a.corr ∧ b.larg = a.larg ∧ b.wpa = a.wpa ∧ b.wpc = a.wpc ∧ b.fflags = a.fflags ∧ b.frm = a.frm
    ∧ b.srseed = a.srseed ∧ b.srstep = a.srstep

/-- Every g register and LDN stand. -/
def RegistersStand (s t : State) : Prop := (∀ r, t.g r = s.g r) ∧ t.h.sc.ldn = s.h.sc.ldn

/-- Memory reads as before outside `n` bytes at `a`. -/
def MemoryOutside (s t : State) (a n : Nat) : Prop := ∀ x, (x < a ∨ a + n ≤ x) → t.mem.get x = s.mem.get x

/-! ### What completion leaves -/

/-- An instruction `len` bytes long has completed with no transfer: the pc moves to the next address, or to the start of a loop
body that ends there, with LC, LX and the frames as R31 makes them. -/
def Advanced (s t : State) (len : Nat) : Prop :=
  let sc := s.h.sc.endAt (s.h.sc.pc + BitVec.ofNat 64 len)
  t.h.sc.pc = sc.pc ∧ t.h.sc.frames = sc.frames ∧ t.h.sc.lc = sc.lc ∧ t.h.sc.lx = sc.lx

/-- An instruction has written `v` to g[d] and completed, and nothing else has changed. A write to g0 is discarded, but LDN names
the register in either case (R135, R153). -/
structure WroteReg (s t : State) (d : Reg) (v : Word) (len : Nat) : Prop where
  value    : t.g d = if d = 0 then 0 else v
  others   : ∀ r, r ≠ d → t.g r = s.g r
  ldn      : t.h.sc.ldn = d
  pc       : Advanced s t len
  specials : SpecialsStand s.h.sc t.h.sc
  scalar   : OnlyScalar s t

/-- A transfer to `target` has been taken: a frame is left when its body holds the instruction and not the target (R31). -/
structure Jumped (s t : State) (target : Word) : Prop where
  pc       : t.h.sc.pc = target
  frames   : t.h.sc.frames = s.h.sc.frames.filter fun f => !(f.holds s.h.sc.pc && !f.holds target)
  lc       : t.h.sc.lc = s.h.sc.lc
  lx       : t.h.sc.lx = s.h.sc.lx
  specials : SpecialsStand s.h.sc t.h.sc
  scalar   : OnlyScalar s t

/-! ### Values of the integer instructions -/

/-- A result at 64 bits, or at 32 bits sign-extended to 64 (R154). -/
def sized (w : Bool) (full : Word) (half : BitVec 32) : Word := if w then half.signExtend 64 else full

/-- The low 32 bits of a word. -/
abbrev low32 (x : Word) : BitVec 32 := x.setWidth 32

/-- 1 or 0. -/
def oneIf (c : Bool) : Word := if c then 1 else 0

/-- A quotient or remainder with the special cases of R155 for a zero divisor. -/
def divided {n : Nat} (b onZero result : BitVec n) : BitVec n := if b = 0 then onZero else result

/-- What the compact register forms write, and where (R134). -/
def compactValue (s : State) : Instr → Option (Reg × Word)
  | .cMv d => some (d, s.g s.h.sc.ldn)
  | .cAdd d f => some (d, s.g s.h.sc.ldn + s.g f)
  | .cSub d f => some (d, s.g s.h.sc.ldn - s.g f)
  | .cAddi d imm => some (d, s.g s.h.sc.ldn + imm.signExtend 64)
  | .cAnd d f => some (d, s.g s.h.sc.ldn &&& s.g f)
  | .cOr d f => some (d, s.g s.h.sc.ldn ||| s.g f)
  | .cXor d f => some (d, s.g s.h.sc.ldn ^^^ s.g f)
  | .cSlli d amt => some (d, s.g s.h.sc.ldn <<< amt.toNat)
  | .cSrai d amt => some (d, (s.g s.h.sc.ldn).sshiftRight amt.toNat)
  | .cLi d imm => some (d, imm.signExtend 64)
  | _ => none

/-- What the register forms write, and where (R154, R155). -/
def oprValue (s : State) : Instr → Option (Reg × Word)
  | .add d a b w => some (d, sized w (s.g a + s.g b) (low32 (s.g a) + low32 (s.g b)))
  | .sub d a b w => some (d, sized w (s.g a - s.g b) (low32 (s.g a) - low32 (s.g b)))
  | .and d a b w => some (d, sized w (s.g a &&& s.g b) (low32 (s.g a) &&& low32 (s.g b)))
  | .or d a b w => some (d, sized w (s.g a ||| s.g b) (low32 (s.g a) ||| low32 (s.g b)))
  | .xor d a b w => some (d, sized w (s.g a ^^^ s.g b) (low32 (s.g a) ^^^ low32 (s.g b)))
  | .sll d a b w => some (d, sized w (s.g a <<< ((s.g b).toNat % 64)) (low32 (s.g a) <<< ((s.g b).toNat % 32)))
  | .srl d a b w => some (d, sized w (s.g a >>> ((s.g b).toNat % 64)) (low32 (s.g a) >>> ((s.g b).toNat % 32)))
  | .sra d a b w =>
    some (d, sized w ((s.g a).sshiftRight ((s.g b).toNat % 64)) ((low32 (s.g a)).sshiftRight ((s.g b).toNat % 32)))
  | .slt d a b w => some (d, oneIf (if w then decide ((low32 (s.g a)).toInt < (low32 (s.g b)).toInt)
      else decide ((s.g a).toInt < (s.g b).toInt)))
  | .sltu d a b w => some (d, oneIf (if w then decide ((low32 (s.g a)).toNat < (low32 (s.g b)).toNat)
      else decide ((s.g a).toNat < (s.g b).toNat)))
  | .min d a b w => some (d, sized w (if (s.g a).toInt < (s.g b).toInt then s.g a else s.g b)
      (if (low32 (s.g a)).toInt < (low32 (s.g b)).toInt then low32 (s.g a) else low32 (s.g b)))
  | .max d a b w => some (d, sized w (if (s.g a).toInt < (s.g b).toInt then s.g b else s.g a)
      (if (low32 (s.g a)).toInt < (low32 (s.g b)).toInt then low32 (s.g b) else low32 (s.g a)))
  | .minu d a b w => some (d, sized w (if (s.g a).toNat < (s.g b).toNat then s.g a else s.g b)
      (if (low32 (s.g a)).toNat < (low32 (s.g b)).toNat then low32 (s.g a) else low32 (s.g b)))
  | .maxu d a b w => some (d, sized w (if (s.g a).toNat < (s.g b).toNat then s.g b else s.g a)
      (if (low32 (s.g a)).toNat < (low32 (s.g b)).toNat then low32 (s.g b) else low32 (s.g a)))
  | .mul d a b w => some (d, sized w (s.g a * s.g b) (low32 (s.g a) * low32 (s.g b)))
  | .mulh d a b => some (d, BitVec.ofInt 64 ((s.g a).toInt * (s.g b).toInt / 2 ^ 64))
  | .mulhu d a b => some (d, BitVec.ofNat 64 ((s.g a).toNat * (s.g b).toNat / 2 ^ 64))
  | .div d a b w => some (d, sized w (divided (s.g b) (-1) ((s.g a).sdiv (s.g b)))
      (divided (low32 (s.g b)) (-1) ((low32 (s.g a)).sdiv (low32 (s.g b)))))
  | .divu d a b w => some (d, sized w (divided (s.g b) (-1) ((s.g a).udiv (s.g b)))
      (divided (low32 (s.g b)) (-1) ((low32 (s.g a)).udiv (low32 (s.g b)))))
  | .rem d a b w => some (d, sized w (divided (s.g b) (s.g a) ((s.g a).srem (s.g b)))
      (divided (low32 (s.g b)) (low32 (s.g a)) ((low32 (s.g a)).srem (low32 (s.g b)))))
  | .remu d a b w => some (d, sized w (divided (s.g b) (s.g a) ((s.g a).umod (s.g b)))
      (divided (low32 (s.g b)) (low32 (s.g a)) ((low32 (s.g a)).umod (low32 (s.g b)))))
  | .rol d a b w => some (d, sized w ((s.g a).rotateLeft ((s.g b).toNat % 64)) ((low32 (s.g a)).rotateLeft ((s.g b).toNat % 32)))
  | .ror d a b w =>
    some (d, sized w ((s.g a).rotateRight ((s.g b).toNat % 64)) ((low32 (s.g a)).rotateRight ((s.g b).toNat % 32)))
  | .clz d a w => some (d, BitVec.ofNat 64 (if w then leading 32 (low32 (s.g a)) else leading 64 (s.g a)))
  | .ctz d a w => some (d, BitVec.ofNat 64 (if w then trailing 32 (low32 (s.g a)) else trailing 64 (s.g a)))
  | .popc d a w => some (d, BitVec.ofNat 64 (if w then ones 32 (low32 (s.g a)) else ones 64 (s.g a)))
  | .sext d a n => some (d, match n with
      | .b => ((s.g a).setWidth 8).signExtend 64
      | .h => ((s.g a).setWidth 16).signExtend 64
      | .w => ((s.g a).setWidth 32).signExtend 64)
  | .zext d a n => some (d, BitVec.ofNat 64 ((s.g a).toNat % 2 ^ (match n with | .b => 8 | .h => 16 | .w => 32)))
  | _ => none

/-- What the immediate forms write, and where (R156-R158). -/
def opiValue (s : State) : Instr → Option (Reg × Word)
  | .addi d a imm => some (d, s.g a + imm.signExtend 64)
  | .andi d a imm => some (d, s.g a &&& imm.signExtend 64)
  | .ori d a imm => some (d, s.g a ||| imm.signExtend 64)
  | .xori d a imm => some (d, s.g a ^^^ imm.signExtend 64)
  | .slti d a imm => some (d, oneIf (decide ((s.g a).toInt < imm.toInt)))
  | .sltiu d a imm => some (d, oneIf (decide ((s.g a).toNat < (imm.signExtend 64 : Word).toNat)))
  | .addiw d a imm => some (d, (low32 (s.g a + imm.signExtend 64)).signExtend 64)
  | .slli d a w amt => some (d, sized w (s.g a <<< amt.toNat) (low32 (s.g a) <<< (amt.toNat % 32)))
  | .srli d a w amt => some (d, sized w (s.g a >>> amt.toNat) (low32 (s.g a) >>> (amt.toNat % 32)))
  | .srai d a w amt => some (d, sized w ((s.g a).sshiftRight amt.toNat) ((low32 (s.g a)).sshiftRight (amt.toNat % 32)))
  | .ldhi d imm => some (d, BitVec.ofInt 64 (imm.toInt * 2 ^ 12))
  | .pcadd d imm => some (d, s.h.sc.pc + imm.signExtend 64)
  | _ => none

/-! ### Accesses -/

/-- No watchpoint of any hart is enabled (R413). -/
def NoWatch (s : State) : Prop := ∀ o ∈ s.h :: s.others, ∀ k : Fin 8, fieldOf o.sc.wpc[k] 63 1 = 0

/-- An own access of `n` bytes at `va` passes every check of R159, at the place `p`: the address is canonical and aligned, its page
grants the access, no pin of the hart's own context lies under a write (R122), no poison and no wrong bit under a read (R399, R400), and no
watchpoint is enabled (R414). Memory has its canonical form, which every step keeps. -/
structure Granted (s : State) (acc : Acc) (va : Word) (n : Nat) (p : Place) : Prop where
  canon     : canonical va = true
  aligned   : va.toNat % n = 0
  place     : s.translate s.h.space acc va = .ok p
  unpinned  : (acc = .store ∨ acc = .atomic) → ∀ q ∈ s.pinsOn p.pa n, q.own ≠ s.h.own
  clean     : acc ≠ .store → p.mt ≠ 1 → s.poisoned p.pa n = false
  sound     : acc ≠ .store → p.mt ≠ 1 → ∀ w ∈ s.ca.weak, meets (8 * w) 8 p.pa n = false
  unwatched : NoWatch s
  memory    : s.mem.wf

/-- Touching the line of an address at the place `p` changes nothing: the page has SH = 0 or is not normal memory, or the shoal of the home holds
the line, through this mapping too (R80). -/
def Seen (s : State) (sp : Space) (va : Word) (p : Place) : Prop :=
  fieldOf p.pte 57 1 = 0 ∨ p.mt ≠ 0
    ∨ (∃ l ∈ s.ca.shoal, l.isle = s.homeIsle sp.part p.pa ∧ l.line = p.pa / 64 * 64)
      ∧ ∀ l ∈ s.ca.shoal, l.isle = s.homeIsle sp.part p.pa → l.line = p.pa / 64 * 64 →
        l.maps.contains (sp.part, sp.root, va - BitVec.ofNat 64 (p.pa % 64)) = true

/-- Using the translation of an address at the place `p` changes nothing: the leaf entry has A set, and D for a write (R363), the shoal has seen the
line (R80), and no entry that the walk reads has a wrong bit (R399). -/
def Marked (s : State) (sp : Space) (va : Word) (p : Place) (write : Bool) : Prop :=
  p.pte.toNat ||| (if write then 0xC0 else 0x40) = p.pte.toNat ∧ Seen s sp va p
    ∧ ∀ e ∈ s.path sp va, ∀ w ∈ s.ca.weak, meets (8 * w) 8 e.1 8 = false

/-- Reading at the home of `pa` has nothing to wait for: the home is the hart's own isle, or has sent it no invalidation that it has yet to apply
(R94, R107). -/
def Near (s : State) (pa : Nat) : Prop :=
  s.homeIsle s.h.su.part pa = s.h.hid.isle ∨ ∀ i ∈ s.ca.chan, i.isle = s.h.hid.isle → i.home ≠ s.homeIsle s.h.su.part pa

/-- No member of a sweep that the current hart has open is written at `va` (R269). -/
def Unmeasured (s : State) (va : Word) (n : Nat) : Prop := s.measuredBy s.h.space s.h.source va n = []

/-- What a load form names: its destination, its address, its bytes, whether it extends the sign, and its length (R134, R161). -/
def loadOf (s : State) : Instr → Option (Reg × Word × Nat × Bool × Nat)
  | .cLd d off => some (d, s.g s.h.sc.ldn + BitVec.ofNat 64 (8 * off.toNat), 8, false, 2)
  | .ldB d a imm => some (d, s.g a + imm.signExtend 64, 1, true, 4)
  | .ldH d a imm => some (d, s.g a + imm.signExtend 64, 2, true, 4)
  | .ldW d a imm => some (d, s.g a + imm.signExtend 64, 4, true, 4)
  | .ldD d a imm => some (d, s.g a + imm.signExtend 64, 8, true, 4)
  | .ldBu d a imm => some (d, s.g a + imm.signExtend 64, 1, false, 4)
  | .ldHu d a imm => some (d, s.g a + imm.signExtend 64, 2, false, 4)
  | .ldWu d a imm => some (d, s.g a + imm.signExtend 64, 4, false, 4)
  | .ldAcqW d a imm => some (d, s.g a + imm.signExtend 64, 4, true, 4)
  | .ldAcqD d a imm => some (d, s.g a + imm.signExtend 64, 8, true, 4)
  | .ldAcqWu d a imm => some (d, s.g a + imm.signExtend 64, 4, false, 4)
  | _ => none

/-- What a store form names: its address, its bytes in memory order, and its length (R134, R161). -/
def storeOf (s : State) : Instr → Option (Word × List Byte × Nat)
  | .cSt r off => some (s.g s.h.sc.ldn + BitVec.ofNat 64 (8 * off.toNat), leBytes 8 (s.g r).toNat, 2)
  | .stB r a imm => some (s.g a + imm.signExtend 64, leBytes 1 (s.g r).toNat, 4)
  | .stH r a imm => some (s.g a + imm.signExtend 64, leBytes 2 (s.g r).toNat, 4)
  | .stW r a imm => some (s.g a + imm.signExtend 64, leBytes 4 (s.g r).toNat, 4)
  | .stD r a imm => some (s.g a + imm.signExtend 64, leBytes 8 (s.g r).toNat, 4)
  | .dput n a imm => some (s.g a + imm.signExtend 64, leBytes 64 (s.h.vec.desc n).toNat, 4)
  | _ => none

/-- What a store with release names: its address and its bytes (R161). -/
def releaseOf (s : State) : Instr → Option (Word × List Byte)
  | .stRelB r a imm => some (s.g a + imm.signExtend 64, leBytes 1 (s.g r).toNat)
  | .stRelH r a imm => some (s.g a + imm.signExtend 64, leBytes 2 (s.g r).toNat)
  | .stRelW r a imm => some (s.g a + imm.signExtend 64, leBytes 4 (s.g r).toNat)
  | .stRelD r a imm => some (s.g a + imm.signExtend 64, leBytes 8 (s.g r).toNat)
  | _ => none

/-- An atomic instruction's fields. -/
structure AmoForm where
  op  : AmoOp
  d   : Reg
  a   : Reg
  b   : Reg
  dw  : Bool
  rel : Bool

/-- Bytes of an atomic. -/
def AmoForm.bytes (m : AmoForm) : Nat := if m.dw then 8 else 4

/-- The fields of an atomic (R162). -/
def amoOf : Instr → Option AmoForm
  | .amoAdd d a b dw _ l => some ⟨.add, d, a, b, dw, l⟩
  | .amoAnd d a b dw _ l => some ⟨.and, d, a, b, dw, l⟩
  | .amoOr d a b dw _ l => some ⟨.or, d, a, b, dw, l⟩
  | .amoXor d a b dw _ l => some ⟨.xor, d, a, b, dw, l⟩
  | .amoMin d a b dw _ l => some ⟨.min, d, a, b, dw, l⟩
  | .amoMax d a b dw _ l => some ⟨.max, d, a, b, dw, l⟩
  | .amoMinu d a b dw _ l => some ⟨.minu, d, a, b, dw, l⟩
  | .amoMaxu d a b dw _ l => some ⟨.maxu, d, a, b, dw, l⟩
  | .amoSwap d a b dw _ l => some ⟨.swap, d, a, b, dw, l⟩
  | .amoCas d a b dw _ l => some ⟨.cas, d, a, b, dw, l⟩
  | .amoFadd d a b dw _ l => some ⟨.fadd, d, a, b, dw, l⟩
  | _ => none

/-- What an atomic leaves in memory from the old value and its operands at a width of `w` bits; `e` is the expected value of `cas`
(R162, R164). -/
def amoResult (op : AmoOp) (w old v e : Nat) : Nat :=
  match op with
  | .add => (old + v) % 2 ^ w
  | .and => old &&& v
  | .or => old ||| v
  | .xor => old ^^^ v
  | .min => if toSigned w v < toSigned w old then v else old
  | .max => if toSigned w old < toSigned w v then v else old
  | .minu => min old v
  | .maxu => max old v
  | .swap => v
  | .cas => if old = e then v else old
  | .fadd => let F := if w = 32 then Fmt.f32 else Fmt.f64; (F.addV (.static 0) false (F.value old) (F.value v)).1

/-- The flags of an atomic: those of a floating addition (R164). -/
def amoFlags (op : AmoOp) (w old v : Nat) : Nat :=
  match op with
  | .fadd => let F := if w = 32 then Fmt.f32 else Fmt.f64; (F.addV (.static 0) false (F.value old) (F.value v)).2
  | _ => 0

/-- What an own scalar access is (R159): its class, its address and its bytes. -/
def accessOf (s : State) (i : Instr) : Option (Acc × Word × Nat) :=
  match loadOf s i, storeOf s i, releaseOf s i, amoOf i with
  | some x, _, _, _ => some (.load, x.2.1, x.2.2.1)
  | _, some x, _, _ => some (.store, x.1, x.2.1.length)
  | _, _, some x, _ => some (.store, x.1, x.2.length)
  | _, _, _, some m => some (.atomic, s.g m.a, m.bytes)
  | _, _, _, _ => none

/-! ### Floating results -/

/-- A floating instruction's fields: destination, whether its rounding is that of a field that may be dynamic, and its result under a
mode (R170-R175). -/
structure FpForm where
  d    : Reg
  rm   : Option (BitVec 3)
  res  : Mode → FRes

/-- The result of each floating instruction (R170, R174, R175). -/
def fpOf (s : State) : Instr → Option FpForm
  | .fadd d a b rm x => some ⟨d, some rm, fun m => (scalarFmt x).addV m false (s.fval x a) (s.fval x b)⟩
  | .fsub d a b rm x => some ⟨d, some rm, fun m => (scalarFmt x).addV m false (s.fval x a) (s.fval x b).neg⟩
  | .fmul d a b rm x => some ⟨d, some rm, fun m => (scalarFmt x).mulV m false (s.fval x a) (s.fval x b)⟩
  | .fdiv d a b rm x => some ⟨d, some rm, fun m => (scalarFmt x).divV m false (s.fval x a) (s.fval x b)⟩
  | .fsqrt d a rm x => some ⟨d, some rm, fun m => (scalarFmt x).sqrtV m false (s.fval x a)⟩
  | .fcvt d a c rm x => some ⟨d, some rm, fun m => convert c.toNat x m (s.g a)⟩
  | .fclass d a x => some ⟨d, none, fun _ => ((scalarFmt x).classCode (s.g a).toNat, 0)⟩
  | .fma d a b c rm x => some ⟨d, none, fun _ =>
      (scalarFmt x).fmaV (.static rm.toNat) false (s.fval x a) (s.fval x b) (s.fval x c)⟩
  | .fms d a b c rm x => some ⟨d, none, fun _ =>
      (scalarFmt x).fmaV (.static rm.toNat) false (s.fval x a) (s.fval x b) (s.fval x c).neg⟩
  | .fnma d a b c rm x => some ⟨d, none, fun _ =>
      (scalarFmt x).fmaV (.static rm.toNat) false (s.fval x a).neg (s.fval x b) (s.fval x c).neg⟩
  | .fnms d a b c rm x => some ⟨d, none, fun _ =>
      (scalarFmt x).fmaV (.static rm.toNat) false (s.fval x a).neg (s.fval x b) (s.fval x c)⟩
  | _ => none

/-- The mode in force for a rounding field: a static mode, or FRM for code 7 (R59). -/
def roundingOf (s : State) (rm : BitVec 3) : Nat := if rm = 7 then s.h.sc.frm.toNat else rm.toNat

/-- The number that a finite value is (R48). -/
noncomputable def FVal.num : FVal → ℚ
  | .fin n m e => (if n then -1 else 1) * m * (2 : ℚ) ^ e
  | _ => 0

/-- The first value lies below the second; NaN lies below nothing. -/
def FVal.below (x y : FVal) : Prop :=
  match x, y with
  | .nan _, _ => False
  | _, .nan _ => False
  | .inf a, .inf b => a = true ∧ b = false
  | .inf a, .fin _ _ _ => a = true
  | .fin _ _ _, .inf b => b = false
  | .fin _ _ _, .fin _ _ _ => x.num < y.num

/-- Two values are equal; NaN equals nothing, and the zeros are equal. -/
def FVal.same (x y : FVal) : Prop := x.isNan = false ∧ y.isNan = false ∧ ¬ x.below y ∧ ¬ y.below x

/-- The order of `fmin` and `fmax`: -0 lies below +0 (R171). -/
def FVal.before (x y : FVal) : Prop :=
  x.below y ∨ ∃ e f, x = .fin true 0 e ∧ y = .fin false 0 f

/-- A floating instruction has delivered a result and its flags, and completed; nothing else has changed (R67, R153, R170). -/
structure WroteFloat (s t : State) (d : Reg) (r : FRes) : Prop where
  value  : t.g d = if d = 0 then 0 else BitVec.ofNat 64 r.1
  others : ∀ x, x ≠ d → t.g x = s.g x
  ldn    : t.h.sc.ldn = d
  flags  : t.h.sc.fflags = s.h.sc.fflags ||| BitVec.ofNat 5 r.2
  pc     : Advanced s t 4
  rest   : SpecialsStand { s.h.sc with fflags := t.h.sc.fflags } t.h.sc
  scalar : OnlyScalar s t

/-! ### Transfers -/

/-- A branch: whether it is taken, its target, and its length (R134, R166). -/
def branchOf (s : State) : Instr → Option (Bool × Word × Nat)
  | .cBeqz off => some (decide (s.g s.h.sc.ldn = 0), s.h.sc.pc + (off.signExtend 64 <<< 1), 2)
  | .cBnez off => some (decide (s.g s.h.sc.ldn ≠ 0), s.h.sc.pc + (off.signExtend 64 <<< 1), 2)
  | .cJ off => some (true, s.h.sc.pc + (off.signExtend 64 <<< 1), 2)
  | .bEq a b imm => some (decide (s.g a = s.g b), s.h.sc.pc + (imm.signExtend 64 <<< 1), 4)
  | .bNe a b imm => some (decide (s.g a ≠ s.g b), s.h.sc.pc + (imm.signExtend 64 <<< 1), 4)
  | .bLt a b imm => some (decide ((s.g a).toInt < (s.g b).toInt), s.h.sc.pc + (imm.signExtend 64 <<< 1), 4)
  | .bGe a b imm => some (decide ((s.g b).toInt ≤ (s.g a).toInt), s.h.sc.pc + (imm.signExtend 64 <<< 1), 4)
  | .bLtu a b imm => some (decide ((s.g a).toNat < (s.g b).toNat), s.h.sc.pc + (imm.signExtend 64 <<< 1), 4)
  | .bGeu a b imm => some (decide ((s.g b).toNat ≤ (s.g a).toNat), s.h.sc.pc + (imm.signExtend 64 <<< 1), 4)
  | _ => none

/-- A jump that writes a link: its register and its target (R167). -/
def jumpOf (s : State) : Instr → Option (Reg × Word)
  | .jal d imm => some (d, s.h.sc.pc + (imm.signExtend 64 <<< 1))
  | .jalr d a imm => some (d, s.g a + imm.signExtend 64)
  | _ => none

/-- Nothing but the pc, the frames and the loop registers has changed. -/
def OnlyMoved (s t : State) : Prop := RegistersStand s t ∧ SpecialsStand s.h.sc t.h.sc ∧ OnlyScalar s t

/-- The state after a synchronous trap of the instruction at the pc. -/
def Trapped (s : State) (t : Trap) : Out := .next (s.trapEntry t s.h.sc.pc)

end Sys2Proof.Machine
end

