-- ==== Sys2Proof/Safety/Wide.lean ====
section
/-! DEFINITION. The terms of claims about W instructions that stand alone: when one begins, what its results are, and what it leaves
alone. `op.instr f` is the instruction of operation `op`. -/

namespace Sys2Proof.Machine

/-! ### Beginning and completing -/

/-- A W instruction that stands alone passes every check of R151 and starts from the beginning, with no element step. `VL` does not
exceed `VLMAX`, as every write of VL and VTYPE leaves it (R184, R188). -/
structure Begins (s : State) (op : WOp) (f : WFields) : Prop where
  formed    : f.defect op = none
  allowed   : s.h.su.sup = true ∨ (isPriv op = false ∧ s.h.su.va = false ∧ (isMatrix op = true → s.h.su.mxa = false))
  type      : s.h.vec.vill = false
  aligned   : alignedRuns s.h.vec op f = true
  apart     : overlapOk s.h.vec op f = true
  rules     : (semOf op).illegal s f = false
  clear     : (semOf op).fault s f 0 = none
  start     : s.h.vec.vstart = 0
  alone     : fieldOf s.h.vec.cpv0 63 1 = 0
  length    : s.vl ≤ s.h.vlmax
  unstepped : s.h.dbg.run ≠ some true

/-- What completion leaves in every case: the pc moves on, the progress registers are 0 (R196), and the vector configuration and the
descriptors stand. Everything but registers of the hart stands; `mirrored`, `mmacs` and the injection tables count what R408 names. A
vector or mask register that changes has its VDIRTY bit set, and no bit is cleared (R350). -/
structure LanesFrame (s t : State) : Prop where
  pc       : Advanced s t 8
  progress : t.h.vec.vstart = 0 ∧ t.h.vec.cpv0 = 0 ∧ t.h.vec.cpv1 = 0
  config   : t.h.vec.vtype = s.h.vec.vtype ∧ t.h.vec.d = s.h.vec.d
  specials : SpecialsStand { s.h.sc with fflags := t.h.sc.fflags, srstep := t.h.sc.srstep } t.h.sc
  dirtyV   : ∀ r, r < 32 → t.h.vec.reg r ≠ s.h.vec.reg r → t.h.su.vdirty.getLsbD r = true
  dirtyM   : ∀ k, k < 8 → t.h.vec.mask k ≠ s.h.vec.mask k → t.h.su.vdirty.getLsbD (32 + k) = true
  dirtier  : ∀ k, s.h.su.vdirty.getLsbD k = true → t.h.su.vdirty.getLsbD k = true
  rest     : t = { s with
    h := { s.h with
      sc := t.h.sc, vec := t.h.vec, su := { s.h.su with vdirty := t.h.su.vdirty }, mx := t.h.mx
      dbg := { s.h.dbg with mirrored := t.h.dbg.mirrored, mmacs := t.h.dbg.mmacs } }
    dev := { s.dev with tele := t.dev.tele, inject := t.dev.inject }
    mem := t.mem, ca := t.ca }

/-- VL, EFR and SRSTEP stand. -/
def Settled (s t : State) : Prop :=
  t.h.vec.vl = s.h.vec.vl ∧ t.h.vec.efr = s.h.vec.efr ∧ t.h.sc.srstep = s.h.sc.srstep

/-- Memory, caches and matrix state stand. -/
def OutsideStands (s t : State) : Prop := t.mem = s.mem ∧ t.ca = s.ca ∧ t.h.mx = s.h.mx

/-- Every mask register and mf stand. -/
def MasksStand (s t : State) : Prop := t.h.vec.m = s.h.vec.m ∧ t.h.vec.mf = s.h.vec.mf

/-- The flags of these results have been ORed into FFLAGS (R67). -/
def FlagsRaised (s t : State) (fl : List Nat) : Prop := t.h.sc.fflags = s.h.sc.fflags ||| BitVec.ofNat 5 (fl.foldl (· ||| ·) 0)

/-- FFLAGS stands. -/
def NoFlags (s t : State) : Prop := t.h.sc.fflags = s.h.sc.fflags

/-- Only lanes have worked: g registers, VL, EFR, SRSTEP, memory, caches and the matrix state stand, and the frame of a W instruction
holds. -/
def OnlyLanes (s t : State) : Prop := RegistersStand s t ∧ Settled s t ∧ OutsideStands s t ∧ LanesFrame s t

/-- A copy that counts: the mirror only under protected mode (R396). -/
def Copy (s : State) (mir : Bool) : Prop := mir = true → s.h.vec.pm = true

/-- The first `count` elements of the group of `n` registers at `first` have results of `res`, none where one stands; from `count` on
they are zero, unless VTYPE.TA = 1 or VL = 0 (R192). Under protected mode both copies receive them (R396). Every other vector register
stands. -/
structure WroteElems (s t : State) (first width n count : Nat) (res : Nat → Option Nat) : Prop where
  elems  : ∀ mir e, Copy s mir → e < count → t.elem mir first width e = match res e with
    | some v => v % 2 ^ width
    | none => s.elem mir first width e
  tail   : ∀ mir e, Copy s mir → count ≤ e → e < n * s.per width → t.elem mir first width e =
    if s.vl = 0 ∨ s.h.vec.ta = true then s.elem mir first width e else 0
  others : ∀ r, r < 32 → r < first ∨ first + n ≤ r → t.h.vec.reg r = s.h.vec.reg r

/-- The bits below VL of mask register `k` have results of `res`; from VL to VLMAX they are zero, unless VTYPE.TA = 1 or VL = 0 (R192).
Every other mask register, mf and every vector register stand. -/
structure WroteMask (s t : State) (k : Nat) (res : Nat → Option Bool) : Prop where
  bits    : ∀ mir e, Copy s mir → e < s.vl → t.maskBit mir k e = (res e).getD (s.maskBit mir k e)
  tail    : ∀ mir e, Copy s mir → s.vl ≤ e → e < s.h.vlmax →
    t.maskBit mir k e = if s.vl = 0 ∨ s.h.vec.ta = true then s.maskBit mir k e else false
  others  : ∀ j, j < 8 → j ≠ k → t.h.vec.mask j = s.h.vec.mask j
  vectors : t.h.vec.v = s.h.vec.v ∧ t.h.vec.mf = s.h.vec.mf

/-- A g register has been written, and LDN names it; no other g register has changed. -/
def WroteG (s t : State) (d : Reg) (v : Word) : Prop :=
  t.g d = (if d = 0 then 0 else v) ∧ (∀ r, r ≠ d → t.g r = s.g r) ∧ t.h.sc.ldn = d

/-- Element e is active in a copy (R192). -/
def State.activeIn (s : State) (f : WFields) (mir : Bool) (e : Nat) : Bool := !f.me || s.maskBit mir f.mr.toNat e

/-- What R192 makes of an element's result: it stands when active; masked off, the element is zero under VTYPE.MA = 1 and as it was
otherwise. -/
def State.ruled {α : Type} (s : State) (f : WFields) (mir : Bool) (e : Nat) (r zero : α) : Option α :=
  if s.activeIn f mir e then some r else if s.h.vec.ma then some zero else none

/-! ### Integer results (R198, R199) -/

/-- A number below 2^w as a signed one. -/
def signed (w a : Nat) : Int := if 2 ^ w ≤ 2 * a then (a : Int) - 2 ^ w else a

/-- The nearest number in a range. -/
def clampTo (lo hi x : Int) : Int := max lo (min hi x)

/-- x / 2^k rounded to nearest, ties to even. -/
def nearest (x : Int) (k : Nat) : Int :=
  let q := x / 2 ^ k
  let r := 2 * (x % 2 ^ k)
  if r < 2 ^ k then q else if 2 ^ k < r then q + 1 else if q % 2 = 0 then q else q + 1

/-- The result of a VINT operation at width w from a, b and c, before it is taken modulo 2^w (R198). -/
def intResult (w : Nat) (a b c : Nat) : WOp → Option Int
  | .vadd => some (a + b)
  | .vsub => some ((a : Int) - b)
  | .vrsub => some ((b : Int) - a)
  | .vand => some (a &&& b : Nat)
  | .vor => some (a ||| b : Nat)
  | .vxor => some (a ^^^ b : Nat)
  | .vsll => some (b * 2 ^ (a % w))
  | .vsrl => some (b / 2 ^ (a % w))
  | .vsra => some (signed w b / 2 ^ (a % w))
  | .vmin => some (min (signed w a) (signed w b))
  | .vmax => some (max (signed w a) (signed w b))
  | .vminu => some (min a b)
  | .vmaxu => some (max a b)
  | .vmul => some (a * b)
  | .vmulh => some (signed w a * signed w b / 2 ^ w)
  | .vmulhu => some (a * b / 2 ^ w)
  | .vmacc => some (a * b + c)
  | .vsadd => some (clampTo (-2 ^ (w - 1)) (2 ^ (w - 1) - 1) (signed w a + signed w b))
  | .vssub => some (clampTo (-2 ^ (w - 1)) (2 ^ (w - 1) - 1) (signed w a - signed w b))
  | .vsaddu => some (min (a + b) (2 ^ w - 1))
  | .vssubu => some (max ((a : Int) - b) 0)
  | .vabsd => some |signed w a - signed w b|
  | .vmv => some a
  | _ => none

/-- The result of a widening operation from a and b at w and c at 2w, before it is taken modulo 2^(2w) (R199). -/
def widenResult (w : Nat) (a b c : Nat) : WOp → Option Int
  | .vwadd => some (signed w a + signed w b)
  | .vwaddu => some (a + b)
  | .vwmul => some (signed w a * signed w b)
  | .vwmulu => some (a * b)
  | .vwmacc => some (signed w a * signed w b + c)
  | _ => none

/-- The result of a narrowing operation from the amount a and b at 2w, before it is taken modulo 2^w (R199). -/
def narrowResult (w : Nat) (a b : Nat) : WOp → Option Int
  | .vnsrl => some (b / 2 ^ (a % (2 * w)))
  | .vnclip => some (clampTo (-2 ^ (w - 1)) (2 ^ (w - 1) - 1) (nearest (signed (2 * w) b) (a % (2 * w))))
  | .vnclipu => some (min (nearest b (a % (2 * w))) (2 ^ w - 1))
  | _ => none

/-- A number modulo 2^w. -/
def modWidth (w : Nat) (x : Int) : Nat := (x % 2 ^ w).toNat

/-! ### Floating results (R200 to R204) -/

/-- The result of a floating operation in a format from the mode in force, VTYPE.SAT's choice, and the values a, b and c. `code` is b's
code, for the operations that return one of their operands (R200, R201). -/
def floatResult (F : Fmt) (m : Mode) (t : Bool) (a b c : Nat) : WOp → Option FRes
  | .vfadd => some (F.addV m t (F.value a) (F.value b))
  | .vfsub => some (F.addV m t (F.value a) (F.value b).neg)
  | .vfmul => some (F.mulV m t (F.value a) (F.value b))
  | .vfdiv => some (F.divV m t (F.value a) (F.value b))
  | .vfsqrt => some (F.sqrtV m t (F.value b))
  | .vfmin => some (F.minmax false a b)
  | .vfmax => some (F.minmax true a b)
  | .vfabs => some (F.convV (.static 0) t (F.value b).abs)
  | .vfneg => some (F.convV (.static 0) t (F.value b).neg)
  | .vfma => some (F.fmaV m t (F.value a) (F.value b) (F.value c))
  | .vfms => some (F.fmaV m t (F.value a) (F.value b) (F.value c).neg)
  | .vfnma => some (F.fmaV m t (F.value a).neg (F.value b) (F.value c).neg)
  | .vfnms => some (F.fmaV m t (F.value a).neg (F.value b) (F.value c))
  | _ => none

/-- The result of a conversion of a code, with a mode and the saturate bit (R202). -/
def convertResult (s : State) (f : WFields) (m : Mode) (x : Nat) : WOp → Option FRes
  | .vfcvt => some (fcvtElem (cvtSrc f) (cvtDst f) s.b8 m (cvtSat f) x)
  | .vfcvtI => some (toIntV m (codeSigned (cvtDst f)) (codeWidth (cvtDst f)) ((s.wfmt f).value x))
  | .vicvtF => some ((fmtOf (cvtDst f) s.b8).ofInt m (cvtSat f) (intValue (cvtSrc f) x))
  | _ => none

/-- One element of an error-feedback conversion with the residual it finds: its result and the residual it leaves (R64). -/
def State.feedback (s : State) (f : WFields) (residual e : Nat) : FRes × Nat :=
  efStep (s.wfmt f) (fmtOf (cvtDst f) s.b8) (cvtSat f) residual (s.elem false f.vs2.toNat s.sew e)

/-- The residual before element n of an error-feedback conversion, from EFR (R64, R66). -/
def State.residual (s : State) (f : WFields) : Nat → Nat
  | 0 => ((s.wfmt f).convV (.static 0) false (Fmt.f64.value s.h.vec.efr.toNat)).1
  | n + 1 => if s.activeIn f false n then (s.feedback f (s.residual f n) n).2 else s.residual f n

/-! ### Permutations (R208 to R210) -/

/-- Active elements below e in a copy. -/
def State.rankIn (s : State) (f : WFields) (mir : Bool) (e : Nat) : Nat := ((List.range e).filter fun i => s.activeIn f mir i).length

/-- The source of `vbcast` is an element of its own destination group below e that has been masked off and zeroed, VTYPE.MA being 1: elements are done
in order (R5, R192, R208). -/
def State.sourceZeroed (s : State) (f : WFields) (mir : Bool) (e : Nat) : Bool :=
  let p := (f.vs1.toNat - f.vd.toNat) * s.per s.sew
  decide (f.vd.toNat ≤ f.vs1.toNat ∧ f.vs1.toNat < f.vd.toNat + s.h.vec.grp ∧ p < e) && !s.activeIn f mir p && s.h.vec.ma

/-- What a permutation gives element e, where it writes one (R208 to R210). -/
def permResult (s : State) (f : WFields) (mir : Bool) (e : Nat) : WOp → Option (Option Nat)
  | .vslideup => some (if e < s.amount f then none else s.ruled f mir e (s.elem mir f.vs2.toNat s.sew (e - s.amount f)) 0)
  | .vslidedown =>
    some (s.ruled f mir e (if e + s.amount f < s.h.vlmax then s.elem mir f.vs2.toNat s.sew (e + s.amount f) else 0) 0)
  | .vgather =>
    let i := s.elem mir f.vs1.toNat s.sew e
    some (s.ruled f mir e (if i < s.vl ∨ (i < s.h.vlmax ∧ s.h.vec.ta = true) then s.elem mir f.vs2.toNat s.sew i else 0) 0)
  | .vexpand => some (s.ruled f mir e (s.elem mir f.vs2.toNat s.sew (s.rankIn f mir e)) 0)
  | .vbcast => some (s.ruled f mir e (if f.s1 then (s.g f.vs1).toNat % 2 ^ s.sew
      else if s.sourceZeroed f mir e then 0 else s.elem mir f.vs1.toNat s.sew 0) 0)
  | .vidx => some (s.ruled f mir e e 0)
  | .vsel => some (some (if s.maskBit mir f.mr.toNat e then s.elem mir f.vs2.toNat s.sew e else s.srcA f mir s.sew e))
  | _ => none

/-! ### Masks, scalars and reductions (R204 to R207) -/

/-- The relation of an integer comparison (R204). -/
def intCompare (w a b : Nat) (code : Nat) : Prop :=
  match code with
  | 0 => a = b
  | 1 => a ≠ b
  | 2 => signed w a < signed w b
  | 3 => signed w a ≤ signed w b
  | 4 => a < b
  | _ => a ≤ b

/-- The bit of a mask operation (R205). -/
def maskResult (a b : Bool) : WOp → Option Bool
  | .mand => some (a && b)
  | .mor => some (a || b)
  | .mxor => some (a != b)
  | .mandn => some (a && !b)
  | .mnot => some (!b)
  | .mmov => some b
  | _ => none

/-- The positions set below VL in a copy of a mask register. -/
def State.setBelow (s : State) (mir : Bool) (k : Nat) : List Nat := (List.range s.vl).filter fun i => s.maskBit mir k i

/-- The value that a W instruction with a scalar result gives (R205, R208). -/
def scalarResult (s : State) (f : WFields) (mir : Bool) : WOp → Option Word
  | .mcount => some (BitVec.ofNat 64 (s.setBelow mir f.vs2.toNat).length)
  | .mfirst => some (match s.setBelow mir f.vs2.toNat with | i :: _ => BitVec.ofNat 64 i | [] => BitVec.allOnes 64)
  | .mall => some (oneIf (decide (∀ e < s.vl, s.maskBit mir f.vs2.toNat e = true)))
  | .vext => some (BitVec.ofNat 64 (if f.imm.toNat < s.h.vlmax then s.elem mir f.vs2.toNat s.sew f.imm.toNat else 0))
  | _ => none

/-- The combination of an ordered reduction or scan in its format: the total and the next element (R206, R207). -/
def reduceStep (s : State) (f : WFields) (a x : Nat) : WOp → Option FRes
  | .vredsum | .vscan => some ((a + x) % 2 ^ s.sew, 0)
  | .vredmax => some (if signed s.sew a < signed s.sew x then x else a, 0)
  | .vredmin => some (if signed s.sew x < signed s.sew a then x else a, 0)
  | .vredmaxu => some (max a x, 0)
  | .vredminu => some (min a x, 0)
  | .vredand => some (a &&& x, 0)
  | .vredor => some (a ||| x, 0)
  | .vfredsum | .vfscan =>
    some ((s.wfmt f).addV (s.wmode f) (s.satFor (s.wfmt f)) ((s.wfmt f).value a) ((s.wfmt f).value x))
  | .vfredmax => some (redMinmax (s.wfmt f) true a x)
  | .vfredmin => some (redMinmax (s.wfmt f) false a x)
  | _ => none

/-- The total after the first n elements, from vs1[0], with the flags raised on the way: only active elements take part. -/
def State.totalOf (s : State) (f : WFields) (step : Nat → Nat → FRes) : Nat → FRes
  | 0 => (s.elem false f.vs1.toNat s.sew 0, 0)
  | n + 1 =>
    let r := s.totalOf f step n
    if s.activeIn f false n then
      let y := step r.1 (s.elem false f.vs2.toNat s.sew n)
      (y.1, r.2 ||| y.2)
    else r

/-- The two copies of what a reduction or scan reads agree. -/
def SourcesAgree (s : State) (f : WFields) : Prop :=
  s.elem false f.vs1.toNat s.sew 0 = s.elem true f.vs1.toNat s.sew 0
    ∧ ∀ e, e < s.vl → s.elem false f.vs2.toNat s.sew e = s.elem true f.vs2.toNat s.sew e
        ∧ s.activeIn f false e = s.activeIn f true e

/-! ### Vector memory (R211 to R223, R299) -/

/-- The vector memory instructions that R218 does not single out, as the model's forms: those of the vector queue but `vldff`, and
`afetch`. -/
def formOf (op : WOp) : Option MemForm := if op = .vldff then none else memForm op

/-- Element e reaches memory at `va`: it is active, its descriptor is not empty, and it is no store or atomic outside a descriptor that
drops what lies out of bounds (R89, R91, R192). -/
def MemForm.reaches (m : MemForm) (s : State) (f : WFields) (e : Nat) (va : Word) : Prop :=
  s.activeIn f false e = true ∧ ∃ out, m.elemAddr s f false e = some (va, out)
    ∧ ¬ (out = true ∧ m.kind ≠ .load ∧ (s.descAt f).clamp = 1)

/-- The access of an element at `va` passes every check, at the place `p`, and nothing makes it wait: the conditions of R213, R217 and R85,
no pin of the context under a write (R122), no poison and no wrong bit under a read (R399, R400), no watchpoint (R414), a leaf whose A
and D bits are set and a line that its shoal has seen (R80, R363), no element of the context parked on the page (R232), no write of the context held there (R121), and for a tagged load a
publication that covers it (R228). -/
structure MemForm.Open (m : MemForm) (s : State) (f : WFields) (va : Word) (p : Place) : Prop where
  canon    : canonical va = true
  aligned  : va.toNat % m.bytes s f = 0
  place    : s.translate s.h.space m.kind.acc va = .ok p
  normal   : p.mt ≠ 1
  column   : f.orient = true → columnPage p.mt p.sq s.sew = none
  unpinned : m.kind ≠ .load → s.pinsOn p.pa (m.bytes s f) = []
  clean    : m.kind ≠ .store → s.poisoned p.pa (m.bytes s f) = false
  sound    : m.kind ≠ .store → ∀ w ∈ s.ca.weak, meets (8 * w) 8 p.pa (m.bytes s f) = false
  marked   : Marked s s.h.space va p (m.kind != .load)
  unparked : s.parkedOn va = false
  unheld   : s.ca.pinQueue = []
  covered  : m.kind ≠ .store → m.mustWait s f va p = .ok false

/-- Nothing stands in the way of a vector memory instruction as a whole: no watchpoint, no fault mask from earlier (R231), no
invalidation on its way to the hart's isle, no profile sampling, no rate mode, a watermark cell whose reading changes nothing (R228, R363, R399), no translation from the vector queue (R336), and under protected mode
copies that agree (R398). -/
structure MemForm.Quiet (m : MemForm) (s : State) (f : WFields) : Prop where
  unwatched : NoWatch s
  fresh     : s.h.vec.mf = 0
  settled   : s.ca.chan = []
  unsampled : s.h.dbg.prof = 0
  unqueued  : s.h.held = []
  copies    : ∀ e, e < s.vl → s.activeIn f false e = true → m.copiesDiffer s f e = false
  plain     : m.rate s f = 0
  cell      : ∀ p, m.mark f ≠ 0 → s.translate s.h.space .load (s.wmCell (m.mark f)) = .ok p →
    Marked s s.h.space (s.wmCell (m.mark f)) p false ∧ ∀ w ∈ s.ca.weak, meets (8 * w) 8 p.pa 32 = false
  memory    : s.mem.wf

/-- What element e leaves in memory, from what memory held, and the flags it raises: a store its data, an atomic the result of R162 at
SEW (R221), a memory-side add the sum in the format of imm16[1:0] (R222). -/
def MemForm.newBytes (m : MemForm) (s : State) (f : WFields) (e : Nat) (va : Word) (pa : Nat) (mem : Memory) : List Byte × Nat :=
  let n := m.bytes s f
  let old := mem.num pa n
  let v := s.elem false (m.dataReg f) s.sew e
  match m.kind with
  | .load => (mem.bytes pa n, 0)
  | .store => (leBytes n v, 0)
  | .atomic op => (leBytes n (amoResult op s.sew old v 0), 0)
  | .add =>
    let F := fmtOf (match f.imm.toNat % 4 with | 0 => 2 | 1 => 1 | _ => 0) 0
    let x := if f.imm.toNat % 4 = 2 then Fmt.f64.value v else Fmt.f32.value v
    let mode : Mode := match s.addBits f va with
      | some b => .random b
      | none => .static 0
    let r := F.addV mode (natField f.imm.toNat 3 1 == 1) (F.value old) x
    (leBytes n r.1, r.2)

/-- Where the elements of a vector memory instruction act: for each element that reaches memory, its address and its place. -/
abbrev Places := Nat → Option (Word × Place)

/-- Memory before element e of a vector store or atomic, its elements performed in increasing order (R215, R221, R222). -/
def MemForm.memAt (m : MemForm) (s : State) (f : WFields) (at_ : Places) : Nat → Memory
  | 0 => s.mem
  | e + 1 =>
    let mem := m.memAt s f at_ e
    match at_ e with
    | some (va, p) => mem.put p.pa (m.newBytes s f e va p.pa mem).1
    | none => mem

/-- The flags that element e of a vector store or atomic raises. -/
def MemForm.flagsAt (m : MemForm) (s : State) (f : WFields) (at_ : Places) (e : Nat) : Nat :=
  match at_ e with
  | some (va, p) => (m.newBytes s f e va p.pa (m.memAt s f at_ e)).2
  | none => 0

/-- What memory held where element e of a vector atomic acts; 0 where it acts nowhere. -/
def MemForm.oldAt (m : MemForm) (s : State) (f : WFields) (at_ : Places) (e : Nat) : Nat :=
  match at_ e with
  | some (_, p) => (m.memAt s f at_ e).num p.pa (m.bytes s f)
  | none => 0

/-- What a vector load reads for element e, as the slice of the hart's isle gives it; 0 where it reads nothing (R79, R91). -/
def MemForm.loadAt (m : MemForm) (s : State) (f : WFields) (at_ : Places) (e : Nat) : Nat :=
  match at_ e with
  | some (_, p) => leNat (s.sliceBytes s.h.su.part s.h.hid.isle f.orient p.pa (m.bytes s f))
  | none => 0

/-- No element changes a table that translates another: whatever the bytes at the elements' places hold, every address translates as
before. -/
def MemForm.TablesApart (m : MemForm) (s : State) (f : WFields) (at_ : Places) : Prop :=
  ∀ mem : Memory, (∀ x, (∀ e va p, e < s.vl → at_ e = some (va, p) → x < p.pa ∨ p.pa + m.bytes s f ≤ x) → mem.get x = s.mem.get x) →
    ∀ e va p, e < s.vl → at_ e = some (va, p) → ({ s with mem := mem } : State).translate s.h.space m.kind.acc va = .ok p

/-- The places of a vector memory instruction whose every element that reaches memory is open to it. -/
def MemForm.AllOpen (m : MemForm) (s : State) (f : WFields) (at_ : Places) : Prop :=
  ∀ e, e < s.vl → (∀ va p, at_ e = some (va, p) → m.reaches s f e va ∧ m.Open s f va p) ∧ (at_ e = none → ∀ va, ¬ m.reaches s f e va)

/-! ### Faults of elements (R230 to R233, R341, R343, R347) -/

/-- SLANE names element e of a data group of width w, in slot 0 (R341): the lane and the physical lane group that hold its chunk, by R189, R190 and
R353. -/
structure LaneOf (s : State) (w e : Nat) (v : Word) : Prop where
  named : v.getLsbD 63 = true
  elem  : fieldOf v 32 16 = e
  lane  : fieldOf v 0 3 = e % s.per w * w / 64 / s.h.groups % 8
  group : s.h.su.lgMap.getLsbD (fieldOf v 8 2) = true
    ∧ ((List.range (fieldOf v 8 2)).filter fun i => s.h.su.lgMap.getLsbD i).length = e % s.per w * w / 64 % s.h.groups
  rest  : fieldOf v 48 15 = 0 ∧ fieldOf v 16 16 = 0 ∧ fieldOf v 10 6 = 0 ∧ fieldOf v 3 5 = 0

/-- The access of an element at `va` takes an element fault that is no residency fault: the first check that fails, with its trap but for the lane
(R74, R85, R122, R213, R217, R230, R362, R400). -/
def MemForm.Faults (m : MemForm) (s : State) (f : WFields) (va : Word) (x : Trap) : Prop :=
  let column (p : Place) : Option Nat := if f.orient then columnPage p.mt p.sq s.sew else none
  let pinned (p : Place) : Prop := m.kind ≠ .load ∧ ∃ q ∈ s.pinsOn p.pa (m.bytes s f), q.own = s.h.own
  (canonical va = false ∧ x = { code := 5, val := va })
  ∨ (canonical va = true ∧ va.toNat % m.bytes s f ≠ 0 ∧ x = { code := 6, val := va })
  ∨ (canonical va = true ∧ va.toNat % m.bytes s f = 0
    ∧ ((∃ e, s.translate s.h.space m.kind.acc va = .error e ∧ e.code ≠ 9 ∧ x =
          { code := e.code, sub := e.sub, val := if e.code ≠ 21 then va else if e.level = 0 then va &&& ~~~7 else BitVec.ofNat 64 e.entry })
      ∨ ∃ p, s.translate s.h.space m.kind.acc va = .ok p
        ∧ ((∃ k, column p = some k ∧ x = { code := 11, sub := k, val := va })
          ∨ (column p = none ∧ p.mt = 1 ∧ x = { code := 7, sub := 2, val := va })
          ∨ (column p = none ∧ p.mt ≠ 1 ∧ pinned p ∧ x = { code := 12, val := va })
          ∨ (column p = none ∧ p.mt ≠ 1 ∧ ¬ pinned p ∧ m.kind ≠ .store ∧ s.poisoned p.pa (m.bytes s f) = true
              ∧ x = { code := 21, sub := 3, val := va &&& ~~~7 }))))

/-- The access of an element at `va` takes a residency fault (R230), at a level of the table and in one of its entries. -/
def MemForm.Absent (m : MemForm) (s : State) (f : WFields) (va : Word) (level entry : Nat) : Prop :=
  canonical va = true ∧ va.toNat % m.bytes s f = 0 ∧ ∃ c, s.translate s.h.space m.kind.acc va = .error ⟨9, c, level, entry⟩

/-- An element that is held or parked: its number, its address, and the level and entry of its fault. -/
structure Missing where
  e     : Nat
  va    : Word
  level : Nat
  entry : Nat

/-- The batch of a residency fault (R369): one entry for each page, in the order of their first elements. -/
def batchOf (src : Nat) (write : Bool) (ms : List Missing) : List BatchEntry :=
  (ms.map fun x => x.va.toNat / 2 ^ 16).eraseDups.filterMap fun page =>
    let mine := ms.filter fun x => x.va.toNat / 2 ^ 16 == page
    mine.head?.map fun x => { va := x.va, level := x.level, src := src, wr := write, first := x.e, nel := mine.length }

/-- SRC of a fault batch: a vector load, store or atomic (R369). -/
def MemForm.source (m : MemForm) : Nat := match m.kind with | .load => 2 | .store => 3 | _ => 4

/-- Whatever the bytes at the elements' places hold, and whichever poison they clear, these addresses translate as before. -/
def MemForm.MissingApart (m : MemForm) (s : State) (f : WFields) (at_ : Places) (vas : List Word) : Prop :=
  ∀ (mem : Memory) (ws : List Nat),
    (∀ x, (∀ e va p, e < s.vl → at_ e = some (va, p) → x < p.pa ∨ p.pa + m.bytes s f ≤ x) → mem.get x = s.mem.get x) →
    (∀ w ∈ ws, w ∈ s.ca.poison) →
    (∀ w ∈ s.ca.poison, (∀ e va p, e < s.vl → at_ e = some (va, p) → meets (8 * w) 8 p.pa (m.bytes s f) = false) → w ∈ ws) →
    ∀ va ∈ vas, ({ s with mem := mem, ca := { s.ca with poison := ws } } : State).translate s.h.space m.kind.acc va
      = s.translate s.h.space m.kind.acc va

/-- What elements that have performed leave when the instruction does not complete: those of `done`, each as it would in a whole run. Other elements,
and every other register, stand. -/
structure MemForm.Performed (m : MemForm) (s v : State) (f : WFields) (at_ : Places) (done : Nat → Bool) : Prop where
  memory : v.mem = if m.kind = .load then s.mem else m.memAt s f (fun e => if done e then at_ e else none) s.vl
  elems  : m.writes = true → ∀ mir e, Copy s mir → e < s.h.vec.grp * s.per s.sew → v.elem mir f.vd.toNat s.sew e =
    (if e < s.vl ∧ done e = true then
        s.ruled f false e (if m.kind = .load then m.loadAt s f at_ e else m.oldAt s f (fun e => if done e then at_ e else none) e) 0
      else none).elim (s.elem mir f.vd.toNat s.sew e) (· % 2 ^ s.sew)
  others : ∀ r, r < 32 → m.writes = false ∨ r < f.vd.toNat ∨ f.vd.toNat + s.h.vec.grp ≤ r → v.h.vec.reg r = s.h.vec.reg r
  flags  : FlagsRaised s v ((List.range s.vl).map (m.flagsAt s f fun e => if done e then at_ e else none))

/-- An instruction has stopped at element k: VSTART holds k (R196), and everything stands but registers, flags, memory and copies. -/
structure StoppedAt (s v : State) (k : Nat) : Prop where
  start : v.h.vec.vstart.toNat = k
  masks : v.h.vec.m = s.h.vec.m
  frame : v = { s with
    h := { s.h with
      sc := { s.h.sc with fflags := v.h.sc.fflags }, su := { s.h.su with vdirty := v.h.su.vdirty }
      vec := { s.h.vec with v := v.h.vec.v, mf := v.h.vec.mf, vstart := v.h.vec.vstart } }
    mem := v.mem, ca := v.ca, free := v.free }

/-- An element is open to the instruction at the place that `at_` gives, or reaches no memory. -/
def MemForm.OpenAt (m : MemForm) (s : State) (f : WFields) (at_ : Places) (e : Nat) : Prop :=
  (∀ va p, at_ e = some (va, p) → m.reaches s f e va ∧ m.Open s f va p) ∧ (at_ e = none → ∀ va, ¬ m.reaches s f e va)

/-- Element k at `va` is the lowest that faults: those below it are open. In compatibility mode, those above it are open or fault themselves. -/
def MemForm.LowestFault (m : MemForm) (s : State) (f : WFields) (at_ : Places) (k : Nat) (va : Word) : Prop :=
  k < s.vl ∧ m.reaches s f k va ∧ at_ k = none ∧ (∀ e, e < k → m.OpenAt s f at_ e)
    ∧ (s.h.su.compat = true → ∀ e, k < e → e < s.vl →
        m.OpenAt s f at_ e ∨ (at_ e = none ∧ ∀ va, m.reaches s f e va → (∃ x, m.Faults s f va x) ∨ ∃ l n, m.Absent s f va l n))

/-- The outcome of an instruction that stops precisely at element k (R230): the trap of a state in which every element below k has performed and, but in
compatibility mode, where a load or store may have performed some above it (R127, R347), none from k on. -/
def MemForm.StopsAt (m : MemForm) (s : State) (f : WFields) (at_ : Places) (k : Nat) (x : Trap) (o : Out) : Prop :=
  ∃ v l done, o = Trapped v { x with lane := l } ∧ LaneOf s s.sew k l ∧ StoppedAt s v k ∧ v.h.vec.mf = s.h.vec.mf
    ∧ (∀ e, e < k → done e = true)
    ∧ (∀ e, k ≤ e → done e = true → k < e ∧ s.h.su.compat = true ∧ (m.kind = .load ∨ m.kind = .store) ∧ s.activeIn f false e = true)
    ∧ m.Performed s v f at_ done

/-- The elements of `ms` are those that take residency faults, in increasing order, on pages where nothing of the hart is parked; the others are
open, on other pages. -/
structure MemForm.Holds (m : MemForm) (s : State) (f : WFields) (at_ : Places) (ms : List Missing) : Prop where
  order : ms.Pairwise fun x y => x.e < y.e
  each  : ∀ x ∈ ms, x.e < s.vl ∧ m.reaches s f x.e x.va ∧ at_ x.e = none ∧ m.Absent s f x.va x.level x.entry ∧ s.parkedOn x.va = false
  rest  : ∀ e, e < s.vl → (∀ x ∈ ms, x.e ≠ e) → m.OpenAt s f at_ e
  pages : ∀ e va p, e < s.vl → at_ e = some (va, p) → ∀ x ∈ ms, samePage va x.va = false
  apart : m.kind ≠ .load → m.TablesApart s f at_ ∧ m.MissingApart s f at_ (ms.map Missing.va)

/-- The outcome of a load or atomic that has held the elements of `ms` (R231): every other element has performed, mf names the held ones, VSTART is
the lowest, and one batch names their pages (R369). -/
def MemForm.HeldBack (m : MemForm) (s : State) (f : WFields) (at_ : Places) (ms : List Missing) (o : Out) : Prop :=
  let done (e : Nat) : Bool := ms.all fun x => x.e != e
  let batch := batchOf m.source (m.kind != .load) ms
  ∃ v l va k, o = Trapped v { code := 9, sub := min 16 batch.length, val := va, lane := l, batch := batch }
    ∧ ms.head?.map Missing.e = some k ∧ LaneOf s s.sew k l ∧ StoppedAt s v k
    ∧ va ∈ ms.map Missing.va ∧ (∀ x ∈ ms, va.toNat ≤ x.va.toNat)
    ∧ (∀ e, v.h.vec.mf.getLsbD e = true ↔ ∃ x ∈ ms, x.e = e)
    ∧ m.Performed s v f at_ done

/-- The elements of `ms` are those of a store that park, in increasing order (R232): their pages are absent, or hold parked elements of the hart
already, a page that is there having passed every check of a store. The others are open, on other pages. -/
structure MemForm.Parks (m : MemForm) (s : State) (f : WFields) (at_ : Places) (ms : List Missing) : Prop where
  order : ms.Pairwise fun x y => x.e < y.e
  each  : ∀ x ∈ ms, x.e < s.vl ∧ m.reaches s f x.e x.va ∧ at_ x.e = none
    ∧ (m.Absent s f x.va x.level x.entry
      ∨ (s.parkedOn x.va = true ∧ x.level = 0 ∧ x.entry = 0 ∧ canonical x.va = true ∧ x.va.toNat % m.bytes s f = 0
        ∧ (∃ p, s.translate s.h.space .store x.va = .ok p) ∧ ∀ t, ¬ m.Faults s f x.va t))
  rest  : ∀ e, e < s.vl → (∀ x ∈ ms, x.e ≠ e) → m.OpenAt s f at_ e
  pages : ∀ e va p, e < s.vl → at_ e = some (va, p) → ∀ x ∈ ms, samePage va x.va = false
  apart : m.TablesApart s f at_ ∧ m.MissingApart s f at_ (ms.map Missing.va)

/-- Elements of a store have joined the replay queue behind what stood in it, in their order (R232, R371). -/
def MemForm.Joined (m : MemForm) (s v : State) (f : WFields) (ms : List Missing) : Prop :=
  ∃ l, v.ca.parked = s.ca.parked ++ l ∧ l.length = ms.length ∧ ∀ (i : Nat) (x : Missing) (p : Parked), ms[i]? = some x → l[i]? = some p →
    p.hid = s.h.hid ∧ p.own = s.h.own ∧ p.elem = x.e ∧ p.va = x.va ∧ p.level = x.level ∧ p.line = x.entry / 64
      ∧ p.data = leBytes (m.bytes s f) (s.elem false f.vd.toNat s.sew x.e) ∧ p.root = s.h.su.ptroot ∧ p.sup = s.h.su.sup

/-! ### Rate-mode loads (R273 to R275) -/

/-- What a rate-mode load gives for element i of member k of an active set (R274), from the member's state. -/
def State.memberGives (s : State) (rate : Nat) (r : RatedSet) (k i : Nat) : Nat :=
  let every := 2 ^ (s.rateEntry r k % 8)
  let opened := fieldOf (s.mem.quad (r.recPa + 200)) 63 1 = 1
  let n := fieldOf (s.mem.quad (r.recPa + 200)) 0 63
  let visiting := opened ∧ k ∉ r.committed
  let measured := ∃ v ∈ r.visits, v.m = k ∧ i ∈ v.measured
  let v := (s.getPlane r (if visiting ∧ measured then 2 else 0) k i).1
  let slope := (s.getPlane r (if visiting ∧ measured then 3 else 1) k i).1
  let age := if visiting then (n - 1) % every + 1 else if opened then 0 else (s.mem.quad (r.recPa + 192)).toNat % every
  if rate = 1 ∨ age = 0 then v
  else (Fmt.f32.fmaV (.static 0) false (.fin false age 0) (Fmt.f32.value slope) (Fmt.f32.value v)).1

end Sys2Proof.Machine
end

