-- ==== Sys2Proof/Safety/Matrix.lean ====
section
/-! DEFINITION. The terms of claims about matrix instructions: open windows and the bytes that pins hold, the product that a log entry
adds, and what a drain finds. -/

namespace Sys2Proof.Machine

/-! ### Frames -/

/-- The vector registers, masks and g registers, VL, FFLAGS and everything outside matrix state, memory and caches stand; VDIRTY.MX is
set (R350). The counter of free choices may move. -/
structure OnlyMatrix (s t : State) : Prop where
  registers : RegistersStand s t
  settled   : Settled s t
  lanes     : t.h.vec.v = s.h.vec.v ∧ MasksStand s t
  flags     : NoFlags s t
  dirty     : t.h.su.vdirty.getLsbD 42 = true
  frame     : LanesFrame s { t with free := s.free }

/-- Memory stands, and so do the caches, queues and pins. -/
def MemoryStands (s t : State) : Prop := t.mem = s.mem ∧ t.ca = s.ca

/-- Matrix state stands but for accumulator x, which is `b` now. -/
def OnlyAccum (s t : State) (x : Nat) (b : Accum) : Prop := t.h.mx = { s.h.mx with acc := s.h.mx.acc.setIfInBounds x b }

/-! ### Windows (R239, R257) -/

/-- An address of a tile instruction passes every check and nothing makes it wait: R257, R85 conditions 5 and 6, no own pin under a store
(R122), no poison and no wrong bit under a read (R399, R400), a leaf whose A and D bits are set and a line that its shoal has seen (R80,
R363), and no own access parked or held (R121, R232). -/
structure TileOpen (s : State) (acc : Acc) (n : Nat) (col : Option Nat) (va : Word) (p : Place) : Prop where
  place    : s.translate s.h.space acc va = .ok p
  normal   : p.mt ≠ 1
  column   : ∀ w, col = some w → columnPage p.mt p.sq w = none
  unpinned : acc = .store → s.pinsOn p.pa n = []
  clean    : acc ≠ .store → s.poisoned p.pa n = false
  sound    : acc ≠ .store → ∀ w ∈ s.ca.weak, meets (8 * w) 8 p.pa n = false
  marked   : Marked s s.h.space va p (acc == .store)
  unparked : s.parkedOn va = false
  unheld   : s.ca.pinQueue = []

/-- No watchpoint is enabled, no invalidation is on its way to the hart's isle, profiling is off, no translation comes from the vector
queue (R336), and memory has its form. -/
def TileQuiet (s : State) : Prop := NoWatch s ∧ s.ca.chan = [] ∧ s.h.dbg.prof = 0 ∧ s.h.held = [] ∧ s.mem.wf

/-- Where the elements of a window lie: none where the descriptor is empty (R91), or for a store out of bounds under CLAMP = 1 (R243). -/
abbrev WindowAt := Nat → Nat → Option (Word × Place)

/-- Every address of a window of `rows` by `cols` is open to a tile instruction (R239). -/
def WindowOpen (s : State) (f : WFields) (acc : Acc) (rows cols : Nat) (at_ : WindowAt) : Prop :=
  let d := s.descAt f
  let win (r c : Nat) : Option (Word × Bool) := d.window (s.g f.vs3).toInt f.orient r c
  ∀ r c, r < rows → c < cols →
    (∀ va p, at_ r c = some (va, p) →
      (∃ out, win r c = some (va, out) ∧ ¬ (acc = .store ∧ out = true ∧ d.clamp = 1))
        ∧ TileOpen s acc d.bytes (if f.orient then some d.width else none) va p)
    ∧ (at_ r c = none → ∀ va out, win r c = some (va, out) → acc = .store ∧ out = true ∧ d.clamp = 1)

/-- What a window load reads at (r, c): the slice of the hart's isle gives it (R79); 0 where there is nothing. -/
def State.windowValue (s : State) (f : WFields) (at_ : WindowAt) (r c : Nat) : Nat :=
  match at_ r c with
  | some (_, p) => leNat (s.sliceBytes s.h.su.part s.h.hid.isle f.orient p.pa (s.descAt f).bytes)
  | none => 0

/-- The shape lies within the limits of R236: what `settile` and `settile.c` grant, and what a tile records. -/
structure Matrix.Formed (mx : Matrix) : Prop where
  shape : let sh := shapeOf mx.tshape 0; sh.m ≤ 128 ∧ sh.n ≤ (if sh.room then 512 else 64) ∧ sh.k ≤ 256
  tiles : ∀ (t : Nat) (x : Tile), mx.tiles[t]? = some (some x) → x.elems.length = x.rows * x.cols

/-! ### Products (R244 to R246) -/

/-- The code that a tile's pin holds at (r, c); 0 where its window is empty (R91, R240). -/
def State.codeAt (s : State) (t : Tile) (r c : Nat) : Nat :=
  match t.elems[r * t.cols + c]? with
  | some (some pa) => s.mem.num pa (codeWidth t.ctype / 8)
  | _ => 0

/-- Element (i, k) of a sparse A operand over the full K (R245): the group's 24-bit mask places its compressed elements at its lowest set
bits, at most eight of them. -/
def State.sparseAt (s : State) (a m : Tile) (i k : Nat) : Nat :=
  let g : Nat := k / 24
  let mask : Nat := s.codeAt m i (3 * g) + 2 ^ 8 * s.codeAt m i (3 * g + 1) + 2 ^ 16 * s.codeAt m i (3 * g + 2)
  let rank : Nat := ((List.range (k % 24)).filter fun b => mask.testBit b).length
  if mask.testBit (k % 24) && decide (rank < 8) then s.codeAt a i (8 * g + rank) else 0

/-- The code of A(i, k) of a log entry. -/
def State.codeA (s : State) (e : LogEntry) (i k : Nat) : Nat :=
  match s.tile e.a, e.msk.bind s.tile with
  | some a, some m => s.sparseAt a m i k
  | some a, none => s.codeAt a i k
  | none, _ => 0

/-- The code of B(k, j) of a log entry. -/
def State.codeB (s : State) (e : LogEntry) (k j : Nat) : Nat :=
  match s.tile e.b with
  | some b => s.codeAt b k j
  | none => 0

/-- The scale of an element, from the places that a log entry pins; 1 where its window is empty (R246). -/
def State.scaleAt (s : State) (ps : List (Option Nat)) (i : Nat) : Nat :=
  match ps[i]? with
  | some (some pa) => (s.mem.get pa).toNat
  | _ => 127

/-- The value of A(i, k), scaled where the entry has scales. -/
def State.valueA (s : State) (e : LogEntry) (i k : Nat) : FVal :=
  let v := (fmtOf e.fmt e.b8.toNat).value (s.codeA e i k)
  match e.scaleA with
  | some ps => v.scale (s.scaleAt ps (i * (shapeOf e.tshape s.h.hid.core).k + k))
  | none => v

/-- The value of B(k, j), scaled where the entry has scales. -/
def State.valueB (s : State) (e : LogEntry) (k j : Nat) : FVal :=
  let v := (fmtOf e.fmt e.b8.toNat).value (s.codeB e k j)
  match e.scaleB with
  | some ps => v.scale (s.scaleAt ps (k * (shapeOf e.tshape s.h.hid.core).n + j))
  | none => v

/-- The element (i, j) that a log entry leaves from `c` (R244, in the order of R69; R70). -/
def State.elemAfter (s : State) (e : LogEntry) (i j c : Nat) : Nat :=
  let ks := List.range (shapeOf e.tshape s.h.hid.core).k
  if e.fmt = 5 then (((c : Int) + (ks.map fun k => toSigned 8 (s.codeA e i k) * toSigned 8 (s.codeB e k j)).sum) % 2 ^ 32).toNat
  else macFloat e.fmt (ks.map fun k => (s.valueA e i k, s.valueB e k j)) c

/-- No word of a tile's window is poisoned (R400). -/
def State.TileClean (s : State) (t : Nat) : Prop :=
  ∀ x, s.tile t = some x → ∀ pa, some pa ∈ x.elems → s.poisoned pa (descOf x.desc).bytes = false

/-- The tiles that a log entry names are loaded with its windows, within the limits of its format, a scale is recorded for each element where it has
scales, and none of what the entry's products read is poisoned (R400). -/
structure State.EntryFormed (s : State) (e : LogEntry) : Prop where
  shape  : let sh := shapeOf e.tshape s.h.hid.core
    0 < sh.m ∧ 0 < sh.n ∧ 0 < sh.k ∧ sh.m ≤ (if e.fmt = 0 then 64 else 128) ∧ sh.n ≤ (if sh.room then 512 else 64)
      ∧ (e.msk ≠ none → sh.k % 24 = 0)
  a      : ∃ t, s.tile e.a = some t ∧ t.rows = (shapeOf e.tshape s.h.hid.core).m ∧ t.ctype = e.fmt
    ∧ t.cols = (if e.msk = none then (shapeOf e.tshape s.h.hid.core).k else (shapeOf e.tshape s.h.hid.core).k / 3)
    ∧ t.elems.length = t.rows * t.cols
  b      : ∃ t, s.tile e.b = some t ∧ t.rows = (shapeOf e.tshape s.h.hid.core).k ∧ t.ctype = e.fmt
    ∧ t.cols = (shapeOf e.tshape s.h.hid.core).n ∧ t.elems.length = t.rows * t.cols
  msk    : ∀ m, e.msk = some m → ∃ t, s.tile m = some t ∧ t.rows = (shapeOf e.tshape s.h.hid.core).m ∧ t.ctype = 9
    ∧ t.cols = (shapeOf e.tshape s.h.hid.core).k / 8 ∧ t.elems.length = t.rows * t.cols
  scales : let sh := shapeOf e.tshape s.h.hid.core
    (∀ ps, e.scaleA = some ps → ps.length = sh.m * sh.k) ∧ (∀ ps, e.scaleB = some ps → ps.length = sh.k * sh.n)
  clean  : s.TileClean e.a ∧ s.TileClean e.b ∧ (∀ m, e.msk = some m → s.TileClean m)
    ∧ (∀ ps pa, e.scaleA = some ps ∨ e.scaleB = some ps → some pa ∈ ps → s.poisoned pa 1 = false)

/-- Accumulator `b` is `a` after the products of a log entry (R244): the elements of its shape, the tag, and the checksum state of R247.
Every other element, the checkpoint and the fix record stand. -/
structure State.Multiplied (s : State) (e : LogEntry) (a b : Accum) : Prop where
  tag     : b.tag = some (tagOf e.fmt)
  elems   : let sh := shapeOf e.tshape s.h.hid.core
    ∀ i j, i < sh.m → j < sh.n →
      b.at i (sh.base + j) = s.elemAfter e i j ({ a with tag := some (tagOf e.fmt) }.at i (sh.base + j)) % 2 ^ b.width
  outside : let sh := shapeOf e.tshape s.h.hid.core
    ∀ i p, i < 8192 / (2 * b.width) → p < 512 → ¬ (i < sh.m ∧ sh.base ≤ p ∧ p < sh.base + sh.n) →
      b.at i p = { a with tag := some (tagOf e.fmt) }.at i p
  sums    : let sh := shapeOf e.tshape s.h.hid.core
    b.sums = if e.fmt = 5 then
        a.sums.addInt sh ((List.range sh.m).map fun i => (List.range sh.k).map fun k => toSigned 8 (s.codeA e i k))
          ((List.range sh.n).map fun j => (List.range sh.k).map fun k => toSigned 8 (s.codeB e k j))
      else
        a.sums.addFloat sh ((List.range sh.m).map fun i => (List.range sh.k).map fun k => s.valueA e i k)
          ((List.range sh.n).map fun j => (List.range sh.k).map fun k => s.valueB e k j)
  rest    : b.ckElem = a.ckElem ∧ b.ckSums = a.ckSums ∧ b.fix = a.fix

/-- `b` is `a` after the products of a list of log entries in order (R253). -/
def State.Replayed (s : State) : List LogEntry → Accum → Accum → Prop
  | [], a, b => b = a
  | e :: es, a, b => ∃ c, s.Multiplied e a c ∧ s.Replayed es c b

/-! ### Units (R234, R235) -/

/-- Some tile register holds pins or some log is not empty (R235). -/
def Busy (s : State) : Prop :=
  (∃ p ∈ s.ca.pins, p.own = s.h.own ∧ p.tile ≠ none) ∨ ∃ a ∈ s.h.mx.acc.toList, a.log ≠ []

/-- The core's unit is the hart's, or free with no other hart ahead of it (R234). -/
def UnitReady (s : State) : Prop :=
  let u := s.unitAt s.h.hid.core
  u.holder = some s.h.own ∨ (u.holder = none ∧ (u.waiters = [] ∨ u.waiters.head? = some s.h.own))

/-- A request has a bad hint, or a sparse one no whole group (R235). -/
def BadRequest (v : Word) : Prop :=
  fieldOf v 53 11 ≠ 0 ∨ 6 < fieldOf v 48 4 ∨ (fieldOf v 52 1 = 1 ∧ (fieldOf v 48 4 = 1 ∨ fieldOf v 48 4 = 2))

/-- A field of a request is zero, so that it releases the unit (R235). -/
def ZeroRequest (v : Word) : Prop := fieldOf v 0 16 = 0 ∨ fieldOf v 16 16 = 0 ∨ fieldOf v 32 16 = 0

/-- The granted K: at most 256, and under the sparse flag a multiple of 24 (R235). -/
def grantedK (v : Word) : Nat :=
  if fieldOf v 52 1 = 1 then min (fieldOf v 32 16) 256 / 24 * 24 else min (fieldOf v 32 16) 256

/-- The granted M (R235). -/
def grantedM (v : Word) : Nat := min (fieldOf v 0 16) (if fieldOf v 48 4 = 1 then 64 else 128)

/-- The granted N, in classroom mode or not (R235). -/
def grantedN (v : Word) (cls : Bool) : Nat := min (fieldOf v 16 16) (if cls then 512 else 64)

/-- A `settile` has completed: TSHAPE, g[rd], and nothing else of the hart but its accumulators and what it holds. -/
structure Shaped (s t : State) (d : Reg) (cls : Bool) (k n m : Nat) : Prop where
  tshape : t.h.mx.tshape.toNat = bit01 cls * 2 ^ 48 + k * 2 ^ 32 + n * 2 ^ 16 + m
  value  : t.g d = if d = 0 then 0 else BitVec.ofNat 64 (k * 2 ^ 32 + n * 2 ^ 16 + m)
  others : ∀ r, r ≠ d → t.g r = s.g r
  ldn    : t.h.sc.ldn = d
  pc     : Advanced s t 4
  scalar : SpecialsStand s.h.sc t.h.sc
  rest   : t = { s with
    h := { s.h with
      sc := t.h.sc, su := { s.h.su with vdirty := t.h.su.vdirty }
      mx := { s.h.mx with tshape := t.h.mx.tshape, acc := t.h.mx.acc, hold := t.h.mx.hold } }
    un := { s.un with matrix := t.un.matrix } }
  dirty  : t.h.su.vdirty = s.h.su.vdirty ||| BitVec.ofNat 43 (2 ^ 42)

/-! ### Drains (R249) -/

/-- An actual and an expected sum differ by more than R249 allows: by more than 2^-t times the bound, or exactly one is not finite; under
the int32 tag, at all. A bound that is infinite places no limit, and one that is a NaN marks a mismatch. -/
def Differs (int : Bool) (t actual expected bound : Nat) : Prop :=
  if int then actual ≠ expected
  else match Fmt.f64.value actual, Fmt.f64.value expected with
    | .fin n m e, .fin n' m' e' =>
      (match Fmt.f64.value bound with
        | .nan _ => True
        | .inf _ => False
        | .fin _ u x => (2 : ℚ) ^ (-(t : Int)) * (FVal.fin false u x).num < |(FVal.fin n m e).num - (FVal.fin n' m' e').num|)
    | .fin _ _ _, _ => True
    | _, .fin _ _ _ => True
    | _, _ => False

/-- The actual sum of a column, and of a row over the cores of a shape in increasing core (R249, R255). -/
def Accum.colSum (a : Accum) (sh : Shape) (j : Nat) : Nat := wordAt (a.actual sh a.sums).col (sh.base + j)
/-- The actual sum of a row (R249, R255). -/
def Accum.rowSum (a : Accum) (sh : Shape) (i : Nat) : Nat := combine a.tag rne sh (a.actual sh a.sums).row i

/-- Column j is mismatched (R249). -/
def Accum.BadCol (a : Accum) (sh : Shape) (t j : Nat) : Prop :=
  Differs (a.tag == some .int32) t (a.colSum sh j) (wordAt a.sums.col (sh.base + j)) (wordAt a.sums.colB (sh.base + j))
/-- Row i is mismatched (R249). -/
def Accum.BadRow (a : Accum) (sh : Shape) (t i : Nat) : Prop :=
  Differs (a.tag == some .int32) t (a.rowSum sh i) (combine a.tag rne sh a.sums.row i) (combine a.tag rup sh a.sums.rowB i)

/-- What a fix record lacks in its column (R249). -/
def Accum.lack (a : Accum) (sh : Shape) (c : Nat) : Word :=
  let want := wordAt a.sums.col (sh.base + c)
  let got := a.colSum sh c
  if a.tag = some .int32 then (BitVec.ofInt 32 ((want : Int) - got)).signExtend 64
  else BitVec.ofNat 64 (Fmt.f64.addV (.static 0) false (Fmt.f64.value want) (Fmt.f64.value got).neg).1

/-- C + delta under a tag: rounded to nearest even in its format, or modulo 2^32 (R252). -/
def corrected (tag : Option AccTag) (c : Nat) (delta : Word) : Nat :=
  match tag with
  | some .int32 => ((toSigned 32 c + delta.toInt) % 2 ^ 32).toNat
  | some .fp32 => (Fmt.f32.addV (.static 0) false (Fmt.f32.value c) (Fmt.f64.value delta.toNat)).1
  | _ => (Fmt.f64.addV (.static 0) false (Fmt.f64.value c) (Fmt.f64.value delta.toNat)).1

/-- The state after a checksum fault of accumulator x at a `mdrain` that stands alone: delivered as cause 3 where it can be (R41), else a
supervisor trap with code 15 (R249, R343). -/
structure ChecksumRaised (s t : State) (x : Nat) : Prop where
  delivered : s.h.su.sup = false → s.h.ev.mask.getLsbD 2 = true → s.h.ev.inHandler = false →
    t.h.sc.pc = s.h.ev.vec ∧ t.h.ev.code = 3 ∧ t.h.ev.info = BitVec.ofNat 32 x ∧ t.h.ev.epc = s.h.sc.pc ∧ t.h.ev.inHandler = true
  trapped   : (s.h.su.sup = true ∨ s.h.ev.mask.getLsbD 2 = false ∨ s.h.ev.inHandler = true) →
    t.h.sc.pc = s.h.su.stvec ∧ t.h.su.sup = true ∧ t.h.su.scause = BitVec.ofNat 17 (x * 2 ^ 8 + 15) ∧ t.h.su.sepc = s.h.sc.pc &&& ~~~1

end Sys2Proof.Machine
end

