-- ==== Sys2Proof/Safety/Units.lean ====
section
/-! DEFINITION. The terms of claims about engines, the activation stack, rated sets, save images and convoys: open tables and lines,
and what each instruction leaves alone. -/

namespace Sys2Proof.Machine

/-- An access of a record or table at its home passes every check of R159, at the place `p`, the shoal has seen its lines (R80), and neither a pin
nor a held write nor an invalidation on its way makes it wait (R107, R121, R302). -/
structure TableOpen (s : State) (acc : Acc) (va : Word) (n : Nat) (p : Place) : Prop where
  canon     : canonical va = true
  aligned   : va.toNat % n = 0
  place     : s.translate s.h.space acc va = .ok p
  normal    : p.mt ≠ 1
  unpinned  : acc ≠ .load → s.pinsOn p.pa n = []
  clean     : acc ≠ .store → s.poisoned p.pa n = false
  sound     : acc ≠ .store → ∀ w ∈ s.ca.weak, meets (8 * w) 8 p.pa n = false
  marked    : Marked s s.h.space va p (acc != .load)
  rest      : ∀ i, 0 < i → 64 * i < p.pa % 64 + n →
    Seen s s.h.space (va + BitVec.ofNat 64 (64 * i)) { p with pa := p.pa + 64 * i }
  unheld    : acc ≠ .load → s.ca.pinQueue = []
  read      : acc = .load → s.ownHeld p.pa n = false ∧ Near s p.pa
  unwatched : NoWatch s
  unqueued  : s.h.held = []

/-- An address is translated, at the place `p`, for what the instruction itself does not access (R266): that sets A alone (R363). -/
structure Translates (s : State) (acc : Acc) (va : Word) (p : Place) : Prop where
  canon    : canonical va = true
  place    : s.translate s.h.space acc va = .ok p
  normal   : p.mt ≠ 1
  marked   : Marked s s.h.space va p false
  unqueued : s.h.held = []

/-- The quad k of a record at a place. -/
def State.quadAt (s : State) (p : Place) (k : Nat) : Word := s.mem.quad (p.pa + 8 * k)

/-- A W instruction that stands alone has left the lanes, the matrix state and the flags alone, and changed at most control state, the
units' state, memory and caches, one g register, and progress. -/
structure OnlyUnits (s t : State) : Prop where
  lanes   : t.h.vec.v = s.h.vec.v ∧ MasksStand s t
  flags   : NoFlags s t
  settled : Settled s t
  matrix  : t.h.mx = s.h.mx
  frame   : LanesFrame s { t with un := s.un, h := { t.h with ct := s.h.ct } }

/-- Control state and the units' state stand. -/
def UnitsStand (s t : State) : Prop := t.un = s.un ∧ t.h.ct = s.h.ct

/-- Lines of 64 bytes from `base` on, each open to a vector-class access. -/
structure LinesOpen (s : State) (acc : Acc) (base : Word) (n : Nat) (at_ : Nat → Place) : Prop where
  aligned : base.toNat % 64 = 0
  lines   : ∀ i, i < n → TileOpen s acc 64 none (base + BitVec.ofNat 64 (64 * i)) (at_ i)
  alone   : acc = .store → ∀ i, i < n → Unmeasured s (base + BitVec.ofNat 64 (64 * i)) 64
  quiet   : NoWatch s ∧ s.h.held = [] ∧ s.mem.wf

/-- Whatever some runs of bytes hold, the address translates as before. -/
def Apart (s : State) (runs : List (Nat × Nat)) (acc : Acc) (va : Word) (p : Place) : Prop :=
  ∀ mem : Memory, (∀ x, (∀ r ∈ runs, x < r.1 ∨ r.1 + r.2 ≤ x) → mem.get x = s.mem.get x) →
    ({ s with mem := mem } : State).translate s.h.space acc va = .ok p

/-- The runs of bytes of some lines. -/
def linesRuns (n : Nat) (at_ : Nat → Place) : List (Nat × Nat) := (List.range n).map fun i => ((at_ i).pa, 64)

/-- Memory with lines written, in order: line i holds the bytes that `bytes` gives from 64i on. -/
def putLinesAt (m : Memory) (at_ : Nat → Place) (bytes : Nat → Byte) : Nat → Memory
  | 0 => m
  | n + 1 => (putLinesAt m at_ bytes n).put (at_ n).pa ((List.range 64).map fun j => bytes (64 * n + j))

/-- The bytes of lines as the hart's isle gives them, in order. -/
def State.lineBytes (s : State) (at_ : Nat → Place) (n : Nat) : List Byte :=
  (List.range n).flatMap fun i => s.sliceBytes s.h.su.part s.h.hid.isle false (at_ i).pa 64

/-! ### Engines (R277 to R281, R292, R293) -/

/-- Elements of one record, and the positions that a group holds (R22). -/
def State.recordElems (s : State) : Nat := 512 / s.sew
/-- The positions that a group holds (R22). -/
def State.recordCount (s : State) : Nat := s.h.vlmax * s.sew / 512

/-- Position k is named by a batch: its first element lies below VL and is active (R279). -/
def InBatch (s : State) (f : WFields) (k : Nat) : Prop :=
  k < s.recordCount ∧ k * s.recordElems < s.vl ∧ s.activeIn f false (k * s.recordElems) = true

/-- Position k is named by a mask (R292). -/
def Named (s : State) (m k : Nat) : Prop := k < s.recordCount ∧ s.maskBit false m (k * s.recordElems) = true

/-- A mask register has exactly the elements of some positions set; every other mask register, mf and every vector register stand. -/
structure PositionsSet (s t : State) (m : Nat) (ks : Nat → Prop) : Prop where
  bits    : ∀ mir e, Copy s mir → e < s.h.vlmax → (t.maskBit mir m e = true ↔ ks (e / s.recordElems))
  others  : ∀ j, j < 8 → j ≠ m → t.h.vec.mask j = s.h.vec.mask j
  vectors : t.h.vec.v = s.h.vec.v ∧ t.h.vec.mf = s.h.vec.mf

/-- An access of an engine to `n` bytes at `va` is open, at the place `p` (R76, R121, R283, R400): its page is there and grants it, using the
entry changes nothing, no word that is read is poisoned or has a wrong bit, and no pin holds a write. -/
structure EngineOpen (s : State) (c : Command) (acc : Acc) (va : Word) (n : Nat) (p : Place) : Prop where
  place  : s.translate c.space acc va = .ok p
  normal : p.mt ≠ 1
  marked : Marked s c.space va p (acc != .load)
  clean  : acc = .load → s.poisoned p.pa n = false
  sound  : acc = .load → ∀ w ∈ s.ca.weak, meets (8 * w) 8 p.pa n = false
  unheld : acc ≠ .load → s.heldAtHome p.pa n = false

/-- The bytes at a place as the responsible slice of the engine's isle gives them (R76). -/
def State.engineBytes (s : State) (c : Command) (p : Place) (n : Nat) : List Byte :=
  (s.settleRead c.own.part c.hid.isle false (some c.own) p.pa n).sliceBytes c.own.part c.hid.isle false p.pa n

/-- The command at a position that is neither held nor at its end, with its current step (R289). -/
def State.currentStep (s : State) (own : CtxRef) (k : BitVec 8) : Option (Command × Step) :=
  match s.command own k.toNat with
  | none => none
  | some c => if c.held.isSome || c.ending.isSome then none else c.remaining.head?.map fun x => (c, x)

/-! ### VPRIV (R352) -/

/-- A VPRIV instruction in supervisor mode. -/
structure PrivBegins (s : State) (op : WOp) (f : WFields) : Prop where
  formed : f.defect op = none
  sup    : s.h.su.sup = true

/-- Nothing has changed but the registers of the hart, memory, caches and the units' state. -/
def PrivFrame (s t : State) : Prop :=
  t = { s with
    h := { s.h with sc := t.h.sc, vec := t.h.vec, mx := t.h.mx, su := t.h.su, ct := t.h.ct, ev := t.h.ev }
    mem := t.mem, ca := t.ca, un := t.un }

/-- The instruction completes, and the g registers, the special scalar registers, the supervisor registers and the events stand. -/
def PrivQuiet (s t : State) : Prop :=
  Advanced s t 8 ∧ RegistersStand s t ∧ SpecialsStand s.h.sc t.h.sc ∧ t.h.su = s.h.su ∧ t.h.ev = s.h.ev

/-- The image of number k stands in memory at some lines, and no other image of its kind begins as it does (R355). -/
structure ImageStands (s : State) (at_ : Nat → Place) (k : Nat) (x : Image) : Prop where
  image : s.un.images[k]? = some x
  bytes : ∀ i, i < x.size → (s.lineBytes at_ (x.size / 64))[i]? = some (Config.imageByte k i)
  alone : ∀ j y, j ≠ k → s.un.images[j]? = some y → y.kind = x.kind → ∃ i, i < 64 ∧ Config.imageByte j i ≠ Config.imageByte k i

/-- What `vrest.ctl` leaves of control state (R355, R391): the image's, with the completions posted since merged. -/
structure ControlRestored (s t : State) (ct : Control) (ev : Events) (sc : Scalar) : Prop where
  loops    : t.h.sc.corr = sc.corr ∧ t.h.sc.larg = sc.larg
  pc       : Advanced { s with h := { s.h with sc := { s.h.sc with frames := sc.frames, lc := sc.lc, lx := sc.lx } } } t 8
  engine   : ∀ k, k ∈ t.h.ev.engine ↔ k ∈ ev.engine ∨ ∃ p ∈ s.h.ct.posted, p.pos = k ∧ p.ev = true ∧ ev.mask.getLsbD 0 = true
  handler  : t.h.ev.mask = s.h.ev.mask ∧ t.h.ev.vec = s.h.ev.vec ∧ t.h.ev.epc = s.h.ev.epc
  events   : t.h.ev.shadow = ev.shadow ∧ t.h.ev.info = ev.info ∧ t.h.ev.ldn = ev.ldn ∧ t.h.ev.code = ev.code
    ∧ t.h.ev.inHandler = ev.inHandler ∧ t.h.ev.apop = ev.apop ∧ t.h.ev.checksum = ev.checksum ∧ t.h.ev.reach = ev.reach
  control  : t.h.ct.isles = ct.isles ∧ t.h.ct.isleIx = ct.isleIx ∧ t.h.ct.harts = ct.harts ∧ t.h.ct.hartIx = ct.hartIx
    ∧ t.h.ct.kinds = ct.kinds ∧ t.h.ct.member = ct.member ∧ t.h.ct.wm = ct.wm ∧ t.h.ct.armed = ct.armed
  pending  : ∀ k, k ∈ t.h.ct.pending ↔ k ∈ ct.pending ∧ ∀ p ∈ s.h.ct.posted, p.pos ≠ k
  unbound  : (∀ p ∈ s.h.ct.posted, p.bind = none) → t.h.ct.stack = ct.stack ∧ t.h.ct.popped = ct.popped
  posted   : t.h.ct.posted = []

/-! ### Convoys (R141, R195) -/

/-- The slots of a convoy run one after another from `s` to `t`, each over all `n` elements on g registers as they stood before the
convoy, and each completes, with nothing in mf when it begins (R231). `done` are the slots before. The g registers that a slot writes are set when it completes; it reads
SRSTEP.STEP as the conversions before it leave it, and its own adds 1 (R62). -/
def SlotsRun (g0 : Vector Word 32) (step : BitVec 16) (n : Nat) : List Slot → List Slot → State → State → Prop
  | _, [], s, t => t = s
  | done, x :: xs, s, t => s.vl = n ∧ s.h.vec.mf = 0 ∧
      ∃ u, (semOf x.op).run x.f { slot := done.length, lo := 0, hi := n, fed := n }
          (s.onSc fun sc => { sc with g := g0, srstep := step + BitVec.ofNat 16 (done.countP fun y => y.steps s) }) = (u, .done) ∧
        let v := u.onSc fun sc => { sc with
          g := s.h.sc.g, ldn := s.h.sc.ldn, srstep := if x.steps u then s.h.sc.srstep + 1 else s.h.sc.srstep }
        SlotsRun g0 step n (done ++ [x]) xs (x.dests.foldl (fun w d => w.setG d (u.g d)) v) t

end Sys2Proof.Machine
end

