-- ==== Sys2Proof/Safety/System.lean ====
section
/-! DEFINITION. The terms of claims about traps, status registers, the registrar, reset, and the steps that no word encodes. -/

namespace Sys2Proof.Machine

/-! ### The trace stream (R416) -/

/-- A trace stream is off, or its pointers lie in its ring at the borders of records. -/
def Trace.Sound (t : Trace) : Prop :=
  t.size = 0 ∨ (t.base.toNat % 32 = 0 ∧ t.size.toNat % 32 = 0 ∧ t.twr.toNat % 32 = 0 ∧ t.twr.toNat < t.size.toNat)

/-- An address lies in a trace ring. -/
def Trace.Ring (t : Trace) (x : Nat) : Prop := ∃ i, i < t.size.toNat ∧ x = (t.base.toNat + i) % 2 ^ 52

/-- Nothing has changed but the current hart and the trace streams, and memory reads as before outside the ring of the hart's isle. -/
structure OnlyTraced (s t : State) : Prop where
  frame : t = { s with h := t.h, mem := t.mem, dev := { s.dev with trace := t.dev.trace } }
  ring  : ∀ r, s.dev.trace[s.h.hid.isle]? = some r → r.Sound → ∀ x, ¬ r.Ring x → t.mem.get x = s.mem.get x

/-! ### Calls and status registers -/

/-- A `trap` and its code, the four services of the table among them (R176, R389, R436). -/
def callOf : Instr → Option (BitVec 12)
  | .trap c => some c
  | .firmwareVersion => some 0x000
  | .firmwareTelemetry => some 0x001
  | .yield => some 0x010
  | .cancelLaunch => some 0x011
  | _ => none

/-- The register that a status register instruction names (R180). -/
def statusOf : Instr → Option Nat
  | .rdsr _ n => some n.toNat
  | .wrsr n _ => some n.toNat
  | .xchsr _ n _ => some n.toNat
  | _ => none

/-- The status registers of the vector state (R351). -/
def vectorRegs : List Nat := [0x000, 0x001, 0x002, 0x003, 0x004, 0x013, 0x014]
/-- The status registers of the matrix state (R351). -/
def matrixRegs : List Nat := [0x008, 0x009, 0x00A, 0x00B, 0x00C, 0x00D, 0x016]

/-- A status register that the current hart may reach: no firmware register, a supervisor register in supervisor mode alone (R335), and
none of a state that is absent in user mode (R351). -/
def StatusOpen (s : State) (n : Nat) : Prop :=
  n < 0x200 ∧ (s.h.su.sup = true ∨ (n < 0x100 ∧ (s.h.su.va = true → n ∉ vectorRegs) ∧ (s.h.su.mxa = true → n ∉ matrixRegs)))

/-- An instruction that names a vector-state register waits: an earlier vector instruction of the hart has yet to complete (R68, R181). -/
def StatusWaits (s : State) (n : Nat) : Prop := statusOrdered n = true ∧ s.vectorBusy = true

/-- The bits of a status register that keep what is written, where the register is no more than such bits (R39 to R41, R66, R181, R184,
R250, R338 to R342, R349, R358, R413). -/
def keptBits (n : Nat) : Option Word :=
  if n ∈ [0x004, 0x00A, 0x00C, 0x103, 0x106] then some (BitVec.allOnes 64)
  else if (0x020 ≤ n ∧ n ≤ 0x025) ∨ (0x028 ≤ n ∧ n ≤ 0x02D) then some (BitVec.allOnes 64)
  else if 0x040 ≤ n ∧ n ≤ 0x04F then some (if n % 2 = 0 then BitVec.allOnes 64 else 0xF70F000000000007)
  else if n ∈ [0x00F, 0x011, 0x102] then some (~~~1)
  else if n ∈ [0x00B, 0x00D] then some 0x3F
  else if n ∈ [0x005, 0x015] then some 0xFFFF
  else if n = 0x002 then some 0x7FFF
  else if n = 0x006 ∨ n = 0x10F then some 0x1F
  else if n = 0x007 then some 7
  else if n = 0x009 then some 0xFFFFFF
  else if n = 0x00E then some 0xFFFFFFFF
  else if n = 0x101 then some 0x1FFFF
  else if n = 0x104 then some 0x8000FFFF00070307
  else if n = 0x105 then some (~~~0x3F)
  else if n = 0x107 then some (~~~0xFFFF)
  else none

/-- The status registers that a write leaves alone (R139, R337). -/
def readOnlyRegs : List Nat := [0x003, 0x008, 0x010, 0x016, 0x018, 0x019, 0x030, 0x108, 0x10B, 0x10D]

/-- The other registers whose value a write of a register may change: VL and VLMAX follow VTYPE, VTYPE shows SHRUNK, CPV1 shows no more
slots than CPV0 counts, and a user's write sets VDIRTY (R25, R43, R188, R350). -/
def coupledRegs (n : Nat) : List Nat :=
  if n = 0x001 then [0x000, 0x003, 0x109] else if n = 0x013 then [0x014, 0x109] else if n = 0x100 then [0x001] else [0x109]

/-- Nothing but status registers of the current hart has changed: the g registers, the pc, the frames, the lanes, the descriptors, the
tiles and accumulators, memory and everything else stand. -/
def OnlyStatus (s t : State) : Prop :=
  t = { s with h := { s.h with
    sc := { s.h.sc with
      fflags := t.h.sc.fflags, frm := t.h.sc.frm, srseed := t.h.sc.srseed, srstep := t.h.sc.srstep, corr := t.h.sc.corr,
      lc := t.h.sc.lc, lx := t.h.sc.lx, wpa := t.h.sc.wpa, wpc := t.h.sc.wpc, ldn := t.h.sc.ldn }
    ev := { s.h.ev with vec := t.h.ev.vec, epc := t.h.ev.epc, mask := t.h.ev.mask }
    vec := { s.h.vec with
      vl := t.h.vec.vl, vstart := t.h.vec.vstart, vtype := t.h.vec.vtype, efr := t.h.vec.efr, cpv0 := t.h.vec.cpv0, cpv1 := t.h.vec.cpv1 }
    mx := { s.h.mx with mtol := t.h.mx.mtol, scb := t.h.mx.scb, scs := t.h.mx.scs }
    su := t.h.su } }

/-- VLMAX by its formula (R184): (VLEN / SEW) x L, halved under protected mode, and 0 with VILL, VLEN being 4,096 x G. -/
def vlmaxOf (v : Vec) (groups : Nat) : Nat :=
  let sew := v.vtype.toNat % 8
  if 4 ≤ sew then 0
  else 4096 * groups / (8 * 2 ^ sew) / (if v.vtype.toNat / 2 ^ 7 % 2 = 1 then 2 else 1) * 2 ^ (v.vtype.toNat / 2 ^ 3 % 4)

/-! ### The registrar -/

/-- The state in which a placed hart begins (R33, R385): zero but for what its launch gives it. STVEC, FBATCH and the debug block stay with
the hart. -/
structure StartsFresh (old h : Hart) (l : Launch) (ctx : BitVec 16) (groups : List Nat) : Prop where
  scalar : h.sc = { Scalar.zero with
    pc := quadOf l.record 0, larg := quadOf l.record 2, corr := BitVec.ofNat 32 (fieldOf (quadOf l.record 3) 32 32) }
  events : h.ev = Events.zero
  vector : h.vec = Vec.zero
  matrix : h.mx = Matrix.zero
  super  : h.su = { Supervisor.zero with
    stvec := old.su.stvec, fbase := old.su.fbase, fmore := old.su.fmore, fcount := old.su.fcount
    ptroot := l.root, lid := l.lid, ctx := ctx, part := l.part, lgMap := h.su.lgMap }
  lanes  : groups.Nodup → (∀ i ∈ groups, i < 4) → ∀ i, i < 4 → (h.su.lgMap.getLsbD i = true ↔ i ∈ groups)
  quiet  : h.live = true ∧ h.pend = [] ∧ h.mark = none ∧ h.buf = [] ∧ h.loads = [] ∧ h.queue = [] ∧ h.fence = none ∧ h.hid = old.hid
  cells  : ∀ k : Fin 16, h.ct.wm[k] = ((l.cells.find? fun c => c.1 == k.val).map fun c => c.2.1).getD 0

/-- The open launch of an identifier. -/
def State.openLaunch (s : State) (part : BitVec 3) (lid : BitVec 32) : Option Launch :=
  s.rg.launches.find? fun l => l.part == part && l.lid == lid && !l.fin

/-- What the cancellation of an open launch leaves (R392): the launch is marked, none of its contexts waits in a queue, nothing of theirs
is parked or pinned, cause 33 is pending at each of its harts, and none of its harts has a member of a sweep open. -/
structure Cancelled (s t : State) (part : BitVec 3) (lid : BitVec 32) : Prop where
  marked    : ∀ l ∈ t.rg.launches, l.part = part → l.lid = lid → l.fin = false → l.cancelled = true
  suspended : ∀ c ∈ t.rg.suspended, ¬ (c.own.part = part ∧ c.lid = lid)
  cause     : ∀ h ∈ t.harts, h.su.part = part → h.su.lid = lid → (∃ c ∈ h.pend, c.code = 33) ∧ h.ct.member = none
  parked    : ∀ o ∈ s.contextsOf part lid, (∀ p ∈ t.ca.parked, p.own ≠ o) ∧ ∀ p ∈ t.ca.pins, p.own ≠ o

/-- A hart has been freed (R34, R389): it holds no context, and what stays with the hart stays. -/
def Freed (h h' : Hart) : Prop :=
  h'.live = false ∧ h'.hid = h.hid ∧ h'.su.stvec = h.su.stvec ∧ h'.su.fbase = h.su.fbase ∧ h'.su.lgMap = 0 ∧ h'.buf = [] ∧ h'.loads = [] ∧ h'.queue = []
    ∧ h'.pend = [] ∧ h'.mark = none ∧ h'.dbg.hen = h.dbg.hen

/-! ### Fetching (R129, R130) -/

/-- A parcel at an address is fetched without a fault, and fetching it changes nothing: its translation is granted, its leaf is marked,
it is not of device type, its home has nothing on its way to the hart's isle (R427), and no word of it is poisoned or has a wrong bit. -/
structure Fetchable (s : State) (va : Word) (p : Place) : Prop where
  canon  : canonical va = true
  place  : s.translate s.h.space .fetch va = .ok p
  normal : p.mt ≠ 1
  clean  : s.poisoned p.pa 2 = false
  sound  : ∀ w ∈ s.ca.weak, meets (8 * w) 8 p.pa 2 = false
  marked : Marked s s.h.space va p false
  near   : Near s p.pa

/-- The encoding whose parcels are fetched from `va` on, at some places: the first lowest. -/
def State.parcels (s : State) (va : Word) (at_ : Nat → Place) : Nat → Nat
  | 0 => 0
  | n + 1 => s.parcels va at_ n + 2 ^ (16 * n)
      * leNat [s.codeByte (va + BitVec.ofNat 64 (2 * n)) (at_ n).pa, s.codeByte (va + BitVec.ofNat 64 (2 * n) + 1) ((at_ n).pa + 1)]

/-- The state in which a hart's turn begins: one more step is counted, and the instruction is not waiting. -/
def State.turnOf (s : State) : State :=
  { s with tick := s.tick + 1, h := { s.h with dbg := { s.h.dbg with stalled := false } } }

/-- The current hart comes to the instruction at its pc: it holds a context, is not halted, nothing that it has queued or issued is to perform (R107, R306), no halt is due, no
trap, report or event comes first, and no register word of it has a wrong bit (R399). -/
structure Comes (s : State) : Prop where
  power  : s.dev.power = true
  live   : s.h.live = true
  going  : s.h.dbg.halted = false
  empty  : s.h.queue = [] ∧ s.h.loads = []
  undue  : s.h.dbg.hreq = none
  first  : s.turnOf.beforeInstr = none
  calm   : s.turnOf.eventDue = false
  sound  : s.h.weak = [] ∧ s.h.bad = []

/-! ### Events (R41) -/

/-- The raised sources of a cause. -/
def Events.raised (e : Events) (code : Nat) : List Nat :=
  match code with
  | 1 => e.engine
  | 2 => e.apop
  | 3 => e.checksum
  | 4 => e.reach
  | _ => []

/-- The enable bit of a cause in ULEMASK (R39). -/
def Events.enabled (e : Events) (code : Nat) : Bool :=
  match code with
  | 1 => e.mask.getLsbD 0
  | 2 => e.mask.getLsbD 1
  | 3 => e.mask.getLsbD 2
  | 4 => e.mask.getLsbD 3
  | _ => false

/-- A source is the one that is delivered next: its cause is enabled, it is the lowest of its cause, and no enabled cause before it in
the order checksum fault, watermark reach, engine completion, apop arrival has a raised source (R41). -/
structure Events.First (e : Events) (code n : Nat) : Prop where
  enabled : e.enabled code = true
  raised  : n ∈ e.raised code
  lowest  : ∀ m ∈ e.raised code, n ≤ m
  order   : ∀ c ∈ ([3, 4, 1, 2].takeWhile fun c => c != code), e.enabled c = true → e.raised c = []

/-- A completion of an engine command has been recorded (R278, R281, R282): the command and its windows are gone. -/
def Retired (t : State) (own : CtxRef) (k : Nat) : Prop :=
  (∀ c ∈ t.un.cmds, ¬ (c.own = own ∧ c.pos = k)) ∧ ∀ w ∈ t.un.windows, ¬ (w.own = own ∧ w.pos = k)

/-- The package as reset leaves it (R4, R431), but for what does not lie in the package: host and pool memory with their poison, the
fused rollback floor, and the model's own counters. After a device reset the reference counter starts again (R140). -/
def AsReset (s t : State) (power : Bool) : Prop :=
  t = { State.reset with
    mem := s.mem
    ca := { Caches.zero with poison := s.ca.poison }
    dev := { Device.zero with
      power := power, boot := { Device.zero.boot with floor := s.dev.boot.floor }, since := if power then s.tick else 0 }
    agenda := s.agenda, tick := s.tick, free := s.free }

end Sys2Proof.Machine
end

