-- ==== Sys2Proof/Certificates/Slice0/Obligations.lean ====
section
/-! DEFINITION. The statements about the model. Each docstring names the rules of the spec that a statement formalises; the terms are
those of Safety.lean. -/

open Sys2Proof
open Sys2Proof.Machine

/-! ### Scalar arithmetic -/

/-- The compact register forms write the value of R134, the register forms that of R154, at 64 or at 32 bits, and the immediate forms that of
R156 to R158, and complete; nothing else changes. -/
def Obligations.IntegerFormsWriteTheirValue : Prop :=
  ∀ (i : Instr) (s : State) (d : Reg) (v : Word),
    (compactValue s i = some (d, v) → ∃ t, exec i s = .next t ∧ WroteReg s t d v 2)
    ∧ (oprValue s i = some (d, v) → ∃ t, exec i s = .next t ∧ WroteReg s t d v 4)
    ∧ (opiValue s i = some (d, v) → ∃ t, exec i s = .next t ∧ WroteReg s t d v 4)

/-- R155: division never traps, and its special cases give the values of the table: by zero, and the most negative number by -1. The w forms
have them at 32 bits, before sign extension. The two encodings that R155 gives decode to its instructions. -/
def Obligations.DivisionHasItsSpecialCases : Prop :=
  ∀ (d a b : Reg) (w : Bool) (s : State),
    let zero : Prop := if w then low32 (s.g b) = 0 else s.g b = 0
    let extreme : Prop := if w then low32 (s.g a) = BitVec.intMin 32 ∧ low32 (s.g b) = -1 else s.g a = BitVec.intMin 64 ∧ s.g b = -1
    let self : Word := if w then (low32 (s.g a)).signExtend 64 else s.g a
    decodeWord 0x00201181 = .ok (.plain (.add 3 1 2 false)) ∧ decodeWord 0x22C0B681 = .ok (.plain (.div 13 11 12 false)) ∧
    (∀ i, i = Instr.div d a b w ∨ i = Instr.divu d a b w ∨ i = Instr.rem d a b w ∨ i = Instr.remu d a b w →
      ∃ t v, exec i s = .next t ∧ WroteReg s t d v 4)
    ∧ (zero → ∃ t, exec (.div d a b w) s = .next t ∧ WroteReg s t d (-1) 4)
    ∧ (zero → ∃ t, exec (.divu d a b w) s = .next t ∧ WroteReg s t d (-1) 4)
    ∧ (zero → ∃ t, exec (.rem d a b w) s = .next t ∧ WroteReg s t d self 4)
    ∧ (zero → ∃ t, exec (.remu d a b w) s = .next t ∧ WroteReg s t d self 4)
    ∧ (extreme → ∃ t, exec (.div d a b w) s = .next t ∧ WroteReg s t d self 4)
    ∧ (extreme → ∃ t, exec (.rem d a b w) s = .next t ∧ WroteReg s t d 0 4)

/-! ### Scalar memory -/

/-- A load that R159 grants, of bytes to which the hart has no write that a pin holds or will hold, and no load still to perform (R107), gives
the register the bytes as the hart sees them, extended as R161 says, and completes. Memory reads as before outside the leaf entry, whose A bit is set. `u` is the state that
the bytes are read in: the leaf is marked, and where the bytes must come from a home on another isle, or the hart's own write to them is on
its way, what that home has sent has been applied (R94, R99, R107). When the leaf's A bit is set, and which invalidations such a read
applies, are the model's readings (log entries 13 and 15). -/
def Obligations.LoadsGiveTheBytes : Prop :=
  ∀ (i : Instr) (s : State) (d : Reg) (va : Word) (n : Nat) (signed : Bool) (len : Nat) (p : Place),
    loadOf s i = some (d, va, n, signed, len) → Granted s .load va n p → p.mt ≠ 1 → s.ownHeld p.pa n = false → s.bufHeld p.pa n = false →
    (∀ l ∈ s.h.loads, meets l.pa l.n p.pa n = false) →
    let u := (s.markLeaf s.h.space va p false).settleScalar s.h p.pa n
    ∃ t, exec i s = .next t ∧ WroteReg u t d (loaded signed (u.scalarBytes u.h p.pa n)) len
      ∧ u.h = s.h ∧ MemoryOutside s t p.entry 8

/-- A store that R159 grants enters the store buffer last, with the address space that it was made in (R267, R358), and completes. The hart
then sees its bytes there (R76, R107); memory reads as before outside the leaf entry, whose A and D bits are set. The buffer's lack of a bound is the model's choice (log entry 19). -/
def Obligations.StoresEnterTheBuffer : Prop :=
  ∀ (i : Instr) (s : State) (va : Word) (bs : List Byte) (len : Nat) (p : Place),
    storeOf s i = some (va, bs, len) → Granted s .store va bs.length p → p.mt ≠ 1 →
    ∃ t, exec i s = .next t
      ∧ t.h.buf = s.h.buf ++ [{ pa := p.pa, bytes := bs, sq := p.sq, va := va, pc := s.h.sc.pc, root := s.h.su.ptroot
                                sup := s.h.su.sup, org := s.org 0 }]
      ∧ t.scalarBytes t.h p.pa bs.length = bs
      ∧ RegistersStand s t ∧ Advanced s t len ∧ SpecialsStand s.h.sc t.h.sc
      ∧ MemoryOutside s t p.entry 8
      ∧ t = { s.markLeaf s.h.space va p true with h := { s.h with sc := t.h.sc, buf := t.h.buf } }

/-- The oldest buffered store of a hart, the current one or another, drained to a home that holds no write back, puts its bytes into memory and
leaves the buffer (R76), in the address space that it was made in. Every other byte reads as before, and nothing else changes but the copies that
the home removes. -/
def Obligations.DrainPutsTheBytes : Prop :=
  ∀ (s : State) (h : Hart) (b : BufStore) (rest : List BufStore),
    (s.h :: s.others).find? (fun x => x.hid == h.hid) = some h → h.buf = b :: rest →
    s.heldAtHome b.pa b.bytes.length = false → NoWatch s → s.mem.wf →
    s.measuredBy ⟨h.su.part, b.root, b.sup, []⟩ (.hart h.hid h.own b.pc b.sup) b.va b.bytes.length = [] →
    ∃ t, exec (.storeBufferDrain h.hid) s = .next t
      ∧ t = { s.onHart h.hid (fun x => { x with buf := rest }) with mem := t.mem, ca := t.ca }
      ∧ t.mem.bytes b.pa b.bytes.length = b.bytes ∧ MemoryOutside s t b.pa b.bytes.length

/-- A store with release that R159 grants, once every earlier access of the hart is performed at device scope, puts its bytes into memory and
completes (R101, R161). `r` is the state after the release. What a release waits for and applies is as the model reads R101 (log entry 17).
-/
def Obligations.ReleaseStoresPutTheBytes : Prop :=
  ∀ (i : Instr) (s : State) (va : Word) (bs : List Byte) (p : Place),
    releaseOf s i = some (va, bs) → Granted s .store va bs.length p → p.mt ≠ 1 →
    let r := (s.markLeaf s.h.space va p true).release
    r.2 = true → r.1.heldAtHome p.pa bs.length = false → NoWatch r.1 → Unmeasured r.1 va bs.length →
    ∃ t, exec i s = .next t ∧ t.mem.bytes p.pa bs.length = bs ∧ MemoryOutside r.1 t p.pa bs.length ∧ t.h.buf = []
      ∧ RegistersStand s t ∧ Advanced s t 4 ∧ SpecialsStand s.h.sc t.h.sc ∧ t.h.vec = s.h.vec ∧ t.h.su = s.h.su

/-- A load or store of device type is one access of the register image, once R159 grants it (R76, R421); a store with release comes after every
earlier access of the hart is performed at device scope (R101, R161). What that release waits for and applies is as the model reads R101 (log
entry 17). -/
def Obligations.DeviceAccessesReachTheImage : Prop :=
  (∀ (i : Instr) (s : State) (d : Reg) (va : Word) (n : Nat) (signed : Bool) (len : Nat) (p : Place),
    loadOf s i = some (d, va, n, signed, len) → Granted s .load va n p → p.mt = 1 → s.ownHeld p.pa n = false → s.bufHeld p.pa n = false →
    (∀ l ∈ s.h.loads, meets l.pa l.n p.pa n = false) →
    let u := s.markLeaf s.h.space va p false
    ∃ t, exec i s = .next t ∧ WroteReg u t d (loaded signed (u.imageRead p.pa n)) len)
  ∧ (∀ (i : Instr) (s : State) (va : Word) (bs : List Byte) (len : Nat) (p : Place),
    storeOf s i = some (va, bs, len) → Granted s .store va bs.length p → p.mt = 1 →
    ∃ t, exec i s = .next t ∧ t = ((s.markLeaf s.h.space va p true).imageWrite p.pa bs).advance len)
  ∧ (∀ (i : Instr) (s : State) (va : Word) (bs : List Byte) (p : Place),
    releaseOf s i = some (va, bs) → Granted s .store va bs.length p → p.mt = 1 →
    let r := (s.markLeaf s.h.space va p true).release
    r.2 = true → ∃ t, exec i s = .next t ∧ t = (r.1.imageWrite p.pa bs).advance 4)

/-- An atomic that R159 grants, whose release is done and whose bytes no pin holds, reads and writes its bytes at the home: the register takes
the old value, memory the new one, and every other byte reads as before (R162 to R164). `u` is the state at the home: earlier stores of the
hart to the bytes are there, and what the home has sent to the hart's isle has been applied (R107). What its release waits for and applies
is as the model reads R101 (log entry 17). -/
def Obligations.AtomicsReadAndWrite : Prop :=
  ∀ (i : Instr) (s : State) (m : AmoForm) (p : Place),
    amoOf i = some m → Granted s .atomic (s.g m.a) m.bytes p → p.mt ≠ 1 →
    let k := s.markLeaf s.h.space (s.g m.a) p true
    let r := if m.rel then k.release else (k, true)
    let u := (r.1.drainTo p.pa m.bytes).settleHome s.h.su.part s.h.hid.isle p.pa
    let w := 8 * m.bytes
    let old := u.mem.num p.pa m.bytes
    let v := (s.g m.b).toNat % 2 ^ w
    r.2 = true → u.heldAtHome p.pa m.bytes = false → NoWatch u → (∀ x ∈ u.ca.weak, meets (8 * x) 8 p.pa m.bytes = false) →
    Unmeasured u (s.g m.a) m.bytes →
    ∃ t, exec i s = .next t
      ∧ t.g m.d = (if m.d = 0 then 0 else if m.dw ∨ m.op = .fadd then BitVec.ofNat 64 old else (BitVec.ofNat 32 old).signExtend 64)
      ∧ (∀ x, x ≠ m.d → t.g x = s.g x) ∧ t.h.sc.ldn = m.d
      ∧ t.mem.num p.pa m.bytes = amoResult m.op w old v ((s.g m.d).toNat % 2 ^ w) ∧ MemoryOutside u t p.pa m.bytes
      ∧ t.h.sc.fflags = s.h.sc.fflags ||| BitVec.ofNat 5 (amoFlags m.op w old v) ∧ Advanced s t 4
      ∧ t.h.vec = s.h.vec ∧ t.h.su = s.h.su

/-- The checks of R159 in their order: a non-canonical address (code 5), a misaligned one (code 6), and a refused translation trap precisely at
the instruction, and nothing else has changed. -/
def Obligations.AccessesTrapInOrder : Prop :=
  ∀ (i : Instr) (s : State) (acc : Acc) (va : Word) (n : Nat), accessOf s i = some (acc, va, n) →
    (canonical va = false → exec i s = Trapped s { code := 5, val := va })
    ∧ (canonical va = true → va.toNat % n ≠ 0 → exec i s = Trapped s { code := 6, val := va })
    ∧ (∀ f, canonical va = true → va.toNat % n = 0 → s.translate s.h.space acc va = .error f →
        exec i s = Trapped s
          { code := f.code, sub := f.sub
            val := if f.code ≠ 21 then va else if f.level = 0 then va &&& ~~~7 else BitVec.ofNat 64 f.entry
            batch := if f.code = 9 then [⟨va, f.level, 1, acc != .load, 0, 1⟩] else [] })

/-- A fence completes once what it waits for is performed: the scalar stores have left the buffer, nothing is queued, parked or held by a pin,
and no access that was translated through a table entry the hart has written is outstanding (R103 to R106, R365). No register changes, and
memory is what the drain leaves. A `fence.sc` at device or system scope has done that, and then waits for one full round of the token
(R106): it does not complete as it issues, and completes once the round has passed. That a fence does its waiting in its own step, that the
round is counted at the first isle of the partition, and that `fence.i` leaves no line in the core's instruction store, are the model's readings
(log entries 8, 11, 17 and 18). -/
def Obligations.FencesComplete : Prop :=
  (∀ (i : Instr) (s : State),
    (i = .orderSv ∨ i = .orderVs ∨ i = .fenceI ∨ (∃ k, i = .fence k) ∨ ∃ k : BitVec 3, i = .fenceSc k ∧ k.toNat ≤ 3) →
    s.drain.scalarPending = false → s.drain.vectorPending = false → s.scalarPending = false → s.vectorPending = false →
    s.drain.remapPending s.h.own false = false →
    ∃ t, exec i s = .next t ∧ RegistersStand s t ∧ Advanced s t 4 ∧ SpecialsStand s.h.sc t.h.sc
      ∧ (i ≠ .orderVs → t.h.buf = [] ∧ t.mem = s.drain.mem) ∧ (i = .orderVs → t.h.buf = s.h.buf ∧ t.mem = s.mem)
      ∧ (i = .fenceI → t.h.loop = none ∧ ∀ l ∈ t.ca.code, l.core ≠ s.h.hid.core)
      ∧ t.h.vec = s.h.vec ∧ t.h.su = s.h.su ∧ t.h.mx = s.h.mx)
  ∧ (∀ (k : BitVec 3) (s : State), 4 ≤ k.toNat → s.h.fence = some 0 →
    ∃ t, exec (.fenceSc k) s = .next t ∧ t.h.fence = none ∧ RegistersStand s t ∧ Advanced s t 4 ∧ SpecialsStand s.h.sc t.h.sc
      ∧ t.h.buf = s.h.buf ∧ t.mem = s.mem ∧ t.h.vec = s.h.vec ∧ t.h.su = s.h.su ∧ t.h.mx = s.h.mx)
  ∧ (∀ (k : BitVec 3) (s : State), 4 ≤ k.toNat → s.h.fence = none →
    s.drain.scalarPending = false → s.drain.vectorPending = false → s.drain.remapPending s.h.own false = false →
    ∃ t, exec (.fenceSc k) s = .next t ∧ t.h.fence = some 2 ∧ t.h.buf = [] ∧ t.mem = s.drain.mem ∧ t.h.sc = s.h.sc
      ∧ t.h.dbg.stalled = true)

/-! ### Scalar floating point -/

/-- A floating instruction whose rounding is one of the four static modes delivers its result and its flags (R59, R67, R170 to R175); any other
rounding is an illegal instruction, with nothing else changed. -/
def Obligations.FloatingFormsDeliver : Prop :=
  ∀ (i : Instr) (s : State) (m : FpForm), fpOf s i = some m →
    let mode : Nat := match m.rm with
      | some rm => roundingOf s rm
      | none => 0
    (mode ≤ 3 → ∃ t, exec i s = .next t ∧ WroteFloat s t m.d (m.res (.static mode)))
    ∧ (3 < mode → ∃ w, exec i s = Trapped s { code := 1, val := BitVec.ofNat 64 w } ∧ encodeNat i = some w)

/-- R171: `fmin` and `fmax` return the lesser or greater operand with -0 below +0, the other operand of one NaN, and the canonical NaN of two;
a signalling NaN sets NV, and no other flag is set. -/
def Obligations.MinMaxFollowTheOrder : Prop :=
  ∀ (d a b : Reg) (single max : Bool) (s : State),
    let F := scalarFmt single
    let x := F.value (s.g a).toNat
    let y := F.value (s.g b).toNat
    let first := (s.g a).toNat % 2 ^ F.width
    let second := (s.g b).toNat % 2 ^ F.width
    ∃ t r, exec (if max then .fmax d a b single else .fmin d a b single) s = .next t
      ∧ WroteFloat s t d (r, if x.isSig ∨ y.isSig then 16 else 0)
      ∧ (x.isNan → y.isNan → r = F.nan) ∧ (x.isNan → ¬ y.isNan → r = second) ∧ (¬ x.isNan → y.isNan → r = first)
      ∧ (¬ x.isNan → ¬ y.isNan →
          if max then (r = first ∧ ¬ x.before y) ∨ (r = second ∧ ¬ y.before x)
          else (r = first ∧ ¬ y.before x) ∨ (r = second ∧ ¬ x.before y))

/-- R172: `fcmp` writes 1 when its relation holds and 0 otherwise, 0 with a NaN operand; `eq` sets NV only for a signalling NaN, `lt` and `le`
for any NaN. -/
def Obligations.ComparesFollowTheRelation : Prop :=
  ∀ (d a b : Reg) (single : Bool) (s : State),
    let x := (scalarFmt single).value (s.g a).toNat
    let y := (scalarFmt single).value (s.g b).toNat
    let anySig : Prop := x.isSig ∨ y.isSig
    let anyNan : Prop := x.isNan ∨ y.isNan
    (∃ t r, exec (.fcmp d a b 0 single) s = .next t ∧ WroteFloat s t d (r, if anySig then 16 else 0) ∧ (r = 1 ↔ x.same y) ∧ r ≤ 1)
    ∧ (∃ t r, exec (.fcmp d a b 1 single) s = .next t ∧ WroteFloat s t d (r, if anyNan then 16 else 0) ∧ (r = 1 ↔ x.below y) ∧ r ≤ 1)
    ∧ (∃ t r, exec (.fcmp d a b 2 single) s = .next t ∧ WroteFloat s t d (r, if anyNan then 16 else 0)
        ∧ (r = 1 ↔ x.below y ∨ x.same y) ∧ r ≤ 1)

/-! ### Control -/

/-- A branch sets the pc to its target when its condition holds, and else completes; a non-canonical target traps at the branch, with the
target in SVAL (R134, R166, R167). No g register changes. -/
def Obligations.BranchesFollowTheirCondition : Prop :=
  ∀ (i : Instr) (s : State) (taken : Bool) (target : Word) (len : Nat), branchOf s i = some (taken, target, len) →
    (taken = true → canonical target = true → ∃ t, exec i s = .next t ∧ RegistersStand s t ∧ Jumped s t target)
    ∧ (taken = true → canonical target = false → exec i s = Trapped s { code := 5, val := target })
    ∧ (taken = false → ∃ t, exec i s = .next t ∧ OnlyMoved s t ∧ Advanced s t len)

/-- `jal` and `jalr` write pc + 4 and set the pc to the target; a target with bit 0 set (`jalr`) or a non-canonical one traps at the jump, with
no register written (R130, R167). -/
def Obligations.JumpsLinkAndTransfer : Prop :=
  ∀ (i : Instr) (s : State) (d : Reg) (target : Word), jumpOf s i = some (d, target) →
    let odd : Prop := (∃ d a imm, i = .jalr d a imm) ∧ target.getLsbD 0 = true
    (¬ odd → canonical target = true →
      ∃ t, exec i s = .next t ∧ Jumped s t target ∧ t.g d = (if d = 0 then 0 else s.h.sc.pc + 4)
        ∧ (∀ x, x ≠ d → t.g x = s.g x) ∧ t.h.sc.ldn = d)
    ∧ (¬ odd → canonical target = false → exec i s = Trapped s { code := 5, val := target })
    ∧ (odd → exec i s = Trapped s { code := 4, val := target })

/-- `loop` computes the sub-range that its kind gives the hart. A non-empty one opens a frame, with LX and LC set and the pc at the body; an
empty one skips the body, with no register written (R30, R438). An instruction that ends where the innermost frame ends counts the loop
down: it goes back to the start, or ends the frame and checks the next one (R31). -/
def Obligations.LoopOpensItsRange : Prop :=
  (∀ (k : BitVec 3) (a : Reg) (len : BitVec 12) (s : State), k.toNat < 6 → len ≠ 0 →
    let n := (s.g a).toNat
    let kind := (s.h.ct.kinds.find? fun x => x.1 == k).map Prod.snd
    let split (parts ix : Nat) : Nat × Nat :=
      let b := (n + (max 1 parts - 1)) / max 1 parts
      (min (ix * b) n, min ((ix + 1) * b) n)
    let r : Nat × Nat := match kind with
      | some .isles => split s.h.ct.isles s.h.ct.isleIx
      | some .cores => split s.h.ct.harts s.h.ct.hartIx
      | _ => (0, n)
    let start := s.h.sc.pc + 4
    let stop := start + (len.setWidth 64 <<< 1)
    let mine (f : Frame) : Bool := f.k != k
    ∃ t, exec (.loop k a len) s = .next t ∧ RegistersStand s t ∧ SpecialsStand s.h.sc t.h.sc ∧ OnlyScalar s t
      ∧ (r.1 ≠ r.2 → t.h.sc = { s.h.sc with
            lx := s.h.sc.lx.setIfInBounds k.toNat (BitVec.ofNat 64 r.1), lc := s.h.sc.lc.setIfInBounds k.toNat (BitVec.ofNat 64 (r.2 - r.1))
            frames := ⟨k, start, stop⟩ :: s.h.sc.frames.filter mine }.endAt start)
      ∧ (r.1 = r.2 → t.h.sc = { s.h.sc with
            lx := s.h.sc.lx.setIfInBounds k.toNat (BitVec.ofNat 64 r.1), lc := s.h.sc.lc.setIfInBounds k.toNat 0
            frames := s.h.sc.frames.filter mine }.endAt stop))
  ∧ (∀ (sc : Scalar) (next : Word),
    ((∀ f ∈ sc.frames, f.stop ≠ next) → sc.endAt next = { sc with pc := next })
    ∧ (∀ (f : Frame) (fs : List Frame), sc.frames = f :: fs → f.stop ≠ next →
        let u := ({ sc with frames := fs } : Scalar).endAt next
        sc.endAt next = { u with frames := f :: u.frames })
    ∧ (∀ (f : Frame) (fs : List Frame), sc.frames = f :: fs → f.stop = next → ∀ h : f.k.toNat < 6,
        let n := sc.lc[f.k.toNat] - 1
        let u : Scalar := { sc with lc := sc.lc.set f.k.toNat n h, lx := sc.lx.set f.k.toNat (sc.lx[f.k.toNat] + 1) h }
        (n ≠ 0 → sc.endAt next = { u with pc := f.start }) ∧ (n = 0 → sc.endAt next = ({ u with frames := fs } : Scalar).endAt next)))

/-! ### Lanes -/

/-- Each VINT operation that begins gives every active element below VL its result modulo 2^SEW, and completes (R189, R192, R193, R198). Under
protected mode this holds when the two computations agree (R396, R397). -/
def Obligations.VectorIntegerFormsWrite : Prop :=
  ∀ (op : WOp) (f : WFields) (s : State) (r : Bool → Nat → Int), Begins s op f →
    (∀ mir e, intResult s.sew (s.srcA f mir s.sew e) (s.elem mir f.vs2.toNat s.sew e) (s.elem mir f.vs3.toNat s.sew e) op = some (r mir e)) →
    let res (mir : Bool) (e : Nat) : Option Nat := s.ruled f mir e (modWidth s.sew (r mir e)) 0
    (s.h.vec.pm = true → ∀ e, e < s.vl → res false e = res true e) →
    ∃ t, exec (op.instr f) s = .next t ∧ WroteElems s t f.vd.toNat s.sew s.h.vec.grp s.vl (res false)
      ∧ MasksStand s t ∧ NoFlags s t ∧ OnlyLanes s t

/-- Each widening operation that begins gives every active element its result at 2 x SEW, and each narrowing one at SEW from b at 2 x SEW, and
they complete (R199). -/
def Obligations.VectorWidthFormsWrite : Prop :=
  (∀ (op : WOp) (f : WFields) (s : State) (r : Bool → Nat → Int), Begins s op f →
    (∀ mir e, widenResult s.sew (s.srcA f mir s.sew e) (s.elem mir f.vs2.toNat s.sew e) (s.elem mir f.vs3.toNat (2 * s.sew) e) op
      = some (r mir e)) →
    let res (mir : Bool) (e : Nat) : Option Nat := s.ruled f mir e (modWidth (2 * s.sew) (r mir e)) 0
    (s.h.vec.pm = true → ∀ e, e < s.vl → res false e = res true e) →
    ∃ t, exec (op.instr f) s = .next t ∧ WroteElems s t f.vd.toNat (2 * s.sew) (2 * s.h.vec.grp) s.vl (res false)
      ∧ MasksStand s t ∧ NoFlags s t ∧ OnlyLanes s t)
  ∧ (∀ (op : WOp) (f : WFields) (s : State) (r : Bool → Nat → Int), Begins s op f →
    (∀ mir e, narrowResult s.sew (s.srcA f mir s.sew e) (s.elem mir f.vs2.toNat (2 * s.sew) e) op = some (r mir e)) →
    let res (mir : Bool) (e : Nat) : Option Nat := s.ruled f mir e (modWidth s.sew (r mir e)) 0
    (s.h.vec.pm = true → ∀ e, e < s.vl → res false e = res true e) →
    ∃ t, exec (op.instr f) s = .next t ∧ WroteElems s t f.vd.toNat s.sew s.h.vec.grp s.vl (res false)
      ∧ MasksStand s t ∧ NoFlags s t ∧ OnlyLanes s t)

/-- Each operation of VFP and VFMA, `vfwma` and `vsf` that begins gives every active element its result, raises the flags of the active
elements, and completes (R67, R200, R201, R203). -/
def Obligations.VectorFloatingFormsWrite : Prop :=
  (∀ (op : WOp) (f : WFields) (s : State) (r : Bool → Nat → FRes), Begins s op f →
    (∀ mir e, floatResult (s.wfmt f) (s.wmode f) (s.satFor (s.wfmt f)) (s.srcA f mir s.sew e) (s.elem mir f.vs2.toNat s.sew e)
      (s.elem mir f.vs3.toNat s.sew e) op = some (r mir e)) →
    let res (mir : Bool) (e : Nat) : Option FRes := s.ruled f mir e (r mir e) (0, 0)
    (s.h.vec.pm = true → ∀ e, e < s.vl → (res false e).map Prod.fst = (res true e).map Prod.fst) →
    ∃ t, exec (op.instr f) s = .next t
      ∧ WroteElems s t f.vd.toNat s.sew s.h.vec.grp s.vl (fun e => (res false e).map Prod.fst)
      ∧ FlagsRaised s t ((List.range s.vl).map fun e => ((res false e).map Prod.snd).getD 0) ∧ MasksStand s t ∧ OnlyLanes s t)
  ∧ (∀ (f : WFields) (s : State), Begins s .vfwma f →
    let W : Fmt := if natField f.imm.toNat 4 4 = 1 then .f64 else .f32
    let w : Nat := if natField f.imm.toNat 4 4 = 1 then 64 else 32
    let F := s.wfmt f
    let res (mir : Bool) (e : Nat) : Option FRes := s.ruled f mir e
      (W.fmaV (s.wmode f) false (F.value (s.srcA f mir s.sew e)) (F.value (s.elem mir f.vs2.toNat s.sew e))
        (W.value (s.elem mir f.vs3.toNat w e))) (0, 0)
    (s.h.vec.pm = true → ∀ e, e < s.vl → (res false e).map Prod.fst = (res true e).map Prod.fst) →
    ∃ t, exec (.vfwma f) s = .next t
      ∧ WroteElems s t f.vd.toNat w (max 1 (s.h.vec.grp * w / s.sew)) s.vl (fun e => (res false e).map Prod.fst)
      ∧ FlagsRaised s t ((List.range s.vl).map fun e => ((res false e).map Prod.snd).getD 0) ∧ MasksStand s t ∧ OnlyLanes s t)
  ∧ (∀ (f : WFields) (s : State), Begins s .vsf f →
    let res (mir : Bool) (e : Nat) : Option FRes := s.ruled f mir e
      (special (natField f.imm.toNat 0 4) (s.wfmt f) (s.wmode f) (s.satFor (s.wfmt f))
        ((s.wfmt f).value (s.elem mir f.vs2.toNat s.sew e))) (0, 0)
    (s.h.vec.pm = true → ∀ e, e < s.vl → (res false e).map Prod.fst = (res true e).map Prod.fst) →
    ∃ t, exec (.vsf f) s = .next t
      ∧ WroteElems s t f.vd.toNat s.sew s.h.vec.grp s.vl (fun e => (res false e).map Prod.fst)
      ∧ FlagsRaised s t ((List.range s.vl).map fun e => ((res false e).map Prod.snd).getD 0) ∧ MasksStand s t ∧ OnlyLanes s t)

/-- A conversion that begins, with a static mode or stochastic rounding, gives every active element its converted code and completes (R202).
Stochastic rounding takes the random bits of element e from SRSEED and SRSTEP (R61), and advances SRSTEP by 1 when VL > 0 (R62).
Error-feedback conversion adds to each active element the residual that the one before left, the first taking EFR's, rounds the sum to the
narrow format, and leaves in EFR the last residual (R64, R66). That SRSTEP advances at completion is the model's reading (log entry 22). -/
def Obligations.ConversionsWrite : Prop :=
  (∀ (op : WOp) (f : WFields) (s : State) (r : Bool → Nat → FRes), Begins s op f → s.modeOf (rmCode f) ≠ 5 →
    let mode (e : Nat) : Mode := if s.modeOf (rmCode f) = 4 then .random (hash16 e s.h.sc.srseed.toNat s.h.sc.srstep.toNat)
      else .static (s.modeOf (rmCode f))
    (∀ mir e, convertResult s f (mode e) (s.elem mir f.vs2.toNat s.sew e) op = some (r mir e)) →
    let res (mir : Bool) (e : Nat) : Option FRes := s.ruled f mir e (r mir e) (0, 0)
    let w := codeWidth (cvtDst f)
    (s.h.vec.pm = true → ∀ e, e < s.vl → (res false e).map Prod.fst = (res true e).map Prod.fst) →
    ∃ t, exec (op.instr f) s = .next t
      ∧ WroteElems s t f.vd.toNat w (max 1 (s.h.vec.grp * w / s.sew)) s.vl (fun e => (res false e).map Prod.fst)
      ∧ FlagsRaised s t ((List.range s.vl).map fun e => ((res false e).map Prod.snd).getD 0) ∧ MasksStand s t
      ∧ RegistersStand s t ∧ t.h.vec.vl = s.h.vec.vl ∧ t.h.vec.efr = s.h.vec.efr
      ∧ t.h.sc.srstep = (if s.modeOf (rmCode f) = 4 ∧ 0 < s.vl then s.h.sc.srstep + 1 else s.h.sc.srstep)
      ∧ OutsideStands s t ∧ LanesFrame s t)
  ∧ (∀ (f : WFields) (s : State), Begins s .vfcvt f → s.modeOf (rmCode f) = 5 →
    (s.h.vec.pm = true → ∀ e, e < s.vl → s.elem false f.vs2.toNat s.sew e = s.elem true f.vs2.toNat s.sew e
      ∧ s.activeIn f false e = s.activeIn f true e) →
    let res (e : Nat) : Option FRes := s.ruled f false e (s.feedback f (s.residual f e) e).1 (0, 0)
    let w := codeWidth (cvtDst f)
    ∃ t, exec (.vfcvt f) s = .next t
      ∧ WroteElems s t f.vd.toNat w (max 1 (s.h.vec.grp * w / s.sew)) s.vl (fun e => (res e).map Prod.fst)
      ∧ FlagsRaised s t ((List.range s.vl).map fun e => ((res e).map Prod.snd).getD 0)
      ∧ ((∃ e, e < s.vl ∧ s.activeIn f false e = true) →
          t.h.vec.efr = BitVec.ofNat 64 (Fmt.f64.convV (.static 0) false ((s.wfmt f).value (s.residual f s.vl))).1)
      ∧ ((∀ e, e < s.vl → s.activeIn f false e = false) → t.h.vec.efr = s.h.vec.efr)
      ∧ MasksStand s t ∧ RegistersStand s t ∧ t.h.vec.vl = s.h.vec.vl ∧ t.h.sc.srstep = s.h.sc.srstep ∧ OutsideStands s t
      ∧ LanesFrame s t)

/-- Slides, `vgather`, `vexpand`, `vbcast`, `vidx` and `vsel` that begin move elements as R208 to R210 and R198 say, and complete. `vcompress`
packs the active elements to the bottom of vd in order; its tail begins after the last (R210). -/
def Obligations.PermutationsMoveElements : Prop :=
  (∀ (op : WOp) (f : WFields) (s : State) (res : Bool → Nat → Option Nat), Begins s op f →
    (∀ mir e, permResult s f mir e op = some (res mir e)) →
    (s.h.vec.pm = true → ∀ e, e < s.vl → (res false e).map (· % 2 ^ s.sew) = (res true e).map (· % 2 ^ s.sew)) →
    ∃ t, exec (op.instr f) s = .next t ∧ WroteElems s t f.vd.toNat s.sew s.h.vec.grp s.vl (res false)
      ∧ MasksStand s t ∧ NoFlags s t ∧ OnlyLanes s t)
  ∧ (∀ (f : WFields) (s : State), Begins s .vcompress f →
    let act := (List.range s.vl).filter fun e => s.activeIn f false e
    (s.h.vec.pm = true → ∀ e, e < s.vl → s.activeIn f false e = s.activeIn f true e
      ∧ (s.activeIn f false e = true → s.elem false f.vs2.toNat s.sew e = s.elem true f.vs2.toNat s.sew e)) →
    ∃ t, exec (.vcompress f) s = .next t
      ∧ WroteElems s t f.vd.toNat s.sew s.h.vec.grp act.length (fun i => some (s.elem false f.vs2.toNat s.sew (act.getD i 0)))
      ∧ MasksStand s t ∧ NoFlags s t ∧ OnlyLanes s t)

/-- `vcmp` and `vfcmp` write one bit for each active element below VL (R204), and the mask operations every bit below VL (R205). -/
def Obligations.MaskBitsAreWritten : Prop :=
  (∀ (op : WOp) (f : WFields) (s : State) (r : Bool → Nat → Bool), Begins s op f →
    (∀ mir e, maskResult (s.maskBit mir f.vs1.toNat e) (s.maskBit mir f.vs2.toNat e) op = some (r mir e)) →
    (s.h.vec.pm = true → ∀ e, e < s.vl → r false e = r true e) →
    ∃ t, exec (op.instr f) s = .next t ∧ WroteMask s t f.vd.toNat (fun e => some (r false e)) ∧ NoFlags s t ∧ OnlyLanes s t)
  ∧
  (∀ (f : WFields) (s : State) (r : Bool → Nat → Bool), Begins s .vcmp f →
    (∀ mir e, r mir e = true ↔ intCompare s.sew (s.srcA f mir s.sew e) (s.elem mir f.vs2.toNat s.sew e) (f.imm.toNat % 8)) →
    let res (mir : Bool) (e : Nat) : Option Bool := s.ruled f mir e (r mir e) false
    (s.h.vec.pm = true → ∀ e, e < s.vl → res false e = res true e) →
    ∃ t, exec (.vcmp f) s = .next t ∧ WroteMask s t f.vd.toNat (res false) ∧ NoFlags s t ∧ OnlyLanes s t)
  ∧ (∀ (f : WFields) (s : State), Begins s .vfcmp f →
    let cmp (mir : Bool) (e : Nat) : Bool × Nat := (s.wfmt f).cmp (f.imm.toNat % 8) (s.srcA f mir s.sew e) (s.elem mir f.vs2.toNat s.sew e)
    let res (mir : Bool) (e : Nat) : Option (Bool × Nat) := s.ruled f mir e (cmp mir e) (false, 0)
    (s.h.vec.pm = true → ∀ e, e < s.vl → (res false e).map Prod.fst = (res true e).map Prod.fst) →
    ∃ t, exec (.vfcmp f) s = .next t ∧ WroteMask s t f.vd.toNat (fun e => (res false e).map Prod.fst)
      ∧ FlagsRaised s t ((List.range s.vl).map fun e => ((res false e).map Prod.snd).getD 0) ∧ OnlyLanes s t)

/-- `mcount`, `mfirst`, `mall` and `vext` write a g register from a mask or an element, and `vins` writes one element from a g register (R205,
R208). -/
def Obligations.ScalarAndLaneTransfers : Prop :=
  (∀ (op : WOp) (f : WFields) (s : State) (v : Bool → Word), Begins s op f → (∀ mir, scalarResult s f mir op = some (v mir)) →
    (s.h.vec.pm = true → v false = v true) →
    ∃ t, exec (op.instr f) s = .next t ∧ WroteG s t f.vd (v false) ∧ t.h.vec.v = s.h.vec.v ∧ MasksStand s t ∧ NoFlags s t
      ∧ Settled s t ∧ OutsideStands s t ∧ LanesFrame s t)
  ∧ (∀ (f : WFields) (s : State), Begins s .vins f →
    ∃ t, exec (.vins f) s = .next t
      ∧ (∀ mir e, Copy s mir → e < s.h.vlmax → t.elem mir f.vd.toNat s.sew e =
          if e = f.imm.toNat then (s.g f.vs1).toNat % 2 ^ s.sew else s.elem mir f.vd.toNat s.sew e)
      ∧ (∀ r, r < 32 → r < f.vd.toNat ∨ f.vd.toNat + s.h.vec.grp ≤ r → t.h.vec.reg r = s.h.vec.reg r)
      ∧ MasksStand s t ∧ NoFlags s t ∧ OnlyLanes s t)

/-- An ordered reduction starts from vs1[0], combines the active elements of vs2 in increasing order, and writes the total to vd[0] with the
rest of that register as a tail (R71, R206). A scan writes every running total (R207). `vfredtree` writes the pairwise sum of R71. -/
def Obligations.ReductionsAndScansAccumulate : Prop :=
  (∀ (op : WOp) (f : WFields) (s : State) (step : Nat → Nat → FRes), Begins s op f →
    (∀ a x, reduceStep s f a x op = some (step a x)) → (s.h.vec.pm = true → SourcesAgree s f) →
    (op ≠ .vscan → op ≠ .vfscan → ∃ t, exec (op.instr f) s = .next t
      ∧ WroteElems s t f.vd.toNat s.sew 1 1 (fun _ => some (s.totalOf f step s.vl).1)
      ∧ FlagsRaised s t [(s.totalOf f step s.vl).2] ∧ MasksStand s t ∧ OnlyLanes s t)
    ∧ (op = .vscan ∨ op = .vfscan → ∃ t, exec (op.instr f) s = .next t
      ∧ WroteElems s t f.vd.toNat s.sew s.h.vec.grp s.vl (fun e => some (s.totalOf f step (e + 1)).1)
      ∧ FlagsRaised s t [(s.totalOf f step s.vl).2] ∧ MasksStand s t ∧ OnlyLanes s t))
  ∧ (∀ (f : WFields) (s : State), Begins s .vfredtree f → (s.h.vec.pm = true → SourcesAgree s f) →
    let add (a x : Nat) : FRes :=
      (s.wfmt f).addV (s.wmode f) (s.satFor (s.wfmt f)) ((s.wfmt f).value a) ((s.wfmt f).value x)
    let tree := treeSum add 15 ((List.range s.vl).map fun e =>
      if s.activeIn f false e then some (s.elem false f.vs2.toNat s.sew e) else none)
    let first := s.elem false f.vs1.toNat s.sew 0
    let r : FRes := match tree.1 with
      | none => (first, 0)
      | some x => ((add first x).1, (add first x).2 ||| tree.2)
    ∃ t, exec (.vfredtree f) s = .next t ∧ WroteElems s t f.vd.toNat s.sew 1 1 (fun _ => some r.1)
      ∧ FlagsRaised s t [r.2] ∧ MasksStand s t ∧ OnlyLanes s t)

/-! ### Vector memory -/

/-- A vector load that begins, every page open to it, gives each active element below VL the bytes that its address names, and completes
(R214). An element without an address (an empty descriptor, R91; beyond the popped entry's COUNT, R299) is zero. `vldff` ends VL at the
first later element that would take a fault or whose page has NS = 1, and its tail begins there (R216).
A load whose lowest faulting element is k stops precisely there, unless in native mode its page is absent: then the element is held in mf, with
every other element performed (R230, R231, R341, R343, R347, R369). A rate-mode load gives each element of a member of an active set by the
member's state at its home (R273 to R275). A tagged load that waits goes on by one element when its issue step comes (R228).
That an instruction at the stop point performs its elements in increasing order, which elements above a fault have performed in compatibility
mode, what a batch lists of more than 16 pages, how the rate unit finds its planes, and the issue step are the model's choices and readings
(log entries 29, 43, 58 and 74). -/
def Obligations.VectorLoadsRead : Prop :=
  (∀ (op : WOp) (m : MemForm) (f : WFields) (s : State) (at_ : Places), Begins s op f → formOf op = some m → m.kind = .load →
    m.Quiet s f → m.AllOpen s f at_ →
    ∃ t, exec (op.instr f) s = .next t
      ∧ WroteElems s t f.vd.toNat s.sew s.h.vec.grp s.vl (fun e => s.ruled f false e (m.loadAt s f at_ e) 0)
      ∧ MasksStand s t ∧ NoFlags s t ∧ OnlyLanes s t)
  ∧ (∀ (f : WFields) (s : State) (at_ : Places) (cut : Nat), Begins s .vldff f →
    let m : MemForm := { op := .vldff, kind := .load, addr := .unit, first := true }
    m.Quiet s f → cut ≤ s.vl →
    (∀ e, e < cut → (∀ va p, at_ e = some (va, p) → m.reaches s f e va ∧ m.Open s f va p) ∧ (at_ e = none → ∀ va, ¬ m.reaches s f e va)) →
    (∀ e va p, e < cut → at_ e = some (va, p) → (∃ d, d < e ∧ s.activeIn f false d = true) → p.ns = false) →
    (cut < s.vl → s.activeIn f false cut = true ∧ (∃ d, d < cut ∧ s.activeIn f false d = true) ∧
      ∃ va out, m.elemAddr s f false cut = some (va, out)
        ∧ ∀ p, s.translate s.h.space .load va = .ok p → p.ns = true ∨ p.mt = 1 ∨ s.poisoned p.pa (m.bytes s f) = true) →
    ∃ t, exec (.vldff f) s = .next t ∧ t.vl = cut
      ∧ WroteElems s t f.vd.toNat s.sew s.h.vec.grp cut (fun e => s.ruled f false e (m.loadAt s f at_ e) 0)
      ∧ MasksStand s t ∧ NoFlags s t ∧ RegistersStand s t ∧ t.h.vec.efr = s.h.vec.efr ∧ t.h.sc.srstep = s.h.sc.srstep
      ∧ OutsideStands s t ∧ LanesFrame s t)
  ∧ (∀ (op : WOp) (m : MemForm) (f : WFields) (s : State) (at_ : Places) (k : Nat) (va : Word), Begins s op f → formOf op = some m →
    m.kind = .load → m.Quiet s f → m.LowestFault s f at_ k va →
    (∀ x, m.Faults s f va x → m.StopsAt s f at_ k x (exec (op.instr f) s))
    ∧ (∀ l n, m.Absent s f va l n → s.h.su.compat = true → s.parkedOn va = false →
        m.StopsAt s f at_ k { code := 9, sub := 1, val := va, batch := [⟨va, l, 2, false, k, 1⟩] } (exec (op.instr f) s)))
  ∧ (∀ (op : WOp) (m : MemForm) (f : WFields) (s : State) (at_ : Places) (ms : List Missing), Begins s op f → formOf op = some m →
    m.kind = .load → m.Quiet s f → s.h.su.compat = false → ms ≠ [] → m.Holds s f at_ ms → m.HeldBack s f at_ ms (exec (op.instr f) s))
  ∧ (∀ (f : WFields) (s : State) (at_ : Places), Begins s .vldd f →
    let m : MemForm := { op := .vldd, kind := .load, addr := .desc }
    let rate := (s.descAt f).rate
    rate ≠ 0 → NoWatch s → s.ca.chan = [] → s.h.dbg.prof = 0 → s.h.held = [] → m.AllOpen s f at_ →
    (∀ e va p r k, e < s.vl → at_ e = some (va, p) → s.memberAt va = some (r, k) →
      (s.rateValue rate r k ((r.element k va).getD 0)).2 = false) →
    let value (e : Nat) : Nat := match at_ e with
      | some (va, _) => match s.memberAt va with
        | some (r, k) => s.memberGives rate r k ((r.element k va).getD 0)
        | none => m.loadAt s f at_ e
      | none => 0
    ∃ t, exec (.vldd f) s = .next t ∧ WroteElems s t f.vd.toNat s.sew s.h.vec.grp s.vl (fun e => s.ruled f false e (value e) 0)
      ∧ MasksStand s t ∧ NoFlags s t ∧ RegistersStand s t ∧ Settled s t ∧ t.mem = s.mem ∧ t.h.mx = s.h.mx ∧ LanesFrame s t)
  ∧ (∀ (s v : State) (w : Nat) (op : WOp) (f : WFields), s.h.live = true → s.h.dbg.halted = false → s.h.dbg.stalled = true → s.h.queue = [] →
    fetchInstr s.h.sc.pc s = .ok (w, s) → decodeWord w = .ok (.wide op f) → op.spec.op8 = 0x10 → natField f.imm.toNat 12 4 ≠ 0 →
    s.singleFault op (semOf op) f = none → s.isI op f = false → fieldOf s.h.vec.cpv0 63 1 = 0 →
    let p := s.h.vec.vstart.toNat
    p < s.vl → (semOf op).run f { slot := 0, lo := p, hi := p + 1, fed := s.vl } s = (v, .part (p + 1)) →
    exec (.taggedElementIssue s.h.hid) s = .next (v.setVstart (p + 1)))

/-- A vector store, atomic or memory-side add that begins, every page open to it, performs its active elements, each at its address, and completes;
every other byte of memory stands (R215, R221, R222). An atomic gives vd the old values, and only a memory-side add raises flags. `u` is the state
after the release that imm16[11] of a store asks for (R215). The elements of `vstxu` land in any order: here no two have one address.
One whose lowest faulting element is k stops precisely there (R230, R341, R343, R347), but for absent pages in native mode: an atomic holds those
elements in mf and performs the others (R231); a store parks them and completes (R232), or, where the replay queue has no entry left, stops at
the lowest that finds none, with code 14 (R233, R371). That elements perform in increasing order at the stop point (log entry 29), what a release
waits for and applies (log entry 17), what an atomic through an empty descriptor delivers (log entry 98), and what a batch lists (log entry 43)
are the model's choices and readings. -/
def Obligations.VectorStoresAndAtomicsWrite : Prop :=
  ∀ (op : WOp) (m : MemForm) (f : WFields) (s : State) (at_ : Places), Begins s op f → formOf op = some m → m.kind ≠ .load →
    let releases : Prop := m.releases f = true ∧ 0 < s.vl
    let u : State := if m.releases f = true ∧ 0 < s.vl then s.release.1 else s
    let o := exec (op.instr f) s
    (releases → s.release.2 = true) → m.Quiet u f →
    (∀ e va p, e < u.vl → at_ e = some (va, p) → Unmeasured u va (m.bytes u f)) →
    (m.loose = true → ∀ d e x y, d < e → e < u.vl → at_ d = some x → at_ e = some y → x.1 ≠ y.1) →
    (m.AllOpen u f at_ → m.TablesApart u f at_ →
      ∃ t, o = .next t ∧ t.mem = m.memAt u f at_ u.vl
        ∧ (if m.writes = true then
            WroteElems u t f.vd.toNat u.sew u.h.vec.grp u.vl (fun e => u.ruled f false e (m.oldAt u f at_ e) 0)
          else t.h.vec.v = u.h.vec.v)
        ∧ FlagsRaised u t ((List.range u.vl).map (m.flagsAt u f at_))
        ∧ MasksStand u t ∧ RegistersStand u t ∧ Settled u t ∧ t.h.mx = u.h.mx ∧ LanesFrame u t)
    ∧ (∀ k va, m.LowestFault u f at_ k va → m.TablesApart u f at_ → m.MissingApart u f at_ [va] →
      (∀ x, m.Faults u f va x → m.StopsAt u f at_ k x o)
      ∧ (∀ l n, m.Absent u f va l n → u.h.su.compat = true → u.parkedOn va = false →
          m.StopsAt u f at_ k { code := 9, sub := 1, val := va, batch := [⟨va, l, m.source, true, k, 1⟩] } o))
    ∧ (∀ ms, m.kind ≠ .store → u.h.su.compat = false → ms ≠ [] → m.Holds u f at_ ms → m.HeldBack u f at_ ms o)
    ∧ (∀ ms, m.kind = .store → u.h.su.compat = false → ms ≠ [] → m.Parks u f at_ ms →
      let taken := u.ca.parked.countP fun p => p.hid.core == u.h.hid.core
      let room := 512 - taken
      (ms.length ≤ room → ∃ t, o = .next t ∧ t.mem = m.memAt u f at_ u.vl ∧ m.Joined u t f ms
        ∧ t.h.vec.v = u.h.vec.v ∧ NoFlags u t ∧ MasksStand u t ∧ RegistersStand u t ∧ Settled u t ∧ t.h.mx = u.h.mx ∧ LanesFrame u t)
      ∧ (∀ x, ms[room]? = some x →
          ∃ v l, o = Trapped v { code := 14, val := x.va, lane := l } ∧ LaneOf u u.sew x.e l ∧ StoppedAt u v x.e
            ∧ v.h.vec.mf = u.h.vec.mf ∧ m.Performed u v f at_ (fun e => decide (e < x.e)) ∧ m.Joined u v f (ms.take room)))

/-! ### Matrix -/

/-- `settile` and `settile.c` (R235, R236). A request with a zero field releases the units when nothing is busy; any other is granted when the
core's unit is the hart's or free for it, and then the unit is the hart's; while it is not, the hart joins those that wait for the unit, in their
order, and waits (R234). `settile.c` has the classroom when every other unit is free or
the hart's. A unit that comes from another context brings zero accumulators (R234). Bad requests are illegal, and MXA traps in user mode
with code 19 (R351). That an illegal request leaves the waiting list, which parts become zero, that settile.c never waits for the
classroom, and that a wait leaves the pc and sets the model's flag are the model's readings (log entries 8, 38, 39 and 90). -/
def Obligations.SettileGrantsAShape : Prop :=
  ∀ (room : Bool) (d a : Reg) (s : State),
    let i : Instr := if room then .settileC d a else .settile d a
    let v := s.g a
    let present : Prop := s.h.su.sup = true ∨ s.h.su.mxa = false
    let core := s.h.hid.core
    let cls : Bool := room && (roomCores s.h.hid).all fun c => c == core || (s.unitAt c).openTo s.h.own
    let k := grantedK v
    let n := grantedN v cls
    let m := grantedM v
    let loses : Prop := s.h.mx.tshape.getLsbD 48 = true ∧ cls = false ∧ Busy s
    (∀ e, encodeNat i = some e → ¬ present → exec i s = Trapped s { code := 19, val := BitVec.ofNat 64 e })
    ∧ (∀ e, encodeNat i = some e → present →
        (BadRequest v ∨ (ZeroRequest v ∧ Busy s) ∨ (¬ ZeroRequest v ∧ (k = 0 ∨ (UnitReady s ∧ loses)))) →
        exec i s = Trapped s.unwait { code := 1, val := BitVec.ofNat 64 e })
    ∧ (present → ¬ BadRequest v → ZeroRequest v → ¬ Busy s →
        ∃ t, exec i s = .next t ∧ Shaped s t d false 0 0 0 ∧ t.h.mx.acc = s.h.mx.acc ∧ ∀ u ∈ t.un.matrix, u.holder ≠ some s.h.own)
    ∧ (present → ¬ BadRequest v → ¬ ZeroRequest v → k ≠ 0 → UnitReady s → ¬ loses →
        ∃ t, exec i s = .next t ∧ Shaped s t d cls k n m ∧ (t.unitAt core).holder = some s.h.own
          ∧ (cls = true → ∀ c ∈ roomCores s.h.hid, (t.unitAt c).holder = some s.h.own)
          ∧ (cls = false → ∀ c, c ≠ core → (t.unitAt c).holder ≠ some s.h.own)
          ∧ (cls = false → t.h.mx.acc = if (s.unitAt core).holder = some s.h.own ∨ (s.unitAt core).last = some s.h.own then s.h.mx.acc
              else Vector.replicate 2 Accum.zero))
    ∧ (present → ¬ BadRequest v → ¬ ZeroRequest v → k ≠ 0 → ¬ UnitReady s →
        ∃ t, exec i s = .next t ∧ t.h = { s.h with dbg := { s.h.dbg with stalled := true } }
          ∧ t = { s with h := t.h, un := { s.un with matrix := t.un.matrix } } ∧ (∀ c, c ≠ core → t.unitAt c = s.unitAt c)
          ∧ t.unitAt core = { s.unitAt core with
              waiters := if s.h.own ∈ (s.unitAt core).waiters then (s.unitAt core).waiters else (s.unitAt core).waiters ++ [s.h.own] })

/-- `mtld` that begins, its window open to it, records the tile and pins every line of the window and nothing else (R238 to R240); `mtrel`
frees the register and removes its pins (R241). Which descriptors and shapes let `mtld` begin is as the model reads R237 to R239 (log
entries 36 and 37). -/
def Obligations.TilesPinAndRelease : Prop :=
  (∀ (f : WFields) (s : State) (at_ : WindowAt), Begins s .mtld f → TileQuiet s →
    let odd : Bool := f.vd.toNat % 2 == 1
    let rows := if odd then s.shape.k else s.shape.m
    let cols := if odd then s.shape.n else if f.imm = 0 then s.shape.k else if f.imm = 1 then s.shape.k / 3 else s.shape.k / 8
    WindowOpen s f .load rows cols at_ →
    ∃ t x, exec (.mtld f) s = .next t ∧ OnlyMatrix s t ∧ t.mem = s.mem
      ∧ t.h.mx = { s.h.mx with tiles := s.h.mx.tiles.setIfInBounds f.vd.toNat (some x) }
      ∧ x.desc = s.h.vec.desc f.desc ∧ x.origin = s.g f.vs3 ∧ x.orient = f.orient ∧ x.kind.toNat = f.imm.toNat
      ∧ x.rows = rows ∧ x.cols = cols ∧ x.ctype = (s.descAt f).type ∧ x.elems.length = rows * cols
      ∧ (∀ r c, r < rows → c < cols → x.elems[r * cols + c]? = some ((at_ r c).map fun y => y.2.pa))
      ∧ t.ca = { s.ca with pins := t.ca.pins }
      ∧ ∀ q, q ∈ t.ca.pins ↔ q ∈ s.ca.pins ∨
          ∃ r c va p, r < rows ∧ c < cols ∧ at_ r c = some (va, p) ∧ q = ⟨p.pa / 64 * 64, s.h.own, some f.vd.toNat, none⟩)
  ∧ (∀ (f : WFields) (s : State), Begins s .mtrel f →
    ∃ t, exec (.mtrel f) s = .next t ∧ OnlyMatrix s t ∧ t.mem = s.mem
      ∧ t.h.mx = { s.h.mx with tiles := s.h.mx.tiles.setIfInBounds f.vd.toNat none }
      ∧ t.ca = { s.ca with pins := t.ca.pins }
      ∧ ∀ q, q ∈ t.ca.pins ↔ q ∈ s.ca.pins ∧ ¬ (q.own = s.h.own ∧ q.tile = some f.vd.toNat))

/-- `maz` clears an accumulator, `mald` loads one from a window with zero elsewhere, and both drop the log's scale pins; `mast` stores the
elements of the shape, those of one address in increasing order of 64i + j (R243). The order of elements with equal sums is open (log entry
44). -/
def Obligations.AccumulatorsTransfer : Prop :=
  (∀ (f : WFields) (s : State), Begins s .maz f →
    ∃ t, exec (.maz f) s = .next t ∧ OnlyMatrix s t ∧ t.mem = s.mem ∧ OnlyAccum s t f.vd.toNat Accum.zero
      ∧ t.ca = { s.ca with pins := s.ca.pins.filter fun q => !(q.own == s.h.own && q.acc == some f.vd.toNat) })
  ∧ (∀ (f : WFields) (s : State) (at_ : WindowAt), Begins s .mald f → TileQuiet s → s.h.mx.Formed →
    let sh := s.shape
    WindowOpen s f .load sh.m sh.n at_ →
    ∃ t b, exec (.mald f) s = .next t ∧ OnlyMatrix s t ∧ t.mem = s.mem ∧ OnlyAccum s t f.vd.toNat b
      ∧ b.tag = some (match (s.descAt f).type with | 0 => .fp64 | 1 => .fp32 | _ => .int32)
      ∧ (∀ i p, i < 8192 / (2 * b.width) → p < 512 → b.at i p =
          if i < sh.m ∧ sh.base ≤ p ∧ p < sh.base + sh.n then s.windowValue f at_ i (p - sh.base) else 0)
      ∧ b.sums = b.actual sh ⟨[], [], [], []⟩ ∧ b.ckElem = b.elems ∧ b.ckSums = b.sums ∧ b.log = [] ∧ b.fix = none
      ∧ t.ca = { s.ca with pins := s.ca.pins.filter fun q => !(q.own == s.h.own && q.acc == some f.vd.toNat) })
  ∧ (∀ (f : WFields) (s : State) (at_ : WindowAt), Begins s .mast f → TileQuiet s →
    let sh := s.shape
    let d := s.descAt f
    WindowOpen s f .store sh.m sh.n at_ →
    (∀ i j va p, i < sh.m → j < sh.n → at_ i j = some (va, p) → Unmeasured s va d.bytes) →
    (∀ mem : Memory,
      (∀ x, (∀ i j va p, i < sh.m → j < sh.n → at_ i j = some (va, p) → x < p.pa ∨ p.pa + d.bytes ≤ x) → mem.get x = s.mem.get x) →
      ∀ i j va p, i < sh.m → j < sh.n → at_ i j = some (va, p) → ({ s with mem := mem } : State).translate s.h.space .store va = .ok p) →
    ∃ (t : State) (order : List (Nat × Nat)), exec (.mast f) s = .next t ∧ OnlyMatrix s t ∧ t.h.mx = s.h.mx
      ∧ order.Nodup ∧ (∀ i j, (i, j) ∈ order ↔ i < sh.m ∧ j < sh.n)
      ∧ order.Pairwise (fun x y => 64 * x.1 + x.2 ≤ 64 * y.1 + y.2)
      ∧ t.mem = order.foldl (fun mem x => match at_ x.1 x.2 with
          | some (_, p) => mem.put p.pa (leBytes d.bytes ((s.acc f.vd.toNat).at x.1 (sh.base + x.2)))
          | none => mem) s.mem)

/-- `mmac` and `mmacs` that begin add the product of their tiles to the accumulator and append one entry to its log; memory and pins stand
(R244, R245). `mmacx` multiplies by the scales that it reads, and pins every line of them for the entry (R246). Here no injection record
names the instruction (R408). The fp64 products follow R69 as log entry 40 reads it. -/
def Obligations.ProductsAccumulate : Prop :=
  (∀ (sparse : Bool) (f : WFields) (s : State), Begins s (if sparse then .mmacs else .mmac) f → (sparse = true → s.h.dbg.prof = 0) →
    let e : LogEntry := ⟨f.vs1.toNat, f.vs2.toNat, if sparse then some f.vs3.toNat else none, f.imm.toNat, s.h.mx.tshape,
      BitVec.ofNat 5 s.b8, none, none⟩
    s.EntryFormed e → s.accInjections (s.h.dbg.mmacs + 1) = [] →
    ∃ t b, exec (if sparse then .mmacs f else .mmac f) s = .next t ∧ OnlyMatrix s t ∧ MemoryStands s t ∧ OnlyAccum s t f.vd.toNat b
      ∧ s.Multiplied e (s.acc f.vd.toNat) b ∧ b.log = (s.acc f.vd.toNat).log ++ [e] ∧ t.h.dbg.mmacs = s.h.dbg.mmacs + 1)
  ∧ (∀ (f : WFields) (s : State) (ta tb : Tile) (atA atB : WindowAt), Begins s .mmacx f → TileQuiet s →
    s.tile f.vs1.toNat = some ta → s.tile f.vs2.toNat = some tb →
    let at_ (second : Bool) : WindowAt := if second then atB else atA
    let tile (second : Bool) : Tile := if second then tb else ta
    let scale (second : Bool) (r c : Nat) : Option Word :=
      let x := tile second
      ((descOf x.desc).window x.origin.toInt x.orient r c).map fun y =>
        if second then s.h.mx.scb[1] + (y.1 - (descOf x.desc).base).sshiftRight s.h.mx.scs[1].toNat
        else s.h.mx.scb[0] + (y.1 - (descOf x.desc).base).sshiftRight s.h.mx.scs[0].toNat
    (∀ second r c, r < (tile second).rows → c < (tile second).cols → (at_ second r c).map Prod.fst = scale second r c
      ∧ ∀ va p, at_ second r c = some (va, p) → TileOpen s .load 1 none va p) →
    let places (second : Bool) : List (Option Nat) := (List.range (tile second).rows).flatMap fun r =>
      (List.range (tile second).cols).map fun c => (at_ second r c).map fun y => y.2.pa
    let e : LogEntry := ⟨f.vs1.toNat, f.vs2.toNat, none, f.imm.toNat, s.h.mx.tshape, BitVec.ofNat 5 s.b8, some (places false),
      some (places true)⟩
    s.EntryFormed e → s.accInjections (s.h.dbg.mmacs + 1) = [] →
    ∃ t b, exec (.mmacx f) s = .next t ∧ OnlyMatrix s t ∧ t.mem = s.mem ∧ OnlyAccum s t f.vd.toNat b
      ∧ s.Multiplied e (s.acc f.vd.toNat) b ∧ b.log = (s.acc f.vd.toNat).log ++ [e] ∧ t.h.dbg.mmacs = s.h.dbg.mmacs + 1
      ∧ t.ca = { s.ca with pins := t.ca.pins }
      ∧ ∀ q, q ∈ t.ca.pins ↔ q ∈ s.ca.pins ∨ ∃ second r c va p, r < (tile second).rows ∧ c < (tile second).cols
          ∧ at_ second r c = some (va, p) ∧ q = ⟨p.pa / 64 * 64, s.h.own, none, some f.vd.toNat⟩)

/-- `mdrain` compares the actual sums with the expected ones (R249). When nothing differs it passes: the checkpoint takes the accumulator, the
log, its scale pins, the fix record and PF are cleared. Otherwise it fails: the accumulator stands but for its fix record, which holds the
one row and column that differ, MCKSTAT's counts are set, and cause 3 is raised. The tolerance of a log with several formats or none, and that
cause 15 is taken in the supervisor whatever CKS and IN hold, are the model's choices (log entries 41 and 96). -/
def Obligations.DrainsPassOrFail : Prop :=
  ∀ (f : WFields) (s : State) (cols rows : List Nat), Begins s .mdrain f →
    let x := f.vd.toNat
    let a := s.acc x
    let sh := s.shape
    let tol := (s.drainTolerance a).1
    (cols.Nodup ∧ ∀ j, j ∈ cols ↔ j < sh.n ∧ a.BadCol sh tol j) → (rows.Nodup ∧ ∀ i, i ∈ rows ↔ i < sh.m ∧ a.BadRow sh tol i) →
    (cols = [] → rows = [] →
      ∃ t, exec (.mdrain f) s = .next t ∧ OnlyMatrix s t ∧ t.mem = s.mem
        ∧ t.h.mx = { s.h.mx with
            acc := s.h.mx.acc.setIfInBounds x
              { a with sums := a.actual sh a.sums, ckElem := a.elems, ckSums := a.actual sh a.sums, log := [], fix := none }
            pf := s.h.mx.pf.setIfInBounds x false }
        ∧ t.ca = { s.ca with pins := s.ca.pins.filter fun q => !(q.own == s.h.own && q.acc == some x) })
    ∧ (cols ≠ [] ∨ rows ≠ [] →
      ∃ t, exec (.mdrain f) s = .next t ∧ ChecksumRaised s t x ∧ t.ca = s.ca
        ∧ t.h.mx = { s.h.mx with
            acc := s.h.mx.acc.setIfInBounds x { a with fix := match cols, rows with
              | [c], [r] => some (r, c, a.lack sh c)
              | _, _ => none }
            pf := s.h.mx.pf.setIfInBounds x true
            ncol := BitVec.ofNat 10 cols.length, nrow := BitVec.ofNat 8 rows.length, la := x == 1 })

/-- `mloc` reads the fix record into two g registers (R251); `mfix` adds its correction to the one element and clears it (R252); `mretry`
replays the log from the checkpoint (R253); `mcksum` writes a checksum vector (R254). -/
def Obligations.ChecksumsAreUsed : Prop :=
  (∀ (f : WFields) (s : State), Begins s .mloc f →
    let v : Word × Word := match (s.acc f.vs1.toNat).fix with
      | some (r, c, delta) => (BitVec.ofNat 64 (2 ^ 63 + c * 2 ^ 16 + r), delta)
      | none => (0, 0)
    ∃ t, exec (.mloc f) s = .next t ∧ t.g f.vd = (if f.vd = 0 then 0 else v.1) ∧ t.g f.vs3 = (if f.vs3 = 0 then 0 else v.2)
      ∧ (∀ r, r ≠ f.vd → r ≠ f.vs3 → t.g r = s.g r) ∧ t.h.sc.ldn = f.vd
      ∧ t.h.vec.v = s.h.vec.v ∧ MasksStand s t ∧ NoFlags s t ∧ Settled s t ∧ OutsideStands s t ∧ LanesFrame s t)
  ∧ (∀ (f : WFields) (s : State) (r c : Nat) (delta : Word), Begins s .mfix f → (s.acc f.vd.toNat).fix = some (r, c, delta) →
    let a := s.acc f.vd.toNat
    r < 8192 / (2 * a.width) → s.shape.base + c < 512 →
    ∃ t b, exec (.mfix f) s = .next t ∧ OnlyMatrix s t ∧ MemoryStands s t ∧ OnlyAccum s t f.vd.toNat b
      ∧ b = { a with elems := b.elems, fix := none }
      ∧ (∀ i p, i < 8192 / (2 * a.width) → p < 512 → b.at i p =
          if i = r ∧ p = s.shape.base + c then corrected a.tag (a.at i p) delta % 2 ^ a.width else a.at i p))
  ∧ (∀ (f : WFields) (s : State), Begins s .mretry f →
    let a := s.acc f.vd.toNat
    (∀ e ∈ a.log, s.EntryFormed e) →
    ∃ t b, exec (.mretry f) s = .next t ∧ OnlyMatrix s t ∧ MemoryStands s t ∧ OnlyAccum s t f.vd.toNat b ∧ b.log = a.log
      ∧ s.Replayed a.log { a with elems := a.ckElem, sums := a.ckSums, fix := none } b)
  ∧ (∀ (f : WFields) (s : State), Begins s .mcksum f →
    let a := s.acc f.vs1.toNat
    let sh := s.shape
    let value (e : Nat) : Nat := match f.imm.toNat with
      | 0 => if e < sh.n then wordAt a.sums.col (sh.base + e) else 0
      | 1 => if e < sh.n then a.colSum sh e else 0
      | 2 => if e < sh.m then combine a.tag rne sh a.sums.row e else 0
      | _ => if e < sh.m then a.rowSum sh e else 0
    let wide (v : Nat) : Nat := if a.tag = some .int32 then (toSigned 32 v % 2 ^ 64).toNat else v
    ∃ t, exec (.mcksum f) s = .next t ∧ WroteElems s t f.vd.toNat 64 s.h.vec.grp s.vl (fun e => some (wide (value e)))
      ∧ MasksStand s t ∧ NoFlags s t ∧ OnlyLanes s t)

/-! ### Engines and the activation stack -/

/-- `ecmd` that begins, once everything earlier is performed at device scope, its copies agreeing under protected mode (R398), completes and
writes vd with exactly the elements of the accepted positions set, all of them named by its batch (R278, R279). A batch of one record accepts
a well-formed copy or bind record into its engine's queue, refuses it when its position is pending or the queue is full, and completes one
with an unknown OP at once, where no table entry that an engine wrote for the hart makes it wait (R280, R281, R365). -/
def Obligations.EngineCommandsAreAccepted : Prop :=
  ∀ (f : WFields) (s : State), Begins s .ecmd f → s.release.2 = true →
    (s.h.vec.pm = true → ∀ e, e < s.vl → s.activeIn f false e = s.activeIn f true e
      ∧ (s.activeIn f false e = true → s.elem false f.vs2.toNat s.sew e = s.elem true f.vs2.toNat s.sew e)) →
    let u := s.release.1
    ∃ t acc, exec (.ecmd f) s = .next t ∧ List.Pairwise (· < ·) acc ∧ (∀ k ∈ acc, InBatch u f k)
      ∧ PositionsSet u t f.vd.toNat (fun k => k ∈ acc)
      ∧ RegistersStand u t ∧ NoFlags u t ∧ Advanced u t 8 ∧ t.h.vec.vl = u.h.vec.vl ∧ t.h.mx = u.h.mx
      ∧ ∀ k, (∀ j, InBatch u f j ↔ j = k) →
          let r := u.groupRecord f.vs2.toNat k
          let op := fieldOf (quadOf r 0) 0 16
          let e := engineOf u.h.hid r
          let busy : Prop := k ∈ u.h.ct.pending ∨ e.depth ≤ u.un.cmds.countP (fun x => x.engine == e)
          (busy → acc = [] ∧ UnitsStand u t)
          ∧ (¬ busy → quadOf r 7 = 0 → (op = 1 ∧ copyBad (quadOf r) = false) ∨ (op = 3 ∧ bindBad (quadOf r) = false) →
              acc = [k] ∧ t.un = { u.un with cmds := u.un.cmds ++ [u.commandOf k r] }
                ∧ t.h.ct.pending = u.h.ct.pending ++ [k])
          ∧ (¬ busy → quadOf r 7 = 0 → u.h.live = true → u.remapPending u.h.own true = false → op = 0 ∨ 3 < op →
              acc = [k] ∧ k ∉ t.h.ct.pending ∧ ⟨k, fieldOf (quadOf r 0) 24 1 == 1, none⟩ ∈ t.h.ct.posted)

/-- `ewait` completes when no position that its mask names is pending, with the invalidations of the isle applied, and waits otherwise (R292).
`epoll` does not wait: it writes md with every bit of the named positions that are not pending set, and every other bit clear (R293). That
a wait leaves the pc and sets the model's flag is its own way to wait (log entry 8).
A held command resumes (R283), a bind record with address 0 unbinds (R295), a copy of one element reads it and then writes it (R285), and a
step of a collective over one element initialises, receives, combines or sends it, or passes a token (R289); a wait that is too long ends the
command, an abort ends one that takes part at its isle (R291), and a dead port is given up (R424). How engines' work is cut into steps, and
which of several ranks of one isle an abort ends, are the model's choice (log entry 54). -/
def Obligations.EngineCompletionIsObserved : Prop :=
  (∀ (f : WFields) (s : State), Begins s .ewait f →
    ((∀ k, Named s f.vs2.toNat k → k ∉ s.h.ct.pending) →
      ∃ t, exec (.ewait f) s = .next t ∧ RegistersStand s t ∧ OnlyUnits s t ∧ UnitsStand s t ∧ t.mem = s.mem
        ∧ (∀ i ∈ t.ca.chan, i.isle ≠ s.h.hid.isle) ∧ t.ca.pins = s.ca.pins)
    ∧ ((∃ k, Named s f.vs2.toNat k ∧ k ∈ s.h.ct.pending) → exec (.ewait f) s = .next (s.onDbg fun d => { d with stalled := true })))
  ∧ (∀ (f : WFields) (s : State), Begins s .epoll f →
    (s.h.vec.pm = true → ∀ k, s.maskBit false f.vs2.toNat (k * s.recordElems) = s.maskBit true f.vs2.toNat (k * s.recordElems)) →
    ∃ t, exec (.epoll f) s = .next t ∧ PositionsSet s t f.vd.toNat (fun k => Named s f.vs2.toNat k ∧ k ∉ s.h.ct.pending)
      ∧ NoFlags s t ∧ OnlyLanes s t)
  ∧ (∀ (s : State) (own : CtxRef) (k : BitVec 8) (c : Command), s.command own k.toNat = some c →
    (∀ va p, c.held = some va → s.translate c.space .load va = .ok p →
      ∃ t, exec (.engineFaultResume own k) s = .next t ∧ t.command own k.toNat = some { c with held := none })
    ∧ (∀ isle, c.engine = .spill isle → c.held = none → c.ending = none → c.q 1 = 0 → c.q 7 = 0 → s.remapPending own true = false →
      ∃ t, exec (.stackBind own k) s = .next t ∧ Retired t own k.toNat ∧ ∀ b ∈ t.un.binds, b.1 ≠ own)
    ∧ (∀ room a b, c.engine = .copy room → c.held = none → c.ending = none → c.weak = [] → fieldOf (c.q 0) 16 8 < 3 →
      copyPairs c.q [] = [(a, b)] → c.copied = [] → NoWatch s →
      let n := 2 ^ fieldOf (c.q 0) 32 2
      (∀ pa, c.taken = [] → EngineOpen s c .load a n pa →
        ∃ t, exec (.copyCommand own k) s = .next t ∧ t.mem = s.mem
          ∧ t.command own k.toNat = some { c with taken := [(0, leNat (s.engineBytes c pa n), false)] })
      ∧ (∀ pb v, c.taken = [(0, v, false)] → EngineOpen s c .store b n pb → c.spoilt = none → c.q 7 = 0 → s.mem.wf →
        ∃ t, exec (.copyCommand own k) s = .next t ∧ t.mem.bytes pb.pa n = leBytes n v ∧ MemoryOutside s t pb.pa n
          ∧ (s.outstanding = [] → Retired t own k.toNat))))
  ∧ (∀ (s : State) (own : CtxRef) (k : BitVec 8) (inc : Option (List Byte)) (c : Command) (x : Step),
    s.currentStep own k = some (c, x) → c.prog + 1 < c.sched.length → c.weak = [] → c.taken = [] → c.copied = [] → c.spoilt = none →
    s.lostStep c = none → (x.sop ≠ 3 → s.linkLost c x = false) →
    let n := c.elemBytes
    let dst := c.chunk (c.q 2) x 0
    let passed (t : State) : Prop := t.command own k.toNat = some { c with prog := c.prog + 1, token := false }
    (∀ pd, x.len = 1 → EngineOpen s c .store dst n pd → NoWatch s → s.mem.wf →
      (x.sop = 3 → (c.q 4).getLsbD c.myRank = false → ∃ t, exec (.collectiveInitialise own k) s = .next t ∧ passed t
        ∧ t.mem.bytes pd.pa n = leBytes n (identityOf (fieldOf (c.q 0) 16 4) (fieldOf (c.q 0) 32 4)) ∧ MemoryOutside s t pd.pa n)
      ∧ (∀ bs, x.sop = 1 → (s.takeIn c x inc).arrived c x = some (1, bs) → ∃ t, exec (.collectiveReceive own k inc) s = .next t ∧ passed t
        ∧ t.mem.bytes pd.pa n = leBytes n (elemOf n bs 0) ∧ MemoryOutside s t pd.pa n)
      ∧ (∀ bs ps, x.sop = 2 → (s.takeIn c x inc).arrived c x = some (1, bs) → EngineOpen s c .load dst n ps →
        ∃ t, exec (.collectiveReceiveReduce own k inc) s = .next t ∧ passed t ∧ MemoryOutside s t pd.pa n
          ∧ t.mem.bytes pd.pa n = leBytes n
              (reduceOp (fieldOf (c.q 0) 16 4) (fieldOf (c.q 0) 32 4) (leNat (s.engineBytes c ps n)) (elemOf n bs 0))))
    ∧ (∀ ps isle w, x.sop = 0 → x.len = 1 → c.isleOf x.link = some isle → s.peerWindow c x isle = some w →
      EngineOpen s c .load dst n ps → NoWatch s → ∃ t, exec (.collectiveSend own k) s = .next t ∧ passed t ∧ t.mem = s.mem
        ∧ { w with full := some (1, s.engineBytes c ps n) } ∈ t.un.windows)
    ∧ (x.sop = 4 → c.isleOf x.link = none → c.token = true → c.word x ∈ s.un.tokens →
      ∃ t, exec (.collectiveToken own k) s = .next t ∧ passed t ∧ t.un.tokens = s.un.tokens.erase (c.word x))
    ∧ (x.receives = true → fieldOf (c.q 5) 32 32 ≠ 0 → s.windowFull c x = none → c.q 7 = 0 → s.outstanding = [] →
      ∃ t, exec (.collectiveTimeout own k) s = .next t ∧ Retired t own k.toNat)
    ∧ (∀ isle rank, c.hid.isle = isle.toNat → (∀ d ∈ s.un.cmds, d.collid = c.collid → d.q 7 = 0) → s.outstanding = [] →
      ∃ t, ∃ d ∈ s.un.cmds, d.hid.isle = isle.toNat ∧ d.collid = c.collid ∧ exec (.collectiveAbort isle c.collid rank) s = .next t
        ∧ Retired t d.own d.pos))
  ∧ (∀ (s : State) (port : BitVec 5), port.toNat < 18 → (s.linkOf (.causeway port)).dead = true →
    ∃ t l, exec (.peerUnreachable port) s = .next t ∧ t.dev.port[port.toNat]? = some l ∧ l.lost = true)

/-- `aprobe` reads whether an entry is popped, whether it has arrived, and DEPTH (R300). `apop` names the top entry and steps the record back,
or writes all ones when the stack is empty (R298). `apush` writes the entry's header and data above TOP, steps the record forward, and
gives the slot; a push beyond LIMIT overflows with code 13, with the record unchanged (R296, R297). -/
def Obligations.ActivationStackMoves : Prop :=
  (∀ (f : WFields) (s : State) (sv : Word) (p : Place), Begins s .aprobe f → s.h.ct.stack = some sv → TableOpen s .load sv 64 p →
    let valid : Nat := if s.h.ct.popped.isSome then 2 ^ 63 else 0
    let arrived : Nat := match s.h.ct.popped with
      | some e => if e.arrived then 2 ^ 62 else 0
      | none => 0
    ∃ t, exec (.aprobe f) s = .next t ∧ WroteG s t f.vd (BitVec.ofNat 64 (valid + arrived + fieldOf (s.quadAt p 4) 0 32))
      ∧ OnlyUnits s t ∧ UnitsStand s t ∧ t.mem = s.mem ∧ t.ca = s.ca)
  ∧ (∀ (f : WFields) (s : State) (sv : Word) (p : Place), Begins s .apop f → s.h.ct.stack = some sv → TableOpen s .load sv 64 p →
    (s.quadAt p 4 = 0 → ∃ t, exec (.apop f) s = .next t ∧ WroteG s t f.vd (BitVec.allOnes 64) ∧ OnlyUnits s t ∧ t.un = s.un
      ∧ t.h.ct = { s.h.ct with popped := none } ∧ t.mem = s.mem ∧ t.ca = s.ca)
    ∧ (∀ hd, s.quadAt p 4 ≠ 0 → TableOpen s .load (s.quadAt p 0 + s.quadAt p 3) 16 hd → TableOpen s .atomic sv 64 p →
      let slot := (s.quadAt p 4).toNat - 1
      ∃ t, exec (.apop f) s = .next t ∧ WroteG s t f.vd (BitVec.ofNat 64 slot) ∧ OnlyUnits s t ∧ t.un = s.un
        ∧ t.h.ct = { s.h.ct with popped := some { off := s.quadAt p 3, count := fieldOf (s.quadAt hd 0) 0 32
                                                  sew := fieldOf (s.quadAt hd 0) 32 2, slot := slot, arrived := false } }
        ∧ t.mem = s.mem.put (p.pa + 16) (leBytes 8 (s.quadAt p 3).toNat ++ leBytes 8 (s.quadAt hd 1).toNat ++ leBytes 8 slot)))
  ∧ (∀ (f : WFields) (s : State) (sv : Word) (p : Place) (at_ : Nat → Place), Begins s .apush f → s.h.ct.stack = some sv →
    TableOpen s .load sv 64 p → TableOpen s .atomic sv 64 p →
    let q (k : Nat) : Word := s.quadAt p k
    let n := s.sew / 8
    let size := 64 + 64 * ((s.vl * s.sew + 511) / 512)
    let base := q 0 + q 2
    let word (m : Memory) (k v : Nat) : Memory := m.putNum (p.pa + 8 * k) 8 v
    let data (e : Nat) : Nat := (at_ ((64 + e * n) / 64)).pa + (64 + e * n) % 64
    LinesOpen s .store base (size / 64) at_ →
    ((q 1).toNat < (q 2).toNat + size → exec (.apush f) s = Trapped (s.setVstart 0) { code := 13, val := sv })
    ∧ ((q 2).toNat + size ≤ (q 1).toNat → (q 4).toNat + 1 < 2 ^ 64 →
      (∀ i, i < size / 64 → (at_ i).pa + 64 ≤ p.pa ∨ p.pa + 64 ≤ (at_ i).pa) →
      Apart s ((p.pa, 64) :: linesRuns (size / 64) at_) .load sv p →
      (∀ i, i < size / 64 → Apart s ((p.pa, 64) :: linesRuns (size / 64) at_) .store (base + BitVec.ofNat 64 (64 * i)) (at_ i)) →
      (s.h.vec.pm = true → ∀ e, e < s.vl → s.elem false f.vd.toNat s.sew e = s.elem true f.vd.toNat s.sew e) →
      ∃ t, exec (.apush f) s = .next t ∧ WroteG s t f.vs3 (q 4) ∧ OnlyUnits s t ∧ t.h.ct = { s.h.ct with popped := none }
        ∧ t.un = { s.un with spilled := s.un.spilled.filter fun x => !(x.own == s.h.own && x.slot == (q 4).toNat) }
        ∧ t.mem =
          let m := word (word (word s.mem 2 ((q 2).toNat + size)) 3 (q 2).toNat) 4 ((q 4).toNat + 1)
          let m := m.put (at_ 0).pa (leBytes 8 (s.vl + s.h.vec.sewCode * 2 ^ 32) ++ leBytes 8 (q 3).toNat ++ List.replicate 48 0)
          (List.range s.vl).foldl (fun m e => m.put (data e) (leBytes n (s.elem false f.vd.toNat s.sew e))) m))

/-! ### Rated sets -/

/-- `swbegin` refuses a record with the code of R266, or opens the sweep: it writes the members that the sweep visits into the timetable and
the sweep state into the record, and gives their count (R265, R266); the set stands active as its record describes it, in the address space
that activated it, with the frames in which its rate unit acts while a page of it is absent (R267, R364). `swnext` opens the next member for
the hart, or says that none is left or no sweep is open (R268). `swcommit` applies the rate rule to the hart's member and closes it (R270). `swend` closes the sweep once every
member is committed (R271). The order of translations that the premises leave open, how a wait shows, that the record may lie on a host-coherent
page, and which permission a plane needs are the model's (log entries 8, 49, 118 and 119). -/
def Obligations.SweepsRunTheirCourse : Prop :=
  (∀ (f : WFields) (s : State) (p : Place), Begins s .swbegin f → TableOpen s .load (s.g f.vs1) 256 p → s.mem.wf →
    let n := s.g f.vs3
    let q := s.recQuads p.pa
    (∀ k, s.sweepRefusal p.pa q n = some k → ∃ t, exec (.swbegin f) s = .next t ∧ WroteG s t f.vd (BitVec.ofNat 64 (2 ^ 63 + k))
      ∧ OnlyUnits s t ∧ UnitsStand s t ∧ t.mem = s.mem ∧ t.ca = s.ca)
    ∧ (∀ (planes : Nat → Fin 4 → Bool → Place) (rates : Nat → Place) (slots : Nat → Place), s.sweepRefusal p.pa q n = none →
      TableOpen s .atomic (s.g f.vs1) 256 p →
      let active := s.un.sets.find? fun r => r.recPa == p.pa
      let r := { s.newSet p.pa q with recSq := p.sq, root := (active.map RatedSet.root).getD s.h.su.ptroot }
      let rate (m : Nat) : Nat := (s.mem.get (rates (m / 2)).pa).toNat / (if m % 2 = 0 then 1 else 16) % 8
      let visited := (List.range r.count).filter fun m => n.toNat % 2 ^ rate m == 0
      let timetable (i : Nat) : Word := s.quadAt p 4 + BitVec.ofNat 64 (4 * i)
      let ends (m : Nat) (k : Fin 4) (last : Bool) : Word := r.addr k m (if last then 2 ^ r.msz - 1 else 0)
      (∀ m k last, m < r.count → Translates s (if k = 0 then .load else .atomic) (ends m k last) (planes m k last)) →
      (∀ i, i < (r.count + 1) / 2 → TableOpen s .load (r.rtab + BitVec.ofNat 64 i) 1 (rates i)
        ∧ ∀ pages, (s.setPlace { r with pages := pages } (r.rtab + BitVec.ofNat 64 i)).map Place.pa = some (rates i).pa) →
      (∀ i, i < visited.length → TableOpen s .store (timetable i) 4 (slots i)) →
      ∃ t pages, exec (.swbegin f) s = .next t ∧ WroteG s t f.vd (BitVec.ofNat 64 visited.length) ∧ OnlyUnits s t ∧ t.h.ct = s.h.ct
        ∧ (let frame (va : Word) : Option Nat := (pages.find? (·.1 == va.toNat / 2 ^ 16)).map fun q => q.2.1 + va.toNat % 2 ^ 16
           { r with pages := pages } ∈ t.un.sets
            ∧ (∀ m k last, m < r.count → frame (ends m k last) = some (planes m k last).pa)
            ∧ ∀ i, i < (r.count + 1) / 2 → frame (r.rtab + BitVec.ofNat 64 i) = some (rates i).pa)
        ∧ (∀ x, x.recPa ≠ p.pa → (x ∈ t.un.sets ↔ x ∈ s.un.sets)) ∧ t.un = { s.un with sets := t.un.sets }
        ∧ t.mem =
          let m := visited.zipIdx.foldl (fun m x => m.put (slots x.2).pa (leBytes 4 x.1)) s.mem
          m.put (p.pa + 200) (leBytes 8 (2 ^ 63 + n.toNat % 2 ^ 63) ++ leBytes 8 0 ++ leBytes 8 visited.length ++ leBytes 8 0)))
  ∧ (∀ (f : WFields) (s : State) (p : Place), Begins s .swnext f → TableOpen s .load (s.g f.vs1) 256 p →
    let closed : Prop := fieldOf (s.quadAt p 25) 63 1 = 0 ∨ ∀ r ∈ s.un.sets, r.recPa ≠ p.pa
    let cur := (s.quadAt p 26).toNat
    let quiet (t : State) : Prop := OnlyUnits s t ∧ UnitsStand s t ∧ t.mem = s.mem ∧ t.ca = s.ca
    (closed → ∃ t, exec (.swnext f) s = .next t ∧ WroteG s t f.vd (-2) ∧ quiet t)
    ∧ (¬ closed → (s.quadAt p 27).toNat ≤ cur → ∃ t, exec (.swnext f) s = .next t ∧ WroteG s t f.vd (-1) ∧ quiet t)
    ∧ (∀ e, ¬ closed → cur < (s.quadAt p 27).toNat → TableOpen s .atomic (s.g f.vs1) 256 p → TableOpen s .load (s.quadAt p 4 + BitVec.ofNat 64 (4 * cur)) 4 e →
      let m := s.mem.num e.pa 4
      let n := fieldOf (s.quadAt p 25) 0 63
      ∃ t, exec (.swnext f) s = .next t ∧ WroteG s t f.vd (BitVec.ofNat 64 (n % 2 ^ 32 * 2 ^ 32 + m)) ∧ OnlyUnits s t
        ∧ t.h.ct = { s.h.ct with member := some ⟨p.pa, s.g f.vs1, m, n⟩ }
        ∧ t.un = { s.un with sets := s.un.sets.map fun r =>
            if r.recPa = p.pa then { r with visits := r.visits ++ [⟨s.h.own, m, n, [], 0⟩] } else r }
        ∧ t.mem = s.mem.putNum (p.pa + 208) 8 (cur + 1)))
  ∧ (∀ (f : WFields) (s : State) (o : OpenMember), Begins s .swcommit f → s.h.ct.member = some o →
    s.drain.vectorPending = false → s.drain.scalarPending = false →
    let u := s.drain
    (u.un.sets.find? (fun r => r.recPa == o.recPa) = none → ∃ t, exec (.swcommit f) s = .next t ∧ WroteG u t f.vd 0
      ∧ t.h.ct = { s.h.ct with member := none } ∧ t.mem = u.mem ∧ t.un = u.un ∧ t.h.vec.v = s.h.vec.v ∧ Advanced u t 8)
    ∧ (∀ r v p, u.un.sets.find? (fun r => r.recPa == o.recPa) = some r → r.visits.find? (fun v => v.own == s.h.own) = some v →
      TableOpen u .atomic (r.rtab + BitVec.ofNat 64 (o.m / 2)) 1 p → u.heldAtHome (r.recPa + 224) 8 = false →
      (∀ k ∈ [0, 2, 3, 28], u.poisoned (r.recPa + 8 * k) 8 = false) →
      let w := (List.range (2 ^ r.msz)).foldl
        (fun x e => if v.measured.contains e then x else x.putPlane r s.h.hid v.own (u.org 0) 1 v.m e (0, false)) u
      let quad (k : Nat) : Word := w.mem.quad (r.recPa + 8 * k)
      let above (a b : Word) : Prop := (Fmt.f64.value b.toNat).below (Fmt.f64.value a.toNat)
      let old := w.rateEntry r v.m
      let rmax := fieldOf (quad 0) 40 3
      let byte := (w.mem.get p.pa).toNat
      let put (new : Nat) : Nat := if v.m % 2 = 0 then byte / 16 * 16 + new % 16 else byte % 16 + new % 16 * 16
      ∀ new, (2 ^ 3 ≤ old → new = old) →
        (old < 2 ^ 3 → above v.delta (quad 3) → 0 < old → new = old - 1) →
        (old < 2 ^ 3 → ¬ (above v.delta (quad 3) ∧ 0 < old) → above (quad 2) v.delta → old < rmax → v.n % 2 ^ (old + 1) = 0 → new = old + 1) →
        (old < 2 ^ 3 → ¬ (above v.delta (quad 3) ∧ 0 < old) → ¬ (above (quad 2) v.delta ∧ old < rmax ∧ v.n % 2 ^ (old + 1) = 0) → new = old) →
        ∃ t, exec (.swcommit f) s = .next t ∧ WroteG u t f.vd (BitVec.ofNat 64 new) ∧ t.h.ct = { s.h.ct with member := none }
          ∧ t.un.sets = u.un.sets.map (fun x => if x.recPa = r.recPa then
              { x with committed := x.committed ++ [v.m], visits := x.visits.filter fun y => y.own != v.own } else x)
          ∧ (let m := w.mem.put p.pa (leBytes 1 (put new))
             t.mem = m.putNum (r.recPa + 224) 8 ((m.quad (r.recPa + 224)).toNat + 1))
          ∧ t.h.vec.v = s.h.vec.v ∧ t.h.mx = s.h.mx ∧ Advanced u t 8))
  ∧ (∀ (f : WFields) (s : State) (p : Place), Begins s .swend f → TableOpen s .load (s.g f.vs1) 256 p →
    let opened : Prop := fieldOf (s.quadAt p 25) 63 1 = 1
    let n := fieldOf (s.quadAt p 25) 0 63
    (¬ opened → ∃ t, exec (.swend f) s = .next t ∧ WroteG s t f.vd (BitVec.ofNat 64 (2 ^ 63 + 3)) ∧ OnlyUnits s t ∧ UnitsStand s t
      ∧ t.mem = s.mem ∧ t.ca = s.ca)
    ∧ (opened → s.quadAt p 28 ≠ s.quadAt p 27 → exec (.swend f) s = .next (s.onDbg fun d => { d with stalled := true }))
    ∧ (opened → s.quadAt p 28 = s.quadAt p 27 → s.release.2 = true → TableOpen s .atomic (s.g f.vs1) 256 p →
      let u := s.release.1
      TableOpen u .atomic (s.g f.vs1) 256 p →
      ∃ t, exec (.swend f) s = .next t ∧ WroteG u t f.vd (BitVec.ofNat 64 n) ∧ OnlyUnits u t ∧ t.h.ct = u.h.ct
        ∧ t.un = { u.un with sets := if f.imm.toNat % 2 = 1 then u.un.sets.filter fun r => r.recPa != p.pa else u.un.sets }
        ∧ t.mem = u.mem.put (p.pa + 192) (leBytes 8 n ++ leBytes 8 n)))

/-- `rtget` reads a member's entry of the rate table; `rtset` writes it and gives 1, or gives 0 with nothing written while a sweep is open or
PUB does not divide by 2^r (R264, R272). A member at or beyond COUNT is an access fault at its address, code 7, of
the model's SUB (log entry 120). -/
def Obligations.RateEntriesAreReadAndSet : Prop :=
  ∀ (set : Bool) (f : WFields) (s : State) (p : Place), Begins s (if set then .rtset else .rtget) f → TableOpen s .load (s.g f.vs1) 256 p →
    let i : Instr := if set then .rtset f else .rtget f
    let m := (s.g f.vs3).toNat
    let va := s.quadAt p 1 + BitVec.ofNat 64 (m / 2)
    let refused : Prop := fieldOf (s.quadAt p 25) 63 1 = 1 ∨ (s.quadAt p 24).toNat % 2 ^ (f.imm.toNat % 8) ≠ 0
    let quiet (t : State) : Prop := OnlyUnits s t ∧ UnitsStand s t ∧ t.mem = s.mem ∧ t.ca = s.ca
    (fieldOf (s.quadAt p 0) 0 32 ≤ m → exec i s = Trapped (s.setVstart 0) { code := 7, val := va })
    ∧ (∀ e, set = false → m < fieldOf (s.quadAt p 0) 0 32 → TableOpen s .load va 1 e →
      ∃ t, exec i s = .next t ∧ quiet t ∧ WroteG s t f.vd
        (BitVec.ofNat 64 (if m % 2 = 0 then (s.mem.get e.pa).toNat % 16 else (s.mem.get e.pa).toNat / 16)))
    ∧ (set = true → m < fieldOf (s.quadAt p 0) 0 32 → refused → ∃ t, exec i s = .next t ∧ quiet t ∧ WroteG s t f.vd 0)
    ∧ (∀ e, set = true → m < fieldOf (s.quadAt p 0) 0 32 → ¬ refused → TableOpen s .atomic va 1 e →
      let b := (s.mem.get e.pa).toNat
      ∃ t, exec i s = .next t ∧ WroteG s t f.vd 1 ∧ OnlyUnits s t ∧ UnitsStand s t
        ∧ t.mem = s.mem.putNum e.pa 1 (if m % 2 = 0 then b / 16 * 16 + f.imm.toNat % 16 else b % 16 + f.imm.toNat % 16 * 16))

/-! ### VPRIV and convoys -/

/-- In supervisor mode `vsave` and `vsave.msk` write an image of registers, and `vsave.mx` and `vsave.ctl` one that stands for the state that
it was formed from (R355). `vrest` and `vrest.msk` load registers from an image, mask bits as far as the hart's groups reach (R357),
`vrest.ctl` and `vrest.mx` restore the state of an image that stands in memory (R355, R391); here the units that `vrest.mx` needs are the hart's or free. What the bytes of an image of kind 2 or 3
are, and that it must stand unaltered, are the model's choice (log entry 64); so is the reading of vrest (log entry 65). -/
def Obligations.ImagesSaveAndRestore : Prop :=
  (∀ (op : WOp) (f : WFields) (s : State) (n : Nat) (bytes : Nat → Byte) (images : List Image) (at_ : Nat → Place), PrivBegins s op f →
    (match op with
      | .vsave => n = 512 * s.h.groups ∧ images = [] ∧ ∀ i, bytes i = regByte (s.h.vec.reg f.vd.toNat) i
      | .vsaveMsk => n = 18432 ∧ images = [] ∧
        ∀ i, bytes i = regByte (if i / 2048 < 8 then s.h.vec.mask (i / 2048) else s.h.vec.mf) (i % 2048)
      | .vsaveMx => n = (if s.h.mx.tshape.getLsbD 48 then 1179648 else 147456) ∧ images = [.matrix s.h.hid.core s.h.mx] ∧
        ∀ i, bytes i = Config.imageByte s.un.images.length i
      | .vsaveCtl => n = 512 ∧ images = [.control s.h.ct s.h.ev s.h.sc] ∧ ∀ i, bytes i = Config.imageByte s.un.images.length i
      | _ => False) →
    LinesOpen s .store (s.g f.vs3) (n / 64) at_ →
    (∀ i, i < n / 64 → Apart s (linesRuns (n / 64) at_) .store (s.g f.vs3 + BitVec.ofNat 64 (64 * i)) (at_ i)) →
    ∃ t, exec (op.instr f) s = .next t ∧ PrivFrame s t ∧ PrivQuiet s t ∧ t.h.vec = s.h.vec ∧ t.h.mx = s.h.mx
      ∧ t.un = { s.un with images := s.un.images ++ images }
      ∧ t.h.ct = (if op = .vsaveCtl then { s.h.ct with posted := [] } else s.h.ct)
      ∧ t.mem = putLinesAt s.mem at_ bytes (n / 64))
  ∧ (∀ (f : WFields) (s : State) (at_ : Nat → Place), PrivBegins s .vrest f →
    let gs := (s.g f.vs1).toNat
    let k := 8 * min gs s.h.groups
    (gs = 1 ∨ gs = 2 ∨ gs = 4) → LinesOpen s .load (s.g f.vs3) k at_ → s.ca.chan = [] →
    ∃ t, exec (.vrest f) s = .next t ∧ PrivFrame s t ∧ PrivQuiet s t ∧ t.h.mx = s.h.mx ∧ t.h.ct = s.h.ct ∧ t.mem = s.mem ∧ t.ca = s.ca
      ∧ t.un = s.un ∧ t.h.vec = { s.h.vec with v := t.h.vec.v } ∧ (t.h.vec.reg f.vd.toNat).toNat = leNat (s.lineBytes at_ k)
      ∧ ∀ r, r < 32 → r ≠ f.vd.toNat → t.h.vec.reg r = s.h.vec.reg r)
  ∧ (∀ (f : WFields) (s : State) (at_ : Nat → Place), PrivBegins s .vrestMsk f → LinesOpen s .load (s.g f.vs3) 288 at_ → s.ca.chan = [] →
    let bytes := s.lineBytes at_ 288
    ∃ t, exec (.vrestMsk f) s = .next t ∧ PrivFrame s t ∧ PrivQuiet s t ∧ t.h.mx = s.h.mx ∧ t.h.ct = s.h.ct ∧ t.mem = s.mem ∧ t.ca = s.ca
      ∧ t.un = s.un ∧ t.h.vec = { s.h.vec with m := t.h.vec.m, mf := t.h.vec.mf }
      ∧ (∀ k, k < 8 → (t.h.vec.mask k).toNat = leNat ((bytes.drop (2048 * k)).take 2048) % 2 ^ (4096 * s.h.groups))
      ∧ t.h.vec.mf.toNat = leNat (bytes.drop (2048 * 8)) % 2 ^ (4096 * s.h.groups))
  ∧ (∀ (f : WFields) (s : State) (at_ : Nat → Place) (k : Nat) (ct : Control) (ev : Events) (sc : Scalar), PrivBegins s .vrestCtl f →
    LinesOpen s .load (s.g f.vs3) 8 at_ → s.ca.chan = [] → ImageStands s at_ k (.control ct ev sc) →
    ∃ t, exec (.vrestCtl f) s = .next t ∧ PrivFrame s t ∧ RegistersStand s t ∧ t.h.su = s.h.su ∧ t.h.vec = s.h.vec ∧ t.h.mx = s.h.mx
      ∧ t.mem = s.mem ∧ t.ca = s.ca ∧ t.un = s.un ∧ ControlRestored s t ct ev sc)
  ∧ (∀ (f : WFields) (s : State) (at_ : Nat → Place) (k core : Nat) (mx : Matrix), PrivBegins s .vrestMx f →
    let x : Image := .matrix core mx
    LinesOpen s .load (s.g f.vs3) (x.size / 64) at_ → s.ca.chan = [] → ImageStands s at_ k x →
    (mx.hold = .core → UnitReady s) →
    (mx.hold = .classroom → ∀ c ∈ roomCores s.h.hid, (s.unitAt c).holder = some s.h.own ∨
      ((s.unitAt c).holder = none ∧ ((s.unitAt c).waiters = [] ∨ (s.unitAt c).waiters.head? = some s.h.own))) →
    ∃ t, exec (.vrestMx f) s = .next t ∧ PrivFrame s t ∧ PrivQuiet s t ∧ t.h.vec = s.h.vec ∧ t.h.ct = s.h.ct ∧ t.mem = s.mem ∧ t.ca = s.ca
      ∧ t.un = { s.un with matrix := t.un.matrix }
      ∧ (mx.hold ≠ .core ∨ core % 8 = s.h.hid.core % 8 → t.h.mx = mx)
      ∧ (mx.hold = .core → (t.unitAt s.h.hid.core).holder = some s.h.own
          ∧ t.h.mx = { mx with acc := mx.acc.map fun a => a.move (core % 8) (s.h.hid.core % 8) })
      ∧ (mx.hold = .classroom → ∀ c ∈ roomCores s.h.hid, (t.unitAt c).holder = some s.h.own)
      ∧ (mx.hold = .none → ∀ u ∈ t.un.matrix, u.holder ≠ some s.h.own))

/-- `lgrant` completes in supervisor mode. It gives the greatest of 4, 2 and 1 groups up to its request that the core can give, in order of
its own groups and then free ones, and writes their count; a bad request and one that nothing can meet write 0 and change nothing (R354).
Where the number of groups changes, the registers keep their low bits, their other bits become zero (R186), and VDIRTY[40:0] is set
(R350). That VL stands as it is, above the new VLMAX too, is the model's choice (log entry 70). -/
def Obligations.LanesAreGranted : Prop :=
  ∀ (f : WFields) (s : State), PrivBegins s .lgrant f →
    let q := (s.g f.vs1).toNat
    let own := groupList s.h.su.lgMap
    let more := (List.range 4).filter fun i => !own.contains i && decide ((s.harts.countP fun h => h.hid.core == s.h.hid.core && h.su.lgMap.getLsbD i) < 2)
    let can (g : Nat) : Prop := (g = 1 ∨ g = 2 ∨ g = 4) ∧ g ≤ q ∧ g ≤ own.length + more.length
    let good : Prop := q = 1 ∨ q = 2 ∨ q = 4
    (∃ t v, exec (.lgrant f) s = .next t ∧ WroteG s t f.vd v ∧ PrivFrame s t ∧ Advanced s t 8)
    ∧ (∀ g, good → can g → (∀ k, can k → k ≤ g) →
      ∃ t, exec (.lgrant f) s = .next t ∧ WroteG s t f.vd (BitVec.ofNat 64 g) ∧ PrivFrame s t ∧ Advanced s t 8
        ∧ (∀ i, i < 4 → (t.h.su.lgMap.getLsbD i = true ↔ i ∈ (own ++ more).take g))
        ∧ t.h.mx = s.h.mx ∧ t.h.ct = s.h.ct ∧ t.mem = s.mem
        ∧ (let cut (x y : VReg) : Prop := ∀ b, y.getLsbD b = (x.getLsbD b && decide (g = own.length ∨ b < 4096 * min g own.length))
           (∀ r, r < 32 → cut (s.h.vec.reg r) (t.h.vec.reg r)) ∧ (∀ k, k < 8 → cut (s.h.vec.mask k) (t.h.vec.mask k)) ∧ cut s.h.vec.mf t.h.vec.mf)
        ∧ t.h.vec = { s.h.vec with v := t.h.vec.v, m := t.h.vec.m, mf := t.h.vec.mf }
        ∧ (g ≠ own.length → t.h.su.vdirty = s.h.su.vdirty ||| BitVec.ofNat 43 (2 ^ 41 - 1))
        ∧ (g = own.length → t.h.vec = s.h.vec))
    ∧ ((¬ good ∨ ∀ k, ¬ can k) → ∃ t, exec (.lgrant f) s = .next t ∧ WroteG s t f.vd 0 ∧ PrivFrame s t ∧ Advanced s t 8
        ∧ t.h.su = s.h.su ∧ t.h.vec = s.h.vec ∧ t.h.mx = s.h.mx ∧ t.h.ct = s.h.ct ∧ t.mem = s.mem)

/-- A convoy that passes every check and starts from the beginning, whose slots complete one after another, completes with their effects in
that order, 4 + 8n bytes on (R141, R143, R195, R196). A drain among the slots runs first and is left to `DrainsPassOrFail`. The scalar
stream may place the single or convoy at its pc last in the vector queue instead, once it has settled, with VL and VTYPE as they stand, and go
on after it (R306, R185, R336); a `vldff` stands there as the `vld` of the elements that it loads, and leaves VL at their number (R216). Any entry
may go on, up to given progress: it is freed when it completes, the other entries stand, and the scalar registers, VL, VTYPE and the progress
of the scalar stream stand but for FFLAGS, into which flags are ORed, and SRSTEP (R62, R67); so does an element of an entry that performs ahead
of its turn (R108). That slots run one after another, and what may be placed and when, are the model's choice (log entries 7, 23 and 29). -/
def Obligations.ConvoysRunTheirSlots : Prop :=
  (∀ (nm2 u0 u1 u2 u3 u4 u5 : BitVec 3) (s : State) (ss : List Slot) (t : State),
    let us := codesOf [u0, u1, u2, u3, u4, u5]
    let hw := headerWord nm2.toNat us
    convoySlotsM hw nm2.toNat us s = .ok (ss, s) → s.convoyFault hw ss = none →
    s.h.vec.vstart = 0 → fieldOf s.h.vec.cpv0 63 1 = 0 → s.h.dbg.run ≠ some true → (∀ x ∈ ss, x.op ≠ .mdrain) →
    SlotsRun s.h.sc.g s.h.sc.srstep s.vl [] ss s t →
    ∃ u, exec (.convoy nm2 u0 u1 u2 u3 u4 u5) s = .next u ∧ Advanced t u (4 + 8 * ss.length)
      ∧ u.h.vec.vstart = 0 ∧ u.h.vec.cpv0 = 0 ∧ u.h.vec.cpv1 = 0
      ∧ u = { t with h := { t.h with
          sc := u.h.sc, su := { t.h.su with vdirty := u.h.su.vdirty }, ct := { t.h.ct with begun := none }
          vec := { t.h.vec with vstart := 0, cpv0 := 0, cpv1 := 0 } } }
      ∧ RegistersStand t u ∧ SpecialsStand t.h.sc u.h.sc)
  ∧ (∀ s u : State, s.place = some u → ∃ ss t q, headSlotsM s = .ok (ss, t) ∧
    let w := t.loadsBefore ss
    (s.h.loads = [] → w = t) ∧ (ss.all mayQueue = true ∧ (w.foreseen ss).settles ss = true)
    ∧ u.h = { w.h with
        sc := u.h.sc, su := { w.h.su with vdirty := u.h.su.vdirty }, vec := { w.h.vec with vl := u.h.vec.vl }, queue := w.h.queue ++ [q] }
    ∧ q.vl = u.h.vec.vl ∧ q.vtype = w.h.vec.vtype ∧ q.vstart = 0
    ∧ q.convoy = ss.map (fun x => if x.op = .vldff then { x with op := .vld } else x)
    ∧ ((∀ x ∈ ss, x.op ≠ .vldff) → u.h.vec = w.h.vec ∧ u.h.su = w.h.su)
    ∧ Advanced w u (lengthOfSlots ss) ∧ RegistersStand w u ∧ SpecialsStand w.h.sc u.h.sc)
  ∧ (∀ (s : State) (k : Nat) (q : Queued), s.h.queue[k]? = some q →
    let stands (t : State) : Prop := t.h.sc = { s.h.sc with fflags := t.h.sc.fflags, srstep := t.h.sc.srstep }
      ∧ s.h.sc.fflags ||| t.h.sc.fflags = t.h.sc.fflags
      ∧ t.h.vec.vl = s.h.vec.vl ∧ t.h.vec.vtype = s.h.vec.vtype ∧ t.h.vec.vstart = s.h.vec.vstart
      ∧ t.h.vec.cpv0 = s.h.vec.cpv0 ∧ t.h.vec.cpv1 = s.h.vec.cpv1
    (∀ ps, let t := s.performEntry k ps
      stands t ∧ (t.h.queue = s.h.queue.eraseIdx k ∨ ∃ q', t.h.queue = s.h.queue.set k q'))
    ∧ (∀ j e, let t := s.performElement k j e
      stands t ∧ (t.h.queue = s.h.queue ∨ ∃ q', t.h.queue = s.h.queue.set k { q with ahead := q' })))

/-- The checks of a W instruction that stands alone come in the order of R151, and each traps precisely with nothing changed: a VPRIV class in
user mode (code 2, R335), the absence of vector or matrix state in user mode (codes 18 and 19, R351), then progress that cannot be resumed,
VILL, alignment, overlap and the instruction's own rules (code 1, R145, R150, R192, R194), then its own fault. What counts as progress that
cannot be resumed is as the model reads R26 and R195 (log entry 21). -/
def Obligations.WideTrapsComeInOrder : Prop :=
  ∀ (op : WOp) (f : WFields) (s : State) (e : Nat), f.defect op = none → encodeNat (op.instr f) = some e →
    let user : Prop := s.h.su.sup = false
    let trap (c : Nat) : Trap := { code := c, val := BitVec.ofNat 64 e }
    let absent : Prop := user ∧ (isPriv op = true ∨ s.h.su.va = true ∨ (s.h.su.mxa = true ∧ isMatrix op = true))
    let p := s.h.vec.vstart.toNat
    let stuck : Prop := fieldOf s.h.vec.cpv0 63 1 = 1 ∨ s.vl < p ∨ (s.isI op f = true ∧ p ≠ 0 ∧ p ≠ s.vl)
    let illegal : Prop := s.h.vec.vill = true ∨ alignedRuns s.h.vec op f = false ∨ overlapOk s.h.vec op f = false
      ∨ (semOf op).illegal s f = true
    (user → isPriv op = true → exec (op.instr f) s = Trapped s (trap 2))
    ∧ (user → isPriv op = false → s.h.su.va = true → exec (op.instr f) s = Trapped s (trap 18))
    ∧ (user → isPriv op = false → s.h.su.va = false → s.h.su.mxa = true → isMatrix op = true → exec (op.instr f) s = Trapped s (trap 19))
    ∧ (¬ absent → isPriv op = false → stuck ∨ illegal → exec (op.instr f) s = Trapped s (trap 1))
    ∧ (∀ t, ¬ absent → isPriv op = false → ¬ stuck → ¬ illegal → (semOf op).fault s f p = some t → exec (op.instr f) s = Trapped s t)

/-! ### Traps, status registers and configuration -/

/-- Trap entry saves the resume address, the cause, the value and the lane, PSTATE.LDN, the privilege and AE, and goes to the vector base in
supervisor mode with AE and LDN clear; g24-g31 and ULEMASK stand (R339, R345). An `eret` right after it goes back to where it came from
(R346). The batch of causes 9 and 34, and of a fetch from an absent page, is written at FBATCH.BASE (R369). The trace record of the entry
follows log entry 80; that the store buffer is not drained is the model's choice (log entry 19). A translation fault has read its table
entries, and wrong bits of theirs are corrected (R399).
An asynchronous cause is taken by such an entry at the pc (R344), here with nothing queued or issued; the step's argument is the model's (log
entry 87). -/
def Obligations.TrapEntrySavesTheState : Prop :=
  (∀ (s : State) (t : Trap) (epc : Word),
    let u := s.trapEntry t epc
    let low := epc &&& ~~~1
    (u.h.su.sepc = low ∧ u.h.su.scause.toNat = bit01 t.async * 2 ^ 16 + t.sub % 2 ^ 8 * 2 ^ 8 + t.code % 2 ^ 8
      ∧ u.h.su.sval = t.val ∧ u.h.su.slane = t.lane ∧ u.h.su.sldn = s.h.sc.ldn ∧ u.h.su.pprv = s.h.su.sup ∧ u.h.su.pae = s.h.su.ae
      ∧ u.h.su.ae = false ∧ u.h.su.sup = true)
    ∧ u.h.sc = { s.h.sc with ldn := 0, pc := s.h.su.stvec } ∧ u.h.ev = { s.h.ev with waiting := false }
    ∧ u.h.vec = s.h.vec ∧ u.h.mx = s.h.mx ∧ u.h.ct = s.h.ct ∧ u.h.dbg = s.h.dbg ∧ u.h.buf = s.h.buf ∧ u.h.mark = s.h.mark
    ∧ (∃ v, exec .eret u = .next v ∧ v.h.sc = { s.h.sc with pc := low } ∧ v.h.su.sup = s.h.su.sup ∧ v.h.su.ae = s.h.su.ae
        ∧ v.h.ev = u.h.ev ∧ v.mem = u.mem)
    ∧ (t.code ≠ 9 → t.code ≠ 34 → t.batch = [] →
        OnlyTraced (if t.code ∈ [3, 7, 8, 10] then s.faultWalked t else s) u ∧ u.h.pend = s.h.pend
        ∧ u.h.su = { s.h.su with
            sepc := u.h.su.sepc, scause := u.h.su.scause, sval := t.val, slane := t.lane, sldn := s.h.sc.ldn, pprv := s.h.su.sup
            pae := s.h.su.ae, ae := false, sup := true })
    ∧ ((t.code = 9 ∨ t.code = 34 ∨ t.batch ≠ []) →
        let base := s.h.su.fbase.toNat * 256
        let es := t.batch.take 16
        u.h.su.fcount.toNat = es.length ∧ u.h.su.fmore = (t.more || decide (16 < t.batch.length))
        ∧ (es ≠ [] → s.poolOk s.h.su.part base = true → s.poolOk s.h.su.part (base + 255) = true → s.mem.wf →
            (∀ (i : Nat) (r : Trace), s.dev.trace[i]? = some r → r.size = 0) →
            u.mem.bytes base (16 * es.length) = es.flatMap BatchEntry.bytes ∧ MemoryOutside s u base (16 * es.length))))
  ∧ (∀ (s : State) (c : AsyncCause), s.h.queue = [] → s.h.loads = [] → s.h.takable = some c → ∃ t, exec (.asyncTrapTaken []) s = .next t
      ∧ t.h.su.sup = true ∧ t.h.su.ae = false ∧ t.h.su.sval = c.sval ∧ t.h.su.sepc = s.h.sc.pc &&& ~~~1
      ∧ t.h.su.scause.toNat = 2 ^ 16 + c.sub % 2 ^ 8 * 2 ^ 8 + c.code % 2 ^ 8 ∧ t.h.sc = { s.h.sc with ldn := 0, pc := s.h.su.stvec })

/-- `trap` in user mode takes cause 16 with its code in SVAL and the next address in SEPC, whatever the code; a code that names no service is
illegal in supervisor mode (R176, R389, R436). `brk` takes cause 17 at itself, or halts where debug halt is enabled (R177). `eret` returns
from the innermost context (R42, R178, R346). `wait event` waits for an event that can come, and else completes (R179). That another code
is illegal in supervisor mode is the model's reading (log entry 78), and how a wait shows is its choice (log entry 8).
A raised event is delivered at a boundary in user mode, whatever the vector queue holds (R41, R411), and the debugger halts and resumes a hart
in test state (R410). -/
def Obligations.CallsBreaksAndReturns : Prop :=
  (∀ (i : Instr) (c : BitVec 12) (s : State), callOf i = some c → s.h.su.sup = false →
    exec i s = .next (s.trapEntry { code := 16, val := c.setWidth 64 } (s.h.sc.pc + 4)))
  ∧ (∀ (c : BitVec 12) (s : State), s.h.su.sup = true → c ∉ [0x000, 0x001, 0x010, 0x011] →
    ∃ w, encodeNat (.trap c) = some w ∧ exec (.trap c) s = Trapped s { code := 1, val := BitVec.ofNat 64 w })
  ∧ (∀ s : State, s.h.dbg.hen = false → exec .brk s = Trapped s { code := 17 })
  ∧ (∀ s : State, s.h.dbg.hen = true → ∃ t, exec .brk s = .next t ∧ OnlyTraced s t
      ∧ t.h = { s.h with dbg := { s.h.dbg with halted := true, reason := 2, dpc := s.h.sc.pc, run := none } })
  ∧ (∀ s : State, s.h.su.sup = true → ∃ t, exec .eret s = .next t
      ∧ t = { s with h := { s.h with
          su := { s.h.su with ae := s.h.su.pae, sup := s.h.su.pprv }, sc := { s.h.sc with pc := s.h.su.sepc, ldn := s.h.su.sldn } } })
  ∧ (∀ s : State, s.h.su.sup = false → s.h.ev.inHandler = true → ∃ t, exec .eret s = .next t
      ∧ (∀ r, r < 24 → t.h.sc.g[r]? = s.h.sc.g[r]?)
      ∧ (∀ k, k < 8 → t.h.sc.g[24 + k]? = s.h.ev.shadow[k]? ∧ t.h.ev.shadow[k]? = s.h.sc.g[24 + k]?)
      ∧ t = { s with h := { s.h with
          sc := { s.h.sc with g := t.h.sc.g, ldn := s.h.ev.ldn, pc := s.h.ev.epc }
          ev := { s.h.ev with shadow := t.h.ev.shadow, inHandler := false }
          weak := s.h.weak.map BadWord.exchanged, bad := s.h.bad.map BadWord.exchanged } })
  ∧ (∀ s : State, s.h.su.sup = false → s.h.ev.inHandler = false →
      ∃ w, encodeNat .eret = some w ∧ exec .eret s = Trapped s { code := 1, val := BitVec.ofNat 64 w })
  ∧ (∀ s : State, s.h.ev.mask = 0 ∨ s.h.ev.inHandler = true → ∃ t, exec .waitEvent s = .next t ∧ OnlyMoved s t ∧ Advanced s t 4)
  ∧ (∀ s : State, s.h.ev.mask ≠ 0 → s.h.ev.inHandler = false → ∃ t, exec .waitEvent s = .next t
      ∧ t = { s with h := { s.h with ev := { s.h.ev with waiting := true }, dbg := { s.h.dbg with stalled := true } } })
  ∧ (∀ (s : State) (code n : Nat), s.h.loads = [] → s.h.dbg.run = none → s.h.canDeliver = true → s.insideW = false → s.h.ev.First code n →
      ∃ t, exec .userEventDelivery s = .next t ∧ t.h.ev.code = BitVec.ofNat 4 code ∧ t.h.ev.info = BitVec.ofNat 32 n
        ∧ t.h.ev.inHandler = true ∧ t.h.sc.pc = s.h.ev.vec)
  ∧ (∀ (s : State) (hid : HartId), s.testAt hid = true → ∃ t, exec (.haltRequest hid) s = .next t ∧ t.mem = s.mem
      ∧ t.hartAt hid = { s.hartAt hid with dbg := { (s.hartAt hid).dbg with hreq := some 1 } })
  ∧ (∀ (s : State) (hid : HartId) (step stepk : Bool), s.testAt hid = true → (s.hartAt hid).dbg.halted = true →
      ∃ t, exec (.debugResume hid step stepk) s = .next t ∧ t.mem = s.mem ∧ (t.hartAt hid).dbg.halted = false
        ∧ (t.hartAt hid).sc.pc = (s.hartAt hid).dbg.dpc)

/-- A status register instruction traps with its encoding in SVAL where the register may not be reached: code 2 for a privileged one (R335), 18
and 19 for one of an absent state (R351). Otherwise `rdsr` reads, `wrsr` writes, `xchsr` does both, and they complete (R180). A register
keeps the bits that its layout gives it, and a write of one leaves every other as it reads, but for those that are tied to it (R2, R139,
R337). VL, VTYPE, VDIRTY, MODE and the registers with fields of mixed access follow their own rules (R39, R184, R188, R338, R348 to R350,
R368). An instruction that names a vector-state register
waits until every earlier vector instruction of the hart has completed (R68, R181). `quiet` is a `wrsr` of the supervisor, or a write of the
debugger, which set no VDIRTY bit; an `xchsr` sets them in either mode. How a wait shows (log entry 8), that a hart never reaches a firmware register, and that a write of
an equal value sets VDIRTY, are the model's readings (log entries 28 and 66).
The debugger's register access reaches the same registers as a supervisor's `wrsr` (R412); its read of one changes DSEL alone, whether the
hart is halted or not, by the model's reading (log entry 82). -/
def Obligations.StatusRegistersReadAndWrite : Prop :=
  (∀ (i : Instr) (s : State) (n w : Nat), statusOf i = some n → encodeNat i = some w →
    let trap (c : Nat) : Trap := { code := c, val := BitVec.ofNat 64 w }
    let barred : Prop := 0x200 ≤ n ∨ (s.h.su.sup = false ∧ 0x100 ≤ n)
    (barred → exec i s = Trapped s (trap 2))
    ∧ (¬ barred → s.h.su.sup = false → s.h.su.va = true → n ∈ vectorRegs → exec i s = Trapped s (trap 18))
    ∧ (¬ barred → s.h.su.sup = false → s.h.su.mxa = true → n ∈ matrixRegs → exec i s = Trapped s (trap 19)))
  ∧ (∀ (i : Instr) (s : State) (n : Nat), statusOf i = some n → StatusOpen s n → StatusWaits s n →
    exec i s = .next { s with h := { s.h with dbg := { s.h.dbg with stalled := true } } })
  ∧ (∀ (d : Reg) (n : BitVec 12) (s : State), StatusOpen s n.toNat → ¬ StatusWaits s n.toNat →
    ∃ t, exec (.rdsr d n) s = .next t ∧ WroteReg s t d (s.readStatus n.toNat) 4)
  ∧ (∀ (n : BitVec 12) (r : Reg) (s : State), StatusOpen s n.toNat → ¬ StatusWaits s n.toNat →
    let u := s.writeStatus s.h.su.sup n.toNat (s.g r)
    ∃ t, exec (.wrsr n r) s = .next t ∧ OnlyMoved u t ∧ Advanced u t 4)
  ∧ (∀ (d : Reg) (n : BitVec 12) (r : Reg) (s : State), StatusOpen s n.toNat → ¬ StatusWaits s n.toNat →
    let u := s.writeStatus false n.toNat (s.g r)
    ∃ t, exec (.xchsr d n r) s = .next t ∧ WroteReg u t d (s.readStatus n.toNat) 4)
  ∧ (∀ (s : State) (quiet : Bool) (n : Nat) (v : Word),
    let t := s.writeStatus quiet n v
    OnlyStatus s t
    ∧ (∀ m, keptBits n = some m → t.readStatus n = v &&& m)
    ∧ (n ∈ readOnlyRegs → t = s)
    ∧ (∀ k, k ≠ n → k ∉ coupledRegs n → t.readStatus k = s.readStatus k)
    ∧ t.h.su.vdirty = (if n = 0x109 then s.h.su.vdirty &&& ~~~(v.setWidth 43)
        else if quiet then s.h.su.vdirty
        else if n ∈ [0x000, 0x001, 0x002, 0x004, 0x013, 0x014] then s.h.su.vdirty ||| BitVec.ofNat 43 (2 ^ 41)
        else if n ∈ [0x009, 0x00A, 0x00B, 0x00C, 0x00D] then s.h.su.vdirty ||| BitVec.ofNat 43 (2 ^ 42) else s.h.su.vdirty)
    ∧ (n = 0x000 → (t.readStatus n).toNat = min v.toNat (vlmaxOf s.h.vec s.h.groups))
    ∧ (n = 0x001 → t.h.vec.vtype = v.setWidth 14 ∧ t.h.vec.vstart = s.h.vec.vstart
        ∧ t.h.vec.vl.toNat = min s.h.vec.vl.toNat (vlmaxOf t.h.vec s.h.groups) ∧ (t.readStatus 3).toNat = vlmaxOf t.h.vec s.h.groups)
    ∧ (n = 0x012 → (t.readStatus n).toNat = fieldOf v 0 4 + bit01 s.h.ev.inHandler * 2 ^ 8)
    ∧ (n = 0x013 → fieldOf v 63 1 = 0 → t.readStatus n = v &&& 0xF000FFFFFFFFFFFF)
    ∧ (n = 0x014 → fieldOf s.h.vec.cpv0 63 1 = 0 → t.readStatus n = v &&& 0xFFFFFFFF)
    ∧ (n = 0x100 → (t.readStatus n).toNat = fieldOf v 19 5 * 2 ^ 19 + fieldOf v 16 1 * 2 ^ 16 + fieldOf v 0 3)
    ∧ (n = 0x10A → (t.readStatus n).toNat = fieldOf v 1 2 * 2)
    ∧ (n = 0x10C → (t.readStatus n).toNat = fieldOf v 8 44 * 2 ^ 8 + bit01 s.h.su.fmore * 2 ^ 5 + s.h.su.fcount.toNat)
    ∧ (n = 0x10E →
        let stuck : Prop := s.h.vec.vstart ≠ 0 ∨ fieldOf s.h.vec.cpv0 63 1 = 1 ∨ s.h.vec.mf ≠ 0 ∨ ∃ p ∈ s.ca.parked, p.own = s.h.own
        (stuck → t = s) ∧ (¬ stuck → (t.readStatus n).toNat = fieldOf v 0 1)))
  ∧ (∀ (s : State) (dsel v : Word), s.testAt s.h.hid = true →
    (∃ t, exec (.debugRegisterRead s.h.hid dsel) s = .next t ∧ t = { s with h := { s.h with dbg := { s.h.dbg with dsel := dsel } } })
    ∧ (s.h.dbg.halted = true → fieldOf dsel 62 2 = 0 → fieldOf dsel 0 12 < 0x200 →
        ∃ t, exec (.debugRegisterWrite s.h.hid dsel v) s = .next t
          ∧ ∀ m, keptBits (fieldOf dsel 0 12) = some m → t.readStatus (fieldOf dsel 0 12) = v &&& m))

/-- `setvl` and `setvl.k` grant lanes and set VL to the least of AVL and VLMAX, VSTART to 0 and SHRUNK where VLMAX fell (R43, R44, R184, R186,
R386). A marked hart shrinks to its target at a `setvl`, and one with fewer groups than its launch asked for may grow while no entry waits;
`setvl.k` keeps the grant and the mark. A change of the number of groups waits for earlier vector instructions; then each register keeps its low bits and its other bits become zero.
`settype` sets VTYPE[11:0], clips VL and writes VLMAX (R188). With the vector state absent in user mode each traps (R351). That a write of
an equal value sets VDIRTY, how a wait shows, and which VLMAX is the previous one, that of the groups held after the last `setvl`, are the
model's readings (log entries 28, 8 and 95).
`lgrant` of the supervisor writes the number of groups that the hart then holds, or 0 with the grant as it was (R354). -/
def Obligations.VectorLengthIsGranted : Prop :=
  (∀ (i : Instr) (d a : Reg) (imm : BitVec 12) (s : State) (w : Nat), (i = .setvl d a ∨ i = .setvlK d a ∨ i = .settype d imm) →
    encodeNat i = some w → s.h.su.sup = false → s.h.su.va = true → exec i s = Trapped s { code := 18, val := BitVec.ofNat 64 w })
  ∧ (∀ (keep : Bool) (d a : Reg) (s : State), (s.h.su.sup = true ∨ s.h.su.va = false) →
    groupsOf (s.grant keep).1 ≠ s.h.groups → s.vectorBusy = true →
    exec (if keep then .setvlK d a else .setvl d a) s = .next { s with h := { s.h with dbg := { s.h.dbg with stalled := true } } })
  ∧ (∀ (keep : Bool) (d a : Reg) (s : State), (s.h.su.sup = true ∨ s.h.su.va = false) →
    (groupsOf (s.grant keep).1 = s.h.groups ∨ s.vectorBusy = false) →
    let own := groupList s.h.su.lgMap
    let more := (List.range 4).filter fun i => !own.contains i && decide ((s.harts.countP fun h => h.hid.core == s.h.hid.core && h.su.lgMap.getLsbD i) < 2)
    let can (g : Nat) : Prop := (g = 1 ∨ g = 2 ∨ g = 4) ∧ g ≤ s.h.ct.lanes ∧ g ≤ own.length + more.length ∧ own.length < g
    let grows : Prop := keep = false ∧ s.h.mark = none ∧ own.length < s.h.ct.lanes ∧ s.firstReady s.h.su.part = none
    ∃ t, exec (if keep then .setvlK d a else .setvl d a) s = .next t ∧
      let G := s.h.groups
      let G' := t.h.groups
      let cut (x y : VReg) : Prop := ∀ b, y.getLsbD b = (x.getLsbD b && decide (G = G' ∨ b < 4096 * min G G'))
      (keep = true → t.h.su.lgMap = s.h.su.lgMap ∧ t.h.mark = s.h.mark)
      ∧ (∀ n, keep = false → s.h.mark = some n → t.h.mark = none ∧ ∀ i, i < 4 → (t.h.su.lgMap.getLsbD i = true ↔ i ∈ own.take n))
      ∧ (∀ g, grows → can g → (∀ k, can k → k ≤ g) →
          ∀ i, i < 4 → (t.h.su.lgMap.getLsbD i = true ↔ i ∈ own ++ more.take (g - own.length)))
      ∧ (keep = false → s.h.mark = none → (¬ grows ∨ ∀ g, ¬ can g) → t.h.su.lgMap = s.h.su.lgMap)
      ∧ t.h.vec.vl.toNat = min (s.g a).toNat (vlmaxOf s.h.vec G') ∧ t.h.vec.vstart = 0
      ∧ t.g d = (if d = 0 then 0 else t.h.vec.vl.setWidth 64) ∧ (∀ r, r ≠ d → t.g r = s.g r) ∧ t.h.sc.ldn = d
      ∧ t.h.su.shrunk = decide (vlmaxOf s.h.vec G' < vlmaxOf s.h.vec s.h.ct.lastG)
      ∧ (∀ r, r < 32 → cut (s.h.vec.reg r) (t.h.vec.reg r)) ∧ (∀ k, k < 8 → cut (s.h.vec.mask k) (t.h.vec.mask k)) ∧ cut s.h.vec.mf t.h.vec.mf
      ∧ t.h.su.vdirty = s.h.su.vdirty ||| BitVec.ofNat 43 (if G = G' then 2 ^ 41 else 2 ^ 42 - 1)
      ∧ Advanced s t 4 ∧ SpecialsStand s.h.sc t.h.sc
      ∧ t = { s with h := { s.h with
          sc := t.h.sc, mark := t.h.mark, ct := { s.h.ct with lastG := G' }
          vec := { s.h.vec with v := t.h.vec.v, m := t.h.vec.m, mf := t.h.vec.mf, vl := t.h.vec.vl, vstart := 0 }
          su := { s.h.su with lgMap := t.h.su.lgMap, shrunk := t.h.su.shrunk, vdirty := t.h.su.vdirty } } })
  ∧ (∀ (d : Reg) (imm : BitVec 12) (s : State), (s.h.su.sup = true ∨ s.h.su.va = false) →
    ∃ t, exec (.settype d imm) s = .next t
      ∧ t.h.vec.vtype.toNat = s.h.vec.vtype.toNat / 2 ^ 12 * 2 ^ 12 + imm.toNat
      ∧ t.h.vec.vl.toNat = min s.h.vec.vl.toNat (vlmaxOf t.h.vec s.h.groups)
      ∧ t.g d = (if d = 0 then 0 else BitVec.ofNat 64 (vlmaxOf t.h.vec s.h.groups)) ∧ (∀ r, r ≠ d → t.g r = s.g r) ∧ t.h.sc.ldn = d
      ∧ t.h.su.vdirty = s.h.su.vdirty ||| BitVec.ofNat 43 (2 ^ 41) ∧ Advanced s t 4 ∧ SpecialsStand s.h.sc t.h.sc
      ∧ t = { s with h := { s.h with
          sc := t.h.sc, vec := { s.h.vec with vtype := t.h.vec.vtype, vl := t.h.vec.vl, vstart := 0 }
          su := { s.h.su with vdirty := t.h.su.vdirty } } })
  ∧ (∀ (f : WFields) (s : State), PrivBegins s .lgrant f → ∃ t v, exec (.lgrant f) s = .next t ∧ WroteG s t f.vd v ∧ Advanced s t 8
      ∧ (v = 0 → t.h.su.lgMap = s.h.su.lgMap) ∧ (v ≠ 0 → (v = 1 ∨ v = 2 ∨ v = 4) ∧ v ≤ s.g f.vs1 ∧ t.h.groups = v.toNat))

/-- `dset` loads a descriptor register from 64 bytes, and `dget` gives a quad of one (R224). `wmrd` gives PUB, `wmpub` raises it to its operand
as a release, and `wmwait` completes once PUB has reached its operand, or arms a reach (R227, R229); a number that the launch bound to no
cell is illegal (R227). `launch` submits the record at its address and writes the identifier (R182, R378 to R382). `u` is the state that
the bytes are read in. What a release applies, with what privilege the registrar reads, and how a wait shows are the model's (log entries
8, 17 and 67).
An armed reach that PUB has met is raised (R442), and a record written to a launch port is submitted (R380). -/
def Obligations.DescriptorsMarksAndLaunches : Prop :=
  (∀ (n : BitVec 4) (a : Reg) (imm : BitVec 12) (s : State) (p : Place),
    let va := s.g a + imm.signExtend 64
    Granted s .load va 64 p → p.mt ≠ 1 → s.ownHeld p.pa 64 = false → s.bufHeld p.pa 64 = false →
    (∀ l ∈ s.h.loads, meets l.pa l.n p.pa 64 = false) →
    let u := (s.markLeaf s.h.space va p false).settleScalar s.h p.pa 64
    ∃ t, exec (.dset n a imm) s = .next t ∧ t.h.vec.desc n = recordOf (u.scalarBytes u.h p.pa 64)
      ∧ (∀ k, k ≠ n → t.h.vec.desc k = s.h.vec.desc k)
      ∧ t = { u with h := { s.h with sc := t.h.sc, vec := { s.h.vec with d := t.h.vec.d } } }
      ∧ RegistersStand s t ∧ SpecialsStand s.h.sc t.h.sc ∧ Advanced s t 4 ∧ MemoryOutside s t p.entry 8)
  ∧ (∀ (d : Reg) (n : BitVec 4) (q : BitVec 3) (s : State),
    ∃ t, exec (.dget d n q) s = .next t ∧ WroteReg s t d ((s.h.vec.desc n).extractLsb' (64 * q.toNat) 64) 4)
  ∧ (∀ (i : Instr) (k : BitVec 4) (d a : Reg) (s : State) (w : Nat), (i = .wmpub k a ∨ i = .wmrd d k ∨ i = .wmwait k a) →
    s.wmCell k.toNat = 0 → encodeNat i = some w → exec i s = Trapped s { code := 1, val := BitVec.ofNat 64 w })
  ∧ (∀ (d : Reg) (k : BitVec 4) (s : State) (p : Place), s.wmCell k.toNat ≠ 0 → Granted s .load (s.wmCell k.toNat) 8 p → p.mt ≠ 1 →
    s.ownHeld p.pa 8 = false → s.bufHeld p.pa 8 = false → (∀ l ∈ s.h.loads, meets l.pa l.n p.pa 8 = false) →
    let u := (s.markLeaf s.h.space (s.wmCell k.toNat) p false).settleScalar s.h p.pa 8
    ∃ t, exec (.wmrd d k) s = .next t ∧ WroteReg u t d (BitVec.ofNat 64 (leNat (u.scalarBytes u.h p.pa 8))) 4
      ∧ MemoryOutside s t p.entry 8)
  ∧ (∀ (k : BitVec 4) (a : Reg) (s : State) (p : Place), s.wmCell k.toNat ≠ 0 → Granted s .atomic (s.wmCell k.toNat) 8 p → p.mt ≠ 1 →
    let r := (s.markLeaf s.h.space (s.wmCell k.toNat) p true).release
    r.2 = true → r.1.heldAtHome p.pa 8 = false → NoWatch r.1 → Unmeasured r.1 (s.wmCell k.toNat) 8 →
    ∃ t, exec (.wmpub k a) s = .next t ∧ t.mem.num p.pa 8 = max (r.1.mem.num p.pa 8) (s.g a).toNat ∧ MemoryOutside r.1 t p.pa 8
      ∧ t.h.buf = [] ∧ RegistersStand s t ∧ SpecialsStand s.h.sc t.h.sc ∧ Advanced s t 4 ∧ t.h.vec = s.h.vec ∧ t.h.su = s.h.su)
  ∧ (∀ (k : BitVec 4) (a : Reg) (s : State) (p : Place), s.wmCell k.toNat ≠ 0 → Granted s .load (s.wmCell k.toNat) 8 p → p.mt ≠ 1 →
    s.ownHeld p.pa 8 = false → s.bufHeld p.pa 8 = false → (∀ l ∈ s.h.loads, meets l.pa l.n p.pa 8 = false) →
    let u := (s.markLeaf s.h.space (s.wmCell k.toNat) p false).settleScalar s.h p.pa 8
    let pub := leNat (u.scalarBytes u.h p.pa 8)
    let stands (t : State) : Prop := t = { u with h := { s.h with sc := t.h.sc, ct := t.h.ct } } ∧ RegistersStand s t
      ∧ SpecialsStand s.h.sc t.h.sc ∧ Advanced s t 4
    (s.h.ev.mask.getLsbD 3 = true → ∃ t, exec (.wmwait k a) s = .next t ∧ stands t ∧ t.h.ct = { s.h.ct with armed := t.h.ct.armed }
        ∧ ∀ j n, ((j, n) ∈ t.h.ct.armed ↔ (j = k.toNat ∧ n = s.g a) ∨ (j ≠ k.toNat ∧ (j, n) ∈ s.h.ct.armed)))
    ∧ (s.h.ev.mask.getLsbD 3 = false → (s.g a).toNat ≤ pub → ∃ t, exec (.wmwait k a) s = .next t ∧ stands t ∧ t.h.ct = s.h.ct)
    ∧ (s.h.ev.mask.getLsbD 3 = false → pub < (s.g a).toNat →
        exec (.wmwait k a) s = .next { s with h := { s.h with dbg := { s.h.dbg with stalled := true } } }))
  ∧ (∀ (d a : Reg) (imm : BitVec 12) (s : State) (p : Place),
    let va := s.g a + imm.signExtend 64
    Granted s .load va 64 p → p.mt ≠ 1 → s.ownHeld p.pa 64 = false → s.bufHeld p.pa 64 = false →
    (∀ l ∈ s.h.loads, meets l.pa l.n p.pa 64 = false) →
    let u := (s.markLeaf s.h.space va p false).settleScalar s.h p.pa 64
    let x := u.submit s.h.su.part s.h.su.ptroot (recordOf (u.scalarBytes u.h p.pa 64))
    ∃ t, exec (.launch d a imm) s = .next t ∧ WroteReg x.1 t d (x.2.setWidth 64) 4)
  ∧ (∀ (s : State) (part : BitVec 3) (root : Word) (r : BitVec 512), quadOf r 7 = 0 →
    let x := s.submit part root r
    let lid := s.rg.nextLid[part.toNat]
    (s.refusals part root r ≠ [] → x = (s.tablesSeen part root r, 0))
    ∧ (s.refusals part root r = [] → (∀ l ∈ s.rg.launches, l.part = part → l.lid = lid → l.fin = true) →
      x.2 = lid ∧ ∃ l : Launch, l.part = part ∧ l.lid = lid ∧ l.record = r ∧ l.root = root ∧ l.cancelled = false ∧ l.harts = 0
        ∧ (l.fin = true → l.isleCnt = some 0 ∨ l.coreCnt = some 0) ∧ l.placed = l.fin
        ∧ x.1 = ({ s with rg := { s.rg with
            launches := s.rg.launches ++ [l], nextLid := s.rg.nextLid.set part.toNat (if lid = 0xFFFFFFFF then 1 else lid + 1) } }
              : State).tablesSeen part root r)
    ∧ (quadOf r 1 = 0 → quadOf r 6 = 0 → ∀ y : State, y.tablesSeen part root r = y))
  ∧ (∀ s : State, s.h.live = true → s.h.su.sup = false → s.h.ev.mask.getLsbD 3 = true →
    ∃ t, exec (.watermarkReach s.h.hid) s = .next t
      ∧ (∀ k, k ∈ t.h.ev.reach ↔ k ∈ s.h.ev.reach ∨ ∃ n p, (k, n) ∈ s.h.ct.armed ∧ s.published k = some p ∧ n.toNat ≤ p)
      ∧ t = { s with h := { s.h with ev := { s.h.ev with reach := t.h.ev.reach } } })
  ∧ (∀ (p : BitVec 3) (data : List Byte) (s : State), data.length = 64 → s.dev.boot.running = true →
    exec (.launchPortWrite (0x1000 * p.toNat) data) s = .next (s.submit p s.rg.parts[p.toNat].lroot (recordOf data)).1)

/-- `wait end` frees the hart once everything earlier is performed at device scope and its commands have completed, with its open member
committed first (R34, R276). In supervisor mode a yield waits for earlier vector instructions, and suspends the context, to resume at g10
with g11 in SSCRATCH (R389, R391), or ends it when its launch is cancelled (R392); `trap 0x011` cancels the launch that g10 names (R392); and the firmware services fill the 4 KiB at
g10 (R436). That a yield drains the store buffer and waits, what a yield of a cancelled launch does, what a cancel does at once, that a
service writes neither SVAL nor SEPC, and the layout of what it writes, which the spec does not give, are the model's (log entries 8, 75,
76, 77 and 102).
The registrar places a ready record (R385), turns a mark that is not met in time into a pre-emption (R387), publishes the completion of a launch
whose harts have ended (R34), and the management window cancels an open one (R392). -/
def Obligations.HartsEndAndServicesRun : Prop :=
  (∀ s : State, s.h.ct.member = none →
    let r := s.release
    let busy : Prop := ∃ c ∈ r.1.un.cmds, c.own = s.h.own
    (r.2 = true → ¬ busy → ∃ t, exec .waitEnd s = .next t ∧ Freed s.h t.h ∧ t.mem = r.1.mem
        ∧ (∀ p ∈ t.ca.pins, p.own ≠ s.h.own)
        ∧ (∀ u ∈ t.un.matrix, u.holder ≠ some s.h.own ∧ s.h.own ∉ u.waiters) ∧ (∀ b ∈ t.un.binds, b.1 ≠ s.h.own)
        ∧ t.rg = { s.rg with
            launches := s.rg.launches.map fun l =>
              if l.part = s.h.su.part ∧ l.lid = s.h.su.lid ∧ ¬ l.fin then { l with harts := l.harts - 1 } else l
            reserve := s.rg.reserve.map fun x => if x.hid = s.h.hid then { x with groups := x.groups ||| s.h.su.lgMap } else x })
    ∧ (r.2 = true → busy → exec .waitEnd s = .next (r.1.onDbg fun d => { d with stalled := true }))
    ∧ (r.2 = false → exec .waitEnd s = .next (s.drain.onDbg fun d => { d with stalled := true })))
  ∧ (∀ (s u : State) (e : Option Nat), commitM s = .ok (e, u) → exec .waitEnd s = exec .waitEnd u)
  ∧ (∀ s : State, s.h.su.sup = true → s.vectorBusy = true →
    exec .yield s = .next { s with h := { s.h with dbg := { s.h.dbg with stalled := true } } })
  ∧ (∀ s : State, s.h.su.sup = true → s.vectorBusy = false →
    let gone : Prop := ∃ l ∈ s.rg.launches, l.part = s.h.su.part ∧ l.lid = s.h.su.lid ∧ l.fin = false ∧ l.cancelled = true
    let begun : Prop := s.h.vec.vstart ≠ 0 ∨ fieldOf s.h.vec.cpv0 63 1 = 1 ∨ s.h.vec.mf ≠ 0
    ∃ t, exec .yield s = .next t ∧ Freed s.h t.h ∧ t.mem = s.drain.mem
      ∧ (∀ u ∈ t.un.matrix, u.holder ≠ some s.h.own ∧ s.h.own ∉ u.waiters)
      ∧ (gone → t.rg.suspended = s.rg.suspended)
      ∧ (¬ gone → t.rg.launches = s.rg.launches ∧ t.ca.pins = s.ca.pins ∧ ∃ c : Suspended, t.rg.suspended = s.rg.suspended ++ [c]
          ∧ c.own = s.h.own ∧ c.lid = s.h.su.lid ∧ c.pc = s.g 10 ∧ c.scratch = s.g 11 ∧ c.root = s.h.su.ptroot ∧ c.ct = s.h.ct ∧ c.prio = s.h.ct.prio
          ∧ (begun → c.needG = some s.h.groups) ∧ (¬ begun → c.needG = if s.h.su.va then s.h.ct.ties.needG else none)
          ∧ c.whole = (s.h.mx.tshape.getLsbD 48 || (s.h.su.mxa && s.h.ct.ties.whole))
          ∧ ((∃ p ∈ s.ca.pins, p.own = s.h.own) → c.pinned = some s.h.hid.classroom)
          ∧ ((∀ p ∈ s.ca.pins, p.own ≠ s.h.own) → c.pinned = none)))
  ∧ (∀ s : State, s.h.su.sup = true →
    let lid : BitVec 32 := (s.g 10).setWidth 32
    ((s.openLaunch s.h.su.part lid).all Launch.cancelled = true →
      ∃ t, exec .cancelLaunch s = .next t ∧ OnlyMoved s t ∧ Advanced s t 4)
    ∧ (∀ l, s.openLaunch s.h.su.part lid = some l → l.cancelled = false →
      ∃ t, exec .cancelLaunch s = .next t ∧ Cancelled s t s.h.su.part lid ∧ RegistersStand s t ∧ Advanced s t 4
        ∧ SpecialsStand s.h.sc t.h.sc ∧ t.h.vec = s.h.vec ∧ t.h.su = s.h.su))
  ∧ (∀ (i : Instr) (s : State) (p : Place), (i = .firmwareVersion ∨ i = .firmwareTelemetry) → s.h.su.sup = true →
    Granted s .store (s.g 10) 4096 p → p.mt ≠ 1 →
    let u := (s.markLeaf s.h.space (s.g 10) p true).drain
    u.heldAtHome p.pa 4096 = false → NoWatch u → Unmeasured u (s.g 10) 4096 →
    ∃ t, exec i s = .next t ∧ MemoryOutside u t p.pa 4096
      ∧ (i = .firmwareVersion → t.mem.bytes p.pa 4096 = (List.range 4096).map (Config.versionByte s.dev.boot.version))
      ∧ (i = .firmwareTelemetry → t.mem.bytes p.pa 4096 = (List.range 4096).map (Config.telemetryByte s.counters)) ∧ RegistersStand s t ∧ SpecialsStand s.h.sc t.h.sc ∧ Advanced s t 4
      ∧ t.h.buf = [] ∧ t.h.vec = s.h.vec ∧ t.h.su = s.h.su ∧ t.h.mx = s.h.mx)
  ∧ (∀ (part : BitVec 3) (s : State) (l : Launch), s.dev.boot.running = true → s.firstReady part = some (.fresh l) → s.plan l ≠ [] →
    ∃ t, exec (.placement part) s = .next t ∧ ∀ x ∈ t.rg.launches, x.part = l.part → x.lid = l.lid → x.fin = false → x.placed = true)
  ∧ (∀ (hid : HartId) (s : State), (s.hartAt hid).live = true → (s.hartAt hid).mark ≠ none → (s.hartAt hid).dbg.halted = false →
    ∃ t, exec (.reclaimDeadline hid) s = .next t ∧ (t.hartAt hid).mark = none
      ∧ (t.hartAt hid).pend = (s.hartAt hid).pend ++ [{ code := 32, sub := 2, sval := 0, batch := [] }])
  ∧ (∀ (part : BitVec 3) (lid : BitVec 32) (s : State) (l : Launch), s.openLaunch part lid = some l →
    ((l.placed = true ∨ l.cancelled = true) → l.harts = 0 →
      ∃ t, exec (.launchComplete part lid) s = .next t ∧ t.openLaunch part lid = none)
    ∧ (l.cancelled = false → ∃ t, exec (.managementWindowCancel part lid) s = .next t ∧ Cancelled s t part lid))

/-! ### Encodings and the step -/

/-- Words that the spec writes out decode to the instructions it writes them for: of the C, S, H and W kinds, and of every major family (R134,
R138, R141, R144, and the words of chapters 02, 07 to 13, 20, 21 and 24). -/
def Obligations.SampleWordsDecode : Prop :=
  let z : WFields :=
    { vd := 0, vs1 := 0, vs2 := 0, vs3 := 0, mr := 0, me := false, orient := false, s1 := false, desc := 0, imm := 0 }
  decodeWord 0x00201181 = .ok (.plain (.add 3 1 2 false)) ∧ decodeWord 0x22C0B681 = .ok (.plain (.div 13 11 12 false))
  ∧ decodeWord 0x06400205 = .ok (.plain (.addi 4 0 100)) ∧ decodeWord 0x0006A691 = .ok (.plain (.ldD 13 10 0))
  ∧ decodeWord 0x0086A695 = .ok (.plain (.stD 13 10 8)) ∧ decodeWord 0x1502A89D = .ok (.plain (.amoFadd 17 10 16 true false false))
  ∧ decodeWord 0x00009029 = .ok (.plain (.jalr 0 9 0)) ∧ decodeWord 0x00400031 = .ok (.plain (.fence 4))
  ∧ decodeWord 0x0004003D = .ok (.plain .eret) ∧ decodeWord 0x00680A3D = .ok (.plain (.rdsr 20 6))
  ∧ decodeWord 0x000042C1 = .ok (.plain (.setvl 5 4)) ∧ decodeWord 0x00340041 = .ok (.plain (.settype 0 3))
  ∧ decodeWord 0x000642C1 = .ok (.plain (.settile 5 4)) ∧ decodeWord 0x000090C5 = .ok (.plain (.dset 1 9 0))
  ∧ decodeWord 0x003223C5 = .ok (.plain (.dget 7 2 3)) ∧ decodeWord 0x00105049 = .ok (.plain (.wmpub 1 5))
  ∧ decodeWord 0x007FDA07 = .ok (.plain (.convoy 1 0 2 3 7 7 7))
  ∧ decodeWord 0x000002024022_1826 = .ok (.wide .vgather { z with vd := 6, vs1 := 4, vs2 := 2, mr := 1, me := true })
  ∧ decodeWord 0x0000_0700_0021_8C22 = .ok (.wide .vfredsum { z with vd := 3, vs1 := 3, vs2 := 2 })
  ∧ decodeWord 0x0000_0000_0084_101E = .ok (.wide .vcmp { z with vd := 4, vs1 := 8, vs2 := 8 })
  ∧ decodeWord 0x1000_0000_1600_0842 = .ok (.wide .vld { z with vd := 2, vs3 := 11, imm := 0x1000 })
  ∧ decodeWord 0x0000_0300_1440_1446 = .ok (.wide .vstxu { z with vd := 5, vs2 := 4, vs3 := 10 })
  ∧ decodeWord 0x0014_0700_1422_004A = .ok (.wide .vamoFadd { z with vs1 := 4, vs2 := 2, vs3 := 10, imm := 0x14 })
  ∧ decodeWord 0x0000_0054_0E00_0882 = .ok (.wide .mtld { z with vd := 2, vs3 := 7, orient := true, desc := 5 })
  ∧ decodeWord 0x0000_0000_0010_0086 = .ok (.wide .mmac { z with vs2 := 1 })
  ∧ decodeWord 0x0000_0100_2A00_508A = .ok (.wide .mloc { z with vd := 20, vs3 := 21 })
  ∧ decodeWord 0x0000_0003_0080_14C2 = .ok (.wide .ecmd { z with vd := 5, vs2 := 8, mr := 4, me := true })
  ∧ decodeWord 0x0000_0000_0E00_20CA = .ok (.wide .apush { z with vd := 8, vs3 := 7 })

/-- Every instruction that has an encoding and breaks no field rule is read back from its bytes, with every operand, and the bytes after it are
left (R129 to R149). The other way round, whatever decodes breaks no field rule, and its encoding gives back every bit. -/
def Obligations.DecodeAndEncodeAgree : Prop :=
  (∀ (i : Instr) (w : Nat) (rest : List Byte), encodeNat i = some w → i.wf = true →
    ∃ d : Decoded, decodeBytes (encode i ++ rest) = .ok (d, rest) ∧ d.instr = i)
  ∧ (∀ (w : Nat) (d : Decoded), w < 2 ^ (8 * lengthOf w) → decodeWord w = .ok d → d.instr.wf = true ∧ encodeNat d.instr = some w)

/-- When a hart comes to the instruction at its pc, a step runs the instruction that the bytes there decode to, and halts it afterwards where a
debug step is armed; an encoding that is refused is an illegal instruction (R130, R149, R151, R411). The bytes are those of the loop
buffer, of the core's instruction cache, or of the home (R11, R32). The agenda names whose turn comes, whether an instruction is placed
in the vector queue in place of running (R306) or a load issued that performs later (R107), how far an entry of the queue goes, which element
performs ahead of its turn (R108), which buffered store leaves, a step that no word encodes, or something outside; with none, the current hart
goes on. A hart without a context and a halted one do nothing in their turn, and without power nothing happens
but a reset (R4). The agenda, the fault without power, and when the queue moves are the model's (log entries 5, 7 and 85). -/
def Obligations.StepRunsTheDecodedInstruction : Prop :=
  (∀ (s t : State) (w : Nat) (d : Decoded), s.agenda = [] → Comes s → fetchInstr s.h.sc.pc s.turnOf.checkReaches = .ok (w, t) →
    decodeWord w = .ok d → step s = Out.map (exec d.instr t) (State.afterStep s.h.dbg.run))
  ∧ (∀ (s t : State) (w : Nat) (e : DecodeError), s.agenda = [] → Comes s → fetchInstr s.h.sc.pc s.turnOf.checkReaches = .ok (w, t) →
    decodeWord w = .error e → slotCount w = none →
    step s = Out.map (Trapped t { code := 1, val := BitVec.ofNat 64 w }) (State.afterStep s.h.dbg.run))
  ∧ (∀ (s : State) (va : Word) (at_ : Nat → Place), NoWatch s → s.mem.wf → s.h.held = [] →
    let n := lengthOf (s.parcels va at_ 1) / 2
    (∀ k, k < n → Fetchable s (va + BitVec.ofNat 64 (2 * k)) (at_ k)) → fetchInstr va s = .ok (s.parcels va at_ n, s))
  ∧ (∀ s : State, s.agenda = [] → s.dev.power = true → (s.h.live = false ∨ s.h.dbg.halted = true) →
    step s = .next { s with tick := s.tick + 1 })
  ∧ (∀ (s : State) (r : List Turn), s.dev.power = true →
    let t : State := { s with tick := s.tick + 1, agenda := r }
    (∀ i, s.agenda = .event i :: r → encodeNat i = none → step s = exec i t)
    ∧ (∀ hid, s.agenda = .run hid :: r → step s = (t.switchTo hid).hartTurn)
    ∧ (∀ hid k ps, s.agenda = .vector hid k ps :: r → step s = .next (t.asHart hid (State.performFree k ps)))
    ∧ (∀ hid k j e, s.agenda = .element hid k j e :: r → step s = .next (t.asHart hid (State.performElement k j e)))
    ∧ (∀ hid k, s.agenda = .load hid k :: r → step s = .next (t.asHart hid fun u => u.performLoad k))
    ∧ (∀ hid k, s.agenda = .store hid k :: r → step s = .next (t.asHart hid fun u => u.drainPast u.h k))
    ∧ (∀ hid, s.agenda = .late hid :: r → step s = (t.switchTo hid).lateTurn)
    ∧ (∀ o, s.agenda = .outside o :: r → step s = .next (t.happens o))
    ∧ (∀ hid, s.agenda = .ahead hid :: r →
        let u := t.switchTo hid
        u.h.live = true → u.h.dbg.halted = false → u.stopDue = false → u.h.bad = [] → u.h.weak = [] →
        (64 ≤ u.h.queue.length → u.headW.isSome = true → step s = .next u.stall)
        ∧ (∀ v, u.h.queue.length < 64 → (u.onDbg fun d => { d with stalled := false }).place = some v → step s = .next v)))
  ∧ (∀ s : State, s.dev.power = false → (∀ r, s.agenda ≠ .event .deviceReset :: r) → step s = .fault .poweredOff)

/-! ### Invariants -/

/-- Memory keeps its canonical form in every step: addresses rise strictly, and no listed byte is what an unlisted address reads as. The form
and the 0 are the model's (log entry 1). -/
def Obligations.MemoryStaysCanonical : Prop :=
  ∀ s t : State, s.mem.wf → step s = .next t → t.mem.wf

/-- The matrix state of every hart, and of every saved image of one, keeps its form in every step: the shape stays within the limits of R235,
and a loaded tile holds an address for each element of its window (R235, R238). -/
def Obligations.MatrixStateStaysFormed : Prop :=
  let good (s : State) : Prop := (∀ h ∈ s.h :: s.others, h.mx.Formed) ∧ ∀ core mx, Image.matrix core mx ∈ s.un.images → mx.Formed
  ∀ s t : State, good s → step s = .next t → good t

/-- Reset leaves every register that the spec gives a value at it (the Reset columns of R24 to R435), no hart with a context, no launch, no
copy, pin, command or link in any state but its first, memory in its canonical form, and the matrix state formed (R4, R33, R183, R184,
R338, R373, R402, R409, R416, R428, R431). That memory lists nothing, and that a hart's registers outside those columns are zero, are the
model's, and so are the first values of the trace block (log entries 1, 2 and 3). -/
def Obligations.ResetLeavesItsValues : Prop :=
  let s := State.reset
  (∀ n, (n ≤ 0x016 ∨ (0x020 ≤ n ∧ n ≤ 0x025) ∨ (0x028 ≤ n ∧ n ≤ 0x02D) ∨ n = 0x030 ∨ (0x040 ≤ n ∧ n ≤ 0x04F) ∨ (0x100 ≤ n ∧ n ≤ 0x104)
      ∨ (0x106 ≤ n ∧ n ≤ 0x10C) ∨ n = 0x018 ∨ n = 0x019 ∨ n = 0x10E ∨ n = 0x10F ∨ (0x200 ≤ n ∧ n ≤ 0x208) ∨ n = 0x212) → s.readStatus n = 0)
  ∧ s.readStatus 0x10D = 512 * 2 ^ 40 ∧ s.h.dbg.dctl = 0 ∧ s.h.live = false ∧ s.h.queue = [] ∧ s.others = []
  ∧ s.rg.launches = [] ∧ s.rg.suspended = [] ∧ s.un.cmds = [] ∧ s.un.sets = [] ∧ s.ca.pins = [] ∧ s.ca.parked = []
  ∧ s.dev.boot.bstat = 0 ∧ s.dev.inject = [] ∧ (∀ k, k < 8 → ∀ b, s.rg.parts[k]? = some b → b.lroot = 0)
  ∧ (∀ (k : Nat) (t : Trace), s.dev.trace[k]? = some t → t.base = 0 ∧ t.size = 0 ∧ t.twr = 0 ∧ t.trd = 0)
  ∧ s.mem.wf ∧ s.h.mx.Formed ∧ s.un.images = []

/-! ### Steps that no word encodes -/

/-- Writes of VTYPE, VL, MODE, PTROOT, an HDROP entry, CLKR and other register fields from outside follow their fields' rules (R2, R184, R188,
R348, R358, R402, R403, R434, R435). The arguments of these steps are the model's (log entry 87). -/
def Obligations.OutsideWritesReachRegisters : Prop :=
  (∀ (v : Word) (s : State), ∃ t, exec (.vtypeWrite v) s = .next t ∧ OnlyStatus s t
    ∧ t.h.vec = { s.h.vec with vtype := v.setWidth 14, vl := t.h.vec.vl } ∧ t.h.vec.vl.toNat = min s.h.vec.vl.toNat (vlmaxOf t.h.vec s.h.groups)
    ∧ t.h.sc = s.h.sc ∧ t.h.ev = s.h.ev ∧ t.h.mx = s.h.mx)
  ∧ (∀ (v : Word) (s : State), ∃ t, exec (.vlWrite v) s = .next t ∧ OnlyStatus s t
    ∧ t.h.vec = { s.h.vec with vl := t.h.vec.vl } ∧ t.h.vec.vl.toNat = min v.toNat (vlmaxOf s.h.vec s.h.groups)
    ∧ t.h.sc = s.h.sc ∧ t.h.ev = s.h.ev ∧ t.h.mx = s.h.mx)
  ∧ (∀ (v : Word) (s : State),
    let stuck : Prop := s.h.vec.vstart ≠ 0 ∨ fieldOf s.h.vec.cpv0 63 1 = 1 ∨ s.h.vec.mf ≠ 0 ∨ ∃ p ∈ s.ca.parked, p.own = s.h.own
    (stuck → exec (.modeWrite v) s = .next s)
    ∧ (¬ stuck → exec (.modeWrite v) s = .next { s with h := { s.h with su := { s.h.su with compat := v.getLsbD 0 } } }))
  ∧ (∀ (v : Word) (s : State),
    exec (.ptrootWrite v) s = .next { s with h := { s.h with su := { s.h.su with ptroot := v &&& ~~~0xFFFF } } })
  ∧ (∀ (n : BitVec 3) (v : Word) (s : State) (old : Word), s.dev.hdrop[n.toNat]? = some old →
    ∃ t e, exec (.hdropWrite n v) s = .next t ∧ t.dev.hdrop[n.toNat]? = some e
      ∧ fieldOf e 63 1 = fieldOf v 63 1 ∧ fieldOf e 0 20 = fieldOf v 0 20 ∧ fieldOf e 20 42 = 0
      ∧ (fieldOf e 62 1 = 1 ↔ fieldOf v 63 1 = 1 ∧ fieldOf old 63 1 = 1 ∧ fieldOf old 62 1 = 1)
      ∧ (∀ m, m ≠ n.toNat → t.dev.hdrop[m]? = s.dev.hdrop[m]?)
      ∧ (fieldOf v 63 1 = 1 → fieldOf e 62 1 = 0 → fieldOf t.dev.hmig 63 1 = 1)
      ∧ (fieldOf v 63 1 = 1 → fieldOf s.dev.hmig 63 1 = 1 → t.dev.hmig = s.dev.hmig ∧ t.dev.moved = s.dev.moved)
      ∧ t = { s with dev := { s.dev with hdrop := t.dev.hdrop, hmig := t.dev.hmig, moved := t.dev.moved } })
  ∧ (∀ (isle : BitVec 3) (v : Word) (s : State) (old : Clock), s.dev.clock[isle.toNat]? = some old →
    let x := fieldOf v 0 8
    ∃ t c, exec (.clkrWrite isle v) s = .next t ∧ t.dev.clock[isle.toNat]? = some c ∧ c = { old with fwr := c.fwr }
      ∧ c.fwr.toNat = (if 1 ≤ x ∧ x ≤ 0x3F then 0x40 else x) ∧ (∀ m, m ≠ isle.toNat → t.dev.clock[m]? = s.dev.clock[m]?)
      ∧ t = { s with mem := t.mem, dev := { s.dev with clock := t.dev.clock, trace := t.dev.trace } }
      ∧ (c.ratio = old.ratio → t.mem = s.mem ∧ t.dev.trace = s.dev.trace))
  ∧ (∀ (off : Nat) (v : Word) (s : State),
    (off % 8 ≠ 0 → exec (.registerWrite (.window off) v) s = .next s)
    ∧ (off % 8 = 0 → exec (.registerWrite (.window off) v) s = .next (s.windowWrite off v))
    ∧ (∀ k, k < 8 → off = 0x100 * k + 8 → ∀ b, s.rg.parts[k]? = some b →
        ∃ t, s.windowWrite off v = t ∧ t.rg.parts[k]? = some { b with lroot := v &&& ~~~0xFFFF } ∧ t.mem = s.mem ∧ t.h = s.h ∧ t.dev = s.dev)
    ∧ (s.dev.boot.running = false → 0x800 ≤ off → (off < 0x200000 ∨ 0x200018 ≤ off) → s.windowWrite off v = s))
  ∧ (∀ (hid : HartId) (v : Word) (s : State),
    (∃ t, exec (.registerWrite (.status hid 0x211) v) s = .next t ∧ t = { s with dev := { s.dev with scrubp := t.dev.scrubp } }
      ∧ (∃ x, t.dev.scrubp[hid.isle]? = some x ∧ x.toNat = (if v.toNat % 2 ^ 32 = 0 then 1 else min (v.toNat % 2 ^ 32) 86400000))
      ∧ ∀ m, m ≠ hid.isle → t.dev.scrubp[m]? = s.dev.scrubp[m]?)
    ∧ exec (.registerWrite (.status hid 0x212) v) s = .next { s with dev := { s.dev with tstate := v.setWidth 8 } }
    ∧ exec (.registerWrite (.status hid 0x210) v) s = exec (.clkrWrite (BitVec.ofNat 3 hid.isle) v) s
    ∧ (∀ k : BitVec 3, exec (.registerWrite (.status hid (0x200 + k.setWidth 12)) v) s = exec (.hdropWrite k v) s)
    ∧ (∀ n : BitVec 12, n.toNat < 0x200 →
        ((s.hartAt hid).live = false → exec (.registerWrite (.status hid n) v) s = .next s)
        ∧ ((s.hartAt hid).live = true → exec (.registerWrite (.status hid n) v) s =
            .next (((s.switchTo hid).writeStatus (s.hartAt hid).su.sup n.toNat v).switchTo s.h.hid))))

/-- At a stop point a machine check is taken first, and another pending cause, the lowest code first, in user mode or with AE set; the vector
stream may have gone on to the progress given (R196, R344), once its vector queue is empty (R336). A raised source is delivered in the order of
R41, whatever stands in the queue, with the hart's state saved as that rule says; a hart that is to step takes it at a `wait event` alone (R411). An
armed reach that PUB has met raises its number (R229, R442). The debugger halts, resumes, reads and writes a hart of
a partition in test state, and no other (R409 to R412). A tagged load that waits goes on by an element (R228). That every cause but 35 is held back
in the supervisor, and the order by code of those that R344 does not name, when an event is delivered, what ULEPC holds after a wait, what the
debugger reaches, and when a tagged element issues are the model's readings (log entries 33, 34, 71, 72, 74 and 82). -/
def Obligations.HartsTakeWhatIsPending : Prop :=
  (∀ (ps : List Nat) (s : State), s.h.loads = [] → s.h.takable = none ∨ s.h.queue ≠ [] → exec (.asyncTrapTaken ps) s = .next s)
  ∧ (∀ (ps : List Nat) (s : State) (c : AsyncCause), s.h.queue = [] → s.h.loads = [] → s.h.takable = some c →
    (let u := s.goOn ps
     exec (.asyncTrapTaken ps) s =
      let w : State := { u with h := { u.h with pend := u.h.pend.erase c } }
      .next (w.trapEntry (c.trap (if c.code = 32 then w.preemptLane else 0)) w.h.sc.pc))
    ∧ (∃ t, exec (.asyncTrapTaken ps) s = .next t
        ∧ t.h.su.scause.toNat = 2 ^ 16 + c.sub % 2 ^ 8 * 2 ^ 8 + c.code % 2 ^ 8 ∧ t.h.su.sval = c.sval
        ∧ t.h.su.sup = true ∧ t.h.su.ae = false ∧ t.h.sc.ldn = 0
        ∧ (ps = [] → t.h.su.sepc = s.h.sc.pc &&& ~~~1 ∧ t.h.sc = { s.h.sc with ldn := 0, pc := s.h.su.stvec }
            ∧ t.h.su.sldn = s.h.sc.ldn ∧ t.h.su.pprv = s.h.su.sup ∧ t.h.su.pae = s.h.su.ae ∧ t.h.vec = s.h.vec ∧ t.h.mx = s.h.mx
            ∧ (c.batch = [] → c.code ≠ 34 → c.code ≠ 9 → t.h.pend = s.h.pend.erase c)))
    ∧ s.goOn [] = s ∧ s.h.live = true ∧ s.h.dbg.halted = false ∧ c ∈ s.h.pend
    ∧ (c.code ≠ 35 → (∀ d ∈ s.h.pend, d.code ≠ 35 ∧ c.code ≤ d.code) ∧ (s.h.su.sup = false ∨ s.h.su.ae = true)))
  ∧ (∀ s : State, (∀ code n, ¬ s.h.ev.First code n) ∨ s.h.canDeliver = false ∨ s.insideW = true ∨ (s.h.dbg.run ≠ none ∧ s.atWait = false) →
    exec .userEventDelivery s = .next s)
  ∧ (∀ (s : State) (code n : Nat), s.h.loads = [] → s.h.dbg.run = none → s.h.canDeliver = true → s.insideW = false → s.h.ev.First code n →
    ∃ t, exec .userEventDelivery s = .next t
      ∧ t.h.ev.code = BitVec.ofNat 4 code ∧ t.h.ev.info = BitVec.ofNat 32 n ∧ t.h.ev.ldn = s.h.sc.ldn ∧ t.h.ev.inHandler = true
      ∧ t.h.ev.waiting = false ∧ t.h.ev.mask = s.h.ev.mask ∧ t.h.ev.vec = s.h.ev.vec
      ∧ t.h.ev.epc = (if s.atWait then (s.h.sc.endAt (s.h.sc.pc + 4)).pc else s.h.sc.pc)
      ∧ t.h.sc.pc = s.h.ev.vec ∧ t.h.sc.ldn = 0
      ∧ (∀ r, r < 24 → t.h.sc.g[r]? = s.h.sc.g[r]?)
      ∧ (∀ k, k < 8 → t.h.sc.g[24 + k]? = s.h.ev.shadow[k]? ∧ t.h.ev.shadow[k]? = s.h.sc.g[24 + k]?)
      ∧ (∀ c m, (m ∈ t.h.ev.raised c ↔ m ∈ s.h.ev.raised c ∧ ¬ (c = code ∧ m = n)))
      ∧ (∀ a, a ∈ t.h.ct.armed ↔ a ∈ s.h.ct.armed ∧ ¬ (code = 4 ∧ a.1 = n))
      ∧ SpecialsStand s.h.sc t.h.sc
      ∧ (s.atWait = false → t.h.sc.frames = s.h.sc.frames ∧ t.h.sc.lc = s.h.sc.lc ∧ t.h.sc.lx = s.h.sc.lx)
      ∧ t = { s with h := { s.h with
          sc := t.h.sc, ev := t.h.ev, ct := { s.h.ct with armed := t.h.ct.armed }, fence := none
          weak := s.h.weak.map BadWord.exchanged, bad := s.h.bad.map BadWord.exchanged } })
  ∧ (∀ (s : State) (hid : HartId),
    let u := s.switchTo hid
    let compares : Prop := u.h.live = true ∧ u.h.su.sup = false ∧ u.h.ev.mask.getLsbD 3 = true
    ∃ reach, exec (.watermarkReach hid) s = .next (({ u with h := { u.h with ev := { u.h.ev with reach := reach } } } : State).switchTo s.h.hid)
      ∧ (¬ compares → reach = u.h.ev.reach)
      ∧ (compares → ∀ k, k ∈ reach ↔ k ∈ u.h.ev.reach ∨ ∃ n p, (k, n) ∈ u.h.ct.armed ∧ u.published k = some p ∧ n.toNat ≤ p))
  ∧ (∀ (s : State) (hid : HartId) (step stepk : Bool) (dsel v : Word), s.testAt hid = false →
    exec (.haltRequest hid) s = .next s ∧ exec (.debugResume hid step stepk) s = .next s
    ∧ exec (.debugRegisterRead hid dsel) s = .next s ∧ exec (.debugRegisterWrite hid dsel v) s = .next s)
  ∧ (∀ (s : State) (hid : HartId) (step stepk : Bool) (dsel v : Word), s.testAt hid = true →
    let h := s.hartAt hid
    let only (t : State) : Prop := t = { s with h := t.h, others := t.others } ∧ ∀ k, k ≠ hid → t.hartAt k = s.hartAt k
    (∃ t, exec (.haltRequest hid) s = .next t ∧ only t ∧ t.hartAt hid = { h with dbg := { h.dbg with hreq := some 1 } })
    ∧ (∃ t, exec (.debugResume hid step stepk) s = .next t ∧ only t
        ∧ (h.dbg.halted = true → t.hartAt hid = { h with
            sc := { h.sc with pc := h.dbg.dpc }
            dbg := { h.dbg with step := step, stepk := stepk, halted := false, run := if step then some stepk else none } })
        ∧ (h.dbg.halted = false → t.hartAt hid = { h with dbg := { h.dbg with step := step, stepk := stepk } }))
    ∧ (∃ t, exec (.debugRegisterRead hid dsel) s = .next t ∧ only t ∧ t.hartAt hid = { h with dbg := { h.dbg with dsel := dsel } })
    ∧ (let u := s.putHart { h with dbg := { h.dbg with dsel := dsel } }
       (h.dbg.halted = false → exec (.debugRegisterWrite hid dsel v) s = .next u)
       ∧ (h.dbg.halted = true →
          exec (.debugRegisterWrite hid dsel v) s = .next (((u.switchTo hid).writeSelected dsel v).switchTo s.h.hid))))
  ∧ (∀ (u : State) (dsel v : Word),
    let w := u.writeSelected dsel v
    let kind := fieldOf dsel 62 2
    let r : Reg := BitVec.ofNat 5 (fieldOf dsel 0 5)
    (kind = 0 → w = if assignedStatus (fieldOf dsel 0 12) && decide (fieldOf dsel 0 12 < 0x200) then u.writeStatus true (fieldOf dsel 0 12) v else u)
    ∧ (kind = 1 → w.g r = (if r = 0 then 0 else v) ∧ (∀ x, x ≠ r → w.g x = u.g x) ∧ w.h.sc.ldn = u.h.sc.ldn ∧ OnlyScalar u w)
    ∧ (kind = 2 → fieldOf dsel 16 14 < 256 → w.selected dsel = v ∧ w.h.vec.m = u.h.vec.m ∧ w.h.vec.mf = u.h.vec.mf
        ∧ ∀ x, x < 32 → x ≠ fieldOf dsel 0 5 → w.h.vec.reg x = u.h.vec.reg x)
    ∧ (kind = 3 → w.selected dsel = v ∧ w.h.vec.v = u.h.vec.v))
  ∧ (∀ (s : State) (hid : HartId),
    let u := s.switchTo hid
    let waits : Prop := u.h.live = true ∧ u.h.dbg.halted = false ∧ u.h.dbg.stalled = true ∧ u.h.queue = []
    let tagged (x : Slot) : Prop := x.op.spec.op8 = 0x10 ∧ natField x.f.imm.toNat 12 4 ≠ 0
    (∀ x, waits → u.headW = some x → tagged x →
      exec (.taggedElementIssue hid) s =
        .next ((u.goOn ((u.h.vec.progress.take 1).map (· + 1) ++ u.h.vec.progress.drop 1)).switchTo s.h.hid))
    ∧ (∀ (w : Nat) (op : WOp) (f : WFields) (v : State), waits → fetchInstr u.h.sc.pc u = .ok (w, u) →
        decodeWord w = .ok (.wide op f) → tagged ⟨op, f⟩ → isPriv op = false → u.singleFault op (semOf op) f = none → u.isI op f = false →
        fieldOf u.h.vec.cpv0 63 1 = 0 →
        let p := u.h.vec.vstart.toNat
        p < u.vl →
        ((semOf op).run f { slot := 0, lo := p, hi := p + 1, fed := u.vl } u = (v, .part (p + 1)) →
          exec (.taggedElementIssue hid) s = .next ((v.setVstart (p + 1)).switchTo s.h.hid))
        ∧ ((semOf op).run f { slot := 0, lo := p, hi := p + 1, fed := u.vl } u = (v, .done) →
          exec (.taggedElementIssue hid) s = .next ((v.clearProgress.advance 8).switchTo s.h.hid)))
    ∧ ((¬ waits ∨ ∀ x, u.headW = some x → ¬ tagged x) → exec (.taggedElementIssue hid) s = .next (u.switchTo s.h.hid)))

/-- A launch port takes one aligned record of 64 bytes after boot, and drops and counts any other write (R380, R431). The registrar places the
first ready entry in the order of R384, or begins reclaim for it; a placed hart begins as R33 says. A mark that no `setvl` has met in time
becomes a pre-emption (R44, R387), a launch whose harts have all ended completes (R34), and the management window cancels an open one
(R392). What one such step does, that a port write at 0x8000 or above counts as dropped, and the isle that counts it, are the model's readings
(log entries 10, 67, 68, 75, 81 and 93). -/
def Obligations.RegistrarPlacesAndCompletes : Prop :=
  (∀ (off : Nat) (data : List Byte) (s : State),
    let good : Prop := off % 0x1000 = 0 ∧ data.length = 64 ∧ off < 0x8000 ∧ s.dev.boot.running = true
    let p : BitVec 3 := BitVec.ofNat 3 (off / 0x1000)
    let r := recordOf data
    (good → ∀ b, s.rg.parts[off / 0x1000]? = some b → exec (.launchPortWrite off data) s = .next (s.submit p b.lroot r).1)
    ∧ (good → ∀ b lid, s.rg.parts[off / 0x1000]? = some b → s.rg.nextLid[off / 0x1000]? = some lid → s.refusals p b.lroot r = [] →
        quadOf r 7 = 0 → (∀ x ∈ s.rg.launches, x.part = p → x.lid = lid → x.fin = true) →
        ∃ t l, exec (.launchPortWrite off data) s = .next t ∧ t.rg.launches = s.rg.launches ++ [l]
          ∧ l.part = p ∧ l.lid = lid ∧ l.record = r ∧ l.root = b.lroot ∧ l.harts = 0 ∧ l.cancelled = false
          ∧ t.rg.nextLid[off / 0x1000]? = some (if lid = 0xFFFFFFFF then 1 else lid + 1)
          ∧ t = ({ s with rg := { s.rg with launches := t.rg.launches, nextLid := t.rg.nextLid } } : State).tablesSeen p b.lroot r)
    ∧ (¬ good → ∃ t, exec (.launchPortWrite off data) s = .next t ∧ t = { s with dev := { s.dev with tele := t.dev.tele } }
        ∧ (∀ x, s.dev.tele[s.registrarIsle p]? = some x → t.dev.tele[s.registrarIsle p]? = some { x with portDrops := x.portDrops + 1 })
        ∧ ∀ m, m ≠ s.registrarIsle p → t.dev.tele[m]? = s.dev.tele[m]?))
  ∧ (∀ (part : BitVec 3) (s : State),
    (s.dev.boot.running = false ∨ s.firstReady part = none → exec (.placement part) s = .next s)
    ∧ (∀ e, s.dev.boot.running = true → s.firstReady part = some e →
        s.ready e = true ∧ e.launch.part = part
        ∧ (∀ p, p < 8 → e.launch.prio < p → ∀ x ∈ s.entriesAt part p, s.ready x = false)
        ∧ (∀ x ∈ s.entriesAt part e.launch.prio, s.ready x = true → s.isStuck x = true → s.isStuck e = true)
        ∧ (∀ u, s.placeEntry e = some u → exec (.placement part) s = .next u)
        ∧ (s.placeEntry e = none → exec (.placement part) s = .next ((s.noteStuck e).reclaim e))
        ∧ (∀ l, e = .fresh l → s.plan l ≠ [] → ∃ t, exec (.placement part) s = .next t
            ∧ (∀ x ∈ t.rg.launches, x.part = l.part → x.lid = l.lid → x.fin = false → x.placed = true)
            ∧ ∀ x ∈ s.plan l, ∀ y ∈ x.2, (t.hartAt y.1).live = true ∧ (t.hartAt y.1).sc.pc = quadOf l.record 0
                ∧ (t.hartAt y.1).su.sup = false ∧ (t.hartAt y.1).su.lid = l.lid ∧ (t.hartAt y.1).su.lgMap = mapOf y.2)))
  ∧ (∀ (old : Hart) (l : Launch) (ctx : BitVec 16) (gs : List Nat) (isles j harts hx : Nat),
    let h := old.start l ctx gs isles j harts hx
    StartsFresh old h l ctx gs ∧ h.ct.isles = isles ∧ h.ct.isleIx = j ∧ h.ct.harts = harts ∧ h.ct.hartIx = hx ∧ h.ct.kinds = l.kinds)
  ∧ (∀ (hid : HartId) (s : State),
    let h := s.hartAt hid
    let due : Prop := h.live = true ∧ h.mark ≠ none ∧ h.dbg.halted = false
    (¬ due → exec (.reclaimDeadline hid) s = .next s)
    ∧ (due → ∃ t, exec (.reclaimDeadline hid) s = .next t
        ∧ t.hartAt hid = { h with mark := none, pend := h.pend ++ [{ code := 32, sub := 2, sval := 0, batch := [] }] }
        ∧ (∀ k, k ≠ hid → t.hartAt k = s.hartAt k) ∧ t = { s with h := t.h, others := t.others }))
  ∧ (∀ (part : BitVec 3) (lid : BitVec 32) (s : State),
    (s.openLaunch part lid = none → exec (.launchComplete part lid) s = .next s)
    ∧ (∀ l, s.openLaunch part lid = some l → ¬ ((l.placed = true ∨ l.cancelled = true) ∧ l.harts = 0) →
        exec (.launchComplete part lid) s = .next s)
    ∧ (∀ l, s.openLaunch part lid = some l → (l.placed = true ∨ l.cancelled = true) → l.harts = 0 →
        ∃ t, exec (.launchComplete part lid) s = .next t ∧ t.openLaunch part lid = none
          ∧ t.rg = { s.rg with launches := s.rg.launches.map fun x => if x.part = part ∧ x.lid = lid ∧ ¬ x.fin then { x with fin := true } else x }
          ∧ (quadOf l.record 7 = 0 → t.mem = s.mem ∧ t.ca = s.ca)))
  ∧ (∀ (part : BitVec 3) (lid : BitVec 32) (s : State),
    ((s.openLaunch part lid).all Launch.cancelled = true → exec (.managementWindowCancel part lid) s = .next s)
    ∧ (∀ l, s.openLaunch part lid = some l → l.cancelled = false →
        ∃ t, exec (.managementWindowCancel part lid) s = .next t ∧ Cancelled s t part lid))

/-- The engines act on accepted commands: a step for a command that is not there, or that a fault holds, changes nothing; a queue word with one
wrong bit is corrected and counted as the command is read (R399); and a step for a command that is at its end ends it, with status 5 for a bind
whose record another hart has bound meanwhile (R295). The end of a command writes its record, and the command is then retired, its position no
longer pending, and its binding made (R278, R281, R282, R295); an absent page holds the end, and a pin, or an access through a table entry that an
engine has changed, makes it wait (R121, R283, R365). A copy goes on by one read or one write of an element, whichever of those that leave memory
as the loop would (R284, R285); an absent page holds it, and poison spreads (R400). A bind record binds or unbinds the stack (R294, R295). A held
command resumes when its page is there (R283). How the work is cut into steps, the order of the elements, what an early end leaves, and that an
absent page comes before the alignment of a stack record, are the model's choice (log entries 52, 53, 54, 58 and 121). -/
def Obligations.EnginesPerformCommands : Prop :=
  let steps (own : CtxRef) (k : BitVec 8) (inc : Option (List Byte)) : List Instr :=
    [.copyCommand own k, .stackBind own k, .collectiveInitialise own k, .collectiveSend own k, .collectiveReceive own k inc,
     .collectiveReceiveReduce own k inc, .collectiveToken own k, .collectiveTimeout own k]
  (∀ (s : State) (own : CtxRef) (k : BitVec 8) (inc : Option (List Byte)), s.command own k.toNat = none →
    ∀ i ∈ Instr.engineFaultResume own k :: steps own k inc, exec i s = .next s)
  ∧ (∀ (s : State) (own : CtxRef) (k : BitVec 8) (inc : Option (List Byte)) (c : Command), s.command own k.toNat = some c →
    ∀ i ∈ steps own k inc,
      (c.held ≠ none → exec i s = .next s)
      ∧ (c.held = none → exec i s = exec i (s.readCommand c))
      ∧ (∀ e, c.weak = [] → c.held = none → c.ending = some e →
          (∀ va, e.bind = some (some va) → s.boundElsewhere c va = true → exec i s = .next (s.finish c 5 0 0 none))
          ∧ ((∀ va, e.bind = some (some va) → s.boundElsewhere c va = false) →
              exec i s = .next (s.finish c e.status e.addr e.rank e.bind))))
  ∧ (∀ (s : State) (c : Command), s.command c.own c.pos = some c →
    let r := s.readCommand c
    r.command c.own c.pos = some { c with weak := [] }
    ∧ r = { s with un := { s.un with cmds := r.un.cmds }, dev := { s.dev with tele := r.dev.tele } }
    ∧ (∀ x, s.dev.tele[c.hid.isle]? = some x → r.dev.tele[c.hid.isle]? = some { x with corrected := x.corrected + c.weak.length }))
  ∧ (∀ (s : State) (c : Command) (status : Nat) (addr : Word) (rank : Nat) (bind : Option (Option Word)),
    let t := s.finish c status addr rank bind
    let e : Ending := ⟨status, addr, rank, bind⟩
    (s.remapPending c.own true = false →
      (s.cmplState c = .ok → Retired t c.own c.pos
        ∧ (∀ h x, s.hartOf c.own = some h → t.hartOf c.own = some x →
            c.pos ∉ x.ct.pending ∧ ∀ b, bind = some b → x.ct.stack = b ∧ x.ct.popped = none)
        ∧ (bind = some none → ∀ b ∈ t.un.binds, b.1 ≠ c.own))
      ∧ (∀ p, c.q 7 ≠ 0 → (c.q 7).toNat % 16 = 0 → EngineOpen s c .store (c.q 7) 16 p → NoWatch s → s.mem.wf →
          t.mem.bytes p.pa 16 = c.cmplBytes status addr rank ∧ MemoryOutside s t p.pa 16))
    ∧ (c.q 7 = 0 → t.mem = s.mem)
    ∧ (s.command c.own c.pos = some c →
        (s.remapPending c.own true = true ∨ s.cmplState c = .wait →
          t.mem = s.mem ∧ t.command c.own c.pos = some { c with ending := some e, held := none })
        ∧ (∀ va level, s.remapPending c.own true = false → s.cmplState c = .absent va level →
            t.mem = s.mem ∧ t.command c.own c.pos = some { c with ending := some e, held := some va })))
  ∧ (∀ (s : State) (own : CtxRef) (k : BitVec 8) (c : Command) (room : Nat), s.command own k.toNat = some c → c.engine = .copy room →
    c.held = none → c.ending = none → c.weak = [] →
    let nd := fieldOf (c.q 0) 16 8
    let n := 2 ^ fieldOf (c.q 0) 32 2
    let ps := copyPairs c.q []
    let u : State := { s with free := s.free + 1 }
    let moves := copyMoves (s.copyPlaces c ps) c
    (nd < 3 → moves = [] → exec (.copyCommand own k) s = .next (s.copyEnd c ps.length))
    ∧ (nd < 3 → moves ≠ [] →
        (∃ i, .take i ∈ moves ∧ exec (.copyCommand own k) s = .next (u.copyTake c n i ps))
        ∨ ∃ i v, .put i v ∈ moves ∧ exec (.copyCommand own k) s = .next (u.copyPut c n i v ps))
    ∧ (∀ (a b : Word) (pa : Place), nd < 3 → ps = [(a, b)] → c.copied = [] → c.taken = [] → EngineOpen s c .load a n pa → NoWatch s →
        ∃ t, exec (.copyCommand own k) s = .next t ∧ t.mem = s.mem
          ∧ t.command own k.toNat = some { c with taken := [(0, leNat (s.engineBytes c pa n), false)] })
    ∧ (∀ (a b : Word) (v : Nat) (pb : Place), nd < 3 → ps = [(a, b)] → c.copied = [] → c.taken = [(0, v, false)] → c.spoilt = none → c.q 7 = 0 →
        EngineOpen s c .store b n pb → NoWatch s → s.mem.wf → s.outstanding = [] →
        ∃ t, exec (.copyCommand own k) s = .next t ∧ t.mem.bytes pb.pa n = leBytes n v ∧ MemoryOutside s t pb.pa n
          ∧ Retired t own k.toNat)
    ∧ (3 ≤ nd →
        let found := s.reach c.space 8 (quadAddrs (c.q 6) 8) [] false
        let r := s.engineQuads c (c.q 6) 8
        (∀ xs, found = .absent xs → exec (.copyCommand own k) s = .next (s.hold c xs))
        ∧ (∀ va, found = .fault va → exec (.copyCommand own k) s = .next (s.finish c 2 va 0 none))
        ∧ (∀ va, found = .ok → r.2.2 = some va → exec (.copyCommand own k) s = .next (r.1.finish c 2 va 0 none))
        ∧ (found = .ok → r.2.2 = none → nestBad nd r.2.1 = true → exec (.copyCommand own k) s = .next (r.1.finish c 5 0 0 none))
        ∧ (found = .ok → r.2.2 = none → nestBad nd r.2.1 = false → exec (.copyCommand own k) s = .next (r.1.runCopy c r.2.1))))
  ∧ (∀ (xs : List (Option Nat × Option Nat)) (c : Command) (i : Nat) (v : Nat × Bool),
    let left (j : Nat) : Prop := j < xs.length ∧ j ∉ c.copied
    let place (j : Nat) : Option Nat × Option Nat := xs.getD j (none, none)
    (.take i ∈ copyMoves xs c ↔ left i ∧ (∀ t ∈ c.taken, t.1 ≠ i) ∧ ∀ j, j < i → left j → (place j).2 ≠ none)
    ∧ (.put i v ∈ copyMoves xs c ↔ left i ∧ (c.taken.find? fun t => t.1 == i) = some (i, v)
        ∧ ∀ j, j < i → left j → (∃ t ∈ c.taken, t.1 = j) ∨ ((place j).1 ≠ none ∧ (place j).1 ≠ (place i).2)))
  ∧ (∀ (s : State) (c : Command) (n i : Nat) (ps : List (Word × Word)), s.command c.own c.pos = some c →
    let found := copyFrom (s.copyPlaces c ps) c i i
    (∀ v, found = .inr v → (s.copyTake c n i ps).mem = s.mem
      ∧ (s.copyTake c n i ps).command c.own c.pos = some { c with taken := (i, v) :: c.taken })
    ∧ (∀ j p, found = .inl j → ps[j]? = some p →
        let reach := s.reach c.space n [(p.1, false)] [] false
        (∀ xs, reach = .absent xs → s.copyTake c n i ps = s.hold c xs)
        ∧ (∀ va, reach = .fault va → s.copyTake c n i ps = s.finish c 2 va 0 none)
        ∧ (∀ pa, EngineOpen s c .load p.1 n pa → NoWatch s → (s.copyTake c n i ps).mem = s.mem
            ∧ (s.copyTake c n i ps).command c.own c.pos = some { c with taken := (i, leNat (s.engineBytes c pa n), false) :: c.taken })))
  ∧ (∀ (s : State) (c : Command) (n i : Nat) (v : Nat × Bool) (ps : List (Word × Word)) (p : Word × Word), ps[i]? = some p →
    let reach := s.reach c.space n [(p.2, true)] [] false
    let t := s.copyPut c n i v ps
    let over_ (j : Nat) : Prop := i < j ∧ ((s.copyPlaces c ps).getD j (none, none)).2 = ((s.copyPlaces c ps).getD i (none, none)).2
    (∀ xs, reach = .absent xs → t = s.hold c xs)
    ∧ (∀ va, reach = .fault va → t = s.finish c 2 va 0 none)
    ∧ (reach = .wait → t = s)
    ∧ (∀ pb, EngineOpen s c .store p.2 n pb → NoWatch s → s.mem.wf → (c.copied.length + 1 < ps.length ∨ c.q 7 = 0) →
        ((∀ j ∈ c.copied, ¬ over_ j) → t.mem.bytes pb.pa n = leBytes n v.1 ∧ MemoryOutside s t pb.pa n)
        ∧ ((∃ j ∈ c.copied, over_ j) → t.mem = s.mem)
        ∧ (s.command c.own c.pos = some c → c.copied.length + 1 < ps.length → ∃ x, t.command c.own c.pos = some x
            ∧ x.copied = i :: c.copied ∧ (∀ y, y ∈ x.taken ↔ y ∈ c.taken ∧ y.1 ≠ i)
            ∧ (v.2 = false → x.spoilt = c.spoilt) ∧ (v.2 = true → c.spoilt = none → x.spoilt = some (i, p.1)))))
  ∧ (∀ (s : State) (own : CtxRef) (k : BitVec 8) (c : Command) (isle : Nat), s.command own k.toNat = some c → c.engine = .spill isle →
    c.held = none → c.ending = none → c.weak = [] →
    let va := c.q 1
    (va = 0 → exec (.stackBind own k) s = .next (s.finish c 1 0 0 (some none)))
    ∧ (∀ x, va ≠ 0 → s.translate c.space .load va = .error x →
        exec (.stackBind own k) s = .next (if x.code = 9 then s.hold c [(va, x.level, false)] else s.finish c 2 va 0 none))
    ∧ (∀ p, va ≠ 0 → s.translate c.space .load va = .ok p → p.mt ≠ 0 → exec (.stackBind own k) s = .next (s.finish c 5 0 0 none))
    ∧ (∀ p, va ≠ 0 → s.translate c.space .load va = .ok p → p.mt = 0 → s.reach c.space 8 (quadAddrs va 8) [] false = .ok →
        let r := s.engineQuads c va 8
        let taken : Prop := stackBad va r.2.1 = true ∨ ∃ b ∈ s.un.binds, b.2 = p.pa ∧ b.1 ≠ own
        (∀ bad, r.2.2 = some bad → exec (.stackBind own k) s = .next (r.1.finish c 2 bad 0 none))
        ∧ (r.2.2 = none → taken → exec (.stackBind own k) s = .next (r.1.finish c 5 0 0 none))
        ∧ (r.2.2 = none → ¬ taken → exec (.stackBind own k) s = .next (r.1.finish c 1 0 0 (some (some va))))))
  ∧ (∀ (s : State) (own : CtxRef) (k : BitVec 8) (c : Command) (va : Word), s.command own k.toNat = some c → c.held = some va →
    (∀ x, s.translate c.space .load va = .error x → x.code = 9 → exec (.engineFaultResume own k) s = .next s)
    ∧ ((∀ x, s.translate c.space .load va = .error x → x.code ≠ 9) →
        ∃ t, exec (.engineFaultResume own k) s = .next t ∧ t.command own k.toNat = some { c with held := none }
          ∧ t = { s with un := { s.un with cmds := t.un.cmds } }))

/-- The steps of a collective schedule (R289 to R291, R320, R424, R441), for the command whose current step they are. A step that writes its
chunk goes on by one element, and a send by one more read, each as its step says and nothing else (R286); the last one passes to the next step
or ends the command, with status 2 where a source was poisoned (R400). A lost port or straits link ends it at once (R291, R424), a peer's abort
ends one rank of the isle, and a command that has ended ignores an abort. How a step is cut, the order of its elements, which rank an abort ends,
that a report of a lost port ends earlier steps too, and how a causeway port's words reach the command, are the model's choice (log entries 54 to
58 and 123). -/
def Obligations.CollectivesFollowTheirSchedule : Prop :=
  (∀ (s : State) (own : CtxRef) (k : BitVec 8) (inc : Option (List Byte)) (c : Command) (x : Step), s.currentStep own k = some (c, x) →
    c.weak = [] →
    let steps : List Instr := [.collectiveInitialise own k, .collectiveSend own k, .collectiveReceive own k inc,
      .collectiveReceiveReduce own k inc, .collectiveToken own k, .collectiveTimeout own k]
    let named : Prop := ∃ y ∈ c.remaining, y.sop ≠ 3 ∧ y.link ≤ 17 ∧ s.linkLost c y = true
    let lost : Prop := x.sop ≠ 3 ∧ s.linkLost c x = true
    let stands : Prop := ¬ named ∧ ¬ lost
    let wrote (i : Instr) (v : State) (data : List Byte) (empty : State → State) : Prop :=
      let w := c.work x data
      let u : State := { v with free := v.free + 1 }
      ((∀ e, e < x.len → e ∈ c.copied) → x.len ≤ c.copied.length → exec i s = .next ((empty v).stepDone c))
      ∧ ((∃ e, e < x.len ∧ e ∉ c.copied) → ∃ e, e < x.len ∧ e ∉ c.copied ∧ (x.sop = 2 → ∀ d, d < e → d ∈ c.copied) ∧
          let found := u.reach c.space c.elemBytes (c.workAddrs x w e) [] false
          let r := u.workOn c x w e
          let d : Command := { c with copied := e :: c.copied, spoilt := c.spoiltBy e r.2 }
          let t := r.1.onCommand c fun _ => d
          (found = .ok → d.copied.length < x.len → exec i s = .next t)
          ∧ (found = .ok → x.len ≤ d.copied.length → exec i s = .next ((empty t).stepDone d))
          ∧ (∀ xs, found = .absent xs → exec i s = .next (u.hold c xs))
          ∧ (∀ va, found = .fault va → exec i s = .next (u.finish c 2 va 0 none))
          ∧ (found = .wait → exec i s = .next u))
    let receives (sop : Nat) (i : Instr) : Prop :=
      (x.sop ≠ sop → exec i s = .next s)
      ∧ (x.sop = sop → stands →
          let u := s.takeIn c x inc
          (u.arrived c x = none → exec i s = .next u)
          ∧ (∀ n bs, u.arrived c x = some (n, bs) → n ≠ x.len → exec i s = .next (u.endCollective c 6 x.peer))
          ∧ (∀ bs, u.arrived c x = some (x.len, bs) → wrote i u bs fun t => t.emptyWindow c x))
    (named → ∃ y ∈ c.remaining, y.sop ≠ 3 ∧ y.link ≤ 17 ∧ s.linkLost c y = true ∧
      ∀ i ∈ steps, exec i s = .next (s.endCollective c 4 y.peer))
    ∧ (¬ named → lost → ∀ i ∈ steps, exec i s = .next (s.endCollective c 4 x.peer))
    ∧ (stands →
      (x.sop ≠ 3 → exec (.collectiveInitialise own k) s = .next s)
      ∧ (x.sop = 3 → wrote (.collectiveInitialise own k) s [] id)
      ∧ receives 1 (.collectiveReceive own k inc) ∧ receives 2 (.collectiveReceiveReduce own k inc)
      ∧ (x.sop ≠ 0 → exec (.collectiveSend own k) s = .next s)
      ∧ (x.sop = 0 →
          let u : State := { s with free := s.free + 1 }
          let sends (deliver : State → List Byte → State) : Prop :=
            ∃ e, ((∃ j, j < x.len ∧ ∀ y ∈ c.taken, y.1 ≠ j) → e < x.len ∧ ∀ y ∈ c.taken, y.1 ≠ e) ∧
              let va := c.chunk (c.q 2) x e
              let found := u.reach c.space c.elemBytes [(va, false)] [] false
              let r := u.engineRead c va c.elemBytes
              let d : Command := { c with taken := (e, r.2) :: c.taken, spoilt := c.spoiltBy e (if r.2.2 then some va else none) }
              let bytes (d : Command) : List Byte := (List.range x.len).flatMap fun j =>
                leBytes c.elemBytes (((d.taken.find? fun y => y.1 == j).map fun y => y.2.1).getD 0)
              let ends (t : State) (d : Command) : Prop :=
                (d.taken.length < x.len → exec (.collectiveSend own k) s = .next t)
                ∧ (∀ b, x.len ≤ d.taken.length → d.spoilt = some b → exec (.collectiveSend own k) s = .next (t.finish d 2 b.2 0 none))
                ∧ (x.len ≤ d.taken.length → d.spoilt = none → exec (.collectiveSend own k) s = .next ((deliver t (bytes d)).stepDone d))
              ((∀ j, j < x.len → ∃ y ∈ c.taken, y.1 = j) → ends s c)
              ∧ ((∃ j, j < x.len ∧ ∀ y ∈ c.taken, y.1 ≠ j) →
                  (found = .ok → ends (r.1.onCommand c fun _ => d) d)
                  ∧ (∀ xs, found = .absent xs → exec (.collectiveSend own k) s = .next (u.hold c xs))
                  ∧ (∀ a, found = .fault a → exec (.collectiveSend own k) s = .next (u.finish c 2 a 0 none)))
          (∀ isle, c.isleOf x.link = some isle →
            (s.peerWindow c x isle = none → exec (.collectiveSend own k) s = .next s)
            ∧ (∀ w, s.peerWindow c x isle = some w → sends fun t bs => t.onUn fun u => u.putWindow w { w with full := some (x.len, bs) }))
          ∧ (c.isleOf x.link = none →
            let up : Prop := c.word x ∈ s.un.ready ∧ s.portUp x.link = true
            (¬ up → exec (.collectiveSend own k) s = .next s)
            ∧ (up → sends fun t bs => t.onUn fun u => { u with ready := u.ready.erase (c.word x), sent := u.sent ++ [c.message x bs] })))
      ∧ (x.sop ≠ 4 → exec (.collectiveToken own k) s = .next s)
      ∧ (x.sop = 4 → c.isleOf x.link = none →
          let out : Bool := !c.token && s.portUp x.link
          let t := if out then s.onUn fun u => { u with sent := u.sent ++ [c.message x []] } else s
          let meet : Prop := (c.token = true ∨ out = true) ∧ c.word x ∈ s.un.tokens
          (meet → exec (.collectiveToken own k) s = .next ((t.onUn fun u => { u with tokens := u.tokens.erase (c.word x) }).stepDone c))
          ∧ (¬ meet → exec (.collectiveToken own k) s = .next (t.onCommand c fun y => { y with token := c.token || out })))
      ∧ (∀ isle d y, x.sop = 4 → c.isleOf x.link = some isle → s.rankAt c isle x.peer = some d → d.remaining.head? = some y →
          let meet : Prop := y.sop = 4 ∧ y.peer = c.myRank ∧ y.win = x.win ∧ d.ending = none ∧ ¬ (d.own = c.own ∧ d.pos = c.pos)
          (meet → exec (.collectiveToken own k) s = .next ((s.stepDone c).stepDone d))
          ∧ (¬ meet → exec (.collectiveToken own k) s = .next s))
      ∧ (let late : Prop := x.receives = true ∧ fieldOf (c.q 5) 32 32 ≠ 0 ∧ s.windowFull c x = none
         (late → exec (.collectiveTimeout own k) s = .next (s.endCollective c 4 x.peer))
         ∧ (¬ late → exec (.collectiveTimeout own k) s = .next s)))
    ∧ (∀ status rank, c.q 7 = 0 → s.outstanding = [] → Retired (s.endCollective c status rank) c.own c.pos))
  ∧ (∀ (s : State) (isle : BitVec 3) (collid : BitVec 32) (rank : BitVec 8),
    let taking (d : Command) : Prop := d ∈ s.un.cmds ∧ d.hid.isle = isle.toNat ∧ d.collid = collid ∧ d.prog < d.sched.length ∧ d.ending = none
    ((∀ d, ¬ taking d) → exec (.collectiveAbort isle collid rank) s = .next s)
    ∧ ((∃ d, taking d) → ∃ d, taking d ∧
        exec (.collectiveAbort isle collid rank) s = .next (({ s with free := s.free + 1 } : State).endCollective d 4 rank.toNat)))
  ∧ (∀ (s : State) (c : Command) (port : BitVec 5), s.command c.own c.pos = some c → port.toNat < 18 → (s.linkOf (.causeway port)).dead = true →
    ∃ t l, exec (.peerUnreachable port) s = .next t ∧ t.dev.port[port.toNat]? = some l ∧ l.lost = true
      ∧ (∀ w ∈ t.un.ready ++ t.un.tokens, w.port ≠ port.toNat)
      ∧ (c.q 7 = 0 → c.ending = none → s.outstanding = [] → (∃ y ∈ c.remaining, y.sop ≠ 3 ∧ y.link = port.toNat) → Retired t c.own c.pos))
  ∧ (∀ (s : State) (port : BitVec 5), 18 ≤ port.toNat ∨ (s.linkOf (.causeway port)).dead = false →
    exec (.peerUnreachable port) s = .next s)
  ∧ (∀ (s : State) (c : Command), s.command c.own c.pos = some c →
    let t := s.stepDone c
    let d : Command := { c with prog := c.prog + 1, token := false, taken := [], copied := [], spoilt := none }
    (c.spoilt = none → c.prog + 1 < c.sched.length → t.command c.own c.pos = some d ∧ t = { s with un := { s.un with cmds := t.un.cmds } })
    ∧ (c.spoilt = none → c.sched.length ≤ c.prog + 1 → c.q 7 = 0 → s.remapPending c.own true = false → Retired t c.own c.pos)
    ∧ (∀ b, c.spoilt = some b → t = (s.onCommand c fun _ => d).finish d 2 b.2 0 none))
  ∧ (∀ (c : Command) (e : Nat) (va : Word),
    c.spoiltBy e none = c.spoilt ∧ (c.spoilt = none → c.spoiltBy e (some va) = some (e, va))
    ∧ ∀ b, c.spoilt = some b → c.spoiltBy e (some va) = if e < b.1 then some (e, va) else some b)
  ∧ (∀ (s : State) (c : Command) (x : Step) (w : ChunkWork) (e : Nat) (pd ps : Place),
    let n := c.elemBytes
    let dst := c.chunk (c.q 2) x e
    EngineOpen s c .store dst n pd → NoWatch s → s.mem.wf →
    (∀ b, w.source = some b → w.inPlace = false ∧ EngineOpen s c .load (c.chunk b x e) n ps) →
    (w.inPlace = true → EngineOpen s c .load dst n ps) →
    let read := leNat (s.engineBytes c ps n)
    let r := s.workOn c x w e
    r.2 = none ∧ MemoryOutside s r.1 pd.pa n
    ∧ r.1.mem.bytes pd.pa n = leBytes n (w.value (if w.source = none then 0 else read) (if w.inPlace then read else 0) e))

/-- The spill engine raises arrival once nothing of the popped entry is in flight, and its traffic to and from the pool changes no value (R298, R301).
A parked store performs when its page is there, waits on where the entry is missing, and is discarded with a cause pending on any other fault (R372,
R414). A write held by a pin performs after the last pin (R121). Copies are invalidated in the order of their messages, and are filled from the home
(R76, R82, R93, R94, R426, R427); a round of the token serves each `fence.sc` that waited for it (R106). Snoops take a line's bytes (R420). Scrubbing,
migration and injection do what R399 to R408 say. No step of these but a store's own changes memory. How these steps are cut is the model's (log
entries 18, 32, 34, 35, 47, 61, 62, 73, 83, 100 and 125). -/
def Obligations.MemorySystemMovesOn : Prop :=
  (∀ (own : CtxRef) (s : State),
    let due (h : Hart) (p : Popped) : Prop := s.hartOf own = some h ∧ h.ct.popped = some p ∧ p.arrived = false
      ∧ ∃ pa, s.boundRecord own = some pa ∧ s.poisoned pa 8 = false ∧ s.entryInFlight own (s.mem.quad pa) p = false
    let only (t : State) : Prop := t = { s with
      h := t.h, others := t.others, ca := { s.ca with weak := t.ca.weak }, dev := { s.dev with tele := t.dev.tele }
      un := { s.un with spilled := t.un.spilled } }
    (∀ h p, due h p → ∃ t x, exec (.apopArrival own) s = .next t ∧ t.hartOf own = some x
        ∧ x.ct.popped = some { p with arrived := true }
        ∧ x.ev.apop = (if h.ev.mask.getLsbD 1 && !h.ev.apop.contains p.slot then h.ev.apop ++ [p.slot] else h.ev.apop)
        ∧ only t)
    ∧ ((∀ h p, ¬ due h p) → exec (.apopArrival own) s = .next s)
    ∧ (∃ t, exec (.spillWriteback own) s = .next t ∧ only t ∧ t.h = s.h ∧ t.others = s.others
        ∧ (∀ x ∈ s.un.spilled, x ∈ t.un.spilled) ∧ ∀ x ∈ t.un.spilled, x ∉ s.un.spilled → x.own = own ∧ ∃ pa, s.boundRecord own = some pa
          ∧ x.slot + fieldOf (s.mem.quad (pa + 40)) 0 4 < (s.mem.quad (pa + 32)).toNat)
    ∧ (∃ t, exec (.spillBringBack own) s = .next t ∧ only t ∧ t.h = s.h ∧ t.others = s.others
        ∧ ∀ x, x ∈ t.un.spilled ↔ x ∈ s.un.spilled ∧ ¬ (x.own = own ∧ ∃ pa, s.boundRecord own = some pa
          ∧ s.poisoned (pa + 32) 8 = false ∧ s.poisoned (pa + 40) 8 = false ∧ x.slot = (s.mem.quad (pa + 32)).toNat - fieldOf (s.mem.quad (pa + 40)) 0 4)))
  ∧ (∀ (line : BitVec 52) (s : State),
    ((∀ p ∈ s.ca.parked, p.line ≠ line.toNat / 64) → exec (.parkedEntryWake line) s = .next s)
    ∧ (∀ e, s.ca.parked = [e] → e.line = line.toNat / 64 →
        let sp : Space := ⟨e.own.part, e.root, e.sup, []⟩
        (∀ p, s.translate sp .store e.va = .ok p → p.mt ≠ 1 → e.col = false → Marked s sp e.va p true → s.pinsOn p.pa e.data.length = [] → s.ca.pinQueue = [] →
          NoWatch s → s.mem.wf → s.measuredBy sp (.hart e.hid e.own e.pc e.sup) e.va e.data.length = [] →
          ∃ t, exec (.parkedEntryWake line) s = .next t ∧ t.ca.parked = [] ∧ t.mem.bytes p.pa e.data.length = e.data
            ∧ MemoryOutside s t p.pa e.data.length)
        ∧ (∀ x, s.translate sp .store e.va = .error x → x.code = 9 → e.weak = [] → ∃ t, exec (.parkedEntryWake line) s = .next t
            ∧ t.ca.parked = [{ e with level := x.level, line := x.entry / 64 }] ∧ t = { s with ca := { s.ca with parked := t.ca.parked } })
        ∧ (∀ x, s.translate sp .store e.va = .error x → x.code ≠ 9 → ∃ t, exec (.parkedEntryWake line) s = .next t ∧ t.ca.parked = []
            ∧ t.mem = s.mem ∧ ∀ h, s.hartOf e.own = some h → ∃ y, t.hartOf e.own = some y
              ∧ y.pend = h.pend ++ [{ code := x.code, sub := x.sub, sval := e.va, batch := [] }])))
  ∧ (∀ (line : BitVec 52) (s : State),
    let here (w : PinWait) : Bool := w.pa / 64 * 64 == line.toNat / 64 * 64
    (s.ca.pinQueue.find? here = none → exec (.pinnedWritePerform line) s = .next s)
    ∧ (∀ w, s.ca.pinQueue.find? here = some w → s.pinsOn w.pa w.op.size ≠ [] → exec (.pinnedWritePerform line) s = .next s)
    ∧ (∀ w, s.ca.pinQueue.find? here = some w → s.pinsOn w.pa w.op.size = [] → (w.op.isAdd = true → s.poisoned w.pa w.op.size = false) →
        NoWatch s → s.mem.wf →
        s.measuredBy ⟨(w.src.own.map fun o => o.part).getD 0, w.root, false, []⟩ w.src w.va (s.opBytes w.pa w.op).1.length = [] →
        ∃ t, exec (.pinnedWritePerform line) s = .next t ∧ t.ca.pinQueue = s.ca.pinQueue.erase w
          ∧ t.mem.bytes w.pa (s.opBytes w.pa w.op).1.length = (s.opBytes w.pa w.op).1
          ∧ MemoryOutside s t w.pa (s.opBytes w.pa w.op).1.length
          ∧ ∀ o h, w.src.own = some o → s.hartOf o = some h → ∃ y, t.hartOf o = some y
              ∧ y.sc = { h.sc with fflags := h.sc.fflags ||| BitVec.ofNat 5 (s.opBytes w.pa w.op).2 })
    ∧ (∀ w o h, s.ca.pinQueue.find? here = some w → s.pinsOn w.pa w.op.size = [] → w.op.isAdd = true → s.poisoned w.pa w.op.size = true →
        w.src.own = some o → s.hartOf o = some h →
        ∃ t y, exec (.pinnedWritePerform line) s = .next t ∧ t.ca.pinQueue = s.ca.pinQueue.erase w ∧ t.mem = s.mem ∧ t.hartOf o = some y
          ∧ y.pend = h.pend ++ [{ code := 21, sub := 3, sval := w.va &&& ~~~7, batch := [] }]))
  ∧ (∀ (home isle : BitVec 3) (s : State),
    let mine (i : Inval) : Bool := i.isle == isle.toNat && i.home == home.toNat
    (s.ca.chan.find? mine = none → exec (.squareInvalidation ⟨home, isle⟩) s = .next s)
    ∧ (∀ i, s.ca.chan.find? mine = some i → ∃ t, exec (.squareInvalidation ⟨home, isle⟩) s = .next t
        ∧ t = { s with ca := { s.ca with chan := s.ca.chan.erase i, visitor := t.ca.visitor, l1 := t.ca.l1 } }
        ∧ (∀ v, v ∈ t.ca.visitor ↔ v ∈ s.ca.visitor ∧ ¬ (v.isle = isle.toNat ∧ meets v.unit.1 v.unit.2 i.base i.size = true))
        ∧ (∀ l, l ∈ t.ca.l1 ↔ l ∈ s.ca.l1 ∧ ¬ (coreIsle l.core = isle.toNat ∧ meets l.line 64 i.base i.size = true))))
  ∧ (∀ (isle : BitVec 3) (line : BitVec 52) (col : Option (BitVec 2)) (core : Option (BitVec 11)) (s : State),
    let a := line.toNat
    let formed : Prop := match col with
      | none => a % 64 = 0
      | some q => columnTop q a = true
    ∃ t, exec (.visitorFill isle line col core) s = .next t
      ∧ t = { s with ca := { s.ca with chan := t.ca.chan, visitor := t.ca.visitor, l1 := t.ca.l1 } }
      ∧ (∀ part, s.partOf isle.toNat = some part → s.copyable part a = true → formed → s.homeIsle part a ≠ isle.toNat →
          (∀ i ∈ t.ca.chan, ¬ (i.isle = isle.toNat ∧ i.home = s.homeIsle part a))
          ∧ (match col with
            | none => ⟨isle.toNat, a, 0, false, s.mem.bytes a 64⟩ ∈ t.ca.visitor
            | some q => ⟨isle.toNat, a, q, true, columnBytes s.mem q a⟩ ∈ t.ca.visitor))
      ∧ (∀ part k, s.partOf isle.toNat = some part → s.copyable part a = true → formed → col = none → core = some k → coreIsle k.toNat = isle.toNat →
          s.homeIsle part a = isle.toNat → ⟨k.toNat, a, (List.range 64).map fun j => s.sliceByte part isle.toNat false (a + j)⟩ ∈ t.ca.l1)
      ∧ ((s.partOf isle.toNat = none ∨ (∃ part, s.partOf isle.toNat = some part ∧ s.copyable part a = false) ∨ ¬ formed) → t = s))
  ∧ (∀ (part : BitVec 3) (s : State) (b : PartBlock), s.rg.parts[part.toNat]? = some b →
    (b.used = false → exec (.fenceTokenArrival part) s = .next s)
    ∧ (b.used = true → ∃ t x y, exec (.fenceTokenArrival part) s = .next t ∧ s.dev.token[part.toNat]? = some x
        ∧ t.dev.token[part.toNat]? = some y ∧ y.toNat = (x.toNat + 1) % 2 ^ b.size.toNat
        ∧ (∀ i ∈ t.ca.chan, i.isle ≠ b.base.toNat + y.toNat) ∧ (∀ i ∈ s.ca.chan, i.isle ≠ b.base.toNat + y.toNat → i ∈ t.ca.chan)
        ∧ t.mem = s.mem
        ∧ (y.toNat ≠ 0 → t.h = s.h ∧ t.others = s.others)
        ∧ (y.toNat = 0 →
            let served (h h' : Hart) : Prop := h' = if h.su.part = part then { h with fence := h.fence.map fun n => n - 1 } else h
            served s.h t.h ∧ List.Forall₂ served s.others t.others)))
  ∧ (∀ (line : BitVec 52) (s : State),
    let a := line.toNat / 64 * 64
    let answer : SnoopAnswer := ⟨a, s.mem.bytes a 64, s.poisoned a 64⟩
    (rangeType a ≠ some 2 → ∀ i ∈ [Instr.snpData line, .snpInv line, .snpCur line], exec i s = .next s)
    ∧ (rangeType a = some 2 →
        let u := s.correct (s.packageHome a) a 64
        exec (.snpData line) s = .next { u with ca := { u.ca with snoops := s.ca.snoops ++ [answer] } }
        ∧ exec (.snpCur line) s = .next { u with ca := { u.ca with snoops := s.ca.snoops ++ [answer] } }
        ∧ ∃ t, exec (.snpInv line) s = .next t
          ∧ t = { u with ca := { u.ca with snoops := s.ca.snoops ++ [answer], visitor := t.ca.visitor, l1 := t.ca.l1, code := t.ca.code } }
          ∧ (∀ v ∈ t.ca.visitor, meets v.unit.1 v.unit.2 a 64 = false) ∧ (∀ l ∈ t.ca.l1, l.line ≠ a) ∧ ∀ l ∈ t.ca.code, l.line ≠ a))
  ∧ (∀ (addr : BitVec 52) (s : State),
    let w := addr.toNat / 8
    let isle := s.packageHome (8 * w)
    let counted (t : State) : Prop :=
      (∀ x, s.dev.tele[isle]? = some x → t.dev.tele[isle]? = some { x with corrected := x.corrected + 1 })
      ∧ ∀ m, m ≠ isle → t.dev.tele[m]? = s.dev.tele[m]?
    (w ∉ s.ca.weak → exec (.scrub addr .clean) s = .next s)
    ∧ (w ∉ s.ca.weak → w ∉ s.ca.poison → ∃ t, exec (.scrub addr .correctable) s = .next t
        ∧ t = { s with dev := { s.dev with tele := t.dev.tele } } ∧ counted t)
    ∧ (w ∈ s.ca.weak → ∀ found, (found = .clean ∨ found = .correctable) → ∃ t, exec (.scrub addr found) s = .next t
        ∧ t = { s with ca := { s.ca with weak := s.ca.weak.filter (· != w) }, dev := { s.dev with tele := t.dev.tele } }
        ∧ (s.ca.weak.Nodup → counted t))
    ∧ ∃ t, exec (.scrub addr .uncorrectable) s = .next t
      ∧ t = { s with ca := { s.ca with poison := t.ca.poison, weak := s.ca.weak.filter (· != w) } }
      ∧ ∀ x, x ∈ t.ca.poison ↔ x ∈ s.ca.poison ∨ x = w)
  ∧ (∀ s : State,
    let m := s.dev.hmig
    let blocks := (s.dev.dropSources (fieldOf m 60 3)).flatMap fun x => (List.range 512).map fun i => blockOf x (fieldOf m 32 22) i
    let left := blocks.filter fun b => !s.dev.moved.contains (b / 2048)
    (fieldOf m 63 1 = 0 → exec .migrateBlock s = .next s)
    ∧ (fieldOf m 63 1 = 1 →
        (left = [] → exec .migrateBlock s = .next { s with dev := s.dev.nextRegion })
        ∧ (left ≠ [] → (∀ b ∈ left, s.pinsOn b 2048 ≠ []) → exec .migrateBlock s = .next s)
        ∧ ((∃ b ∈ left, s.pinsOn b 2048 = []) → ∃ t b, exec .migrateBlock s = .next t ∧ b ∈ left ∧ s.pinsOn b 2048 = []
            ∧ t.ca = s.movedCopies b ∧ t = { s with ca := t.ca, dev := t.dev }
            ∧ (1 < left.length → t.dev = { s.dev with hmig := m - 1, moved := s.dev.moved ++ [b / 2048] }))))
  ∧ (∀ (part : BitVec 3) (n : BitVec 4) (r : BitVec 256) (s : State),
    let kind := (r.extractLsb' 24 8).toNat
    let w := (r.extractLsb' 192 64).toNat / 8
    (s.dev.tstate.getLsbD part.toNat = false → exec (.injectionRecordWrite part n r) s = .next s)
    ∧ (s.dev.tstate.getLsbD part.toNat = true → ∃ t, exec (.injectionRecordWrite part n r) s = .next t
        ∧ t = { s with ca := { s.ca with poison := t.ca.poison, weak := t.ca.weak }, dev := { s.dev with inject := t.dev.inject } }
        ∧ t.injection part n = (if kind = 3 ∨ kind = 4 then 0 else r)
        ∧ (∀ p k, (p, k) ≠ (part, n) → t.injection p k = s.injection p k)
        ∧ (kind ≠ 3 → kind ≠ 4 → t.ca = s.ca)
        ∧ (∀ x, x ∈ t.ca.poison ↔ x ∈ s.ca.poison ∨ (x = w ∧ (kind = 4 ∨ (kind = 3 ∧ w ∈ s.ca.weak))))
        ∧ (kind = 3 → w ∉ s.ca.poison → w ∉ s.ca.weak → t.ca.weak = s.ca.weak ++ [w])))

/-- Links replay, lose and regain lock; a link without lock, or whose sixteenth replay fails, is given up, and a lost straits link raises cause
35 at every hart of its isles (R424, R426). A reset and a loss of
power leave the package as reset does, the latter without power (R4, R431). The host starts boot once; an image is accepted as R432 says,
and firmware then loads its fields (R428, R431, R435). Clock ratios fall at a limit and recover (R434). A signed command raises the
rollback floor, which never falls (R432). Released capacity is no longer enumerated (R422). What a reset keeps, the order of verification,
and the arguments of these steps are the model's (log entries 3, 4, 84, 86 and 87). -/
def Obligations.PackageStartsAndRuns : Prop :=
  (∀ (l : Link) (s : State), (∀ p, l = .causeway p → p.toNat < 18) →
    let x := s.linkOf l
    let only (t : State) : Prop := t = { s with dev := { s.dev with port := t.dev.port, straits := t.dev.straits } } ∧ ∀ k, k ≠ l → t.linkOf k = s.linkOf k
    (x.replays < 15 ∨ x.lost = true → ∃ t, exec (.flitReplay l) s = .next t ∧ only t ∧ t.linkOf l = { x with replays := x.replays + 1 })
    ∧ (15 ≤ x.replays → x.lost = false → ∃ t, exec (.flitReplay l) s = .next t ∧ (t.linkOf l).lost = true
        ∧ (t.linkOf l).replays = x.replays + 1)
    ∧ (∃ t, exec (.lockLost l) s = .next t ∧ only t ∧ t.linkOf l = { x with locked := false })
    ∧ (∃ t, exec (.lockRegained l) s = .next t ∧ only t ∧ t.linkOf l = (if x.lost then x else { locked := true, replays := 0, lost := false }))
    ∧ exec (.serdesCalibration l) s = .next s)
  ∧ (∀ (a b : BitVec 3) (s : State),
    let hit (h h' : Hart) : Prop := if h.live ∧ (h.hid.isle = a.toNat ∨ h.hid.isle = b.toNat)
      then h' = { h with pend := h.pend ++ [{ code := 35, sub := 7, sval := 0, batch := [] }] } else h' = h
    ((s.linkOf (.straits a b)).dead = false → exec (.straitsLinkLost a b) s = .next s)
    ∧ ((s.linkOf (.straits a b)).dead = true →
        ∃ t, exec (.straitsLinkLost a b) s = .next t ∧ t = { s with h := t.h, others := t.others, dev := { s.dev with straits := t.dev.straits } }
          ∧ (t.linkOf (.straits a b)).lost = true ∧ hit s.h t.h ∧ List.Forall₂ hit s.others t.others))
  ∧ (∀ s : State, (∃ t, exec .deviceReset s = .next t ∧ AsReset s t true) ∧ ∃ t, exec .powerOff s = .next t ∧ AsReset s t false)
  ∧ (∀ (img : List Byte) (floor v : BitVec 32), verifyImage img floor = .ok v ↔
    2048 ≤ img.length ∧ leNat (img.take 4) = 0x31485647 ∧ leNat ((img.drop 8).take 8) = img.length - 2048
    ∧ (img.drop 16).take 48 = sha384 (img.drop 2048) ∧ (∀ y ∈ (img.drop 64).take 64, y = 0) ∧ (∀ y ∈ (img.take 2048).drop 1676, y = 0)
    ∧ ecdsaVerifies Config.ecdsaKey (img.take 128) ((img.drop 128).take 96) = true
    ∧ lmsVerifies Config.lmsKey (img.take 128) ((img.drop 224).take 1452) = true
    ∧ v = BitVec.ofNat 32 (leNat ((img.drop 4).take 4)) ∧ floor ≤ v)
  ∧ (∀ s : State,
    let b := s.dev.boot
    (b.go = true → exec .bootGo s = .next s)
    ∧ (b.go = false → ∃ t, exec .bootGo s = .next t ∧ t = { s with dev := { s.dev with boot := t.dev.boot } } ∧ t.dev.boot.go = true
        ∧ t.dev.boot.running = b.running ∧ t.dev.boot.floor = b.floor
        ∧ (∀ img v, s.readImage b.imgAddr b.imgLen.toNat = .ok img → verifyImage img b.floorNow = .ok v →
            t.dev.boot.verified = true ∧ t.dev.boot.version = v ∧ t.dev.boot.reason = b.reason)
        ∧ (∀ img k, s.readImage b.imgAddr b.imgLen.toNat = .ok img → verifyImage img b.floorNow = .error k →
            t.dev.boot.verified = b.verified ∧ t.dev.boot.reason = BitVec.ofNat 4 k)
        ∧ (∀ k, s.readImage b.imgAddr b.imgLen.toNat = .error k → t.dev.boot.verified = b.verified ∧ t.dev.boot.reason = BitVec.ofNat 4 k)))
  ∧ (∀ (fw : FwLoad) (s : State),
    let ready : Prop := s.dev.boot.running = false ∧ s.dev.boot.verified = true ∧ partsOk fw.parts = true
    (¬ ready → exec (.bootComplete fw) s = .next s)
    ∧ (ready → ∃ t, exec (.bootComplete fw) s = .next t ∧ t.dev.boot = { s.dev.boot with running := true } ∧ t.dev.extents = fw.extents
        ∧ (∀ h ∈ t.h :: t.others, h.su.stvec = fw.stvec.getD h.hid.isle 0 &&& ~~~0x3F)
        ∧ (∀ k, k < 8 →
            let v := (fw.scrub.getD k 0).toNat
            let x := (fw.fwr.getD k 0).toNat
            t.dev.stvecFw[k]? = some (fw.stvec.getD k 0 &&& ~~~0x3F) ∧ t.dev.ipmap[k]? = some (fw.ipmap.getD k 0 &&& 0xF307)
            ∧ t.dev.scrubp[k]? = some (BitVec.ofNat 32 (if v = 0 then 1 else min v 86400000))
            ∧ t.dev.reserve[k]? = some (min (fw.reserve.getD k 0) (384 * 2 ^ 20 / 64))
            ∧ (∀ c, s.dev.clock[k]? = some c → t.dev.clock[k]? = some { c with
                fwr := BitVec.ofNat 8 (if 1 ≤ x ∧ x ≤ 0x3F then 0x40 else x), watts := min (fw.watts.getD k 3600) 3600 }))
        ∧ (∀ (k : Nat) (a b : PartBlock), k < 8 → s.rg.parts[k]? = some a → t.rg.parts[k]? = some b →
            (∀ p, (BitVec.ofNat 3 k, p) ∈ fw.parts →
              (b.used = true ↔ p.base.toNat % 2 ^ p.size.toNat = 0 ∧ p.base.toNat + 2 ^ p.size.toNat ≤ 8) ∧ b.size = p.size ∧ b.base = p.base ∧ b.ports = p.ports ∧ b.lroot = a.lroot)
            ∧ ((∀ p, (BitVec.ofNat 3 k, p) ∉ fw.parts) → b = { PartBlock.unused with lroot := a.lroot }))
        ∧ t.rg = { s.rg with parts := t.rg.parts }
        ∧ t.mem = s.mem ∧ t.ca = s.ca ∧ t.un = s.un))
  ∧ (∀ (addr : BitVec 52) (len : Nat) (s : State),
    let good (v : BitVec 32) : Prop := s.dev.boot.running = true ∧ ∃ img, s.readImage (addr.setWidth 64) len = .ok img
      ∧ verifyImage img s.dev.boot.floorNow = .ok v
    (∀ v, good v → exec (.policyImageUpdate addr len) s = .next { s with dev := { s.dev with boot := { s.dev.boot with version := v } } })
    ∧ ((∀ v, ¬ good v) → exec (.policyImageUpdate addr len) s = .next s))
  ∧ (∀ (isle : BitVec 3) (ratio : Nat) (s : State) (old : Clock), s.dev.clock[isle.toNat]? = some old →
    let only (t : State) (c : Clock) : Prop := t.dev.clock[isle.toNat]? = some c ∧ (∀ m, m ≠ isle.toNat → t.dev.clock[m]? = s.dev.clock[m]?)
      ∧ t = { s with mem := t.mem, dev := { s.dev with clock := t.dev.clock, trace := t.dev.trace } }
      ∧ (c.ratio = old.ratio → t.mem = s.mem ∧ t.dev.trace = s.dev.trace)
    (∃ t, exec (.fixedLimitReached isle ratio) s = .next t ∧ only t (if ratio < old.hw then { old with hw := ratio, hold := true } else old))
    ∧ (∃ t, exec (.ratioRecovery isle) s = .next t ∧ only t { old with hw := min 256 (old.hw + 1), hold := decide (old.hw + 1 < 256) })
    ∧ (∃ t, exec (.referenceCounterRestart isle) s = .next t ∧ t = { s with mem := t.mem, dev := { s.dev with trace := t.dev.trace } }
        ∧ ∀ r, s.dev.trace[isle.toNat]? = some r → (r.size = 0 → t = s) ∧ (r.Sound → ∀ x, ¬ r.Ring x → t.mem.get x = s.mem.get x)))
  ∧ (∀ (v : BitVec 32) (s : State), ∃ t, exec (.rollbackFloorRaise v) s = .next t ∧ t = { s with dev := { s.dev with boot := { s.dev.boot with floor := t.dev.boot.floor } } }
      ∧ (s.dev.boot.running = true → t.dev.boot.floorNow = if s.dev.boot.floorNow ≤ v then v else s.dev.boot.floorNow) ∧ (s.dev.boot.running = false → t = s))
  ∧ (∀ (base size : Nat) (s : State), ∃ t, exec (.extentRelease base size) s = .next t ∧ t = { s with dev := { s.dev with extents := t.dev.extents } }
      ∧ ∀ pa, t.enumerated pa = (s.enumerated pa && !(decide (base ≤ pa) && decide (pa < base + size))))
end

