-- ==== Sys2Proof/Laws/Memory.lean ====
section
/-! SUPPORT. Reading after writing, and the canonical form of memory. -/

namespace Sys2Proof.Machine

/-- Every listed address of a memory is above `a`. -/
def Memory.above (m : Memory) (a : Nat) : Prop := ∀ p ∈ m, a < p.1

theorem Memory.wf_nil : Memory.wf [] := ⟨List.Pairwise.nil, by simp⟩

theorem Memory.wf_cons {x : Nat} {b : Byte} {m : Memory} :
    Memory.wf ((x, b) :: m) ↔ Memory.above m x ∧ b ≠ 0 ∧ Memory.wf m := by
  simp only [Memory.wf, List.pairwise_cons, List.mem_cons, forall_eq_or_imp, Memory.above]
  tauto

theorem Memory.get_of_above {m : Memory} {a x : Nat} (h : Memory.above m a) (hx : x ≤ a) : m.get x = 0 := by
  induction m with
  | nil => rfl
  | cons p r ih =>
    have hp : a < p.1 := h p (by simp)
    rw [Memory.get, if_neg (by omega)]
    exact ih fun q hq => h q (by simp [hq])

theorem Memory.above_set {m : Memory} {x a : Nat} {b : Byte} (h : Memory.above m x) (ha : x < a) : Memory.above (m.set a b) x := by
  induction m with
  | nil =>
    unfold Memory.set
    split <;> simp [Memory.above, ha]
  | cons p r ih =>
    obtain ⟨y, c⟩ := p
    have hr : Memory.above r x := fun q hq => h q (by simp [hq])
    have hy : x < y := h (y, c) (by simp)
    have cons {z : Nat} {d : Byte} {n : Memory} (hz : x < z) (hn : Memory.above n x) : Memory.above ((z, d) :: n) x := by
      intro q hq
      rcases List.mem_cons.1 hq with rfl | hq
      · exact hz
      · exact hn q hq
    unfold Memory.set
    split
    · split
      · exact cons hy hr
      · exact cons ha (cons hy hr)
    · split
      · split
        · exact hr
        · exact cons ha hr
      · exact cons hy (ih hr)

/-- Writing a byte keeps the canonical form. -/
theorem Memory.wf_set {m : Memory} (h : m.wf) (a : Nat) (b : Byte) : (m.set a b).wf := by
  induction m with
  | nil =>
    unfold Memory.set
    split
    · exact Memory.wf_nil
    · exact Memory.wf_cons.2 ⟨by simp [Memory.above], ‹_›, Memory.wf_nil⟩
  | cons p r ih =>
    obtain ⟨x, c⟩ := p
    obtain ⟨hx, hc, hr⟩ := Memory.wf_cons.1 h
    unfold Memory.set
    split
    · split
      · exact h
      · refine Memory.wf_cons.2 ⟨?_, ‹_›, h⟩
        intro q hq
        rcases List.mem_cons.1 hq with rfl | hq
        · assumption
        · have := hx q hq
          omega
    · split
      · subst a
        split
        · exact hr
        · exact Memory.wf_cons.2 ⟨hx, ‹_›, hr⟩
      · exact Memory.wf_cons.2 ⟨Memory.above_set hx (by omega), hc, ih hr⟩

/-- A byte reads as it was written, in a memory in canonical form. -/
theorem Memory.get_set {m : Memory} (h : m.wf) (a x : Nat) (b : Byte) : (m.set a b).get x = if x = a then b else m.get x := by
  induction m with
  | nil =>
    unfold Memory.set
    split
    · subst b
      simp [Memory.get]
    · by_cases hx : x = a
      · simp [Memory.get, hx]
      · have hn : a ≠ x := fun e => hx e.symm
        simp [Memory.get, hx, hn]
  | cons p r ih =>
    obtain ⟨y, c⟩ := p
    obtain ⟨hy, hc, hr⟩ := Memory.wf_cons.1 h
    unfold Memory.set
    split
    · have hz : (Memory.get ((y, c) :: r) a) = 0 := by
        rw [Memory.get, if_neg (by omega)]
        exact Memory.get_of_above hy (by omega)
      split
      · by_cases hx : x = a
        · subst x; rw [hz]; simp_all
        · simp [hx]
      · by_cases hx : x = a
        · simp [Memory.get, hx]
        · rw [Memory.get, if_neg (fun e => hx e.symm), if_neg hx]
    · split
      · subst a
        have hz : Memory.get r y = 0 := Memory.get_of_above hy (by omega)
        split
        · by_cases hx : x = y
          · subst x; simp_all
          · rw [if_neg hx, Memory.get, if_neg (fun e => hx e.symm)]
        · by_cases hx : x = y
          · simp [Memory.get, hx]
          · have hn : y ≠ x := fun e => hx e.symm
            simp [Memory.get, hx, hn]
      · by_cases hx : y = x
        · subst x
          rw [Memory.get, if_pos rfl, if_neg (by omega), Memory.get, if_pos rfl]
        · rw [Memory.get, if_neg hx, ih hr, Memory.get, if_neg hx]

/-- Writing a run of bytes keeps the canonical form. -/
theorem Memory.wf_put {m : Memory} (h : m.wf) (a : Nat) (bs : List Byte) : (m.put a bs).wf := by
  induction bs generalizing m a with
  | nil => exact h
  | cons b bs ih => exact ih (Memory.wf_set h a b) (a + 1)

/-- Writing a number keeps the canonical form. -/
theorem Memory.wf_putNum {m : Memory} (h : m.wf) (a n v : Nat) : (m.putNum a n v).wf := Memory.wf_put h a _

/-- A run of bytes reads as it was written, and every other byte as before. -/
theorem Memory.get_put {m : Memory} (h : m.wf) (a x : Nat) (bs : List Byte) :
    (m.put a bs).get x = if a ≤ x ∧ x < a + bs.length then bs.getD (x - a) 0 else m.get x := by
  induction bs generalizing m a with
  | nil => simp [Memory.put]
  | cons b bs ih =>
    rw [Memory.put, ih (Memory.wf_set h a b), Memory.get_set h]
    by_cases hx : x = a
    · subst x
      simp
    · by_cases hr : a ≤ x ∧ x < a + (b :: bs).length
      · have h1 : a + 1 ≤ x ∧ x < a + 1 + bs.length := by simp at hr; omega
        obtain ⟨k, hk⟩ : ∃ k, x - a = k + 1 := ⟨x - a - 1, by omega⟩
        rw [if_pos h1, if_pos hr, hk, List.getD_cons_succ, show x - (a + 1) = k by omega]
      · have h1 : ¬(a + 1 ≤ x ∧ x < a + 1 + bs.length) := by simp at hr; omega
        rw [if_neg h1, if_neg hr, if_neg hx]

@[simp] theorem Memory.length_bytes (m : Memory) (a n : Nat) : (m.bytes a n).length = n := by
  induction n generalizing a with
  | zero => rfl
  | succ n ih => simp [Memory.bytes, ih]

theorem Memory.getElem_bytes (m : Memory) (a n i : Nat) (h : i < n) : (m.bytes a n)[i]? = some (m.get (a + i)) := by
  induction n generalizing a i with
  | zero => omega
  | succ n ih =>
    cases i with
    | zero => simp [Memory.bytes]
    | succ i =>
      simp only [Memory.bytes, List.getElem?_cons_succ]
      rw [ih (a + 1) i (by omega)]
      congr 2
      omega

/-- Two memories that agree on `n` bytes give the same bytes. -/
theorem Memory.bytes_congr {m k : Memory} {a n : Nat} (h : ∀ x, a ≤ x → x < a + n → m.get x = k.get x) :
    m.bytes a n = k.bytes a n := by
  induction n generalizing a with
  | zero => rfl
  | succ n ih =>
    simp only [Memory.bytes]
    rw [h a (by omega) (by omega), ih fun x h1 h2 => h x (by omega) (by omega)]

@[simp] theorem length_leBytes (n w : Nat) : (leBytes n w).length = n := by
  induction n generalizing w with
  | zero => rfl
  | succ n ih => simp [leBytes, ih]

/-- The bytes of a number give it back, modulo their count. -/
theorem leNat_leBytes (n w : Nat) : leNat (leBytes n w) = w % 256 ^ n := by
  induction n generalizing w with
  | zero => simp [leBytes, leNat, Nat.mod_one]
  | succ n ih =>
    rw [leBytes, leNat, ih, Nat.pow_succ, Nat.mul_comm (256 ^ n) 256, Nat.mod_mul]
    simp [BitVec.toNat_ofNat]

end Sys2Proof.Machine
end

