-- ==== Sys2Proof/Laws/State.lean ====
section
/-! SUPPORT. What each update of a part of the state leaves in each field. -/

namespace Sys2Proof.Machine

section
variable (s : State) (f : Scalar → Scalar)
@[simp] theorem State.onSc_h_hid : (s.onSc f).h.hid = s.h.hid := rfl
@[simp] theorem State.onSc_h_live : (s.onSc f).h.live = s.h.live := rfl
@[simp] theorem State.onSc_h_sc : (s.onSc f).h.sc = f s.h.sc := rfl
@[simp] theorem State.onSc_h_ev : (s.onSc f).h.ev = s.h.ev := rfl
@[simp] theorem State.onSc_h_vec : (s.onSc f).h.vec = s.h.vec := rfl
@[simp] theorem State.onSc_h_mx : (s.onSc f).h.mx = s.h.mx := rfl
@[simp] theorem State.onSc_h_su : (s.onSc f).h.su = s.h.su := rfl
@[simp] theorem State.onSc_h_ct : (s.onSc f).h.ct = s.h.ct := rfl
@[simp] theorem State.onSc_h_dbg : (s.onSc f).h.dbg = s.h.dbg := rfl
@[simp] theorem State.onSc_h_pend : (s.onSc f).h.pend = s.h.pend := rfl
@[simp] theorem State.onSc_h_mark : (s.onSc f).h.mark = s.h.mark := rfl
@[simp] theorem State.onSc_h_buf : (s.onSc f).h.buf = s.h.buf := rfl
@[simp] theorem State.onSc_h_queue : (s.onSc f).h.queue = s.h.queue := rfl
@[simp] theorem State.onSc_h_held : (s.onSc f).h.held = s.h.held := rfl
@[simp] theorem State.onSc_h_heldAt : (s.onSc f).h.heldAt = s.h.heldAt := rfl
@[simp] theorem State.onSc_h_loads : (s.onSc f).h.loads = s.h.loads := rfl
@[simp] theorem State.onSc_h_fence : (s.onSc f).h.fence = s.h.fence := rfl
@[simp] theorem State.onSc_h_loop : (s.onSc f).h.loop = s.h.loop := rfl
@[simp] theorem State.onSc_h_weak : (s.onSc f).h.weak = s.h.weak := rfl
@[simp] theorem State.onSc_h_bad : (s.onSc f).h.bad = s.h.bad := rfl
@[simp] theorem State.onSc_others : (s.onSc f).others = s.others := rfl
@[simp] theorem State.onSc_mem : (s.onSc f).mem = s.mem := rfl
@[simp] theorem State.onSc_ca : (s.onSc f).ca = s.ca := rfl
@[simp] theorem State.onSc_un : (s.onSc f).un = s.un := rfl
@[simp] theorem State.onSc_rg : (s.onSc f).rg = s.rg := rfl
@[simp] theorem State.onSc_dev : (s.onSc f).dev = s.dev := rfl
@[simp] theorem State.onSc_agenda : (s.onSc f).agenda = s.agenda := rfl
@[simp] theorem State.onSc_tick : (s.onSc f).tick = s.tick := rfl
@[simp] theorem State.onSc_free : (s.onSc f).free = s.free := rfl
end

section
variable (s : State) (f : Events → Events)
@[simp] theorem State.onEv_h_hid : (s.onEv f).h.hid = s.h.hid := rfl
@[simp] theorem State.onEv_h_live : (s.onEv f).h.live = s.h.live := rfl
@[simp] theorem State.onEv_h_sc : (s.onEv f).h.sc = s.h.sc := rfl
@[simp] theorem State.onEv_h_ev : (s.onEv f).h.ev = f s.h.ev := rfl
@[simp] theorem State.onEv_h_vec : (s.onEv f).h.vec = s.h.vec := rfl
@[simp] theorem State.onEv_h_mx : (s.onEv f).h.mx = s.h.mx := rfl
@[simp] theorem State.onEv_h_su : (s.onEv f).h.su = s.h.su := rfl
@[simp] theorem State.onEv_h_ct : (s.onEv f).h.ct = s.h.ct := rfl
@[simp] theorem State.onEv_h_dbg : (s.onEv f).h.dbg = s.h.dbg := rfl
@[simp] theorem State.onEv_h_pend : (s.onEv f).h.pend = s.h.pend := rfl
@[simp] theorem State.onEv_h_mark : (s.onEv f).h.mark = s.h.mark := rfl
@[simp] theorem State.onEv_h_buf : (s.onEv f).h.buf = s.h.buf := rfl
@[simp] theorem State.onEv_h_queue : (s.onEv f).h.queue = s.h.queue := rfl
@[simp] theorem State.onEv_h_held : (s.onEv f).h.held = s.h.held := rfl
@[simp] theorem State.onEv_h_heldAt : (s.onEv f).h.heldAt = s.h.heldAt := rfl
@[simp] theorem State.onEv_h_loads : (s.onEv f).h.loads = s.h.loads := rfl
@[simp] theorem State.onEv_h_fence : (s.onEv f).h.fence = s.h.fence := rfl
@[simp] theorem State.onEv_h_loop : (s.onEv f).h.loop = s.h.loop := rfl
@[simp] theorem State.onEv_h_weak : (s.onEv f).h.weak = s.h.weak := rfl
@[simp] theorem State.onEv_h_bad : (s.onEv f).h.bad = s.h.bad := rfl
@[simp] theorem State.onEv_others : (s.onEv f).others = s.others := rfl
@[simp] theorem State.onEv_mem : (s.onEv f).mem = s.mem := rfl
@[simp] theorem State.onEv_ca : (s.onEv f).ca = s.ca := rfl
@[simp] theorem State.onEv_un : (s.onEv f).un = s.un := rfl
@[simp] theorem State.onEv_rg : (s.onEv f).rg = s.rg := rfl
@[simp] theorem State.onEv_dev : (s.onEv f).dev = s.dev := rfl
@[simp] theorem State.onEv_agenda : (s.onEv f).agenda = s.agenda := rfl
@[simp] theorem State.onEv_tick : (s.onEv f).tick = s.tick := rfl
@[simp] theorem State.onEv_free : (s.onEv f).free = s.free := rfl
end

section
variable (s : State) (f : Vec → Vec)
@[simp] theorem State.onVec_h_hid : (s.onVec f).h.hid = s.h.hid := rfl
@[simp] theorem State.onVec_h_live : (s.onVec f).h.live = s.h.live := rfl
@[simp] theorem State.onVec_h_sc : (s.onVec f).h.sc = s.h.sc := rfl
@[simp] theorem State.onVec_h_ev : (s.onVec f).h.ev = s.h.ev := rfl
@[simp] theorem State.onVec_h_vec : (s.onVec f).h.vec = f s.h.vec := rfl
@[simp] theorem State.onVec_h_mx : (s.onVec f).h.mx = s.h.mx := rfl
@[simp] theorem State.onVec_h_su : (s.onVec f).h.su = s.h.su := rfl
@[simp] theorem State.onVec_h_ct : (s.onVec f).h.ct = s.h.ct := rfl
@[simp] theorem State.onVec_h_dbg : (s.onVec f).h.dbg = s.h.dbg := rfl
@[simp] theorem State.onVec_h_pend : (s.onVec f).h.pend = s.h.pend := rfl
@[simp] theorem State.onVec_h_mark : (s.onVec f).h.mark = s.h.mark := rfl
@[simp] theorem State.onVec_h_buf : (s.onVec f).h.buf = s.h.buf := rfl
@[simp] theorem State.onVec_h_queue : (s.onVec f).h.queue = s.h.queue := rfl
@[simp] theorem State.onVec_h_held : (s.onVec f).h.held = s.h.held := rfl
@[simp] theorem State.onVec_h_heldAt : (s.onVec f).h.heldAt = s.h.heldAt := rfl
@[simp] theorem State.onVec_h_loads : (s.onVec f).h.loads = s.h.loads := rfl
@[simp] theorem State.onVec_h_fence : (s.onVec f).h.fence = s.h.fence := rfl
@[simp] theorem State.onVec_h_loop : (s.onVec f).h.loop = s.h.loop := rfl
@[simp] theorem State.onVec_h_weak : (s.onVec f).h.weak = s.h.weak := rfl
@[simp] theorem State.onVec_h_bad : (s.onVec f).h.bad = s.h.bad := rfl
@[simp] theorem State.onVec_others : (s.onVec f).others = s.others := rfl
@[simp] theorem State.onVec_mem : (s.onVec f).mem = s.mem := rfl
@[simp] theorem State.onVec_ca : (s.onVec f).ca = s.ca := rfl
@[simp] theorem State.onVec_un : (s.onVec f).un = s.un := rfl
@[simp] theorem State.onVec_rg : (s.onVec f).rg = s.rg := rfl
@[simp] theorem State.onVec_dev : (s.onVec f).dev = s.dev := rfl
@[simp] theorem State.onVec_agenda : (s.onVec f).agenda = s.agenda := rfl
@[simp] theorem State.onVec_tick : (s.onVec f).tick = s.tick := rfl
@[simp] theorem State.onVec_free : (s.onVec f).free = s.free := rfl
end

section
variable (s : State) (f : Matrix → Matrix)
@[simp] theorem State.onMx_h_hid : (s.onMx f).h.hid = s.h.hid := rfl
@[simp] theorem State.onMx_h_live : (s.onMx f).h.live = s.h.live := rfl
@[simp] theorem State.onMx_h_sc : (s.onMx f).h.sc = s.h.sc := rfl
@[simp] theorem State.onMx_h_ev : (s.onMx f).h.ev = s.h.ev := rfl
@[simp] theorem State.onMx_h_vec : (s.onMx f).h.vec = s.h.vec := rfl
@[simp] theorem State.onMx_h_mx : (s.onMx f).h.mx = f s.h.mx := rfl
@[simp] theorem State.onMx_h_su : (s.onMx f).h.su = s.h.su := rfl
@[simp] theorem State.onMx_h_ct : (s.onMx f).h.ct = s.h.ct := rfl
@[simp] theorem State.onMx_h_dbg : (s.onMx f).h.dbg = s.h.dbg := rfl
@[simp] theorem State.onMx_h_pend : (s.onMx f).h.pend = s.h.pend := rfl
@[simp] theorem State.onMx_h_mark : (s.onMx f).h.mark = s.h.mark := rfl
@[simp] theorem State.onMx_h_buf : (s.onMx f).h.buf = s.h.buf := rfl
@[simp] theorem State.onMx_h_queue : (s.onMx f).h.queue = s.h.queue := rfl
@[simp] theorem State.onMx_h_held : (s.onMx f).h.held = s.h.held := rfl
@[simp] theorem State.onMx_h_heldAt : (s.onMx f).h.heldAt = s.h.heldAt := rfl
@[simp] theorem State.onMx_h_loads : (s.onMx f).h.loads = s.h.loads := rfl
@[simp] theorem State.onMx_h_fence : (s.onMx f).h.fence = s.h.fence := rfl
@[simp] theorem State.onMx_h_loop : (s.onMx f).h.loop = s.h.loop := rfl
@[simp] theorem State.onMx_h_weak : (s.onMx f).h.weak = s.h.weak := rfl
@[simp] theorem State.onMx_h_bad : (s.onMx f).h.bad = s.h.bad := rfl
@[simp] theorem State.onMx_others : (s.onMx f).others = s.others := rfl
@[simp] theorem State.onMx_mem : (s.onMx f).mem = s.mem := rfl
@[simp] theorem State.onMx_ca : (s.onMx f).ca = s.ca := rfl
@[simp] theorem State.onMx_un : (s.onMx f).un = s.un := rfl
@[simp] theorem State.onMx_rg : (s.onMx f).rg = s.rg := rfl
@[simp] theorem State.onMx_dev : (s.onMx f).dev = s.dev := rfl
@[simp] theorem State.onMx_agenda : (s.onMx f).agenda = s.agenda := rfl
@[simp] theorem State.onMx_tick : (s.onMx f).tick = s.tick := rfl
@[simp] theorem State.onMx_free : (s.onMx f).free = s.free := rfl
end

section
variable (s : State) (f : Supervisor → Supervisor)
@[simp] theorem State.onSu_h_hid : (s.onSu f).h.hid = s.h.hid := rfl
@[simp] theorem State.onSu_h_live : (s.onSu f).h.live = s.h.live := rfl
@[simp] theorem State.onSu_h_sc : (s.onSu f).h.sc = s.h.sc := rfl
@[simp] theorem State.onSu_h_ev : (s.onSu f).h.ev = s.h.ev := rfl
@[simp] theorem State.onSu_h_vec : (s.onSu f).h.vec = s.h.vec := rfl
@[simp] theorem State.onSu_h_mx : (s.onSu f).h.mx = s.h.mx := rfl
@[simp] theorem State.onSu_h_su : (s.onSu f).h.su = f s.h.su := rfl
@[simp] theorem State.onSu_h_ct : (s.onSu f).h.ct = s.h.ct := rfl
@[simp] theorem State.onSu_h_dbg : (s.onSu f).h.dbg = s.h.dbg := rfl
@[simp] theorem State.onSu_h_pend : (s.onSu f).h.pend = s.h.pend := rfl
@[simp] theorem State.onSu_h_mark : (s.onSu f).h.mark = s.h.mark := rfl
@[simp] theorem State.onSu_h_buf : (s.onSu f).h.buf = s.h.buf := rfl
@[simp] theorem State.onSu_h_queue : (s.onSu f).h.queue = s.h.queue := rfl
@[simp] theorem State.onSu_h_held : (s.onSu f).h.held = s.h.held := rfl
@[simp] theorem State.onSu_h_heldAt : (s.onSu f).h.heldAt = s.h.heldAt := rfl
@[simp] theorem State.onSu_h_loads : (s.onSu f).h.loads = s.h.loads := rfl
@[simp] theorem State.onSu_h_fence : (s.onSu f).h.fence = s.h.fence := rfl
@[simp] theorem State.onSu_h_loop : (s.onSu f).h.loop = s.h.loop := rfl
@[simp] theorem State.onSu_h_weak : (s.onSu f).h.weak = s.h.weak := rfl
@[simp] theorem State.onSu_h_bad : (s.onSu f).h.bad = s.h.bad := rfl
@[simp] theorem State.onSu_others : (s.onSu f).others = s.others := rfl
@[simp] theorem State.onSu_mem : (s.onSu f).mem = s.mem := rfl
@[simp] theorem State.onSu_ca : (s.onSu f).ca = s.ca := rfl
@[simp] theorem State.onSu_un : (s.onSu f).un = s.un := rfl
@[simp] theorem State.onSu_rg : (s.onSu f).rg = s.rg := rfl
@[simp] theorem State.onSu_dev : (s.onSu f).dev = s.dev := rfl
@[simp] theorem State.onSu_agenda : (s.onSu f).agenda = s.agenda := rfl
@[simp] theorem State.onSu_tick : (s.onSu f).tick = s.tick := rfl
@[simp] theorem State.onSu_free : (s.onSu f).free = s.free := rfl
end

section
variable (s : State) (f : Control → Control)
@[simp] theorem State.onCt_h_hid : (s.onCt f).h.hid = s.h.hid := rfl
@[simp] theorem State.onCt_h_live : (s.onCt f).h.live = s.h.live := rfl
@[simp] theorem State.onCt_h_sc : (s.onCt f).h.sc = s.h.sc := rfl
@[simp] theorem State.onCt_h_ev : (s.onCt f).h.ev = s.h.ev := rfl
@[simp] theorem State.onCt_h_vec : (s.onCt f).h.vec = s.h.vec := rfl
@[simp] theorem State.onCt_h_mx : (s.onCt f).h.mx = s.h.mx := rfl
@[simp] theorem State.onCt_h_su : (s.onCt f).h.su = s.h.su := rfl
@[simp] theorem State.onCt_h_ct : (s.onCt f).h.ct = f s.h.ct := rfl
@[simp] theorem State.onCt_h_dbg : (s.onCt f).h.dbg = s.h.dbg := rfl
@[simp] theorem State.onCt_h_pend : (s.onCt f).h.pend = s.h.pend := rfl
@[simp] theorem State.onCt_h_mark : (s.onCt f).h.mark = s.h.mark := rfl
@[simp] theorem State.onCt_h_buf : (s.onCt f).h.buf = s.h.buf := rfl
@[simp] theorem State.onCt_h_queue : (s.onCt f).h.queue = s.h.queue := rfl
@[simp] theorem State.onCt_h_held : (s.onCt f).h.held = s.h.held := rfl
@[simp] theorem State.onCt_h_heldAt : (s.onCt f).h.heldAt = s.h.heldAt := rfl
@[simp] theorem State.onCt_h_loads : (s.onCt f).h.loads = s.h.loads := rfl
@[simp] theorem State.onCt_h_fence : (s.onCt f).h.fence = s.h.fence := rfl
@[simp] theorem State.onCt_h_loop : (s.onCt f).h.loop = s.h.loop := rfl
@[simp] theorem State.onCt_h_weak : (s.onCt f).h.weak = s.h.weak := rfl
@[simp] theorem State.onCt_h_bad : (s.onCt f).h.bad = s.h.bad := rfl
@[simp] theorem State.onCt_others : (s.onCt f).others = s.others := rfl
@[simp] theorem State.onCt_mem : (s.onCt f).mem = s.mem := rfl
@[simp] theorem State.onCt_ca : (s.onCt f).ca = s.ca := rfl
@[simp] theorem State.onCt_un : (s.onCt f).un = s.un := rfl
@[simp] theorem State.onCt_rg : (s.onCt f).rg = s.rg := rfl
@[simp] theorem State.onCt_dev : (s.onCt f).dev = s.dev := rfl
@[simp] theorem State.onCt_agenda : (s.onCt f).agenda = s.agenda := rfl
@[simp] theorem State.onCt_tick : (s.onCt f).tick = s.tick := rfl
@[simp] theorem State.onCt_free : (s.onCt f).free = s.free := rfl
end

section
variable (s : State) (f : Debug → Debug)
@[simp] theorem State.onDbg_h_hid : (s.onDbg f).h.hid = s.h.hid := rfl
@[simp] theorem State.onDbg_h_live : (s.onDbg f).h.live = s.h.live := rfl
@[simp] theorem State.onDbg_h_sc : (s.onDbg f).h.sc = s.h.sc := rfl
@[simp] theorem State.onDbg_h_ev : (s.onDbg f).h.ev = s.h.ev := rfl
@[simp] theorem State.onDbg_h_vec : (s.onDbg f).h.vec = s.h.vec := rfl
@[simp] theorem State.onDbg_h_mx : (s.onDbg f).h.mx = s.h.mx := rfl
@[simp] theorem State.onDbg_h_su : (s.onDbg f).h.su = s.h.su := rfl
@[simp] theorem State.onDbg_h_ct : (s.onDbg f).h.ct = s.h.ct := rfl
@[simp] theorem State.onDbg_h_dbg : (s.onDbg f).h.dbg = f s.h.dbg := rfl
@[simp] theorem State.onDbg_h_pend : (s.onDbg f).h.pend = s.h.pend := rfl
@[simp] theorem State.onDbg_h_mark : (s.onDbg f).h.mark = s.h.mark := rfl
@[simp] theorem State.onDbg_h_buf : (s.onDbg f).h.buf = s.h.buf := rfl
@[simp] theorem State.onDbg_h_queue : (s.onDbg f).h.queue = s.h.queue := rfl
@[simp] theorem State.onDbg_h_held : (s.onDbg f).h.held = s.h.held := rfl
@[simp] theorem State.onDbg_h_heldAt : (s.onDbg f).h.heldAt = s.h.heldAt := rfl
@[simp] theorem State.onDbg_h_loads : (s.onDbg f).h.loads = s.h.loads := rfl
@[simp] theorem State.onDbg_h_fence : (s.onDbg f).h.fence = s.h.fence := rfl
@[simp] theorem State.onDbg_h_loop : (s.onDbg f).h.loop = s.h.loop := rfl
@[simp] theorem State.onDbg_h_weak : (s.onDbg f).h.weak = s.h.weak := rfl
@[simp] theorem State.onDbg_h_bad : (s.onDbg f).h.bad = s.h.bad := rfl
@[simp] theorem State.onDbg_others : (s.onDbg f).others = s.others := rfl
@[simp] theorem State.onDbg_mem : (s.onDbg f).mem = s.mem := rfl
@[simp] theorem State.onDbg_ca : (s.onDbg f).ca = s.ca := rfl
@[simp] theorem State.onDbg_un : (s.onDbg f).un = s.un := rfl
@[simp] theorem State.onDbg_rg : (s.onDbg f).rg = s.rg := rfl
@[simp] theorem State.onDbg_dev : (s.onDbg f).dev = s.dev := rfl
@[simp] theorem State.onDbg_agenda : (s.onDbg f).agenda = s.agenda := rfl
@[simp] theorem State.onDbg_tick : (s.onDbg f).tick = s.tick := rfl
@[simp] theorem State.onDbg_free : (s.onDbg f).free = s.free := rfl
end

section
variable (s : State) (f : Caches → Caches)
@[simp] theorem State.onCa_h : (s.onCa f).h = s.h := rfl
@[simp] theorem State.onCa_others : (s.onCa f).others = s.others := rfl
@[simp] theorem State.onCa_mem : (s.onCa f).mem = s.mem := rfl
@[simp] theorem State.onCa_ca : (s.onCa f).ca = f s.ca := rfl
@[simp] theorem State.onCa_un : (s.onCa f).un = s.un := rfl
@[simp] theorem State.onCa_rg : (s.onCa f).rg = s.rg := rfl
@[simp] theorem State.onCa_dev : (s.onCa f).dev = s.dev := rfl
@[simp] theorem State.onCa_agenda : (s.onCa f).agenda = s.agenda := rfl
@[simp] theorem State.onCa_tick : (s.onCa f).tick = s.tick := rfl
@[simp] theorem State.onCa_free : (s.onCa f).free = s.free := rfl
end

section
variable (s : State) (f : Units → Units)
@[simp] theorem State.onUn_h : (s.onUn f).h = s.h := rfl
@[simp] theorem State.onUn_others : (s.onUn f).others = s.others := rfl
@[simp] theorem State.onUn_mem : (s.onUn f).mem = s.mem := rfl
@[simp] theorem State.onUn_ca : (s.onUn f).ca = s.ca := rfl
@[simp] theorem State.onUn_un : (s.onUn f).un = f s.un := rfl
@[simp] theorem State.onUn_rg : (s.onUn f).rg = s.rg := rfl
@[simp] theorem State.onUn_dev : (s.onUn f).dev = s.dev := rfl
@[simp] theorem State.onUn_agenda : (s.onUn f).agenda = s.agenda := rfl
@[simp] theorem State.onUn_tick : (s.onUn f).tick = s.tick := rfl
@[simp] theorem State.onUn_free : (s.onUn f).free = s.free := rfl
end

end Sys2Proof.Machine
end

