-- ==== Sys2Proof/Laws/Registers.lean ====
section
/-! SUPPORT. What writing a g register, moving the pc, and jumping leave. -/

namespace Sys2Proof.Machine

/-! ### One register -/

@[simp] theorem Scalar.setG_ldn (sc : Scalar) (r : Reg) (v : Word) : (sc.setG r v).ldn = r := rfl
@[simp] theorem Scalar.setG_pc (sc : Scalar) (r : Reg) (v : Word) : (sc.setG r v).pc = sc.pc := rfl
@[simp] theorem Scalar.setG_frames (sc : Scalar) (r : Reg) (v : Word) : (sc.setG r v).frames = sc.frames := rfl
@[simp] theorem Scalar.setG_lc (sc : Scalar) (r : Reg) (v : Word) : (sc.setG r v).lc = sc.lc := rfl
@[simp] theorem Scalar.setG_lx (sc : Scalar) (r : Reg) (v : Word) : (sc.setG r v).lx = sc.lx := rfl
@[simp] theorem Scalar.endAt_g (sc : Scalar) (n : Word) : (sc.endAt n).g = sc.g := rfl
@[simp] theorem Scalar.endAt_ldn (sc : Scalar) (n : Word) : (sc.endAt n).ldn = sc.ldn := rfl
@[simp] theorem Scalar.jump_g (sc : Scalar) (n : Word) : (sc.jump n).g = sc.g := rfl
@[simp] theorem Scalar.jump_ldn (sc : Scalar) (n : Word) : (sc.jump n).ldn = sc.ldn := rfl

@[simp] theorem State.g_zero (s : State) : s.g 0 = 0 := rfl

/-- g[r] after a write to g[d] (R153). -/
theorem State.g_setG (s : State) (d r : Reg) (v : Word) :
    (s.setG d v).g r = if r = d then (if d = 0 then 0 else v) else s.g r := by
  simp only [State.g, State.setG, Scalar.setG, State.onSc_h_sc]
  by_cases hr : r = 0
  · rw [if_pos hr, if_pos hr]
    by_cases h : r = d
    · rw [if_pos h, if_pos (h ▸ hr)]
    · rw [if_neg h]
  · rw [if_neg hr, if_neg hr]
    by_cases h : r = d
    · subst h
      simp only [if_neg hr, if_pos, Vector.getElem_set_self]
    · have hn : d.toNat ≠ r.toNat := fun e => h (BitVec.eq_of_toNat_eq e.symm)
      rw [if_neg h]
      by_cases hd : d = 0
      · simp only [if_pos hd]
      · simp only [if_neg hd, Vector.getElem_set_ne _ _ hn]

@[simp] theorem State.g_advance (s : State) (n : Nat) (r : Reg) : (s.advance n).g r = s.g r := rfl
@[simp] theorem State.g_jump (s : State) (t : Word) (r : Reg) : (s.jump t).g r = s.g r := rfl
@[simp] theorem State.g_orFlags (s : State) (n : Nat) (r : Reg) : (s.orFlags n).g r = s.g r := rfl

/-! ### An instruction that writes one register -/

/-- What writing one register and completing leaves. -/
theorem wroteReg_setG_advance (s : State) (d : Reg) (v : Word) (len : Nat) : WroteReg s ((s.setG d v).advance len) d v len where
  value := by rw [State.g_advance, State.g_setG, if_pos rfl]
  others := fun r hr => by rw [State.g_advance, State.g_setG, if_neg hr]
  ldn := rfl
  pc := ⟨rfl, rfl, rfl, rfl⟩
  specials := ⟨rfl, rfl, rfl, rfl, rfl, rfl, rfl, rfl⟩
  scalar := rfl

/-- `writeReg` answers a next state that has the value. -/
theorem writeReg_spec (len : Nat) (d : Reg) (v : Word) (s : State) : ∃ t, writeReg len d v s = .next t ∧ WroteReg s t d v len :=
  ⟨_, rfl, wroteReg_setG_advance s d v len⟩

/-- What a taken jump leaves. -/
theorem jumped_jump (s : State) (target : Word) : Jumped s (s.jump target) target where
  pc := rfl
  frames := rfl
  lc := rfl
  lx := rfl
  specials := ⟨rfl, rfl, rfl, rfl, rfl, rfl, rfl, rfl⟩
  scalar := rfl

end Sys2Proof.Machine
end

