-- ==== Sys2Proof/Laws/Access.lean ====
section
/-! SUPPORT. What the checks of an own access answer, and what marking a leaf, watchpoints and the caches leave alone. -/

namespace Sys2Proof.Machine

/-! ### Watchpoints -/

theorem watchArmed_off (wpc : Word) (t : Touch) (sup : Bool) (h : fieldOf wpc 63 1 = 0) : watchArmed wpc t sup = false := by
  simp [watchArmed, h]

theorem NoWatch.hits {s : State} (h : NoWatch s) (va : Word) (n : Nat) (t : Touch) (sup : Bool) :
    s.h.sc.watchHits va n t sup = [] := by
  unfold Scalar.watchHits
  rw [List.filter_eq_nil_iff]
  intro k _
  have hk : watchArmed s.h.sc.wpc[k] t sup = false := watchArmed_off _ t sup (h s.h List.mem_cons_self k)
  rw [hk]
  exact Bool.false_ne_true

theorem NoWatch.own {s : State} (h : NoWatch s) (va : Word) (n : Nat) (acc : Acc) (e : Nat) : s.ownWatch va n acc e = (s, .pass) := by
  unfold State.ownWatch
  rw [h.hits]
  rfl

theorem watchesOf_off (s : State) (o : Hart) (src : Source) (pa n : Nat) (t : Touch) (sup : Bool)
    (h : ∀ k : Fin 8, fieldOf o.sc.wpc[k] 63 1 = 0) : s.watchesOf o src pa n t sup = [] := by
  unfold State.watchesOf
  rw [List.filterMap_eq_nil_iff]
  intro k _
  simp only [watchArmed_off _ t sup (h k), Bool.false_and, Bool.false_eq_true, if_false]

/-- A read of words that have no wrong bit corrects nothing (R399). -/
theorem State.correct_sound (s : State) (isle pa n : Nat) (h : ∀ w ∈ s.ca.weak, meets (8 * w) 8 pa n = false) : s.correct isle pa n = s := by
  have e : (s.ca.weak.filter fun w => meets (8 * w) 8 pa n) = [] := by
    rw [List.filter_eq_nil_iff]
    intro w hw
    rw [h w hw]
    exact Bool.false_ne_true
  unfold State.correct
  simp only [e, List.isEmpty_nil, if_true]

theorem NoWatch.home {s : State} (h : NoWatch s) (part : BitVec 3) (src : Source) (org : Origin) (pa n : Nat) (t : Touch)
    (hc : (t.read || t.fetch) = true → ∀ w ∈ s.ca.weak, meets (8 * w) 8 pa n = false) : s.watchHome part src org pa n t = s := by
  have key : ∀ (l : List Hart) (f : State → Hart → State), (∀ o ∈ l, f s o = s) → l.foldl f s = s := by
    intro l f hl
    induction l with
    | nil => rfl
    | cons o l ih => rw [List.foldl_cons, hl o List.mem_cons_self]; exact ih fun x hx => hl x (List.mem_cons_of_mem _ hx)
  have e : (if t.read || t.fetch then s.correct (s.homeIsle part pa) pa n else s) = s := by
    by_cases hr : (t.read || t.fetch) = true
    · rw [if_pos hr, s.correct_sound _ _ _ (hc hr)]
    · rw [if_neg hr]
  unfold State.watchHome
  simp only [e]
  apply key
  intro o ho
  rw [watchesOf_off]
  · rfl
  · exact h o (List.mem_of_mem_filter (List.mem_of_mem_filter ho))

/-! ### Leaves -/

/-- Touching a line changes the shoals and a counter alone (R80). -/
theorem State.touchLine_eq (s : State) (sp : Space) (va : Word) (pa : Nat) :
    s.touchLine sp va pa = { s with
      ca := { s.ca with shoal := (s.touchLine sp va pa).ca.shoal }
      dev := { s.dev with tele := (s.touchLine sp va pa).dev.tele } } := by
  unfold State.touchLine
  dsimp only
  split_ifs <;> rfl

theorem State.touchShoal_eq (s : State) (sp : Space) (va : Word) (p : Place) :
    s.touchShoal sp va p = { s with
      ca := { s.ca with shoal := (s.touchShoal sp va p).ca.shoal }
      dev := { s.dev with tele := (s.touchShoal sp va p).dev.tele } } := by
  unfold State.touchShoal
  split
  · rfl
  · exact s.touchLine_eq sp va p.pa

/-- Correcting words changes the words marked and a counter alone (R399). -/
theorem State.correct_eq (s : State) (isle pa n : Nat) :
    s.correct isle pa n = { s with
      ca := { s.ca with weak := (s.correct isle pa n).ca.weak }
      dev := { s.dev with tele := (s.correct isle pa n).dev.tele } } := by
  unfold State.correct
  dsimp only
  split <;> rfl

/-- What walking and touching leave: everything but the words marked, the shoals and a counter (R80, R399). -/
def Glanced (s t : State) : Prop :=
  t = { s with ca := { s.ca with weak := t.ca.weak, shoal := t.ca.shoal }, dev := { s.dev with tele := t.dev.tele } }

theorem Glanced.trans {s t u : State} (a : Glanced s t) (b : Glanced t u) : Glanced s u := by
  unfold Glanced at *
  rw [b, a]

theorem State.glanced_correct (s : State) (isle pa n : Nat) : Glanced s (s.correct isle pa n) := by
  unfold Glanced
  conv_lhs => rw [State.correct_eq]
  rw [State.correct_eq]

theorem State.glanced_walked (s : State) (sp : Space) (va : Word) : Glanced s (s.walked sp va) := by
  have key : ∀ (l : List (Nat × Word)) (t : State),
      Glanced t (l.foldl (fun s e => s.correct (s.homeIsle sp.part e.1) e.1 8) t) := by
    intro l
    induction l with
    | nil => exact fun _ => rfl
    | cons e l ih => exact fun t => (t.glanced_correct _ _ _).trans (ih _)
  unfold State.walked
  split
  · rfl
  · exact key _ s

theorem State.glanced_used (s : State) (sp : Space) (va : Word) (p : Place) : Glanced s ((s.walked sp va).touchShoal sp va p) := by
  refine (s.glanced_walked sp va).trans ?_
  unfold Glanced
  conv_lhs => rw [State.touchShoal_eq]
  rw [State.touchShoal_eq]

theorem State.poke_eq (s : State) (part : BitVec 3) (pa : Nat) (bs : List Byte) (sq : BitVec 2) (keep : Option Nat) (src : Source) :
    s.poke part pa bs sq keep src = { s with mem := s.mem.put pa bs, ca := (s.poke part pa bs sq keep src).ca } := rfl

/-- Marking a leaf uses the translation, and writes the entry where that changes it (R80, R363, R399). -/
theorem State.markLeaf_cases (s : State) (sp : Space) (va : Word) (p : Place) (w : Bool) :
    s.markLeaf sp va p w = (s.walked sp va).touchShoal sp va p
      ∨ ∃ v, s.markLeaf sp va p w = ((s.walked sp va).touchShoal sp va p).poke sp.part p.entry (leBytes 8 v) 0 none .registrar := by
  by_cases h : (s.mem.quad p.entry).toNat ||| (if w then 0xC0 else 0x40) = (s.mem.quad p.entry).toNat ∨
      (s.mem.quad p.entry).toNat ||| 0xC0 ≠ p.pte.toNat ||| 0xC0
  · exact .inl (if_pos h)
  · exact .inr ⟨_, if_neg h⟩

/-- Marking a leaf changes memory, copies, the shoals and a counter alone (R80, R363). -/
theorem State.markLeaf_eq (s : State) (sp : Space) (va : Word) (p : Place) (w : Bool) :
    s.markLeaf sp va p w = { s with
      mem := (s.markLeaf sp va p w).mem, ca := (s.markLeaf sp va p w).ca
      dev := { s.dev with tele := (s.markLeaf sp va p w).dev.tele } } := by
  rcases s.markLeaf_cases sp va p w with h | ⟨v, h⟩
  · rw [h, State.glanced_used s sp va p]
  · rw [h, State.glanced_used s sp va p]
    rfl

section
variable (s : State) (sp : Space) (va : Word) (p : Place) (w : Bool)
@[simp] theorem State.markLeaf_h : (s.markLeaf sp va p w).h = s.h := by rw [State.markLeaf_eq]
@[simp] theorem State.markLeaf_others : (s.markLeaf sp va p w).others = s.others := by rw [State.markLeaf_eq]
@[simp] theorem State.markLeaf_un : (s.markLeaf sp va p w).un = s.un := by rw [State.markLeaf_eq]
@[simp] theorem State.markLeaf_rg : (s.markLeaf sp va p w).rg = s.rg := by rw [State.markLeaf_eq]
end

theorem State.touchShoal_seen (s : State) (sp : Space) (va : Word) (p : Place) (h : Seen s sp va p) : s.touchShoal sp va p = s := by
  unfold State.touchShoal
  by_cases h0 : fieldOf p.pte 57 1 = 0 ∨ p.mt ≠ 0
  · rw [if_pos h0]
  · rw [if_neg h0]
    obtain ⟨⟨l, hl, h1, h2⟩, hm⟩ := (h.resolve_left fun x => h0 (.inl x)).resolve_left fun x => h0 (.inr x)
    have hs : (s.ca.shoal.any fun l => l.isle == s.homeIsle sp.part p.pa && l.line == p.pa / 64 * 64) = true := by
      rw [List.any_eq_true]
      exact ⟨l, hl, by simp [h1, h2]⟩
    have same : (s.ca.shoal.map fun l =>
        if l.isle = s.homeIsle sp.part p.pa ∧ l.line = p.pa / 64 * 64
            ∧ (!l.maps.contains (sp.part, sp.root, va - BitVec.ofNat 64 (p.pa % 64))) = true then
          { l with maps := l.maps ++ [(sp.part, sp.root, va - BitVec.ofNat 64 (p.pa % 64))] } else l) = s.ca.shoal := by
      conv_rhs => rw [← List.map_id s.ca.shoal]
      apply List.map_congr_left
      intro l hl
      refine if_neg ?_
      rintro ⟨a, b, c⟩
      rw [hm l hl a b] at c
      cases c
    unfold State.touchLine
    simp only [hs, if_true, same]

/-- Walking through entries that have no wrong bit corrects nothing (R399). -/
theorem State.walked_sound (s : State) (sp : Space) (va : Word)
    (h : ∀ e ∈ s.path sp va, ∀ w ∈ s.ca.weak, meets (8 * w) 8 e.1 8 = false) : s.walked sp va = s := by
  unfold State.walked
  split
  · rfl
  · revert h
    generalize s.path sp va = l
    intro h
    induction l with
    | nil => rfl
    | cons e l ih =>
      rw [List.foldl_cons, s.correct_sound _ _ _ (h e List.mem_cons_self)]
      exact ih fun x hx => h x (List.mem_cons_of_mem _ hx)

/-- A leaf that has its bits set stays as it is, and so does everything else (R363): the entry is the one that was read. -/
theorem State.markLeaf_marked (s : State) (sp : Space) (va : Word) (p : Place) (w : Bool) (h : Marked s sp va p w)
    (hp : s.mem.quad p.entry = p.pte) : s.markLeaf sp va p w = s := by
  unfold State.markLeaf
  simp only [s.walked_sound sp va h.2.2, s.touchShoal_seen sp va p h.2.1, hp]
  exact if_pos (.inl h.1)

theorem State.used_mem (s : State) (sp : Space) (va : Word) (p : Place) : ((s.walked sp va).touchShoal sp va p).mem = s.mem := by
  rw [State.glanced_used s sp va p]

theorem State.markLeaf_mem (s : State) (sp : Space) (va : Word) (p : Place) (w : Bool) :
    (s.markLeaf sp va p w).mem = s.mem ∨ ∃ v, (s.markLeaf sp va p w).mem = s.mem.put p.entry (leBytes 8 v) := by
  rcases s.markLeaf_cases sp va p w with h | ⟨v, h⟩
  · exact .inl (by rw [h, State.used_mem])
  · exact .inr ⟨v, by rw [h, State.poke_eq, State.used_mem]⟩

theorem State.markLeaf_outside {s : State} (hm : s.mem.wf) (sp : Space) (va : Word) (p : Place) (w : Bool) :
    MemoryOutside s (s.markLeaf sp va p w) p.entry 8 := by
  intro x hx
  rcases s.markLeaf_mem sp va p w with h | ⟨v, h⟩
  · rw [h]
  · rw [h, Memory.get_put hm, if_neg]
    rw [length_leBytes]
    omega

theorem State.wf_markLeaf {s : State} (hm : s.mem.wf) (sp : Space) (va : Word) (p : Place) (w : Bool) : (s.markLeaf sp va p w).mem.wf := by
  rcases s.markLeaf_mem sp va p w with h | ⟨v, h⟩
  · rw [h]; exact hm
  · rw [h]; exact Memory.wf_put hm _ _

theorem NoWatch.mark {s : State} (h : NoWatch s) (sp : Space) (va : Word) (p : Place) (w : Bool) : NoWatch (s.markLeaf sp va p w) := by
  unfold NoWatch
  rw [State.markLeaf_h, State.markLeaf_others]
  exact h

/-! ### The checks of an own access -/

theorem Granted.check {s : State} {acc : Acc} {va : Word} {n : Nat} {p : Place} (h : Granted s acc va n p) (nd : Bool) (e : Nat)
    (hd : p.mt ≠ 1 ∨ nd = false) : s.checkOwn acc va n nd e = .ok (s, p, .pass) := by
  unfold State.checkOwn
  rw [h.place]
  dsimp only
  rw [if_neg, if_neg, if_neg, h.unwatched.own]
  · rintro ⟨h1, h2, h3⟩
    rw [h.clean h1 h2] at h3
    cases h3
  · rintro ⟨h1, h2⟩
    obtain ⟨q, hq, he⟩ := List.any_eq_true.mp h2
    exact h.unpinned h1 q hq (by simpa using he)
  · rintro ⟨h1, h2⟩
    rcases hd with h3 | h3
    · exact h3 h1
    · rw [h3] at h2; cases h2

/-- A granted access passes its checks, and its leaf is marked. -/
theorem Granted.scalar {s : State} {acc : Acc} {va : Word} {n : Nat} {p : Place} (h : Granted s acc va n p) (nd : Bool)
    (hd : p.mt ≠ 1 ∨ nd = false) : scalarCheck acc va n nd s = .ok (p, s.markLeaf s.h.space va p (acc != .load)) := by
  unfold scalarCheck
  rw [if_neg (by rw [h.canon]; exact fun x => x rfl), if_neg (by rw [h.aligned]; exact fun x => x rfl), h.check nd 0 hd]

end Sys2Proof.Machine
end

