-- ==== Sys2Proof/Laws/Home.lean ====
section
/-! SUPPORT. What the work of the homes leaves alone: memory keeps its canonical form, and a hart keeps everything but its buffer, its
pending causes and its debug block. -/

namespace Sys2Proof.Machine

/-- Two states of a hart agree on everything but the store buffer, the pending causes and the debug block. -/
structure SameHart (a b : Hart) : Prop where
  hid  : b.hid = a.hid
  live : b.live = a.live
  sc   : b.sc = a.sc
  ev   : b.ev = a.ev
  vec  : b.vec = a.vec
  mx   : b.mx = a.mx
  su   : b.su = a.su
  ct   : b.ct = a.ct
  mark : b.mark = a.mark
  held : b.held = a.held
  heldAt : b.heldAt = a.heldAt
  loads : b.loads = a.loads
  queue : b.queue = a.queue
  fence : b.fence = a.fence
  loop  : b.loop = a.loop
  words : b.weak = a.weak ∧ b.bad = a.bad

theorem SameHart.refl (a : Hart) : SameHart a a := ⟨rfl, rfl, rfl, rfl, rfl, rfl, rfl, rfl, rfl, rfl, rfl, rfl, rfl, rfl, rfl, rfl, rfl⟩
theorem SameHart.trans {a b c : Hart} (h : SameHart a b) (k : SameHart b c) : SameHart a c :=
  ⟨k.hid.trans h.hid, k.live.trans h.live, k.sc.trans h.sc, k.ev.trans h.ev, k.vec.trans h.vec, k.mx.trans h.mx, k.su.trans h.su,
    k.ct.trans h.ct, k.mark.trans h.mark, k.held.trans h.held, k.heldAt.trans h.heldAt,
    k.loads.trans h.loads, k.queue.trans h.queue, k.fence.trans h.fence, k.loop.trans h.loop, k.words.1.trans h.words.1,
    k.words.2.trans h.words.2⟩

/-- A step of the homes: memory keeps its form, the current hart keeps its state, and watchpoints stay off. -/
structure HomeStep (s t : State) : Prop where
  wf    : s.mem.wf → t.mem.wf
  hart  : SameHart s.h t.h
  watch : NoWatch s → NoWatch t

theorem HomeStep.refl (s : State) : HomeStep s s := ⟨id, SameHart.refl _, id⟩
theorem HomeStep.trans {s t u : State} (h : HomeStep s t) (k : HomeStep t u) : HomeStep s u :=
  ⟨fun x => k.wf (h.wf x), h.hart.trans k.hart, fun x => k.watch (h.watch x)⟩

/-- A change that keeps the harts is a home step when memory keeps its form. -/
theorem HomeStep.of_harts {s t : State} (h : t.h = s.h) (o : t.others = s.others) (w : s.mem.wf → t.mem.wf) : HomeStep s t :=
  ⟨w, h ▸ SameHart.refl _, fun x => by unfold NoWatch; rw [h, o]; exact x⟩

theorem HomeStep.foldl {α : Type} (f : State → α → State) (hf : ∀ s x, HomeStep s (f s x)) (l : List α) (s : State) :
    HomeStep s (l.foldl f s) := by
  induction l generalizing s with
  | nil => exact HomeStep.refl s
  | cons x l ih => exact (hf s x).trans (ih _)

theorem HomeStep.ite {c : Prop} [Decidable c] {s t u : State} (a : HomeStep s t) (b : HomeStep s u) :
    HomeStep s (if c then t else u) := by
  split
  · exact a
  · exact b

/-! ### The trace stream -/

theorem State.step_ringPut {s t : State} {i : Fin 8} {bs : List Byte} {now : Word} (h : s.ringPut i bs now = some t) :
    t.h = s.h ∧ t.others = s.others ∧ (s.mem.wf → t.mem.wf) := by
  unfold State.ringPut at h
  dsimp only at h
  split at h
  · cases h
  · cases h
    exact ⟨rfl, rfl, fun x => Memory.wf_put x _ _⟩

theorem State.step_ringPutAll {s t : State} {i : Fin 8} {now : Word} {l : List (List Byte)} (h : s.ringPutAll i now l = some t) :
    t.h = s.h ∧ t.others = s.others ∧ (s.mem.wf → t.mem.wf) := by
  induction l generalizing s with
  | nil => cases h; exact ⟨rfl, rfl, id⟩
  | cons b bs ih =>
    unfold State.ringPutAll at h
    split at h
    · rename_i u hu
      obtain ⟨a, b, c⟩ := State.step_ringPut hu
      obtain ⟨a', b', c'⟩ := ih h
      exact ⟨a'.trans a, b'.trans b, fun x => c' (c x)⟩
    · cases h

theorem State.traceAll_harts (s : State) (isle : Nat) (r : Rec) (body : Fin 8 → List (List Byte) → List (List Byte)) :
    (s.traceAll isle r body).h = s.h ∧ (s.traceAll isle r body).others = s.others
      ∧ (s.mem.wf → (s.traceAll isle r body).mem.wf) := by
  unfold State.traceAll
  split
  · dsimp only
    split
    · exact ⟨rfl, rfl, id⟩
    · split
      · exact ⟨rfl, rfl, id⟩
      · split
        · rename_i u hu
          obtain ⟨a, b, c⟩ := State.step_ringPutAll hu
          exact ⟨a, b, c⟩
        · exact ⟨rfl, rfl, id⟩
  · exact ⟨rfl, rfl, id⟩

theorem State.traceRec_harts (s : State) (isle : Nat) (r : Rec) :
    (s.traceRec isle r).h = s.h ∧ (s.traceRec isle r).others = s.others ∧ (s.mem.wf → (s.traceRec isle r).mem.wf) :=
  s.traceAll_harts isle r _

@[simp] theorem State.traceRec_h (s : State) (isle : Nat) (r : Rec) : (s.traceRec isle r).h = s.h := (s.traceRec_harts isle r).1

theorem State.step_traceRec (s : State) (isle : Nat) (r : Rec) : HomeStep s (s.traceRec isle r) :=
  HomeStep.of_harts (s.traceRec_harts isle r).1 (s.traceRec_harts isle r).2.1 (s.traceRec_harts isle r).2.2

/-! ### Watchpoints of other harts -/

/-- A change of the pending causes or the debug block of some hart is a home step. -/
theorem HomeStep.onHart (s : State) (hid : HartId) (f : Hart → Hart) (hf : ∀ h, SameHart h (f h)) : HomeStep s (s.onHart hid f) where
  wf := id
  hart := by
    show SameHart s.h (if s.h.hid = hid then f s.h else s.h)
    split
    · exact hf _
    · exact SameHart.refl _
  watch := by
    intro x o ho k
    have key : ∀ a : Hart, fieldOf a.sc.wpc[k] 63 1 = 0 → fieldOf (if a.hid = hid then f a else a).sc.wpc[k] 63 1 = 0 := by
      intro a ha
      by_cases e : a.hid = hid
      · rw [if_pos e, (hf a).sc]; exact ha
      · rw [if_neg e]; exact ha
    rcases List.mem_cons.mp ho with e | e
    · subst e
      exact key s.h (x s.h List.mem_cons_self k)
    · obtain ⟨p, hp, rfl⟩ := List.mem_map.mp e
      exact key p (x p (List.mem_cons_of_mem _ hp) k)

/-- Correcting words changes the words marked and a counter alone (R399). -/
theorem State.step_correct (s : State) (isle pa n : Nat) : HomeStep s (s.correct isle pa n) := by
  unfold State.correct
  exact HomeStep.ite (HomeStep.refl _) (HomeStep.of_harts rfl rfl id)

theorem State.step_watchHome (s : State) (part : BitVec 3) (src : Source) (org : Origin) (pa n : Nat) (t : Touch) :
    HomeStep s (s.watchHome part src org pa n t) := by
  unfold State.watchHome
  have c : HomeStep s (if t.read || t.fetch then s.correct (s.homeIsle part pa) pa n else s) :=
    HomeStep.ite (State.step_correct s (s.homeIsle part pa) pa n) (HomeStep.refl s)
  refine c.trans ?_
  apply HomeStep.foldl
  intro s o
  apply HomeStep.foldl
  intro s w
  dsimp only
  refine HomeStep.trans (State.step_traceRec s o.hid.isle (watchRec o.hid w.1 src org w.2.2)) ?_
  exact HomeStep.ite (HomeStep.onHart _ _ _ fun h => ⟨rfl, rfl, rfl, rfl, rfl, rfl, rfl, rfl, rfl, rfl, rfl, rfl, rfl, rfl, rfl, rfl, rfl⟩)
    (HomeStep.ite (HomeStep.onHart _ _ _ fun h => ⟨rfl, rfl, rfl, rfl, rfl, rfl, rfl, rfl, rfl, rfl, rfl, rfl, rfl, rfl, rfl, rfl, rfl⟩) (HomeStep.refl _))

/-! ### Writes at a home -/

theorem State.step_poke (s : State) (part : BitVec 3) (pa : Nat) (bs : List Byte) (sq : BitVec 2) (keep : Option Nat)
    (src : Source) : HomeStep s (s.poke part pa bs sq keep src) :=
  HomeStep.of_harts rfl rfl fun x => Memory.wf_put x _ _

theorem State.step_touchShoal (s : State) (sp : Space) (va : Word) (p : Place) : HomeStep s (s.touchShoal sp va p) := by
  rw [State.touchShoal_eq]
  exact HomeStep.of_harts rfl rfl id

theorem State.step_markLeaf (s : State) (sp : Space) (va : Word) (p : Place) (w : Bool) : HomeStep s (s.markLeaf sp va p w) :=
  HomeStep.of_harts (s.markLeaf_h sp va p w) (s.markLeaf_others sp va p w) fun x => State.wf_markLeaf x sp va p w

theorem State.step_homeBytes (s : State) (part : BitVec 3) (src : Source) (org : Origin) (pa : Nat) (sq : BitVec 2) (bs : List Byte)
    (t : Touch) (spoil : Bool) (keep : Option Nat) : HomeStep s (s.homeBytes part src org pa sq bs t spoil keep) := by
  unfold State.homeBytes
  have h := (State.step_watchHome s part src org pa bs.length t).trans (State.step_poke _ part pa bs sq keep src)
  exact HomeStep.ite (h.trans (HomeStep.of_harts rfl rfl id)) h

theorem State.step_unitSees (s : State) (r : RatedSet) (hid : HartId) (own : CtxRef) (org : Origin) (va : Word) (n : Nat) :
    HomeStep s (s.unitSees r hid own org va n) := by
  unfold State.unitSees
  split
  · exact HomeStep.refl s
  · exact (State.step_touchShoal _ _ _ _).trans (State.step_watchHome _ _ _ _ _ _ _)

theorem State.step_unitWrite (s : State) (r : RatedSet) (hid : HartId) (own : CtxRef) (org : Origin) (va : Word) (p : Place)
    (bs : List Byte) (spoil : Bool) : HomeStep s (s.unitWrite r hid own org va p bs spoil) := by
  unfold State.unitWrite
  exact (State.step_touchShoal s r.space va p).trans
    (HomeStep.ite (HomeStep.of_harts rfl rfl id) (State.step_homeBytes _ _ _ _ _ _ _ _ _ _))

theorem State.step_putPlane (s : State) (r : RatedSet) (hid : HartId) (own : CtxRef) (org : Origin) (p : Fin 4) (m e : Nat)
    (v : Nat × Bool) : HomeStep s (s.putPlane r hid own org p m e v) := by
  unfold State.putPlane
  split
  · exact HomeStep.refl _
  · exact State.step_unitWrite _ _ _ _ _ _ _ _ _

theorem State.step_measureElem (s : State) (r : RatedSet) (v : Visit) (hid : HartId) (org : Origin) (e : Nat) (old new : Nat × Bool) :
    HomeStep s (s.measureElem r v hid org e old new) := by
  unfold State.measureElem
  exact ((((State.step_unitSees _ _ _ _ _ _ _).trans (State.step_unitSees _ _ _ _ _ _ _)).trans
    (HomeStep.ite ((State.step_putPlane _ _ _ _ _ _ _ _ _).trans (State.step_putPlane _ _ _ _ _ _ _ _ _)) (HomeStep.refl _))).trans
    (State.step_putPlane _ _ _ _ _ _ _ _ _)).trans (HomeStep.of_harts rfl rfl id)

theorem State.step_homeApply (s : State) (sp : Space) (src : Source) (org : Origin) (va : Word) (pa : Nat) (sq : BitVec 2)
    (bs : List Byte) (t : Touch) (spoil : Bool) (keep : Option Nat) : HomeStep s (s.homeApply sp src org va pa sq bs t spoil keep) := by
  unfold State.homeApply
  refine HomeStep.trans (State.step_homeBytes s sp.part src org pa sq bs t spoil keep) ?_
  apply HomeStep.foldl
  intro s x
  split
  · exact HomeStep.refl _
  · split
    · exact HomeStep.refl _
    · exact State.step_measureElem _ _ _ _ _ _ _ _

theorem State.step_sendWrite (s : State) (vec : Bool) (sp : Space) (src : Source) (org : Origin) (va : Word) (pa : Nat)
    (sq : BitVec 2) (op : HomeOp) (keep : Option Nat) : HomeStep s (s.sendWrite vec sp src org va pa sq op keep).1 := by
  unfold State.sendWrite
  split
  · exact HomeStep.of_harts rfl rfl id
  · exact State.step_homeApply _ _ _ _ _ _ _ _ _ _ _

theorem State.step_drainThe (s : State) (h : Hart) (b : BufStore) (rest : List BufStore) : HomeStep s (s.drainThe h b rest) := by
  unfold State.drainThe
  have a : HomeStep s (s.onHart h.hid fun x => { x with buf := rest }) :=
    HomeStep.onHart s h.hid _ fun h => ⟨rfl, rfl, rfl, rfl, rfl, rfl, rfl, rfl, rfl, rfl, rfl, rfl, rfl, rfl, rfl, rfl, rfl⟩
  exact a.trans (State.step_sendWrite _ _ _ _ _ _ _ _ _ _)

theorem State.step_drainOne (s : State) (h : Hart) : HomeStep s (s.drainOne h) := by
  unfold State.drainOne
  split
  · exact HomeStep.refl _
  · exact s.step_drainThe _ _ _

theorem State.step_drainN (s : State) (hid : HartId) (n : Nat) : HomeStep s (s.drainN hid n) := by
  induction n generalizing s with
  | zero => exact HomeStep.refl _
  | succ n ih =>
    unfold State.drainN
    split
    · exact (State.step_drainOne _ _).trans (ih _)
    · exact HomeStep.refl _

theorem State.step_drain (s : State) : HomeStep s s.drain := State.step_drainN _ _ _

theorem State.step_flushPart (s : State) (p : BitVec 3) : HomeStep s (s.flushPart p) := HomeStep.of_harts rfl rfl id

theorem State.step_flushFor (s : State) (isles : List Nat) (mine : CtxRef → Bool) : HomeStep s (s.flushFor isles mine) :=
  HomeStep.of_harts rfl rfl id

theorem State.step_release (s : State) : HomeStep s s.release.1 := by
  unfold State.release
  dsimp only
  split
  · exact (State.step_drain s).trans (HomeStep.of_harts rfl rfl id)
  · exact State.step_drain s

/-- A `fence` at device scope leaves what a release leaves (R103). -/
theorem State.step_performed (s : State) : HomeStep s s.performed.1 := by
  unfold State.performed
  dsimp only
  split
  · exact (State.step_drain s).trans (HomeStep.of_harts rfl rfl id)
  · exact State.step_drain s

/-! ### A write that nothing watches or measures -/

/-- Such a write puts its bytes into memory, and the harts stand. -/
theorem State.homeApply_plain {s : State} {sp : Space} {src : Source} {org : Origin} {va : Word} {pa : Nat} {sq : BitVec 2}
    {bs : List Byte} {t : Touch} {keep : Option Nat} (w : NoWatch s) (m : s.measuredBy sp src va bs.length = [])
    (hc : (t.read || t.fetch) = true → ∀ x ∈ s.ca.weak, meets (8 * x) 8 pa bs.length = false) :
    s.homeApply sp src org va pa sq bs t false keep = s.poke sp.part pa bs sq keep src := by
  unfold State.homeApply State.homeBytes
  rw [w.home _ _ _ _ _ _ hc, m]
  rfl

end Sys2Proof.Machine
end

