-- ==== Sys2Proof/Laws/Lanes.lean ====
section
/-! SUPPORT. What reading and writing elements, mask bits and tails of vector registers leave. -/

namespace Sys2Proof.Machine

/-! ### Runs of bits -/

theorem testBit_sliceOf (x : VReg) (lo w i : Nat) : (sliceOf x lo w).testBit i = (decide (i < w) && x.getLsbD (lo + i)) := by
  simp only [sliceOf, Nat.testBit_mod_two_pow, BitVec.testBit_toNat, BitVec.getLsbD_ushiftRight]

theorem getLsbD_run (lo v j : Nat) :
    (BitVec.ofNat 16384 v <<< lo).getLsbD j = (decide (j < 16384) && decide (lo ≤ j) && v.testBit (j - lo)) := by
  simp only [BitVec.getLsbD_shiftLeft, BitVec.getLsbD_ofNat]
  by_cases h : j < 16384 <;> by_cases k : j < lo <;> simp [h, k, Nat.not_lt.mp]
  intro
  omega

theorem getLsbD_sliceSet (x : VReg) (lo w v j : Nat) (hj : j < 16384) :
    (sliceSet x lo w v).getLsbD j = if lo ≤ j ∧ j < lo + w then v.testBit (j - lo) else x.getLsbD j := by
  simp only [sliceSet, BitVec.getLsbD_or, BitVec.getLsbD_and, BitVec.getLsbD_not, getLsbD_run, hj, decide_true, Bool.true_and,
    Nat.testBit_two_pow_sub_one, Nat.testBit_mod_two_pow]
  by_cases h : lo ≤ j
  · by_cases k : j < lo + w
    · simp [h, k, show j - lo < w by omega]
    · simp [h, k, show ¬ j - lo < w by omega]
  · simp [h]

/-- A run that has been written reads back. -/
theorem sliceOf_sliceSet (x : VReg) (lo w v : Nat) (h : lo + w ≤ 16384) : sliceOf (sliceSet x lo w v) lo w = v % 2 ^ w := by
  apply Nat.eq_of_testBit_eq
  intro i
  rw [testBit_sliceOf, Nat.testBit_mod_two_pow]
  by_cases k : i < w
  · rw [getLsbD_sliceSet _ _ _ _ _ (by omega), if_pos (by omega)]
    simp [k]
  · simp [k]

/-- A run apart from the one that is written stands. -/
theorem sliceOf_sliceSet_apart (x : VReg) (lo w v l u : Nat) (h : l + u ≤ 16384) (a : l + u ≤ lo ∨ lo + w ≤ l) :
    sliceOf (sliceSet x lo w v) l u = sliceOf x l u := by
  apply Nat.eq_of_testBit_eq
  intro i
  rw [testBit_sliceOf, testBit_sliceOf]
  by_cases k : i < u
  · rw [getLsbD_sliceSet _ _ _ _ _ (by omega), if_neg (by omega)]
  · simp [k]

theorem getLsbD_clearBits (x : VReg) (a b j : Nat) (hj : j < 16384) :
    (clearBits x a b).getLsbD j = if a ≤ j ∧ j < b then false else x.getLsbD j := by
  simp only [clearBits, BitVec.getLsbD_and, BitVec.getLsbD_not, getLsbD_run, hj, decide_true, Bool.true_and,
    Nat.testBit_two_pow_sub_one]
  by_cases h : a ≤ j
  · by_cases k : j < b
    · simp [h, k, show j - a < b - a by omega]
    · simp [h, k, show ¬ j - a < b - a by omega]
  · simp [h]

theorem sliceOf_clearBits_in (x : VReg) (a b l u : Nat) (h : l + u ≤ 16384) (i : a ≤ l ∧ l + u ≤ b) :
    sliceOf (clearBits x a b) l u = 0 := by
  apply Nat.eq_of_testBit_eq
  intro k
  rw [testBit_sliceOf]
  by_cases e : k < u
  · rw [getLsbD_clearBits _ _ _ _ (by omega), if_pos (by omega)]
    simp
  · simp [e]

theorem sliceOf_clearBits_apart (x : VReg) (a b l u : Nat) (h : l + u ≤ 16384) (i : l + u ≤ a ∨ b ≤ l) :
    sliceOf (clearBits x a b) l u = sliceOf x l u := by
  apply Nat.eq_of_testBit_eq
  intro k
  rw [testBit_sliceOf, testBit_sliceOf]
  by_cases e : k < u
  · rw [getLsbD_clearBits _ _ _ _ (by omega), if_neg (by omega)]
  · simp [e]

/-! ### One step of the lanes -/

/-- What writes of elements, mask bits and flags leave: vector and mask registers, FFLAGS and VDIRTY may have changed, and a register
that has changed is marked dirty. -/
structure LaneStep (s t : State) : Prop where
  rest    : t = { s with h := { s.h with
    sc := { s.h.sc with fflags := t.h.sc.fflags }, vec := { s.h.vec with v := t.h.vec.v, m := t.h.vec.m }
    su := { s.h.su with vdirty := t.h.su.vdirty } } }
  dirtyV  : ∀ r, r < 32 → t.h.vec.reg r ≠ s.h.vec.reg r → t.h.su.vdirty.getLsbD r = true
  dirtyM  : ∀ k, k < 8 → t.h.vec.mask k ≠ s.h.vec.mask k → t.h.su.vdirty.getLsbD (32 + k) = true
  dirtier : ∀ k, s.h.su.vdirty.getLsbD k = true → t.h.su.vdirty.getLsbD k = true

theorem LaneStep.refl (s : State) : LaneStep s s := ⟨rfl, fun _ _ h => absurd rfl h, fun _ _ h => absurd rfl h, fun _ h => h⟩

theorem LaneStep.trans {s t u : State} (a : LaneStep s t) (b : LaneStep t u) : LaneStep s u where
  rest := by rw [b.rest, a.rest]
  dirtyV r hr h := by
    by_cases e : u.h.vec.reg r = t.h.vec.reg r
    · exact b.dirtier _ (a.dirtyV r hr (e ▸ h))
    · exact b.dirtyV r hr e
  dirtyM k hk h := by
    by_cases e : u.h.vec.mask k = t.h.vec.mask k
    · exact b.dirtier _ (a.dirtyM k hk (e ▸ h))
    · exact b.dirtyM k hk e
  dirtier k h := b.dirtier k (a.dirtier k h)

theorem LaneStep.foldl {α : Type} (f : State → α → State) (hf : ∀ s x, LaneStep s (f s x)) (l : List α) (s : State) :
    LaneStep s (l.foldl f s) := by
  induction l generalizing s with
  | nil => exact LaneStep.refl s
  | cons x xs ih => exact (hf s x).trans (ih _)

theorem LaneStep.groups {s t : State} (a : LaneStep s t) : t.h.groups = s.h.groups := by rw [a.rest]; rfl
theorem LaneStep.mirror {s t : State} (a : LaneStep s t) : t.h.mirror = s.h.mirror := by rw [a.rest]; rfl
theorem LaneStep.pm {s t : State} (a : LaneStep s t) : t.h.vec.pm = s.h.vec.pm := by rw [a.rest]; rfl
theorem LaneStep.per {s t : State} (a : LaneStep s t) (w : Nat) : t.per w = s.per w := by rw [a.rest]; rfl
theorem LaneStep.sew {s t : State} (a : LaneStep s t) : t.sew = s.sew := by rw [a.rest]; rfl
theorem LaneStep.vl {s t : State} (a : LaneStep s t) : t.vl = s.vl := by rw [a.rest]; rfl
theorem LaneStep.vlmax {s t : State} (a : LaneStep s t) : t.h.vlmax = s.h.vlmax := by rw [a.rest]; rfl
theorem LaneStep.ta {s t : State} (a : LaneStep s t) : t.h.vec.ta = s.h.vec.ta := by rw [a.rest]; rfl
theorem LaneStep.g {s t : State} (a : LaneStep s t) (r : Reg) : t.g r = s.g r := by rw [a.rest]; rfl

theorem dirtyBit (v : BitVec 43) (i : Nat) (h : i < 43) : (v ||| BitVec.ofNat 43 (2 ^ i)).getLsbD i = true := by
  rw [BitVec.getLsbD_or, BitVec.getLsbD_ofNat, Nat.testBit_two_pow_self]
  simp [h]

theorem Vec.reg_set (v : Vec) (r : Nat) (x : VReg) (k : Nat) (h : r < 32) :
    ({ v with v := v.v.setIfInBounds r x } : Vec).reg k = if k = r then x else v.reg k := by
  simp only [Vec.reg]
  by_cases e : k = r
  · subst e
    simp [h]
  · simp [e, Ne.symm e]

theorem Vec.mask_set (v : Vec) (r : Nat) (x : VReg) (k : Nat) (h : r < 8) :
    ({ v with m := v.m.setIfInBounds r x } : Vec).mask k = if k = r then x else v.mask k := by
  simp only [Vec.mask]
  by_cases e : k = r
  · subst e
    simp [h]
  · simp [e, Ne.symm e]

/-- A vector register after a write to one. -/
theorem State.reg_setReg (s : State) (r : Nat) (x : VReg) (k : Nat) (h : r < 32) :
    (s.setReg r x).h.vec.reg k = if k = r then x else s.h.vec.reg k := by
  rw [State.setReg, if_pos h]
  exact Vec.reg_set _ _ _ _ h

/-- A mask register after a write to one. -/
theorem State.mask_setMask (s : State) (r : Nat) (x : VReg) (k : Nat) (h : r < 8) :
    (s.setMask r x).h.vec.mask k = if k = r then x else s.h.vec.mask k := by
  rw [State.setMask, if_pos h]
  exact Vec.mask_set _ _ _ _ h

theorem State.step_setReg (s : State) (r : Nat) (x : VReg) : LaneStep s (s.setReg r x) := by
  by_cases h : r < 32
  · refine ⟨by rw [State.setReg, if_pos h]; rfl, fun k _ hne => ?_, fun k _ hne => ?_, fun k hk => ?_⟩
    · rw [State.reg_setReg _ _ _ _ h] at hne
      by_cases e : k = r
      · subst e
        rw [State.setReg, if_pos h]
        exact dirtyBit _ _ (by omega)
      · rw [if_neg e] at hne
        exact absurd rfl hne
    · rw [State.setReg, if_pos h] at hne
      exact absurd rfl hne
    · rw [State.setReg, if_pos h]
      change (s.h.su.vdirty ||| BitVec.ofNat 43 (2 ^ r)).getLsbD k = true
      rw [BitVec.getLsbD_or, hk, Bool.true_or]
  · rw [State.setReg, if_neg h]
    exact LaneStep.refl s

theorem State.step_setMask (s : State) (r : Nat) (x : VReg) : LaneStep s (s.setMask r x) := by
  by_cases h : r < 8
  · refine ⟨by rw [State.setMask, if_pos h]; rfl, fun k _ hne => ?_, fun k _ hne => ?_, fun k hk => ?_⟩
    · rw [State.setMask, if_pos h] at hne
      exact absurd rfl hne
    · rw [State.mask_setMask _ _ _ _ h] at hne
      by_cases e : k = r
      · subst e
        rw [State.setMask, if_pos h]
        exact dirtyBit _ _ (by omega)
      · rw [if_neg e] at hne
        exact absurd rfl hne
    · rw [State.setMask, if_pos h]
      change (s.h.su.vdirty ||| BitVec.ofNat 43 (2 ^ (32 + r))).getLsbD k = true
      rw [BitVec.getLsbD_or, hk, Bool.true_or]
  · rw [State.setMask, if_neg h]
    exact LaneStep.refl s

theorem State.step_orFlags (s : State) (n : Nat) : LaneStep s (s.orFlags n) :=
  ⟨rfl, fun _ _ h => absurd rfl h, fun _ _ h => absurd rfl h, fun _ h => h⟩

theorem State.step_setElem (s : State) (r w e v : Nat) : LaneStep s (s.setElem r w e v) := by
  simp only [State.setElem]
  split
  · exact LaneStep.refl s
  · exact State.step_setReg _ _ _

theorem State.step_setMaskBit (s : State) (k e : Nat) (b : Bool) : LaneStep s (s.setMaskBit k e b) := by
  simp only [State.setMaskBit]
  split
  · exact LaneStep.refl s
  · exact State.step_setMask _ _ _

theorem State.step_putDst (s : State) (d : Dst) (i v : Nat) : LaneStep s (s.putDst d i v) := by
  cases d with
  | vec r w n => exact State.step_setElem _ _ _ _ _
  | mask k => exact State.step_setMaskBit _ _ _ _

theorem State.step_putCells (s : State) (d : Dst) (cs : List Cell) : LaneStep s (s.putCells d cs) := by
  refine LaneStep.foldl _ (fun s c => ?_) cs s
  cases h : c.pri with
  | none => simpa [h] using LaneStep.refl s
  | some r => simpa [h] using (State.step_putDst s d c.i r.1).trans (State.step_orFlags _ _)

theorem State.step_zeroFrom (s : State) (d : Dst) (i : Nat) : LaneStep s (s.zeroFrom d i) := by
  cases d with
  | vec r w n =>
    refine LaneStep.foldl _ (fun s j => ?_) _ s
    dsimp only
    split
    · exact State.step_setReg _ _ _
    · exact LaneStep.refl s
  | mask k =>
    simp only [State.zeroFrom]
    split
    · exact State.step_setMask _ _ _
    · exact LaneStep.refl s

theorem State.step_tail (s : State) (d : Dst) (i : Nat) : LaneStep s (s.tail d i) := by
  simp only [State.tail]
  split
  · exact LaneStep.refl s
  · exact State.step_zeroFrom _ _ _

/-! ### Elements -/

theorem groupsOf_le (m : BitVec 4) : groupsOf m ≤ 4 := List.countP_le_length.trans (by simp)

/-- An element lies within its register, apart from its mirror. -/
theorem State.elem_bounds (s : State) (w i : Nat) (h : i < s.per w) :
    i * w + w + (if s.h.vec.pm = true then s.h.mirror else 0) ≤ 16384 ∧ (s.h.vec.pm = true → i * w + w ≤ s.h.mirror) := by
  have hg : s.h.groups ≤ 4 := groupsOf_le _
  have hm : s.h.mirror = 2048 * s.h.groups := rfl
  have hw : 0 < w := by
    rcases Nat.eq_zero_or_pos w with h0 | h0
    · subst h0
      simp [State.per, perReg] at h
    · exact h0
  have step : (i + 1) * w ≤ s.per w * w := Nat.mul_le_mul_right _ h
  rw [Nat.succ_mul] at step
  simp only [State.per, perReg] at step
  cases hp : s.h.vec.pm with
  | true =>
    rw [hp, if_pos rfl] at step
    have : 4096 * s.h.groups / w / 2 * w ≤ 4096 * s.h.groups / 2 := by
      rw [Nat.div_div_eq_div_mul, Nat.mul_comm w 2, ← Nat.div_div_eq_div_mul]
      exact Nat.div_mul_le_self _ _
    have e2 : 4096 * s.h.groups / 2 = 2048 * s.h.groups := by omega
    rw [if_pos rfl]
    exact ⟨by omega, fun _ => by omega⟩
  | false =>
    rw [hp] at step
    have : 4096 * s.h.groups / w / (if false = true then 2 else 1) * w ≤ 4096 * s.h.groups := by
      simp only [Bool.false_eq_true, if_false, Nat.div_one]
      exact Nat.div_mul_le_self _ _
    rw [if_neg (by simp)]
    exact ⟨by omega, by simp⟩

/-- An element of a group after a write to one of its elements (R189, R396). -/
theorem State.elem_setElem (s : State) (mir : Bool) (r w e v k : Nat) (hc : Copy s mir) (hr : r + e / s.per w < 32) (hp : 0 < s.per w) :
    (s.setElem r w e v).elem mir r w k = if k = e then v % 2 ^ w else s.elem mir r w k := by
  have hn : s.per w ≠ 0 := by omega
  have L := State.step_setElem s r w e v
  have be := State.elem_bounds s w (e % s.per w) (Nat.mod_lt _ hp)
  have bk := State.elem_bounds s w (k % s.per w) (Nat.mod_lt _ hp)
  have ed := Nat.div_add_mod e (s.per w)
  have kd := Nat.div_add_mod k (s.per w)
  simp only [State.elem, L.per, L.mirror, if_neg hn]
  have hreg : ∀ j, (s.setElem r w e v).h.vec.reg j = if j = r + e / s.per w then
      (if s.h.vec.pm = true then sliceSet (sliceSet (s.h.vec.reg (r + e / s.per w)) (e % s.per w * w) w v) (e % s.per w * w + s.h.mirror) w v
        else sliceSet (s.h.vec.reg (r + e / s.per w)) (e % s.per w * w) w v) else s.h.vec.reg j := by
    intro j
    simp only [State.setElem, if_neg hn]
    exact State.reg_setReg _ _ _ _ hr
  rw [hreg]
  by_cases q : k / s.per w = e / s.per w
  · rw [if_pos (by omega), q]
    by_cases m : k = e
    · subst m
      rw [if_pos rfl]
      cases hpm : s.h.vec.pm with
      | true =>
        rw [hpm] at be
        simp only [if_true] at be ⊢
        cases mir with
        | true => simpa using sliceOf_sliceSet _ _ _ _ (by omega)
        | false =>
          have b2 := be.2 trivial
          simp only [Bool.false_eq_true, if_false, Nat.add_zero]
          rw [sliceOf_sliceSet_apart _ _ _ _ _ _ (by omega) (by omega), sliceOf_sliceSet _ _ _ _ (by omega)]
      | false =>
        have : mir = false := by
          cases mir with
          | false => rfl
          | true => exact absurd (hc rfl) (by simp [hpm])
        subst this
        rw [hpm] at be
        simpa using sliceOf_sliceSet _ _ _ _ (by simpa using be.1)
    · rw [if_neg m]
      have hne : k % s.per w ≠ e % s.per w := by
        intro h
        rw [q, h] at kd
        omega
      have apart : k % s.per w * w + w ≤ e % s.per w * w ∨ e % s.per w * w + w ≤ k % s.per w * w := by
        rcases Nat.lt_or_gt_of_ne hne with h | h
        · left
          calc k % s.per w * w + w = (k % s.per w + 1) * w := by rw [Nat.succ_mul]
            _ ≤ _ := Nat.mul_le_mul_right _ h
        · right
          calc e % s.per w * w + w = (e % s.per w + 1) * w := by rw [Nat.succ_mul]
            _ ≤ _ := Nat.mul_le_mul_right _ h
      cases hpm : s.h.vec.pm with
      | true =>
        rw [hpm] at be bk
        have b2 := be.2 rfl
        have k2 := bk.2 rfl
        simp only [if_true] at be bk ⊢
        cases mir with
        | true =>
          simp only [if_true]
          rw [sliceOf_sliceSet_apart _ _ _ _ _ _ (by omega) (by omega), sliceOf_sliceSet_apart _ _ _ _ _ _ (by omega) (by omega)]
        | false =>
          simp only [Bool.false_eq_true, if_false, Nat.add_zero]
          rw [sliceOf_sliceSet_apart _ _ _ _ _ _ (by omega) (by omega), sliceOf_sliceSet_apart _ _ _ _ _ _ (by omega) (by omega)]
      | false =>
        have : mir = false := by
          cases mir with
          | false => rfl
          | true => exact absurd (hc rfl) (by simp [hpm])
        subst this
        rw [hpm] at be bk
        simp only [Bool.false_eq_true, if_false, Nat.add_zero] at be bk ⊢
        rw [sliceOf_sliceSet_apart _ _ _ _ _ _ (by omega) (by omega)]
  · rw [if_neg (show ¬ r + k / s.per w = r + e / s.per w by omega), if_neg (fun h : k = e => q (by rw [h]))]

/-- Elements of a group after the results of cells with different indices have been written: those named have them, the others stand. -/
theorem State.elem_putCells (mir : Bool) (r w n : Nat) (cs : List Cell) (s : State) (hc : Copy s mir) (hn : (cs.map Cell.i).Nodup)
    (hp : 0 < s.per w) (hr : ∀ c ∈ cs, r + c.i / s.per w < 32) :
    (∀ k, k ∉ cs.map Cell.i → (s.putCells (.vec r w n) cs).elem mir r w k = s.elem mir r w k)
    ∧ ∀ c ∈ cs, (s.putCells (.vec r w n) cs).elem mir r w c.i = match c.pri with
      | some x => x.1 % 2 ^ w
      | none => s.elem mir r w c.i := by
  induction cs generalizing s with
  | nil => exact ⟨fun _ _ => rfl, fun _ h => absurd h (by simp)⟩
  | cons x xs ih =>
    simp only [List.map_cons, List.nodup_cons] at hn
    let u : State := match x.pri with
      | some y => (s.putDst (.vec r w n) x.i y.1).orFlags y.2
      | none => s
    have hu : LaneStep s u := by
      show LaneStep s (match x.pri with
        | some y => (s.putDst (.vec r w n) x.i y.1).orFlags y.2
        | none => s)
      cases x.pri with
      | none => exact LaneStep.refl s
      | some y => exact (State.step_putDst s _ _ _).trans (State.step_orFlags _ _)
    have he : ∀ k, u.elem mir r w k = if k = x.i then (match x.pri with
        | some y => y.1 % 2 ^ w
        | none => s.elem mir r w x.i) else s.elem mir r w k := by
      intro k
      show (match x.pri with
        | some y => (s.putDst (.vec r w n) x.i y.1).orFlags y.2
        | none => s).elem mir r w k = _
      cases x.pri with
      | none =>
        dsimp only
        split
        · rename_i h
          rw [h]
        · rfl
      | some y => exact State.elem_setElem s mir r w x.i y.1 k hc (hr x (by simp)) hp
    have step : s.putCells (.vec r w n) (x :: xs) = u.putCells (.vec r w n) xs := rfl
    have hi := ih u (fun h => hu.pm.trans (hc h)) hn.2 (by rw [hu.per]; exact hp) (fun c h => by rw [hu.per]; exact hr c (by simp [h]))
    rw [step]
    refine ⟨fun k hk => ?_, fun c hm => ?_⟩
    · simp only [List.map_cons, List.mem_cons, not_or] at hk
      rw [hi.1 k hk.2, he, if_neg hk.1]
    · rcases List.mem_cons.mp hm with rfl | hm'
      · rw [hi.1 _ hn.1, he, if_pos rfl]
      · have ne : c.i ≠ x.i := fun e => hn.1 (e ▸ List.mem_map_of_mem hm')
        rw [hi.2 c hm']
        cases c.pri with
        | some y => rfl
        | none => exact (he _).trans (if_neg ne)

/-- Vector registers outside a group after its cells have been written. -/
theorem State.reg_putCells (r w n : Nat) (cs : List Cell) (s : State) (hp : 0 < s.per w) (hr : ∀ c ∈ cs, r + c.i / s.per w < r + n)
    (hn : r + n ≤ 32) (k : Nat) (hk : k < r ∨ r + n ≤ k) : (s.putCells (.vec r w n) cs).h.vec.reg k = s.h.vec.reg k := by
  induction cs generalizing s with
  | nil => rfl
  | cons x xs ih =>
    have hx := hr x (by simp)
    show (State.putCells (match x.pri with
      | some y => (s.putDst (.vec r w n) x.i y.1).orFlags y.2
      | none => s) (.vec r w n) xs).h.vec.reg k = _
    cases x.pri with
    | none => exact ih s hp (fun c h => hr c (by simp [h]))
    | some y =>
      have L := (State.step_putDst s (.vec r w n) x.i y.1).trans (State.step_orFlags _ y.2)
      dsimp only
      rw [ih _ (by rw [L.per]; exact hp) (fun c h => by rw [L.per]; exact hr c (by simp [h]))]
      show (s.setElem r w x.i y.1).h.vec.reg k = _
      simp only [State.setElem, if_neg (show s.per w ≠ 0 by omega)]
      have ne : k ≠ r + x.i / s.per w := by
        rintro rfl
        exact hk.elim (Nat.not_lt.mpr (Nat.le_add_right _ _)) (Nat.not_le.mpr hx)
      rw [State.reg_setReg _ _ _ _ (by omega), if_neg ne]

/-! ### Tails -/

/-- One register of a tail. -/
def State.tailReg (s : State) (r w i j : Nat) : VReg :=
  if i - j * s.per w < s.per w then s.clearBoth (s.h.vec.reg (r + j)) ((i - j * s.per w) * w) (s.per w * w) else s.h.vec.reg (r + j)

/-- Registers after the tail of a group has been zeroed from element `i` on. -/
theorem State.reg_zeroFrom (s : State) (r w n i : Nat) (hn : r + n ≤ 32) (k : Nat) :
    (s.zeroFrom (.vec r w n) i).h.vec.reg k = if r ≤ k ∧ k < r + n then s.tailReg r w i (k - r) else s.h.vec.reg k := by
  let step (s : State) (j : Nat) : State :=
    if i - j * s.per w < s.per w then s.setReg (r + j) (s.clearBoth (s.h.vec.reg (r + j)) ((i - j * s.per w) * w) (s.per w * w)) else s
  have hstep : ∀ s j, LaneStep s (step s j) := by
    intro s j
    show LaneStep s (if _ then _ else _)
    split
    · exact State.step_setReg _ _ _
    · exact LaneStep.refl s
  have main : ∀ m, m ≤ n → ∀ k, ((List.range m).foldl step s).h.vec.reg k =
      if r ≤ k ∧ k < r + m then s.tailReg r w i (k - r) else s.h.vec.reg k := by
    intro m
    induction m with
    | zero =>
      intro _ k
      rw [if_neg (by omega)]
      rfl
    | succ m ih =>
      intro hm k
      rw [List.range_succ, List.foldl_append]
      have L := LaneStep.foldl step hstep (List.range m) s
      have ihm := ih (by omega)
      generalize (List.range m).foldl step s = u at L ihm
      have own : u.h.vec.reg (r + m) = s.h.vec.reg (r + m) := by rw [ihm, if_neg (by omega)]
      show (step u m).h.vec.reg k = _
      simp only [step, L.per]
      by_cases c : i - m * s.per w < s.per w
      · rw [if_pos c, State.reg_setReg _ _ _ _ (by omega)]
        by_cases e : k = r + m
        · subst e
          rw [if_pos rfl, if_pos (by omega), own]
          simp only [State.tailReg, Nat.add_sub_cancel_left, if_pos c, State.clearBoth, L.pm, L.mirror]
        · rw [if_neg e, ihm]
          by_cases q : r ≤ k ∧ k < r + m
          · rw [if_pos q, if_pos (by omega)]
          · rw [if_neg q, if_neg (by omega)]
      · rw [if_neg c, ihm]
        by_cases e : k = r + m
        · subst e
          rw [if_neg (by omega), if_pos (by omega)]
          simp only [State.tailReg, Nat.add_sub_cancel_left, if_neg c]
        · by_cases q : r ≤ k ∧ k < r + m
          · rw [if_pos q, if_pos (by omega)]
          · rw [if_neg q, if_neg (by omega)]
  exact main n le_rfl k

theorem mul_add_le {a b w : Nat} (h : a < b) : a * w + w ≤ b * w := by
  have : (a + 1) * w ≤ b * w := Nat.mul_le_mul_right _ h
  rwa [Nat.succ_mul] at this

/-- Elements of a group after its tail has been zeroed from element `i` on (R192). -/
theorem State.elem_zeroFrom (s : State) (mir : Bool) (r w n i k : Nat) (hc : Copy s mir) (hn : r + n ≤ 32) (hp : 0 < s.per w)
    (hk : k < n * s.per w) : (s.zeroFrom (.vec r w n) i).elem mir r w k = if i ≤ k then 0 else s.elem mir r w k := by
  have L := State.step_zeroFrom s (.vec r w n) i
  have bk := State.elem_bounds s w (k % s.per w) (Nat.mod_lt _ hp)
  have kd := Nat.div_add_mod k (s.per w)
  have km := Nat.mod_lt k hp
  have q : k / s.per w < n := Nat.div_lt_of_lt_mul (by rwa [Nat.mul_comm])
  have hmul : s.per w * (k / s.per w) = k / s.per w * s.per w := Nat.mul_comm _ _
  have top := mul_add_le (w := w) km
  simp only [State.elem, L.per, L.mirror, if_neg (show s.per w ≠ 0 by omega)]
  rw [State.reg_zeroFrom _ _ _ _ _ hn, if_pos ⟨Nat.le_add_right _ _, Nat.add_lt_add_left q _⟩, Nat.add_sub_cancel_left]
  simp only [State.tailReg]
  by_cases c : i - k / s.per w * s.per w < s.per w
  · rw [if_pos c]
    simp only [State.clearBoth]
    by_cases ik : i ≤ k
    · rw [if_pos ik]
      have lo : (i - k / s.per w * s.per w) * w ≤ k % s.per w * w := Nat.mul_le_mul_right _ (by omega)
      cases hpm : s.h.vec.pm with
      | true =>
        rw [hpm] at bk
        have b2 := bk.2 rfl
        simp only [if_true] at bk ⊢
        cases mir with
        | true =>
          simp only [if_true]
          exact sliceOf_clearBits_in _ _ _ _ _ (by omega) (by omega)
        | false =>
          simp only [Bool.false_eq_true, if_false, Nat.add_zero]
          by_cases x : k % s.per w * w + w ≤ (i - k / s.per w * s.per w) * w + s.h.mirror
          · rw [sliceOf_clearBits_apart _ _ _ _ _ (by omega) (by omega)]
            exact sliceOf_clearBits_in _ _ _ _ _ (by omega) (by omega)
          · omega
      | false =>
        have : mir = false := by
          cases mir with
          | false => rfl
          | true => exact absurd (hc rfl) (by simp [hpm])
        subst this
        rw [hpm] at bk
        simp only [Bool.false_eq_true, if_false, Nat.add_zero] at bk ⊢
        exact sliceOf_clearBits_in _ _ _ _ _ (by omega) (by omega)
    · rw [if_neg ik]
      have hi : k % s.per w * w + w ≤ (i - k / s.per w * s.per w) * w := mul_add_le (by omega)
      cases hpm : s.h.vec.pm with
      | true =>
        rw [hpm] at bk
        have b2 := bk.2 rfl
        have bp := (State.elem_bounds s w (s.per w - 1) (by omega)).2 hpm
        have pe : (s.per w - 1) * w + w = s.per w * w := by
          rw [← Nat.succ_mul, Nat.succ_eq_add_one, Nat.sub_add_cancel hp]
        simp only [if_true] at bk ⊢
        cases mir with
        | true =>
          simp only [if_true]
          rw [sliceOf_clearBits_apart _ _ _ _ _ (by omega) (by omega), sliceOf_clearBits_apart _ _ _ _ _ (by omega) (by omega)]
        | false =>
          simp only [Bool.false_eq_true, if_false, Nat.add_zero]
          rw [sliceOf_clearBits_apart _ _ _ _ _ (by omega) (by omega), sliceOf_clearBits_apart _ _ _ _ _ (by omega) (by omega)]
      | false =>
        have : mir = false := by
          cases mir with
          | false => rfl
          | true => exact absurd (hc rfl) (by simp [hpm])
        subst this
        rw [hpm] at bk
        simp only [Bool.false_eq_true, if_false, Nat.add_zero] at bk ⊢
        rw [sliceOf_clearBits_apart _ _ _ _ _ (by omega) (by omega)]
  · rw [if_neg c, if_neg (show ¬ i ≤ k by omega)]

end Sys2Proof.Machine
end

