-- ==== Sys2Proof/Laws/Queue.lean ====
section
/-! SUPPORT. What a vector memory operation means is what its form says. -/

namespace Sys2Proof.Machine

theorem memForm_sem {op : WOp} {m : MemForm} (h : memForm op = some m) (n : op ≠ .afetch) : semOf op = semMem m := by
  cases op <;> first | exact absurd rfl n | (injection h with h; subst h; rfl) | cases h

/-- An operation runs over its elements as its form does; `afetch` differs in its own checks alone (R299). -/
theorem formOf_run {op : WOp} {m : MemForm} (h : formOf op = some m) : (semOf op).run = m.runCounted := by
  unfold formOf at h
  split at h
  · cases h
  · by_cases e : op = .afetch
    · subst e
      injection h with h
      subst h
      rfl
    · rw [memForm_sem h e]
      rfl

end Sys2Proof.Machine
end

