-- ==== Sys2Proof/Laws/Wide.lean ====
section
/-! SUPPORT. How a W instruction that stands alone completes: its checks, the results of elements with their tail, and the frame. -/

namespace Sys2Proof.Machine

/-- A W instruction runs as its operation means. -/
theorem exec_wide (op : WOp) (f : WFields) (s : State) : exec (op.instr f) s = runSingle op (semOf op) f s := by
  cases op <;> rfl

/-- The part that a W instruction standing alone runs: every element below VL, from the first. -/
def wholePart (s : State) : Part := { slot := 0, lo := 0, hi := s.vl, fed := s.vl }

theorem wholePart_elems (s : State) : (wholePart s).elems = List.range s.vl := by simp [Part.elems, wholePart, List.range_eq_range']

/-- An instruction that begins runs over every element below VL. -/
theorem Begins.run {s : State} {op : WOp} {f : WFields} (h : Begins s op f) (hp : isPriv op = false) :
    exec (op.instr f) s = .next (((semOf op).run f (wholePart s) s).1.endSingle op ((semOf op).run f (wholePart s) s).2) := by
  have ha : s.wAccess op = none := by
    simp only [State.wAccess, hp, Bool.false_and, Bool.false_eq_true, if_false]
    rcases h.allowed with a | ⟨_, b, c⟩
    · simp [a]
    · rw [b]
      cases hm : isMatrix op with
      | false => simp
      | true => simp [c hm]
  have hv : s.h.vec.vstart.toNat = 0 := by rw [h.start]; rfl
  have hb : s.wProgressBad op f = false := by
    simp [State.wProgressBad, hp, hv, h.alone]
  have hi : s.wIllegal4 op (semOf op) f = false := by
    simp [State.wIllegal4, hp, h.type, h.aligned, h.apart, h.rules]
  have hs : s.singleStop op f 0 = s.vl := by
    simp [State.singleStop, h.unstepped]
  rw [exec_wide]
  simp only [runSingle, State.singleFault, ha, hb, hi, hv, h.clear, hp, hs, Bool.or_false, Bool.false_eq_true, if_false, wholePart]

/-- Counting a mirrored instruction touches nothing but what R408 counts. -/
theorem State.countMirrored_eq (u s : State) (op : WOp) (f : WFields) :
    u.countMirrored s op f = { u with
      h := { u.h with dbg := { u.h.dbg with mirrored := (u.countMirrored s op f).h.dbg.mirrored } }
      dev := { u.dev with tele := (u.countMirrored s op f).dev.tele, inject := (u.countMirrored s op f).dev.inject } } := by
  unfold State.countMirrored
  split
  · rfl
  · rfl

theorem State.clearProgress_zero (u : State) :
    u.clearProgress.h.vec.vstart = 0 ∧ u.clearProgress.h.vec.cpv0 = 0 ∧ u.clearProgress.h.vec.cpv1 = 0 := by
  unfold State.clearProgress
  split
  · rename_i h
    exact h
  · exact ⟨rfl, rfl, rfl⟩

theorem State.clearProgress_eq (u : State) :
    u.clearProgress = { u with h := { u.h with
      vec := { u.h.vec with vstart := u.clearProgress.h.vec.vstart, cpv0 := u.clearProgress.h.vec.cpv0, cpv1 := u.clearProgress.h.vec.cpv1 }
      su := { u.h.su with vdirty := u.clearProgress.h.su.vdirty } } } := by
  unfold State.clearProgress
  split
  · rfl
  · rfl

theorem State.clearProgress_dirtier (u : State) (k : Nat) (h : u.h.su.vdirty.getLsbD k = true) :
    u.clearProgress.h.su.vdirty.getLsbD k = true := by
  unfold State.clearProgress
  split
  · exact h
  · show (u.h.su.vdirty ||| BitVec.ofNat 43 (2 ^ 41)).getLsbD k = true
    rw [BitVec.getLsbD_or, h, Bool.true_or]

/-- The state after an instruction of the lanes completes. -/
def State.completed (u s : State) (op : WOp) (f : WFields) : State := ((u.countMirrored s op f).clearProgress).advance 8

theorem State.completed_eq (u s : State) (op : WOp) (f : WFields) :
    u.completed s op f = { u with
      h := { u.h with
        sc := (u.completed s op f).h.sc
        vec := { u.h.vec with vstart := 0, cpv0 := 0, cpv1 := 0 }
        su := { u.h.su with vdirty := (u.completed s op f).h.su.vdirty }
        dbg := { u.h.dbg with mirrored := (u.completed s op f).h.dbg.mirrored } }
      dev := { u.dev with tele := (u.completed s op f).dev.tele, inject := (u.completed s op f).dev.inject } } := by
  have z := (u.countMirrored s op f).clearProgress_zero
  unfold State.completed
  generalize hv : (u.countMirrored s op f).clearProgress = v at z ⊢
  have e := (u.countMirrored s op f).clearProgress_eq
  rw [hv] at e
  rw [z.1, z.2.1, z.2.2] at e
  have c := u.countMirrored_eq s op f
  generalize u.countMirrored s op f = w at e c
  rw [e, c]
  rfl

/-- The scalar registers at completion, up to the move of the pc. -/
theorem State.completed_sc (u s : State) (op : WOp) (f : WFields) :
    (u.completed s op f).h.sc = u.h.sc.endAt (u.h.sc.pc + BitVec.ofNat 64 8) := by
  have e := (u.countMirrored s op f).clearProgress_eq
  have c := u.countMirrored_eq s op f
  show ((u.countMirrored s op f).clearProgress).h.sc.endAt _ = _
  rw [e, c]

theorem State.completed_dirtier (u s : State) (op : WOp) (f : WFields) (k : Nat) (h : u.h.su.vdirty.getLsbD k = true) :
    (u.completed s op f).h.su.vdirty.getLsbD k = true := by
  refine (u.countMirrored s op f).clearProgress_dirtier k ?_
  rw [u.countMirrored_eq s op f]
  exact h

/-- The frame of an instruction whose lanes have worked. -/
theorem LaneStep.frame {s u : State} (L : LaneStep s u) (op : WOp) (f : WFields) : LanesFrame s (u.completed s op f) := by
  have e := u.completed_eq s op f
  have sc := u.completed_sc s op f
  have lr := L.rest
  have usc : u.h.sc = { s.h.sc with fflags := u.h.sc.fflags } := by rw [lr]
  have vec : (u.completed s op f).h.vec = { u.h.vec with vstart := 0, cpv0 := 0, cpv1 := 0 } := by rw [e]
  have uvec : u.h.vec = { s.h.vec with v := u.h.vec.v, m := u.h.vec.m } := by rw [lr]
  have pc : u.h.sc.pc = s.h.sc.pc := by rw [usc]
  have endAt : u.h.sc.endAt (s.h.sc.pc + BitVec.ofNat 64 8)
      = { s.h.sc.endAt (s.h.sc.pc + BitVec.ofNat 64 8) with fflags := u.h.sc.fflags } := by rw [usc]; rfl
  rw [pc, endAt] at sc
  refine ⟨?_, ?_, ?_, ?_, ?_, ?_, ?_, ?_⟩
  · rw [Advanced, sc]
    exact ⟨rfl, rfl, rfl, rfl⟩
  · rw [vec]
    exact ⟨rfl, rfl, rfl⟩
  · rw [vec, uvec]
    exact ⟨rfl, rfl⟩
  · rw [sc]
    exact ⟨rfl, rfl, rfl, rfl, rfl, rfl, rfl, rfl⟩
  · intro r hr hne
    refine u.completed_dirtier s op f _ (L.dirtyV r hr fun h => hne ?_)
    rw [vec]
    exact h
  · intro k hk hne
    refine u.completed_dirtier s op f _ (L.dirtyM k hk fun h => hne ?_)
    rw [vec]
    exact h
  · intro k hk
    exact u.completed_dirtier s op f _ (L.dirtier k hk)
  · generalize u.completed s op f = t at e
    generalize hsu : t.h.su.vdirty = vd at e ⊢
    rw [e, lr]

/-- What stands when the lanes alone have worked. -/
theorem LaneStep.only {s u : State} (L : LaneStep s u) (op : WOp) (f : WFields) : OnlyLanes s (u.completed s op f) := by
  have e := u.completed_eq s op f
  have sc := u.completed_sc s op f
  have g : (u.completed s op f).h.sc.g = s.h.sc.g := by rw [sc, L.rest]; rfl
  refine ⟨⟨fun r => ?_, ?_⟩, ⟨?_, ?_, ?_⟩, ⟨?_, ?_, ?_⟩, L.frame op f⟩
  · simp only [State.g, g]
  · rw [sc, L.rest]
    rfl
  · rw [e, L.rest]
  · rw [e, L.rest]
  · rw [sc, L.rest]
    rfl
  · rw [e, L.rest]
  · rw [e, L.rest]
  · rw [e, L.rest]

/-! ### Elements -/

/-- Reading a state after completion. -/
theorem State.completed_elem (u s : State) (op : WOp) (f : WFields) (mir : Bool) (r w e : Nat) :
    (u.completed s op f).elem mir r w e = u.elem mir r w e := by
  rw [u.completed_eq s op f]
  rfl

theorem State.completed_reg (u s : State) (op : WOp) (f : WFields) (k : Nat) : (u.completed s op f).h.vec.reg k = u.h.vec.reg k := by
  rw [u.completed_eq s op f]
  rfl

theorem State.tail_flags (u : State) (d : Dst) (i : Nat) : (u.tail d i).h.sc.fflags = u.h.sc.fflags := by
  have zero : ∀ r x, (u.setReg r x).h.sc.fflags = u.h.sc.fflags := by
    intro r x
    unfold State.setReg
    split <;> rfl
  unfold State.tail
  split
  · rfl
  · cases d with
    | vec r w n =>
      have : ∀ (l : List Nat) (v : State), (l.foldl (fun s j =>
          if i - j * s.per w < s.per w then
            s.setReg (r + j) (s.clearBoth (s.h.vec.reg (r + j)) ((i - j * s.per w) * w) (s.per w * w)) else s) v).h.sc.fflags
          = v.h.sc.fflags := by
        intro l
        induction l with
        | nil => intro v; rfl
        | cons x xs ih =>
          intro v
          rw [List.foldl_cons, ih]
          split
          · unfold State.setReg
            split <;> rfl
          · rfl
      exact this _ _
    | mask k =>
      simp only [State.zeroFrom]
      split
      · unfold State.setMask
        split <;> rfl
      · rfl

theorem ofNat_or (a b : Nat) : BitVec.ofNat 5 (a ||| b) = BitVec.ofNat 5 a ||| BitVec.ofNat 5 b := by
  apply BitVec.eq_of_getLsbD_eq
  intro i hi
  simp [hi]

theorem foldl_or (l : List Nat) (a : Nat) : l.foldl (· ||| ·) a = a ||| l.foldl (· ||| ·) 0 := by
  induction l generalizing a with
  | nil => simp
  | cons x xs ih =>
    rw [List.foldl_cons, ih, List.foldl_cons, ih (0 ||| x)]
    simp [Nat.or_assoc]

/-- FFLAGS after the results of cells have been written (R67). -/
theorem State.putCells_flags (d : Dst) (cs : List Cell) (s : State) :
    (s.putCells d cs).h.sc.fflags = s.h.sc.fflags ||| BitVec.ofNat 5 ((cs.map fun c => (c.pri.map Prod.snd).getD 0).foldl (· ||| ·) 0) := by
  induction cs generalizing s with
  | nil => exact (BitVec.or_zero).symm
  | cons x xs ih =>
    show (State.putCells (match x.pri with
      | some y => (s.putDst d x.i y.1).orFlags y.2
      | none => s) d xs).h.sc.fflags = _
    rw [List.map_cons, List.foldl_cons, foldl_or, ofNat_or]
    cases hx : x.pri with
    | none =>
      dsimp only
      rw [ih]
      simp
    | some y =>
      dsimp only
      rw [ih]
      have : ((s.putDst d x.i y.1).orFlags y.2).h.sc.fflags = s.h.sc.fflags ||| BitVec.ofNat 5 y.2 := by
        have dst : (s.putDst d x.i y.1).h.sc.fflags = s.h.sc.fflags := by
          cases d with
          | vec r w n =>
            simp only [State.putDst, State.setElem]
            split
            · rfl
            · unfold State.setReg
              split <;> rfl
          | mask k =>
            simp only [State.putDst, State.setMaskBit, State.setMask]
            split
            · rfl
            · split <;> rfl
        show (s.putDst d x.i y.1).h.sc.fflags ||| _ = _
        rw [dst]
      rw [this]
      simp [BitVec.or_assoc]

theorem State.setReg_masks (s : State) (r : Nat) (x : VReg) : (s.setReg r x).h.vec.m = s.h.vec.m ∧ (s.setReg r x).h.vec.mf = s.h.vec.mf := by
  unfold State.setReg
  split <;> exact ⟨rfl, rfl⟩

theorem State.putCells_masks (r w n : Nat) (cs : List Cell) (s : State) :
    (s.putCells (.vec r w n) cs).h.vec.m = s.h.vec.m ∧ (s.putCells (.vec r w n) cs).h.vec.mf = s.h.vec.mf := by
  induction cs generalizing s with
  | nil => exact ⟨rfl, rfl⟩
  | cons x xs ih =>
    show (State.putCells (match x.pri with
      | some y => (s.putDst (.vec r w n) x.i y.1).orFlags y.2
      | none => s) (.vec r w n) xs).h.vec.m = _ ∧ (State.putCells (match x.pri with
      | some y => (s.putDst (.vec r w n) x.i y.1).orFlags y.2
      | none => s) (.vec r w n) xs).h.vec.mf = _
    rw [(ih _).1, (ih _).2]
    cases x.pri with
    | none => exact ⟨rfl, rfl⟩
    | some y =>
      show (s.setElem r w x.i y.1).h.vec.m = _ ∧ (s.setElem r w x.i y.1).h.vec.mf = _
      simp only [State.setElem]
      split
      · exact ⟨rfl, rfl⟩
      · exact s.setReg_masks _ _

theorem State.tail_masks (u : State) (r w n i : Nat) :
    (u.tail (.vec r w n) i).h.vec.m = u.h.vec.m ∧ (u.tail (.vec r w n) i).h.vec.mf = u.h.vec.mf := by
  unfold State.tail
  split
  · exact ⟨rfl, rfl⟩
  · have : ∀ (l : List Nat) (v : State),
        let t := l.foldl (fun s j =>
          if i - j * s.per w < s.per w then
            s.setReg (r + j) (s.clearBoth (s.h.vec.reg (r + j)) ((i - j * s.per w) * w) (s.per w * w)) else s) v
        t.h.vec.m = v.h.vec.m ∧ t.h.vec.mf = v.h.vec.mf := by
      intro l
      induction l with
      | nil => intro v; exact ⟨rfl, rfl⟩
      | cons x xs ih =>
        intro v
        simp only [List.foldl_cons]
        have h := ih (if i - x * v.per w < v.per w then
          v.setReg (r + x) (v.clearBoth (v.h.vec.reg (r + x)) ((i - x * v.per w) * w) (v.per w * w)) else v)
        rw [h.1, h.2]
        split
        · exact v.setReg_masks _ _
        · exact ⟨rfl, rfl⟩
    exact this _ _

/-- Results of the first `count` elements of a group written, and its tail zeroed, completed. -/
theorem wrote_cells (s : State) (op : WOp) (f : WFields) (r w n count : Nat) (cs : List Cell) (hn : r + n ≤ 32) (hi : cs.map Cell.i = List.range count)
    (hcount : count ≤ n * s.per w) :
    let t := ((s.putCells (.vec r w n) cs).tail (.vec r w n) count).completed s op f
    WroteElems s t r w n count (fun e => (cs[e]?.bind Cell.pri).map Prod.fst)
      ∧ FlagsRaised s t (cs.map fun c => (c.pri.map Prod.snd).getD 0) ∧ MasksStand s t ∧ OnlyLanes s t := by
  intro t
  have L1 := State.step_putCells s (.vec r w n) cs
  have L2 := State.step_tail (s.putCells (.vec r w n) cs) (.vec r w n) count
  have L := L1.trans L2
  have len : cs.length = count := by simpa using congrArg List.length hi
  have inside : ∀ c ∈ cs, c.i < count := by
    intro c hc
    have : c.i ∈ cs.map Cell.i := List.mem_map_of_mem hc
    rw [hi] at this
    exact List.mem_range.mp this
  have tailIf : ∀ u : State, u.vl = s.vl → u.h.vec.ta = s.h.vec.ta →
      u.tail (.vec r w n) count = if s.vl = 0 ∨ s.h.vec.ta = true then u else u.zeroFrom (.vec r w n) count := by
    intro u a b
    simp only [State.tail, a, b]
  have ht := tailIf _ L1.vl L1.ta
  have hreg : ∀ c ∈ cs, r + c.i / s.per w < r + n := by
    intro c hc
    have := inside c hc
    exact Nat.add_lt_add_left (Nat.div_lt_of_lt_mul (by rw [Nat.mul_comm]; omega)) _
  refine ⟨⟨fun mir e hc he => ?_, fun mir e hc h1 h2 => ?_, fun k hk out => ?_⟩, ?_, ?_, L.only op f⟩
  · have hp : 0 < s.per w := Nat.pos_of_ne_zero fun h => by rw [h] at hcount; omega
    rw [State.completed_elem, ht]
    have he' : e < cs.length := len ▸ he
    have ci : cs[e].i = e := by
      have := List.getElem_map Cell.i (l := cs) (i := e) (h := by simpa using he')
      simp only [hi, List.getElem_range] at this
      exact this.symm
    have put := (State.elem_putCells mir r w n cs s hc (by rw [hi]; exact List.nodup_range) hp
      (fun c hm => lt_of_lt_of_le (hreg c hm) hn)).2 cs[e] (List.getElem_mem _)
    rw [ci] at put
    have goal1 : (s.putCells (.vec r w n) cs).elem mir r w e = match (cs[e]?.bind Cell.pri).map Prod.fst with
        | some v => v % 2 ^ w
        | none => s.elem mir r w e := by
      rw [put, List.getElem?_eq_getElem he']
      show _ = match (cs[e].pri).map Prod.fst with
        | some v => v % 2 ^ w
        | none => s.elem mir r w e
      cases cs[e].pri <;> rfl
    split
    · exact goal1
    · rw [State.elem_zeroFrom _ mir r w n count e (fun h => L1.pm.trans (hc h)) hn (by rw [L1.per]; exact hp)
        (by rw [L1.per]; omega), if_neg (by omega)]
      exact goal1
  · have hp : 0 < s.per w := Nat.pos_of_ne_zero fun h => by rw [h] at h2; omega
    rw [State.completed_elem, ht]
    have stands := (State.elem_putCells mir r w n cs s hc (by rw [hi]; exact List.nodup_range) hp
      (fun c hm => lt_of_lt_of_le (hreg c hm) hn)).1 e (by rw [hi]; simpa using h1)
    split
    · exact stands
    · rw [State.elem_zeroFrom _ mir r w n count e (fun h => L1.pm.trans (hc h)) hn (by rw [L1.per]; exact hp)
        (by rw [L1.per]; exact h2), if_pos h1]
  · rw [State.completed_reg, ht]
    have same : (s.putCells (.vec r w n) cs).h.vec.reg k = s.h.vec.reg k := by
      by_cases hp : 0 < s.per w
      · exact State.reg_putCells r w n cs s hp hreg hn k out
      · have z : s.per w = 0 := by omega
        rw [z] at hcount
        have : cs = [] := List.eq_nil_of_length_eq_zero (by omega)
        rw [this]
        rfl
    split
    · exact same
    · rw [State.reg_zeroFrom _ _ _ _ _ hn, if_neg (by omega)]
      exact same
  · rw [FlagsRaised, State.completed_sc]
    show (State.tail _ _ _).h.sc.fflags = _
    rw [State.tail_flags, State.putCells_flags]
  · rw [MasksStand]
    show (State.completed _ s op f).h.vec.m = _ ∧ (State.completed _ s op f).h.vec.mf = _
    rw [State.completed_eq]
    show (State.tail _ _ _).h.vec.m = _ ∧ (State.tail _ _ _).h.vec.mf = _
    rw [(State.tail_masks _ _ _ _ _).1, (State.tail_masks _ _ _ _ _).2, (State.putCells_masks _ _ _ _ _).1,
      (State.putCells_masks _ _ _ _ _).2]
    exact ⟨rfl, rfl⟩

/-- An element-wise instruction whose copies agree (R192, R397). -/
theorem elementwise_spec {s : State} {op : WOp} {f : WFields} (h : Begins s op f) (hp : isPriv op = false) (w n : Nat)
    (hd : s.dstOf op f = .vec f.vd.toNat w n) (res : Bool → Nat → Option FRes)
    (hr : (semOf op).run f (wholePart s) s = elementwise op f (wholePart s) res s) (hn : f.vd.toNat + n ≤ 32)
    (hcount : s.vl ≤ n * s.per w)
    (agree : s.h.vec.pm = true → ∀ e, e < s.vl → (res false e).map Prod.fst = (res true e).map Prod.fst) :
    ∃ t, exec (op.instr f) s = .next t ∧ WroteElems s t f.vd.toNat w n s.vl (fun e => (res false e).map Prod.fst)
      ∧ FlagsRaised s t ((List.range s.vl).map fun e => ((res false e).map Prod.snd).getD 0) ∧ MasksStand s t ∧ OnlyLanes s t := by
  have hes := wholePart_elems s
  have find : (s.cells (List.range s.vl) res).find? (fun c => !c.agrees) = none := by
    rw [List.find?_eq_none]
    intro c hc
    simp only [State.cells, List.mem_map, List.mem_range] at hc
    obtain ⟨e, he, rfl⟩ := hc
    simp only [Cell.agrees, Bool.not_eq_true', beq_eq_false_iff_ne, ne_eq, not_not]
    cases hpm : s.h.vec.pm with
    | true => simpa using agree hpm e he
    | false => simp
  have L1 := State.step_putCells s (s.dstOf op f) (s.cells (List.range s.vl) res)
  have hrun : (semOf op).run f (wholePart s) s =
      (((s.putCells (s.dstOf op f) (s.cells (List.range s.vl) res)).tail (s.dstOf op f) s.vl).countMirrored s op f, .done) := by
    rw [hr]
    have hi : (wholePart s).hi = s.vl := rfl
    simp only [elementwise, hes, State.commit, find, endPart, L1.vl, hi, Nat.lt_irrefl, if_false]
  have key := wrote_cells s op f f.vd.toNat w n s.vl (s.cells (List.range s.vl) res) hn (by simp [State.cells, Function.comp_def]) hcount
  refine ⟨((s.putCells (s.dstOf op f) (s.cells (List.range s.vl) res)).tail (s.dstOf op f) s.vl).completed s op f, ?_, ?_⟩
  · rw [h.run hp, hrun]
    simp only [State.endSingle, hp, Bool.false_eq_true, if_false]
    rfl
  · rw [hd]
    refine ⟨⟨fun mir e hc he => ?_, key.1.tail, key.1.others⟩, ?_, key.2.2.1, key.2.2.2⟩
    · rw [key.1.elems mir e hc he]
      simp [State.cells, he]
    · have := key.2.1
      simpa [State.cells, Function.comp_def] using this

end Sys2Proof.Machine
end

