-- ==== Sys2Proof/Tests/Slice0.lean ====
section
/-! SUPPORT. The model's own tests: words of every instruction written out from their encodings, an ill-formed instruction for every
check, a state that meets the hypotheses of every statement, and single steps with results worked out by hand. -/

namespace Sys2Proof.Tests

open Sys2Proof.Machine

set_option Elab.async false

/-- Words of the compact forms, from the fields of R133 and R134. -/
theorem test_decode_compact : ∀ p ∈ ([
    (0x0540, .plain (.cMv 21)),
    (0x3D44, .plain (.cAdd 21 7)),
    (0x3D48, .plain (.cSub 21 7)),
    (0xED4C, .plain (.cAddi 21 29)),
    (0x3D50, .plain (.cAnd 21 7)),
    (0x3D54, .plain (.cOr 21 7)),
    (0x3D58, .plain (.cXor 21 7)),
    (0xF55C, .plain (.cSlli 21 30)),
    (0xF560, .plain (.cSrai 21 30)),
    (0x8D64, .plain (.cLd 21 17)),
    (0x8B28, .plain (.cSt 12 17)),
    (0xED6C, .plain (.cLi 21 29)),
    (0x99B0, .plain (.cBeqz 614)),
    (0x99B4, .plain (.cBnez 614)),
    (0x99B8, .plain (.cJ 614))] : List (Nat × Decoded)), decodeWord p.1 = .ok p.2 := by decide +kernel

/-- Words of S instructions, in the order of the table, from the fields of R136 and the codes of R138. -/
theorem test_decode_scalar_1 : ∀ p ∈ ([
    (0x01B0AA81, .plain (.add 21 10 27 false)),
    (0x03B2AA81, .plain (.sub 21 10 27 true)),
    (0x05B0AA81, .plain (.and 21 10 27 false)),
    (0x07B2AA81, .plain (.or 21 10 27 true)),
    (0x09B0AA81, .plain (.xor 21 10 27 false)),
    (0x0BB2AA81, .plain (.sll 21 10 27 true)),
    (0x0DB0AA81, .plain (.srl 21 10 27 false)),
    (0x0FB2AA81, .plain (.sra 21 10 27 true)),
    (0x11B0AA81, .plain (.slt 21 10 27 false)),
    (0x13B2AA81, .plain (.sltu 21 10 27 true)),
    (0x15B0AA81, .plain (.min 21 10 27 false)),
    (0x17B2AA81, .plain (.max 21 10 27 true)),
    (0x19B0AA81, .plain (.minu 21 10 27 false)),
    (0x1BB2AA81, .plain (.maxu 21 10 27 true)),
    (0x1DB0AA81, .plain (.mul 21 10 27 false)),
    (0x1FB0AA81, .plain (.mulh 21 10 27)),
    (0x21B0AA81, .plain (.mulhu 21 10 27)),
    (0x23B2AA81, .plain (.div 21 10 27 true)),
    (0x25B0AA81, .plain (.divu 21 10 27 false)),
    (0x27B2AA81, .plain (.rem 21 10 27 true)),
    (0x29B0AA81, .plain (.remu 21 10 27 false)),
    (0x2BB2AA81, .plain (.rol 21 10 27 true)),
    (0x2DB0AA81, .plain (.ror 21 10 27 false)),
    (0x2E02AA81, .plain (.clz 21 10 true)),
    (0x3000AA81, .plain (.ctz 21 10 false)),
    (0x3202AA81, .plain (.popc 21 10 true))] : List (Nat × Decoded)), decodeWord p.1 = .ok p.2 := by decide +kernel

/-- Words of S instructions, in the order of the table, from the fields of R136 and the codes of R138. -/
theorem test_decode_scalar_2 : ∀ p ∈ ([
    (0x3420AA81, .plain (.sext 21 10 .w)),
    (0x3610AA81, .plain (.zext 21 10 .h)),
    (0xA530AA85, .plain (.addi 21 10 2643)),
    (0xA532AA85, .plain (.andi 21 10 2643)),
    (0xA534AA85, .plain (.ori 21 10 2643)),
    (0xA536AA85, .plain (.xori 21 10 2643)),
    (0xA538AA85, .plain (.slti 21 10 2643)),
    (0xA53AAA85, .plain (.sltiu 21 10 2643)),
    (0xA53EAA85, .plain (.addiw 21 10 2643)),
    (0x21FCAA85, .plain (.slli 21 10 true 31)),
    (0x61FCAA85, .plain (.srli 21 10 true 31)),
    (0x83FCAA85, .plain (.srai 21 10 false 63)),
    (0xA53C7A89, .plain (.ldhi 21 676807)),
    (0xA53C7A8D, .plain (.pcadd 21 676807)),
    (0xA530AA91, .plain (.ldB 21 10 2643)),
    (0xA532AA91, .plain (.ldH 21 10 2643)),
    (0xA534AA91, .plain (.ldW 21 10 2643)),
    (0xA536AA91, .plain (.ldD 21 10 2643)),
    (0xA538AA91, .plain (.ldBu 21 10 2643)),
    (0xA53AAA91, .plain (.ldHu 21 10 2643)),
    (0xA53CAA91, .plain (.ldWu 21 10 2643)),
    (0xA530A695, .plain (.stB 13 10 2643)),
    (0xA532A695, .plain (.stH 13 10 2643)),
    (0xA534A695, .plain (.stW 13 10 2643)),
    (0xA536A695, .plain (.stD 13 10 2643)),
    (0xA538A695, .plain (.stRelB 13 10 2643))] : List (Nat × Decoded)), decodeWord p.1 = .ok p.2 := by decide +kernel

/-- Words of S instructions, in the order of the table, from the fields of R136 and the codes of R138. -/
theorem test_decode_scalar_3 : ∀ p ∈ ([
    (0xA53AA695, .plain (.stRelH 13 10 2643)),
    (0xA53CA695, .plain (.stRelW 13 10 2643)),
    (0xA53EA695, .plain (.stRelD 13 10 2643)),
    (0xA534AA99, .plain (.ldAcqW 21 10 2643)),
    (0xA536AA99, .plain (.ldAcqD 21 10 2643)),
    (0xA53CAA99, .plain (.ldAcqWu 21 10 2643)),
    (0x01B4AA9D, .plain (.amoAdd 21 10 27 false true false)),
    (0x03B6AA9D, .plain (.amoAnd 21 10 27 true true false)),
    (0x05B8AA9D, .plain (.amoOr 21 10 27 false false true)),
    (0x07BAAA9D, .plain (.amoXor 21 10 27 true false true)),
    (0x09BCAA9D, .plain (.amoMin 21 10 27 false true true)),
    (0x0BBEAA9D, .plain (.amoMax 21 10 27 true true true)),
    (0x0DB8AA9D, .plain (.amoMinu 21 10 27 false false true)),
    (0x0FB2AA9D, .plain (.amoMaxu 21 10 27 true false false)),
    (0x11B4AA9D, .plain (.amoSwap 21 10 27 false true false)),
    (0x13B6AA9D, .plain (.amoCas 21 10 27 true true false)),
    (0x15B8AA9D, .plain (.amoFadd 21 10 27 false false true)),
    (0x8A51B521, .plain (.bEq 10 27 2213)),
    (0x8A53B521, .plain (.bNe 10 27 2213)),
    (0x8A59B521, .plain (.bLt 10 27 2213)),
    (0x8A5BB521, .plain (.bGe 10 27 2213)),
    (0x8A5DB521, .plain (.bLtu 10 27 2213)),
    (0x8A5FB521, .plain (.bGeu 10 27 2213)),
    (0xA53C7AA5, .plain (.jal 21 676807)),
    (0xA530AAA9, .plain (.jalr 21 10 2643)),
    (0xFFF0A2AD, .plain (.loop 5 10 4095))] : List (Nat × Decoded)), decodeWord p.1 = .ok p.2 := by decide +kernel

/-- Words of S instructions, in the order of the table, from the fields of R136 and the codes of R138. -/
theorem test_decode_scalar_4 : ∀ p ∈ ([
    (0x00500031, .plain (.fence 5)),
    (0x00020031, .plain .orderSv),
    (0x00040031, .plain .orderVs),
    (0x00360031, .plain (.fenceSc 3)),
    (0x00080031, .plain .fenceI),
    (0x81BEAAB5, .plain (.fadd 21 10 27 7 true)),
    (0x03B0AAB5, .plain (.fsub 21 10 27 0 false)),
    (0x85B2AAB5, .plain (.fmul 21 10 27 1 true)),
    (0x07B4AAB5, .plain (.fdiv 21 10 27 2 false)),
    (0x8806AAB5, .plain (.fsqrt 21 10 3 true)),
    (0x0BB0AAB5, .plain (.fmin 21 10 27 false)),
    (0x8DB0AAB5, .plain (.fmax 21 10 27 true)),
    (0x8E6EAAB5, .plain (.fcvt 21 10 6 7 true)),
    (0x11B4AAB5, .plain (.fcmp 21 10 27 2 false)),
    (0x1200AAB5, .plain (.fclass 21 10 false)),
    (0x27B2AAB9, .plain (.fma 21 10 27 19 1 false)),
    (0x67BCAAB9, .plain (.fms 21 10 27 19 2 true)),
    (0xA7BEAAB9, .plain (.fnma 21 10 27 19 3 true)),
    (0xE7B0AAB9, .plain (.fnms 21 10 27 19 0 false)),
    (0xFED0003D, .plain (.trap 4077)),
    (0x0002003D, .plain .brk),
    (0x0004003D, .plain .eret),
    (0x0006003D, .plain .waitEnd),
    (0x0016003D, .plain .waitEvent),
    (0x10F80ABD, .plain (.rdsr 21 271)),
    (0x04FAD03D, .plain (.wrsr 79 13))] : List (Nat × Decoded)), decodeWord p.1 = .ok p.2 := by decide +kernel

/-- Words of S instructions, in the order of the table, from the fields of R136 and the codes of R138. -/
theorem test_decode_scalar_5 : ∀ p ∈ ([
    (0x02DCDABD, .plain (.xchsr 21 45 13)),
    (0x0000AAC1, .plain (.setvl 21 10)),
    (0x0002AAC1, .plain (.setvlK 21 10)),
    (0xA5340AC1, .plain (.settype 21 2643)),
    (0x0006AAC1, .plain (.settile 21 10)),
    (0x0008AAC1, .plain (.settileC 21 10)),
    (0x7C50A745, .plain (.dset 14 10 1989)),
    (0x00629AC5, .plain (.dget 21 9 6)),
    (0x7C54A745, .plain (.dput 14 10 1989)),
    (0x00B0A049, .plain (.wmpub 11 10)),
    (0x00C20AC9, .plain (.wmrd 21 12)),
    (0x00B4A049, .plain (.wmwait 11 10)),
    (0xA530AACD, .plain (.launch 21 10 2643)),
    (0x0100003D, .plain .yield),
    (0x0110003D, .plain .cancelLaunch),
    (0x0000003D, .plain .firmwareVersion),
    (0x0010003D, .plain .firmwareTelemetry)] : List (Nat × Decoded)), decodeWord p.1 = .ok p.2 := by decide +kernel

/-- A convoy header, from the fields of R141. -/
theorem test_decode_convoy : ∀ p ∈ ([
    (0x00781A33, .plain (.convoy 4 1 2 3 0 4 7))] : List (Nat × Decoded)), decodeWord p.1 = .ok p.2 := by decide +kernel

/-- Words of VINT and VWIDE, from the fields of R144 and the codes of R146 to R148. -/
theorem test_decode_vector_integer : ∀ p ∈ ([
    (0x0000000801A4C806, .wide .vadd ⟨18, 9, 26, 0, 0, false, false, true, 0, 0x0000⟩),
    (0x0000010341A4C806, .wide .vsub ⟨18, 9, 26, 0, 5, true, false, false, 0, 0x0000⟩),
    (0x0000020B41A4C806, .wide .vrsub ⟨18, 9, 26, 0, 5, true, false, true, 0, 0x0000⟩),
    (0x0000030001A4C806, .wide .vand ⟨18, 9, 26, 0, 0, false, false, false, 0, 0x0000⟩),
    (0x0000040801A4C806, .wide .vor ⟨18, 9, 26, 0, 0, false, false, true, 0, 0x0000⟩),
    (0x0000050341A4C806, .wide .vxor ⟨18, 9, 26, 0, 5, true, false, false, 0, 0x0000⟩),
    (0x0000060B41A4C806, .wide .vsll ⟨18, 9, 26, 0, 5, true, false, true, 0, 0x0000⟩),
    (0x0000070001A4C806, .wide .vsrl ⟨18, 9, 26, 0, 0, false, false, false, 0, 0x0000⟩),
    (0x0000080801A4C806, .wide .vsra ⟨18, 9, 26, 0, 0, false, false, true, 0, 0x0000⟩),
    (0x0000090341A4C806, .wide .vmin ⟨18, 9, 26, 0, 5, true, false, false, 0, 0x0000⟩),
    (0x00000A0B41A4C806, .wide .vmax ⟨18, 9, 26, 0, 5, true, false, true, 0, 0x0000⟩),
    (0x00000B0001A4C806, .wide .vminu ⟨18, 9, 26, 0, 0, false, false, false, 0, 0x0000⟩),
    (0x00000C0801A4C806, .wide .vmaxu ⟨18, 9, 26, 0, 0, false, false, true, 0, 0x0000⟩),
    (0x00000D0341A4C806, .wide .vmul ⟨18, 9, 26, 0, 5, true, false, false, 0, 0x0000⟩),
    (0x00000E0B41A4C806, .wide .vmulh ⟨18, 9, 26, 0, 5, true, false, true, 0, 0x0000⟩),
    (0x00000F0001A4C806, .wide .vmulhu ⟨18, 9, 26, 0, 0, false, false, false, 0, 0x0000⟩),
    (0x000010083FA4C806, .wide .vmacc ⟨18, 9, 26, 31, 0, false, false, true, 0, 0x0000⟩),
    (0x0000110341A4C806, .wide .vsadd ⟨18, 9, 26, 0, 5, true, false, false, 0, 0x0000⟩),
    (0x0000120B41A4C806, .wide .vssub ⟨18, 9, 26, 0, 5, true, false, true, 0, 0x0000⟩),
    (0x0000130001A4C806, .wide .vsaddu ⟨18, 9, 26, 0, 0, false, false, false, 0, 0x0000⟩),
    (0x0000140801A4C806, .wide .vssubu ⟨18, 9, 26, 0, 0, false, false, true, 0, 0x0000⟩),
    (0x0000150341A4C806, .wide .vsel ⟨18, 9, 26, 0, 5, true, false, false, 0, 0x0000⟩),
    (0x0000160B41A4C806, .wide .vabsd ⟨18, 9, 26, 0, 5, true, false, true, 0, 0x0000⟩),
    (0x000017000004C806, .wide .vmv ⟨18, 9, 0, 0, 0, false, false, false, 0, 0x0000⟩),
    (0x0000000801A4C80A, .wide .vwadd ⟨18, 9, 26, 0, 0, false, false, true, 0, 0x0000⟩),
    (0x0000010341A4C80A, .wide .vwaddu ⟨18, 9, 26, 0, 5, true, false, false, 0, 0x0000⟩),
    (0x0000020B41A4C80A, .wide .vwmul ⟨18, 9, 26, 0, 5, true, false, true, 0, 0x0000⟩),
    (0x0000030001A4C80A, .wide .vwmulu ⟨18, 9, 26, 0, 0, false, false, false, 0, 0x0000⟩),
    (0x000004083FA4C80A, .wide .vwmacc ⟨18, 9, 26, 31, 0, false, false, true, 0, 0x0000⟩),
    (0x0000050341A4C80A, .wide .vnsrl ⟨18, 9, 26, 0, 5, true, false, false, 0, 0x0000⟩),
    (0x0000060B41A4C80A, .wide .vnclip ⟨18, 9, 26, 0, 5, true, false, true, 0, 0x0000⟩),
    (0x0000070001A4C80A, .wide .vnclipu ⟨18, 9, 26, 0, 0, false, false, false, 0, 0x0000⟩)] : List (Nat × Decoded)), decodeWord p.1 = .ok p.2 := by decide +kernel

/-- Words of VFP to VCMP, from the fields of R144 and the codes of R146 to R148. -/
theorem test_decode_vector_float : ∀ p ∈ ([
    (0x0310000801A4C80E, .wide .vfadd ⟨18, 9, 26, 0, 0, false, false, true, 0, 0x0310⟩),
    (0x0310010341A4C80E, .wide .vfsub ⟨18, 9, 26, 0, 5, true, false, false, 0, 0x0310⟩),
    (0x0310020B41A4C80E, .wide .vfmul ⟨18, 9, 26, 0, 5, true, false, true, 0, 0x0310⟩),
    (0x0310030001A4C80E, .wide .vfdiv ⟨18, 9, 26, 0, 0, false, false, false, 0, 0x0310⟩),
    (0x0310040001A0480E, .wide .vfsqrt ⟨18, 0, 26, 0, 0, false, false, false, 0, 0x0310⟩),
    (0x0040050341A4C80E, .wide .vfmin ⟨18, 9, 26, 0, 5, true, false, false, 0, 0x0040⟩),
    (0x0040060B41A4C80E, .wide .vfmax ⟨18, 9, 26, 0, 5, true, false, true, 0, 0x0040⟩),
    (0x0040070001A0480E, .wide .vfabs ⟨18, 0, 26, 0, 0, false, false, false, 0, 0x0040⟩),
    (0x0040080001A0480E, .wide .vfneg ⟨18, 0, 26, 0, 0, false, false, false, 0, 0x0040⟩),
    (0x031000037FA4C812, .wide .vfma ⟨18, 9, 26, 31, 5, true, false, false, 0, 0x0310⟩),
    (0x0310010B7FA4C812, .wide .vfms ⟨18, 9, 26, 31, 5, true, false, true, 0, 0x0310⟩),
    (0x031002003FA4C812, .wide .vfnma ⟨18, 9, 26, 31, 0, false, false, false, 0, 0x0310⟩),
    (0x031003083FA4C812, .wide .vfnms ⟨18, 9, 26, 31, 0, false, false, true, 0, 0x0310⟩),
    (0x072004037FA4C812, .wide .vfwma ⟨18, 9, 26, 31, 5, true, false, false, 0, 0x0720⟩),
    (0x0D44000341A04816, .wide .vfcvt ⟨18, 0, 26, 0, 5, true, false, false, 0, 0x0D44⟩),
    (0x0D4C010001A04816, .wide .vfcvtI ⟨18, 0, 26, 0, 0, false, false, false, 0, 0x0D4C⟩),
    (0x0DC4020001A04816, .wide .vicvtF ⟨18, 0, 26, 0, 0, false, false, false, 0, 0x0DC4⟩),
    (0x0316000341A0481A, .wide .vsf ⟨18, 0, 26, 0, 5, true, false, false, 0, 0x0316⟩),
    (0x0005000B41A48C1E, .wide .vcmp ⟨3, 9, 26, 0, 5, true, false, true, 0, 0x0005⟩),
    (0x0013010001A48C1E, .wide .vfcmp ⟨3, 9, 26, 0, 0, false, false, false, 0, 0x0013⟩)] : List (Nat × Decoded)), decodeWord p.1 = .ok p.2 := by decide +kernel

/-- Words of VRED, VPERM and VMASK, from the fields of R144 and the codes of R146 to R148. -/
theorem test_decode_reductions : ∀ p ∈ ([
    (0x0000000001A4C822, .wide .vredsum ⟨18, 9, 26, 0, 0, false, false, false, 0, 0x0000⟩),
    (0x0000010341A4C822, .wide .vredmax ⟨18, 9, 26, 0, 5, true, false, false, 0, 0x0000⟩),
    (0x0000020341A4C822, .wide .vredmin ⟨18, 9, 26, 0, 5, true, false, false, 0, 0x0000⟩),
    (0x0000030001A4C822, .wide .vredmaxu ⟨18, 9, 26, 0, 0, false, false, false, 0, 0x0000⟩),
    (0x0000040001A4C822, .wide .vredminu ⟨18, 9, 26, 0, 0, false, false, false, 0, 0x0000⟩),
    (0x0000050341A4C822, .wide .vredand ⟨18, 9, 26, 0, 5, true, false, false, 0, 0x0000⟩),
    (0x0000060341A4C822, .wide .vredor ⟨18, 9, 26, 0, 5, true, false, false, 0, 0x0000⟩),
    (0x0310070001A4C822, .wide .vfredsum ⟨18, 9, 26, 0, 0, false, false, false, 0, 0x0310⟩),
    (0x0310080001A4C822, .wide .vfredtree ⟨18, 9, 26, 0, 0, false, false, false, 0, 0x0310⟩),
    (0x0310090341A4C822, .wide .vfredmax ⟨18, 9, 26, 0, 5, true, false, false, 0, 0x0310⟩),
    (0x03100A0341A4C822, .wide .vfredmin ⟨18, 9, 26, 0, 5, true, false, false, 0, 0x0310⟩),
    (0x00000B0001A4C822, .wide .vscan ⟨18, 9, 26, 0, 0, false, false, false, 0, 0x0000⟩),
    (0x03100C0001A4C822, .wide .vfscan ⟨18, 9, 26, 0, 0, false, false, false, 0, 0x0310⟩),
    (0x1234000341A04826, .wide .vslideup ⟨18, 0, 26, 0, 5, true, false, false, 0, 0x1234⟩),
    (0x0000010B41A4C826, .wide .vslidedown ⟨18, 9, 26, 0, 5, true, false, true, 0, 0x0000⟩),
    (0x0000020001A4C826, .wide .vgather ⟨18, 9, 26, 0, 0, false, false, false, 0, 0x0000⟩),
    (0x0000030001A04826, .wide .vcompress ⟨18, 0, 26, 0, 0, false, false, false, 0, 0x0000⟩),
    (0x0000040341A04826, .wide .vexpand ⟨18, 0, 26, 0, 5, true, false, false, 0, 0x0000⟩),
    (0x0000050B4004C826, .wide .vbcast ⟨18, 9, 0, 0, 5, true, false, true, 0, 0x0000⟩),
    (0xABCD06080004C826, .wide .vins ⟨18, 9, 0, 0, 0, false, false, true, 0, 0xABCD⟩),
    (0xABCD070001A04826, .wide .vext ⟨18, 0, 26, 0, 0, false, false, false, 0, 0xABCD⟩),
    (0x0000080340004826, .wide .vidx ⟨18, 0, 0, 0, 5, true, false, false, 0, 0x0000⟩),
    (0x0000000000530C2A, .wide .mand ⟨3, 6, 5, 0, 0, false, false, false, 0, 0x0000⟩),
    (0x0000010000530C2A, .wide .mor ⟨3, 6, 5, 0, 0, false, false, false, 0, 0x0000⟩),
    (0x0000020000530C2A, .wide .mxor ⟨3, 6, 5, 0, 0, false, false, false, 0, 0x0000⟩),
    (0x0000030000530C2A, .wide .mandn ⟨3, 6, 5, 0, 0, false, false, false, 0, 0x0000⟩),
    (0x0000040000500C2A, .wide .mnot ⟨3, 0, 5, 0, 0, false, false, false, 0, 0x0000⟩),
    (0x000005000050482A, .wide .mcount ⟨18, 0, 5, 0, 0, false, false, false, 0, 0x0000⟩),
    (0x000006000050482A, .wide .mfirst ⟨18, 0, 5, 0, 0, false, false, false, 0, 0x0000⟩),
    (0x000007000050482A, .wide .mall ⟨18, 0, 5, 0, 0, false, false, false, 0, 0x0000⟩),
    (0x0000080000500C2A, .wide .mmov ⟨3, 0, 5, 0, 0, false, false, false, 0, 0x0000⟩)] : List (Nat × Decoded)), decodeWord p.1 = .ok p.2 := by decide +kernel

/-- Words of VLD, VST and VAMO, from the fields of R144 and the codes of R146 to R148. -/
theorem test_decode_vector_memory : ∀ p ∈ ([
    (0x7ABC00043E004842, .wide .vld ⟨18, 0, 0, 31, 0, false, true, false, 0, 0x7ABC⟩),
    (0x7ABC01083E04C842, .wide .vlds ⟨18, 9, 0, 31, 0, false, false, true, 0, 0x7ABC⟩),
    (0x7ABC02077FA04842, .wide .vldx ⟨18, 0, 26, 31, 5, true, true, false, 0, 0x7ABC⟩),
    (0x0ABC03037E004842, .wide .vldff ⟨18, 0, 0, 31, 5, true, false, false, 0, 0x0ABC⟩),
    (0xF80004943E004842, .wide .vldd ⟨18, 0, 0, 31, 0, false, true, false, 9, 0xF800⟩),
    (0x0ABC00003E004846, .wide .vst ⟨18, 0, 0, 31, 0, false, false, false, 0, 0x0ABC⟩),
    (0x0ABC010F7E04C846, .wide .vsts ⟨18, 9, 0, 31, 5, true, true, true, 0, 0x0ABC⟩),
    (0x0ABC02037FA04846, .wide .vstx ⟨18, 0, 26, 31, 5, true, false, false, 0, 0x0ABC⟩),
    (0x0ABC03043FA04846, .wide .vstxu ⟨18, 0, 26, 31, 0, false, true, false, 0, 0x0ABC⟩),
    (0x080004903E004846, .wide .vstd ⟨18, 0, 0, 31, 0, false, false, false, 9, 0x0800⟩),
    (0x000000077FA4C84A, .wide .vamoAdd ⟨18, 9, 26, 31, 5, true, true, false, 0, 0x0000⟩),
    (0x000001037FA4C84A, .wide .vamoAnd ⟨18, 9, 26, 31, 5, true, false, false, 0, 0x0000⟩),
    (0x000002043FA4C84A, .wide .vamoOr ⟨18, 9, 26, 31, 0, false, true, false, 0, 0x0000⟩),
    (0x000003003FA4C84A, .wide .vamoXor ⟨18, 9, 26, 31, 0, false, false, false, 0, 0x0000⟩),
    (0x000004077FA4C84A, .wide .vamoMin ⟨18, 9, 26, 31, 5, true, true, false, 0, 0x0000⟩),
    (0x000005037FA4C84A, .wide .vamoMax ⟨18, 9, 26, 31, 5, true, false, false, 0, 0x0000⟩),
    (0x000006043FA4C84A, .wide .vamoSwap ⟨18, 9, 26, 31, 0, false, true, false, 0, 0x0000⟩),
    (0xABCE07003FA4804A, .wide .vamoFadd ⟨0, 9, 26, 31, 0, false, false, false, 0, 0xABCE⟩),
    (0x000010977E04C84A, .wide .vamoAddDesc ⟨18, 9, 0, 31, 5, true, true, false, 9, 0x0000⟩),
    (0x000011937E04C84A, .wide .vamoAndDesc ⟨18, 9, 0, 31, 5, true, false, false, 9, 0x0000⟩),
    (0x000012943E04C84A, .wide .vamoOrDesc ⟨18, 9, 0, 31, 0, false, true, false, 9, 0x0000⟩),
    (0x000013903E04C84A, .wide .vamoXorDesc ⟨18, 9, 0, 31, 0, false, false, false, 9, 0x0000⟩),
    (0x000014977E04C84A, .wide .vamoMinDesc ⟨18, 9, 0, 31, 5, true, true, false, 9, 0x0000⟩),
    (0x000015937E04C84A, .wide .vamoMaxDesc ⟨18, 9, 0, 31, 5, true, false, false, 9, 0x0000⟩),
    (0x000016943E04C84A, .wide .vamoSwapDesc ⟨18, 9, 0, 31, 0, false, true, false, 9, 0x0000⟩),
    (0xABCE17903E04804A, .wide .vamoFaddDesc ⟨0, 9, 0, 31, 0, false, false, false, 9, 0xABCE⟩)] : List (Nat × Decoded)), decodeWord p.1 = .ok p.2 := by decide +kernel

/-- Words of MTILE, MMAC and MCHK, from the fields of R144 and the codes of R146 to R148. -/
theorem test_decode_matrix : ∀ p ∈ ([
    (0x000200943E001082, .wide .mtld ⟨4, 0, 0, 31, 0, false, true, false, 9, 0x0002⟩),
    (0x0000010000001082, .wide .mtrel ⟨4, 0, 0, 0, 0, false, false, false, 0, 0x0000⟩),
    (0x000002943E000482, .wide .mast ⟨1, 0, 0, 31, 0, false, true, false, 9, 0x0000⟩),
    (0x0000030000000482, .wide .maz ⟨1, 0, 0, 0, 0, false, false, false, 0, 0x0000⟩),
    (0x000004943E000482, .wide .mald ⟨1, 0, 0, 31, 0, false, true, false, 9, 0x0000⟩),
    (0x0005000000530486, .wide .mmac ⟨1, 6, 5, 0, 0, false, false, false, 0, 0x0005⟩),
    (0x000501000E530486, .wide .mmacs ⟨1, 6, 5, 7, 0, false, false, false, 0, 0x0005⟩),
    (0x0004020000530486, .wide .mmacx ⟨1, 6, 5, 0, 0, false, false, false, 0, 0x0004⟩),
    (0x000000000000048A, .wide .mdrain ⟨1, 0, 0, 0, 0, false, false, false, 0, 0x0000⟩),
    (0x000001003E00C88A, .wide .mloc ⟨18, 1, 0, 31, 0, false, false, false, 0, 0x0000⟩),
    (0x000002000000048A, .wide .mfix ⟨1, 0, 0, 0, 0, false, false, false, 0, 0x0000⟩),
    (0x000003000000048A, .wide .mretry ⟨1, 0, 0, 0, 0, false, false, false, 0, 0x0000⟩),
    (0x000304000000C88A, .wide .mcksum ⟨18, 1, 0, 0, 0, false, false, false, 0, 0x0003⟩)] : List (Nat × Decoded)), decodeWord p.1 = .ok p.2 := by decide +kernel

/-- Words of ECMD to SWEEP, and VPRIV, from the fields of R144 and the codes of R146 to R148. -/
theorem test_decode_units : ∀ p ∈ ([
    (0x0000000341A00CC2, .wide .ecmd ⟨3, 0, 26, 0, 5, true, false, false, 0, 0x0000⟩),
    (0x00000000005000C6, .wide .ewait ⟨0, 0, 5, 0, 0, false, false, false, 0, 0x0000⟩),
    (0x0000010000500CC6, .wide .epoll ⟨3, 0, 5, 0, 0, false, false, false, 0, 0x0000⟩),
    (0x000000003E0048CA, .wide .apush ⟨18, 0, 0, 31, 0, false, false, false, 0, 0x0000⟩),
    (0x00000100000048CA, .wide .apop ⟨18, 0, 0, 0, 0, false, false, false, 0, 0x0000⟩),
    (0x00000200000048CA, .wide .afetch ⟨18, 0, 0, 0, 0, false, false, false, 0, 0x0000⟩),
    (0x00000300000048CA, .wide .aprobe ⟨18, 0, 0, 0, 0, false, false, false, 0, 0x0000⟩),
    (0x000000083E04C8CE, .wide .swbegin ⟨18, 9, 0, 31, 0, false, false, true, 0, 0x0000⟩),
    (0x000001080004C8CE, .wide .swnext ⟨18, 9, 0, 0, 0, false, false, true, 0, 0x0000⟩),
    (0x00000200000048CE, .wide .swcommit ⟨18, 0, 0, 0, 0, false, false, false, 0, 0x0000⟩),
    (0x000103080004C8CE, .wide .swend ⟨18, 9, 0, 0, 0, false, false, true, 0, 0x0001⟩),
    (0x000004083E04C8CE, .wide .rtget ⟨18, 9, 0, 31, 0, false, false, true, 0, 0x0000⟩),
    (0x000F05083E04C8CE, .wide .rtset ⟨18, 9, 0, 31, 0, false, false, true, 0, 0x000F⟩),
    (0x000000003E0048FE, .wide .vsave ⟨18, 0, 0, 31, 0, false, false, false, 0, 0x0000⟩),
    (0x000100003E0000FE, .wide .vsaveMsk ⟨0, 0, 0, 31, 0, false, false, false, 0, 0x0001⟩),
    (0x000200003E0000FE, .wide .vsaveMx ⟨0, 0, 0, 31, 0, false, false, false, 0, 0x0002⟩),
    (0x000300003E0000FE, .wide .vsaveCtl ⟨0, 0, 0, 31, 0, false, false, false, 0, 0x0003⟩),
    (0x000001083E04C8FE, .wide .vrest ⟨18, 9, 0, 31, 0, false, false, true, 0, 0x0000⟩),
    (0x000101003E0000FE, .wide .vrestMsk ⟨0, 0, 0, 31, 0, false, false, false, 0, 0x0001⟩),
    (0x000201003E0000FE, .wide .vrestMx ⟨0, 0, 0, 31, 0, false, false, false, 0, 0x0002⟩),
    (0x000301003E0000FE, .wide .vrestCtl ⟨0, 0, 0, 31, 0, false, false, false, 0, 0x0003⟩),
    (0x000002080004C8FE, .wide .lgrant ⟨18, 9, 0, 0, 0, false, false, true, 0, 0x0000⟩)] : List (Nat × Decoded)), decodeWord p.1 = .ok p.2 := by decide +kernel

/-- Fields of a W instruction with every field zero. -/
def zeroW : WFields := ⟨0, 0, 0, 0, 0, false, false, false, 0, 0⟩

/-- A move to g0 would be the parcel 0x0000 (R129). -/
theorem test_wf_zero_parcel : (Instr.cMv 0).defect = some .zeroParcel ∧ (Instr.cMv 1).wf = true := by decide +kernel
/-- A w-form shift takes amounts below 32 (R138). -/
theorem test_wf_shift : (Instr.slli 1 2 true 32).defect = some .shiftAmount ∧ (Instr.slli 1 2 true 31).wf = true
    ∧ (Instr.srai 1 2 false 63).wf = true := by decide +kernel
/-- A loop names l0 to l5 and a body (R138). -/
theorem test_wf_loop : (Instr.loop 6 1 4).defect = some .loopOperand ∧ (Instr.loop 0 1 0).defect = some .loopOperand
    ∧ (Instr.loop 5 1 1).wf = true := by decide +kernel
/-- Scopes are 0 to 5 (R102). -/
theorem test_wf_scope : (Instr.fence 6).defect = some .scope ∧ (Instr.fenceSc 7).defect = some .scope ∧ (Instr.fence 5).wf = true := by
  decide +kernel
/-- Rounding codes 4 to 6 are illegal (R138). -/
theorem test_wf_rounding : (Instr.fadd 1 2 3 4 false).defect = some .rounding ∧ (Instr.fsqrt 1 2 6 true).defect = some .rounding
    ∧ (Instr.fdiv 1 2 3 7 false).wf = true := by decide +kernel
/-- Conversion codes are 0 to 6, relations 0 to 2 (R172, R174). -/
theorem test_wf_code : (Instr.fcvt 1 2 7 0 false).defect = some .code ∧ (Instr.fcvt 1 2 0 5 false).defect = some .rounding
    ∧ (Instr.fcmp 1 2 3 3 false).defect = some .code ∧ (Instr.trap 0x010).defect = some .code ∧ (Instr.fcmp 1 2 3 2 false).wf = true := by
  decide +kernel
/-- Status register 0x017 is not assigned (R139). -/
theorem test_wf_status : (Instr.rdsr 1 0x017).defect = some .statusNumber ∧ (Instr.wrsr 0x105 1).wf = true
    ∧ (Instr.xchsr 1 0x209 2).defect = some .statusNumber := by decide +kernel
/-- Watermark 0 is no watermark (R138). -/
theorem test_wf_watermark : (Instr.wmpub 0 1).defect = some .watermark ∧ (Instr.wmrd 1 0).defect = some .watermark
    ∧ (Instr.wmwait 0 1).defect = some .watermark := by decide +kernel
/-- A register field that is not used is zero (R145). -/
theorem test_wf_unused : (Instr.vadd { zeroW with vs3 := 1 }).defect = some .mustBeZero
    ∧ (Instr.vslideup { zeroW with vs1 := 1 }).defect = some .mustBeZero := by decide +kernel
/-- Mask and tile registers end at 7, accumulators at 1, and `mloc` writes two registers (R145, R251). -/
theorem test_wf_numbers : (Instr.vcmp { zeroW with vd := 8 }).defect = some .registerNumber
    ∧ (Instr.mtrel { zeroW with vd := 8 }).defect = some .registerNumber ∧ (Instr.maz { zeroW with vd := 2 }).defect = some .registerNumber
    ∧ (Instr.mloc { zeroW with vd := 4, vs3 := 4 }).defect = some .registerNumber := by decide +kernel
/-- S1 is set where the chapter has it, and nowhere else (R145). -/
theorem test_wf_scalar : (Instr.vfsqrt { zeroW with s1 := true }).defect = some .scalarSource
    ∧ (Instr.vlds zeroW).defect = some .scalarSource := by decide +kernel
/-- The mask of an instruction without one, one without its bit, and one that is missing (R145, R198). -/
theorem test_wf_mask : (Instr.mand { zeroW with me := true }).defect = some .mask ∧ (Instr.vadd { zeroW with mr := 1 }).defect = some .mask
    ∧ (Instr.vsel zeroW).defect = some .mask := by decide +kernel
/-- A descriptor and an orientation belong to memory accesses (R145). -/
theorem test_wf_memory : (Instr.vld { zeroW with desc := 1 }).defect = some .descriptor
    ∧ (Instr.vadd { zeroW with orient := true }).defect = some .orientation ∧ (Instr.vldd { zeroW with desc := 1, orient := true }).wf = true := by
  decide +kernel
/-- imm16 has only the bits and codes of its class (R146, R238). -/
theorem test_wf_immediate : (Instr.vadd { zeroW with imm := 1 }).defect = some .immediate
    ∧ (Instr.vfadd { zeroW with imm := 0x400 }).defect = some .immediate ∧ (Instr.vfwma zeroW).defect = some .immediate
    ∧ (Instr.vsf { zeroW with imm := 7 }).defect = some .immediate ∧ (Instr.vcmp { zeroW with imm := 6 }).defect = some .immediate
    ∧ (Instr.vfcmp { zeroW with imm := 4 }).defect = some .immediate ∧ (Instr.vfcvt { zeroW with imm := 0x600 }).defect = some .immediate
    ∧ (Instr.vldd { zeroW with imm := 1 }).defect = some .immediate ∧ (Instr.vst { zeroW with imm := 0x1000 }).defect = some .immediate
    ∧ (Instr.vamoFadd { zeroW with imm := 3 }).defect = some .immediate ∧ (Instr.mmacs zeroW).defect = some .immediate
    ∧ (Instr.mtld { zeroW with vd := 1, imm := 1 }).defect = some .immediate ∧ (Instr.swend { zeroW with s1 := true, imm := 2 }).defect = some .immediate := by
  decide +kernel

/-! ### A small machine -/

/-- A machine after boot. Partition 0 is isle 0 with 4 GiB of pool. Hart 0 holds a context in user mode with one lane group, whose table at
0x10000 has two leaves of level 1: the addresses from 0 are the pool, and those from 2^42 on are device space. -/
def mach : State :=
  { State.reset with
    h := { Hart.idle 0 with
      live := true
      sc := { Scalar.zero with pc := 0x1000 }
      su := { Supervisor.zero with ptroot := 0x10000, lgMap := 1, stvec := 0x4000, lid := 1 }
      ct := { Control.zero with lanes := 1 } }
    mem := [(0x10000, 0xDF), (0x10008, 0xDF), (0x1000E, 0x0F), (0x1000F, 0x04)]
    rg := { Registrar.zero with
      parts := Registrar.zero.parts.set 0 { PartBlock.unused with size := 0, base := 0, win := (Vector.replicate 4 (0, 0)).set 0 (4, 0) } }
    dev := { Device.zero with extents := [(0, 2 ^ 32)], ipmap := Vector.replicate 8 0x101, boot := { Device.zero.boot with running := true, verified := true } } }

/-- A state with a g register set. -/
def put (r : Reg) (v : Word) (s : State) : State := s.onSc fun sc => { sc with g := sc.g.setIfInBounds r.toNat v }
/-- A state in supervisor mode. -/
def asSup (s : State) : State := s.onSu fun su => { su with sup := true }
/-- A state with bytes in memory. -/
def fill (a n v : Nat) (s : State) : State := { s with mem := s.mem.putNum a n v }
/-- A state with VTYPE and VL set. -/
def shape (vtype vl : Nat) (s : State) : State := s.onVec fun x => { x with vtype := BitVec.ofNat 14 vtype, vl := BitVec.ofNat 15 vl }
/-- A state with a vector register set. -/
def lane (r v : Nat) (s : State) : State := s.onVec fun x => { x with v := x.v.setIfInBounds r (BitVec.ofNat _ v) }
/-- A state with a mask register set. -/
def maskReg (k v : Nat) (s : State) : State := s.onVec fun x => { x with m := x.m.setIfInBounds k (BitVec.ofNat _ v) }
/-- The place of a pool address in `mach`. -/
def spot (a : Nat) : Place := { pa := a, mt := 0, sq := 0, ns := false, entry := 0x10000, pte := 0xDF }
/-- The place of the device address 2^42 + a in `mach`. -/
def port (a : Nat) : Place := { pa := 0xF * 2 ^ 48 + a, mt := 1, sq := 0, ns := false, entry := 0x10008, pte := 0x040F0000000000DF }

/-- The state after an instruction. -/
def after (i : Instr) (s : State) : State :=
  match exec i s with
  | .next t => t
  | _ => State.reset

/-! ### Meeting the hypotheses of the statements -/

/-- No other hart, and no watchpoint. -/
abbrev Alone (s : State) : Prop := s.others = [] ∧ s.h.sc.wpc = Vector.replicate 8 0

theorem watchless {s : State} (h : ∀ o ∈ s.h :: s.others, o.sc.wpc = Vector.replicate 8 0) : NoWatch s := by
  intro o ho k
  rw [h o ho, Fin.getElem_fin, Vector.getElem_replicate]
  decide +kernel

theorem Alone.watch {s : State} (h : Alone s) : NoWatch s :=
  watchless fun o ho => by rw [h.1] at ho; rw [List.mem_singleton.mp ho, h.2]

theorem sound {s : State} (h : s.ca.weak = []) (a n : Nat) : ∀ w ∈ s.ca.weak, meets (8 * w) 8 a n = false := by
  intro w hw
  rw [h] at hw
  cases hw

theorem granted {s : State} {acc : Acc} {va : Word} {n : Nat} {p : Place}
    (h : canonical va = true ∧ va.toNat % n = 0 ∧ s.translate s.h.space acc va = .ok p ∧ s.ca.pins = [] ∧ s.ca.poison = []
      ∧ s.ca.weak = [] ∧ Alone s ∧ s.mem.wf) :
    Granted s acc va n p := by
  obtain ⟨canon, aligned, place, pins, poison, weak, alone, memory⟩ := h
  refine { canon, aligned, place, memory, unwatched := alone.watch, unpinned := fun _ q hq => ?_, clean := fun _ _ => ?_,
           sound := fun _ _ => sound weak _ _ }
  · unfold State.pinsOn at hq
    rw [pins] at hq
    cases hq
  · unfold State.poisoned
    rw [poison]
    rfl

theorem begins {s : State} {op : WOp} {f : WFields}
    (h : f.defect op = none ∧ (s.h.su.sup = true ∨ (isPriv op = false ∧ s.h.su.va = false ∧ (isMatrix op = true → s.h.su.mxa = false)))
      ∧ s.h.vec.vill = false ∧ alignedRuns s.h.vec op f = true ∧ overlapOk s.h.vec op f = true ∧ (semOf op).illegal s f = false
      ∧ (semOf op).fault s f 0 = none ∧ s.h.vec.vstart = 0 ∧ fieldOf s.h.vec.cpv0 63 1 = 0 ∧ s.vl ≤ s.h.vlmax ∧ s.h.dbg.run ≠ some true) :
    Begins s op f :=
  have ⟨formed, allowed, type, aligned, apart, rules, clear, start, alone, length, unstepped⟩ := h
  { formed, allowed, type, aligned, apart, rules, clear, start, alone, length, unstepped }

/-- A leaf with A and D set, and not of the shoal. -/
abbrev Used (p : Place) : Prop := p.pte.toNat ||| 0xC0 = p.pte.toNat ∧ fieldOf p.pte 57 1 = 0

theorem marked {s : State} {sp : Space} {va : Word} {p : Place} (a : Used p) (h : s.ca.weak = []) (w : Bool) : Marked s sp va p w := by
  refine ⟨?_, .inl a.2, fun e _ => sound h _ _⟩
  split
  · exact a.1
  · rw [← a.1, Nat.or_assoc, show (0xC0 ||| 0x40 : Nat) = 0xC0 from rfl]

/-- The leaf of the watermark cell, if the form names one. -/
abbrev CellUsed (m : MemForm) (s : State) (f : WFields) : Prop :=
  m.mark f = 0 ∨ ∀ p ∈ (s.translate s.h.space .load (s.wmCell (m.mark f))).toOption, Used p

theorem quiet {m : MemForm} {s : State} {f : WFields}
    (h : Alone s ∧ s.h.vec.mf = 0 ∧ s.ca.chan = [] ∧ s.h.dbg.prof = 0 ∧ s.h.vec.pm = false ∧ m.rate s f = 0 ∧ s.mem.wf
      ∧ s.h.held = [] ∧ s.ca.weak = [] ∧ CellUsed m s f)
    (copies : ∀ e, e < s.vl → s.activeIn f false e = true → m.copiesDiffer s f e = false) : m.Quiet s f := by
  obtain ⟨alone, fresh, settled, unsampled, -, plain, memory, unqueued, weak, cell⟩ := h
  refine { unwatched := alone.watch, fresh, settled, unsampled, unqueued, copies, plain, memory, cell := fun p hm hp => ?_ }
  have u := cell.resolve_left hm
  rw [hp] at u
  exact ⟨marked (u p rfl) weak _, sound weak _ _⟩

theorem memOpen {m : MemForm} {s : State} {f : WFields} {va : Word} {p : Place}
    (h : canonical va = true ∧ va.toNat % m.bytes s f = 0 ∧ s.translate s.h.space m.kind.acc va = .ok p ∧ p.mt ≠ 1
      ∧ (f.orient = true → columnPage p.mt p.sq s.sew = none) ∧ s.pinsOn p.pa (m.bytes s f) = [] ∧ s.poisoned p.pa (m.bytes s f) = false
      ∧ Used p ∧ s.parkedOn va = false ∧ s.ca.pinQueue = [] ∧ m.mustWait s f va p = .ok false ∧ s.ca.weak = []) :
    m.Open s f va p :=
  have ⟨canon, aligned, place, normal, column, free, whole, used, unparked, unheld, covered, weak⟩ := h
  { canon, aligned, place, normal, column, unparked, unheld, unpinned := fun _ => free, clean := fun _ => whole, sound := fun _ => sound weak _ _,
    marked := marked used weak _, covered := fun _ => covered }

theorem tileOpen {s : State} {acc : Acc} {n : Nat} {col : Option Nat} {va : Word} {p : Place}
    (h : s.translate s.h.space acc va = .ok p ∧ p.mt ≠ 1 ∧ col = none ∧ s.pinsOn p.pa n = [] ∧ s.poisoned p.pa n = false
      ∧ Used p ∧ s.parkedOn va = false ∧ s.ca.pinQueue = [] ∧ s.ca.weak = []) : TileOpen s acc n col va p :=
  have ⟨place, normal, flat, free, whole, used, unparked, unheld, weak⟩ := h
  { place, normal, unparked, unheld, unpinned := fun _ => free, clean := fun _ => whole, sound := fun _ => sound weak _ _,
    marked := marked used weak _, column := fun _ x => by rw [flat] at x; cases x }

theorem tableOpen {s : State} {acc : Acc} {va : Word} {n : Nat} {p : Place}
    (h : canonical va = true ∧ va.toNat % n = 0 ∧ s.translate s.h.space acc va = .ok p ∧ p.mt ≠ 1 ∧ s.pinsOn p.pa n = []
      ∧ s.poisoned p.pa n = false ∧ Used p ∧ s.ca.pinQueue = [] ∧ Alone s ∧ s.ca.weak = [] ∧ s.h.held = [] ∧ s.ca.chan = []) :
    TableOpen s acc va n p :=
  have ⟨canon, aligned, place, normal, free, whole, used, queue, alone, weak, unqueued, chan⟩ := h
  { canon, aligned, place, normal, unqueued, unpinned := fun _ => free, clean := fun _ => whole, sound := fun _ => sound weak _ _,
    marked := marked used weak _, rest := fun _ _ _ => .inl used.2, unheld := fun _ => queue, unwatched := alone.watch
    read := fun _ => ⟨by unfold State.ownHeld; rw [queue]; rfl, .inr fun i hi => by rw [chan] at hi; cases hi⟩ }

theorem transOpen {s : State} {acc : Acc} {va : Word} {p : Place}
    (h : canonical va = true ∧ s.translate s.h.space acc va = .ok p ∧ p.mt ≠ 1 ∧ Used p ∧ s.h.held = [] ∧ s.ca.weak = []) : Translates s acc va p :=
  have ⟨canon, place, normal, used, unqueued, weak⟩ := h
  { canon, place, normal, unqueued, marked := marked used weak _ }

theorem engineOpen {s : State} {c : Command} {acc : Acc} {va : Word} {n : Nat} {p : Place}
    (h : s.translate c.space acc va = .ok p ∧ p.mt ≠ 1 ∧ Used p ∧ s.poisoned p.pa n = false ∧ s.heldAtHome p.pa n = false
      ∧ s.ca.weak = []) : EngineOpen s c acc va n p :=
  have ⟨place, normal, used, whole, free, weak⟩ := h
  { place, normal, marked := marked used weak _, clean := fun _ => whole, sound := fun _ => sound weak _ _, unheld := fun _ => free }

/-- A pool address below 4 GiB belongs to the partition of `mach`. -/
theorem pooled {s : State} {part : BitVec 3} (a : Nat) (ha : a < 2 ^ 32)
    (h : s.dev.extents = [(0, 2 ^ 32)] ∧ s.part part = mach.part 0 ∧ s.dev.ipmap = mach.dev.ipmap) : s.poolOk part a = true := by
  obtain ⟨h4, h5, h6⟩ := h
  have w : (mach.part 0).win.toList = [(4, 0), (0, 0), (0, 0), (0, 0)] := by decide +kernel
  have z : (mach.part 0).size = 0 ∧ (mach.part 0).base = 0 := by decide +kernel
  have i : s.homeIsle part a = 0 := by
    unfold State.homeIsle
    rw [h5]
    dsimp only
    rw [z.1, z.2]
    simp [Nat.mod_one]
  have y : s.ways 0 ≠ 0 := by
    unfold State.ways
    rw [h6]
    decide +kernel
  unfold State.poolOk
  rw [i]
  unfold State.enumerated PartBlock.inWindow
  rw [h4, h5, w]
  simp [y]
  omega

/-- The walk of an address below 2^42 with the first leaf of `mach` in place. -/
theorem walks {s : State} {sp : Space} (a : Nat) (ha : a < 2 ^ 32) (h : s.mem.quad 0x10000 = 0xDF) (hr : sp.root = 0x10000)
    (hh : sp.held = []) (hp : s.ca.poison = []) (ho : s.poolOk sp.part 0x10000 = true) :
    s.walk sp (BitVec.ofNat 64 a) = .leaf 0xDF 0x10000 1 := by
  have t : tableIndex 1 (BitVec.ofNat 64 a) = 0 := by
    unfold tableIndex fieldOf
    rw [BitVec.toNat_ofNat, Nat.mod_eq_of_lt (by omega), Nat.div_eq_of_lt (by omega)]
  have f : frameOf 0x10000 = 0x10000 := by decide +kernel
  have b : fieldOf 0xDF 0 1 = 1 := by decide +kernel
  have c : malformed 0xDF 1 = false := by decide +kernel
  have l : isLeaf 0xDF = true := by decide +kernel
  have n : s.poisoned 0x10000 8 = false := by
    unfold State.poisoned
    rw [hp]
    rfl
  unfold State.walk State.walkFrom
  dsimp only
  rw [hr, t, f, Nat.mul_zero, Nat.add_zero, hh, ho, n, h, b, c, l]
  rfl

/-- With the first leaf of `mach` in place, an address of the pool translates to itself. -/
theorem translates {s : State} {sp : Space} (acc : Acc) (a : Nat) (ha : a < 2 ^ 32)
    (h : s.mem.quad 0x10000 = 0xDF ∧ sp.root = 0x10000 ∧ acc ≠ .fetch ∧ s.dev.extents = [(0, 2 ^ 32)] ∧ s.part sp.part = mach.part 0
      ∧ s.dev.ipmap = mach.dev.ipmap ∧ s.ca.poison = [] ∧ sp.held = []) :
    s.translate sp acc (BitVec.ofNat 64 a) = .ok (spot a) := by
  obtain ⟨h1, h2, h3, h4, h5, h6, h7, h8⟩ := h
  have c : canonical (BitVec.ofNat 64 a) = true := by
    unfold canonical fieldOf
    rw [BitVec.toNat_ofNat, Nat.mod_eq_of_lt (by omega), Nat.div_eq_of_lt (by omega)]
    rfl
  have l : leafPa 0xDF 1 (BitVec.ofNat 64 a) = a := by
    have e : frameOf 0xDF = 0 := by decide +kernel
    unfold leafPa fieldOf
    rw [BitVec.toNat_ofNat, Nat.mod_eq_of_lt (by omega), e]
    omega
  have r : rangeType a = some 0 := by
    unfold rangeType
    rw [if_pos (by omega)]
  have k : s.poolOk sp.part a = true := pooled a ha ⟨h4, h5, h6⟩
  have p : permission 0xDF sp.sup acc = none := by
    cases acc <;> cases sp.sup <;> first | exact absurd rfl h3 | decide +kernel
  have t : fieldOf 0xDF 58 2 = 0 := by decide +kernel
  unfold State.translate
  rw [if_neg (by simp [c]), walks a ha h1 h2 h8 h7 (pooled _ (by decide) ⟨h4, h5, h6⟩)]
  dsimp only
  rw [l, r]
  dsimp only
  rw [if_neg (by simp [k]), t, if_neg (by simp), p]
  rfl

/-! ### Witnesses: scalar instructions

Each theorem named after a statement meets the hypotheses of that statement together, one part for each of its clauses. -/

theorem witness_IntegerFormsWriteTheirValue :
    compactValue mach (.cAdd 31 0) = some (31, 0) ∧ compactValue mach (.cLi 0 16) = some (0, -16)
      ∧ oprValue (put 1 (-1) mach) (.add 0 1 1 false) = some (0, -2) ∧ oprValue (put 1 (-1) mach) (.clz 3 1 true) = some (3, 0)
      ∧ opiValue mach (.addi 3 0 0x800) = some (3, -0x800) ∧ opiValue mach (.ldhi 3 0x80000) = some (3, 0xFFFFFFFF80000000) := by
  and_intros <;> decide +kernel

/-- A zero divisor at both widths (at 32 bits with other bits set above), and the most negative dividend by -1 at both. -/
theorem witness_DivisionHasItsSpecialCases :
    let z := put 2 0xFFFFFFFF00000000 mach
    let x := put 1 0x8000000000000000 (put 2 (-1) mach)
    let y := put 1 0x80000000 (put 2 0xFFFFFFFF mach)
    mach.g 2 = 0 ∧ low32 (z.g 2) = 0 ∧ (x.g 1 = BitVec.intMin 64 ∧ x.g 2 = -1) ∧ low32 (y.g 1) = BitVec.intMin 32 ∧ low32 (y.g 2) = -1 := by
  and_intros <;> decide +kernel

/-- The last quad of the window. -/
theorem witness_LoadsGiveTheBytes :
    let s := put 1 0xFFFFFFF8 mach
    loadOf s (.ldD 2 1 0) = some (2, 0xFFFFFFF8, 8, true, 4) ∧ Granted s .load 0xFFFFFFF8 8 (spot 0xFFFFFFF8)
      ∧ (spot 0xFFFFFFF8).mt ≠ 1 ∧ s.ownHeld 0xFFFFFFF8 8 = false ∧ s.bufHeld 0xFFFFFFF8 8 = false
      ∧ ∀ l ∈ s.h.loads, meets l.pa l.n 0xFFFFFFF8 8 = false :=
  ⟨by decide +kernel, granted (by decide +kernel), by decide +kernel⟩

theorem witness_StoresEnterTheBuffer :
    let s := put 1 0xFFFFFFC0 (put 2 0x0102 mach)
    storeOf s (.stH 2 1 0) = some (0xFFFFFFC0, [2, 1], 4) ∧ Granted s .store 0xFFFFFFC0 [2, 1].length (spot 0xFFFFFFC0)
      ∧ storeOf s (.dput 0 1 0) = some (0xFFFFFFC0, leBytes 64 0, 4) ∧ Granted s .store 0xFFFFFFC0 (leBytes 64 0).length (spot 0xFFFFFFC0)
      ∧ (spot 0xFFFFFFC0).mt ≠ 1 :=
  ⟨by decide +kernel, granted (by decide +kernel), by decide +kernel, granted (by decide +kernel), by decide +kernel⟩

/-- A state with one buffered store. -/
def buffered (s : State) : State :=
  { s with h := { s.h with buf := [{ pa := 0x2000, bytes := [1, 0], sq := 0, va := 0x2000, pc := 0x1000, root := 0x10000, sup := false, org := ⟨0, 0, 0⟩ }] } }

/-- The current hart's store, and the same one as that of another hart. -/
theorem witness_DrainPutsTheBytes :
    let s := buffered mach
    let o : Hart := { s.h with hid := 1 }
    let w : State := { mach with others := [o] }
    let b : BufStore := { pa := 0x2000, bytes := [1, 0], sq := 0, va := 0x2000, pc := 0x1000, root := 0x10000, sup := false, org := ⟨0, 0, 0⟩ }
    let met (s : State) (h : Hart) : Prop := (s.h :: s.others).find? (fun x => x.hid == h.hid) = some h ∧ h.buf = b :: []
      ∧ s.heldAtHome b.pa b.bytes.length = false ∧ s.mem.wf
      ∧ s.measuredBy ⟨h.su.part, b.root, b.sup, []⟩ (.hart h.hid h.own b.pc b.sup) b.va b.bytes.length = []
    (met s s.h ∧ NoWatch s) ∧ met w o ∧ NoWatch w :=
  ⟨⟨by decide +kernel, Alone.watch (by decide +kernel)⟩, by decide +kernel, watchless (by decide +kernel)⟩

theorem witness_ReleaseStoresPutTheBytes :
    let s := put 1 0x3000 (put 2 7 (buffered mach))
    let p := spot 0x3000
    releaseOf s (.stRelB 2 1 0) = some (0x3000, [7]) ∧ Granted s .store 0x3000 [(7 : Byte)].length p ∧ p.mt ≠ 1
      ∧ (s.markLeaf s.h.space 0x3000 p true).release.2 = true ∧ (s.markLeaf s.h.space 0x3000 p true).release.1.heldAtHome p.pa 1 = false
      ∧ NoWatch (s.markLeaf s.h.space 0x3000 p true).release.1 ∧ Unmeasured (s.markLeaf s.h.space 0x3000 p true).release.1 0x3000 1 :=
  ⟨by decide +kernel, granted (by decide +kernel), by decide +kernel, by decide +kernel, by decide +kernel, Alone.watch (by decide +kernel),
    by unfold Unmeasured; decide +kernel⟩

/-- The launch-port region of the register image; the store with release comes after a buffered one. -/
theorem witness_DeviceAccessesReachTheImage :
    let s := put 1 0x40000000008 mach
    loadOf s (.ldD 2 1 0) = some (2, 0x40000000008, 8, true, 4) ∧ Granted s .load 0x40000000008 8 (port 8) ∧ (port 8).mt = 1
      ∧ s.ownHeld (port 8).pa 8 = false ∧ s.bufHeld (port 8).pa 8 = false ∧ storeOf s (.stD 2 1 0) = some (0x40000000008, leBytes 8 0, 4)
      ∧ Granted s .store 0x40000000008 (leBytes 8 0).length (port 8)
      ∧ (let w := put 1 0x40000000008 (buffered mach)
         releaseOf w (.stRelD 2 1 0) = some (0x40000000008, leBytes 8 0) ∧ Granted w .store 0x40000000008 (leBytes 8 0).length (port 8)
          ∧ (w.markLeaf w.h.space 0x40000000008 (port 8) true).release.2 = true) :=
  ⟨by decide +kernel, granted (by decide +kernel), by decide +kernel, by decide +kernel, by decide +kernel, by decide +kernel,
    granted (by decide +kernel), by decide +kernel, granted (by decide +kernel), by decide +kernel⟩

/-- A floating add with release, of words that its hart has just stored. -/
theorem witness_AtomicsReadAndWrite :
    let s := put 1 0x2000 (buffered mach)
    let p := spot 0x2000
    let m : AmoForm := ⟨.fadd, 3, 1, 2, false, true⟩
    let k := s.markLeaf s.h.space 0x2000 p true
    let u := (k.release.1.drainTo p.pa 4).settleHome s.h.su.part s.h.hid.isle p.pa
    amoOf (.amoFadd 3 1 2 false false true) = some m ∧ Granted s .atomic (s.g m.a) m.bytes p ∧ p.mt ≠ 1
      ∧ k.release.2 = true ∧ u.heldAtHome p.pa 4 = false ∧ NoWatch u ∧ u.ca.weak = [] ∧ Unmeasured u (s.g m.a) 4 :=
  ⟨rfl, granted (by decide +kernel), by decide +kernel, by decide +kernel, by decide +kernel, Alone.watch (by decide +kernel), by decide +kernel,
    by unfold Unmeasured; decide +kernel⟩

/-- The first address that is not canonical, an address off by one, and the first address beyond the two leaves. -/
theorem witness_AccessesTrapInOrder :
    (accessOf (put 1 0x40000000000000 mach) (.ldD 2 1 0) = some (.load, 0x40000000000000, 8) ∧ canonical 0x40000000000000 = false)
      ∧ (accessOf (put 1 0x2001 mach) (.stH 2 1 0) = some (.store, 0x2001, 2) ∧ canonical 0x2001 = true ∧ (0x2001 : Word).toNat % 2 ≠ 0)
      ∧ (let s := put 1 0x80000000000 mach
         accessOf s (.amoAdd 3 1 2 true false false) = some (.atomic, 0x80000000000, 8) ∧ canonical 0x80000000000 = true
          ∧ (0x80000000000 : Word).toNat % 8 = 0
          ∧ s.translate s.h.space .atomic 0x80000000000 = .error { code := 9, sub := 1, level := 1, entry := 0x10010 }) := by
  and_intros <;> decide +kernel

/-- A `fence.sc` at device scope as it issues, and when its round has passed. -/
theorem witness_FencesComplete :
    let s := buffered mach
    let r : State := { mach with h := { mach.h with fence := some 0 } }
    (s.drain.scalarPending = false ∧ s.drain.vectorPending = false ∧ s.scalarPending = false ∧ s.vectorPending = false
      ∧ s.drain.remapPending s.h.own false = false ∧ s.h.fence = none) ∧ r.h.fence = some 0 := by
  and_intros <;> decide +kernel

/-- FRM of 3 is a static mode and of 4 is none. -/
theorem witness_FloatingFormsDeliver :
    let s (k : BitVec 3) : State := mach.onSc fun sc => { sc with frm := k }
    (∃ m, fpOf (s 3) (.fadd 1 2 3 7 false) = some m ∧ m.rm = some 7 ∧ roundingOf (s 3) 7 ≤ 3)
      ∧ (∃ m, fpOf (s 4) (.fadd 1 2 3 7 false) = some m ∧ m.rm = some 7 ∧ 3 < roundingOf (s 4) 7)
      ∧ ∃ m, fpOf (s 4) (.fma 1 2 3 4 3 true) = some m ∧ m.rm = none :=
  ⟨⟨_, rfl, rfl, by decide +kernel⟩, ⟨_, rfl, rfl, by decide +kernel⟩, ⟨_, rfl, rfl⟩⟩

/-- A NaN on either side, on both, and on none. -/
theorem witness_MinMaxFollowTheOrder :
    let s := put 1 0x7FF8000000000000 mach
    let nan (r : Reg) : Bool := ((scalarFmt false).value (s.g r).toNat).isNan
    nan 1 = true ∧ nan 2 = false := by
  and_intros <;> decide +kernel

theorem witness_BranchesFollowTheirCondition :
    branchOf mach (.bEq 1 2 0) = some (true, 0x1000, 4) ∧ canonical 0x1000 = true
      ∧ (let s := mach.onSc fun sc => { sc with pc := 0x3FFFFFFFFFFFFE }
         branchOf s (.cJ 1) = some (true, 0x40000000000000, 2) ∧ canonical 0x40000000000000 = false)
      ∧ branchOf mach (.bNe 1 2 0) = some (false, 0x1000, 4) := by
  and_intros <;> decide +kernel

theorem witness_JumpsLinkAndTransfer :
    (jumpOf mach (.jal 1 0x80000) = some (1, 0xFFFFFFFFFFF01000) ∧ canonical 0xFFFFFFFFFFF01000 = true)
      ∧ (jumpOf (put 2 0x40000000000000 mach) (.jalr 0 2 0) = some (0, 0x40000000000000) ∧ (0x40000000000000 : Word).getLsbD 0 = false
        ∧ canonical 0x40000000000000 = false)
      ∧ jumpOf mach (.jalr 1 2 1) = some (1, 1) ∧ (1 : Word).getLsbD 0 = true := by
  and_intros <;> decide +kernel

/-- A count of 1 opens a frame and a count of 0 none; of the three parts of R438 for two harts and a count of 1, the second is empty. -/
theorem witness_LoopOpensItsRange :
    let s : State := (put 1 1 mach).onCt fun c => { c with kinds := [(5, .cores)], harts := 2, hartIx := 1 }
    let f : Frame := ⟨5, 0x1004, 0x1006⟩
    (5 : BitVec 3).toNat < 6 ∧ (1 : BitVec 12) ≠ 0 ∧ ((put 1 1 mach).g 1).toNat = 1 ∧ (mach.g 1).toNat = 0
      ∧ (s.h.ct.kinds.find? fun x => x.1 == 5).map Prod.snd = some .cores ∧ min (1 * 1) (s.g 1).toNat = min (2 * 1) (s.g 1).toNat
      ∧ (∀ g ∈ [f], g.stop ≠ 0x1004) ∧ f.stop = 0x1006 ∧ f.k.toNat < 6
      ∧ (({ Scalar.zero with frames := [f], lc := Vector.replicate 6 2 } : Scalar).lc[5] - 1 ≠ 0)
      ∧ ({ Scalar.zero with frames := [f], lc := Vector.replicate 6 1 } : Scalar).lc[5] - 1 = 0 := by
  and_intros <;> decide +kernel

/-! ### Witnesses: lanes -/

/-- Two elements of 64 bits under protected mode, and two of 16 bits. -/
def lanes64 : State := shape 0x83 2 (lane 1 5 mach)
def lanes16 : State := shape 1 2 (lane 1 0x40003C00 mach)

theorem witness_VectorIntegerFormsWrite :
    let f : WFields := { zeroW with vd := 4, vs1 := 2, vs2 := 3, me := true, mr := 1 }
    let s := lanes64
    ∃ r : Bool → Nat → Int, Begins s .vadd f
      ∧ (∀ mir e, intResult s.sew (s.srcA f mir s.sew e) (s.elem mir f.vs2.toNat s.sew e) (s.elem mir f.vs3.toNat s.sew e) .vadd = some (r mir e))
      ∧ s.h.vec.pm = true
      ∧ ∀ e, e < s.vl → s.ruled f false e (modWidth s.sew (r false e)) 0 = s.ruled f true e (modWidth s.sew (r true e)) 0 :=
  ⟨_, begins (by decide +kernel), fun _ _ => rfl, by decide +kernel, by decide +kernel⟩

theorem witness_VectorWidthFormsWrite :
    let f : WFields := { zeroW with vd := 4, vs1 := 2, vs2 := 6, s1 := true }
    let g : WFields := { zeroW with vd := 4, vs1 := 2, vs2 := 6 }
    let s := shape 1 4 (put 2 0xFFFF mach)
    (∃ r : Bool → Nat → Int, Begins s .vwadd f
      ∧ ∀ mir e, widenResult s.sew (s.srcA f mir s.sew e) (s.elem mir f.vs2.toNat s.sew e) (s.elem mir f.vs3.toNat (2 * s.sew) e) .vwadd = some (r mir e))
      ∧ (∃ r : Bool → Nat → Int, Begins s .vnclip g
        ∧ ∀ mir e, narrowResult s.sew (s.srcA g mir s.sew e) (s.elem mir g.vs2.toNat (2 * s.sew) e) .vnclip = some (r mir e))
      ∧ s.h.vec.pm = false :=
  ⟨⟨_, begins (by decide +kernel), fun _ _ => rfl⟩, ⟨_, begins (by decide +kernel), fun _ _ => rfl⟩, by decide +kernel⟩

theorem witness_VectorFloatingFormsWrite :
    let f : WFields := { zeroW with vd := 4, vs1 := 2, vs2 := 3, imm := 0x30 }
    let s := lanes16
    (∃ r : Bool → Nat → FRes, Begins s .vfadd f
      ∧ ∀ mir e, floatResult (s.wfmt f) (s.wmode f) (s.satFor (s.wfmt f)) (s.srcA f mir s.sew e) (s.elem mir f.vs2.toNat s.sew e)
        (s.elem mir f.vs3.toNat s.sew e) .vfadd = some (r mir e))
      ∧ Begins s .vfwma { f with vd := 8, vs3 := 10 } ∧ Begins s .vsf { f with vs1 := 0 } ∧ s.h.vec.pm = false
      ∧ Begins (shape 2 2 mach) .vfwma { f with vd := 8, vs3 := 10, imm := 0x10 } :=
  ⟨⟨_, begins (by decide +kernel), fun _ _ => rfl⟩, begins (by decide +kernel), begins (by decide +kernel), by decide +kernel,
    begins (by decide +kernel)⟩

/-- Rounding to nearest, stochastic rounding, and error feedback, of fp32 to bf16. -/
theorem witness_ConversionsWrite :
    let f (k : Nat) : WFields := { zeroW with vd := 4, vs2 := 2, imm := BitVec.ofNat 16 (k * 256 + 0x12) }
    let s := shape 2 2 mach
    (∃ r : Bool → Nat → FRes, Begins s .vfcvt (f 0) ∧ s.modeOf (rmCode (f 0)) = 0
      ∧ ∀ mir e, convertResult s (f 0) (.static (s.modeOf (rmCode (f 0)))) (s.elem mir (f 0).vs2.toNat s.sew e) .vfcvt = some (r mir e))
      ∧ (∃ r : Bool → Nat → FRes, Begins s .vfcvt (f 4) ∧ s.modeOf (rmCode (f 4)) = 4
        ∧ ∀ mir e, convertResult s (f 4) (.random (hash16 e s.h.sc.srseed.toNat s.h.sc.srstep.toNat)) (s.elem mir (f 4).vs2.toNat s.sew e) .vfcvt
          = some (r mir e))
      ∧ Begins s .vfcvt (f 5) ∧ s.modeOf (rmCode (f 5)) = 5 ∧ s.h.vec.pm = false
      ∧ (∃ e, e < s.vl ∧ s.activeIn (f 5) false e = true)
      ∧ ∀ e, e < s.vl → s.activeIn { f 5 with me := true } false e = false :=
  ⟨⟨_, begins (by decide +kernel), by decide +kernel, fun _ _ => rfl⟩, ⟨_, begins (by decide +kernel), by decide +kernel, fun _ _ => rfl⟩,
    begins (by decide +kernel), by decide +kernel, by decide +kernel, ⟨1, by decide +kernel, by decide +kernel⟩, by decide +kernel⟩

theorem witness_PermutationsMoveElements :
    let f : WFields := { zeroW with vd := 4, vs2 := 2, imm := 1 }
    let s := lanes64
    (∃ r : Bool → Nat → Option Nat, Begins s .vslideup f ∧ (∀ mir e, permResult s f mir e .vslideup = some (r mir e)) ∧ s.h.vec.pm = true
      ∧ ∀ e, e < s.vl → (r false e).map (· % 2 ^ s.sew) = (r true e).map (· % 2 ^ s.sew))
      ∧ Begins s .vcompress { f with imm := 0 }
      ∧ ∀ e ∈ (List.range s.vl).filter fun e => s.activeIn { f with imm := 0 } false e,
          s.elem false f.vs2.toNat s.sew e = s.elem true f.vs2.toNat s.sew e :=
  ⟨⟨_, begins (by decide +kernel), fun _ _ => rfl, by decide +kernel, by decide +kernel⟩, begins (by decide +kernel), by decide +kernel⟩

theorem witness_MaskBitsAreWritten :
    let f : WFields := { zeroW with vd := 4, vs1 := 2, vs2 := 3 }
    let s := shape 3 2 mach
    (∃ r : Bool → Nat → Bool, Begins s .mand f ∧ ∀ mir e, maskResult (s.maskBit mir f.vs1.toNat e) (s.maskBit mir f.vs2.toNat e) .mand = some (r mir e))
      ∧ (∃ r : Bool → Nat → Bool, Begins s .vcmp f
        ∧ ∀ mir e, r mir e = true ↔ intCompare s.sew (s.srcA f mir s.sew e) (s.elem mir f.vs2.toNat s.sew e) (f.imm.toNat % 8))
      ∧ Begins s .vfcmp f ∧ s.h.vec.pm = false :=
  ⟨⟨_, begins (by decide +kernel), fun _ _ => rfl⟩,
    ⟨fun mir e => (shape 3 2 mach).srcA { zeroW with vd := 4, vs1 := 2, vs2 := 3 } mir 64 e == (shape 3 2 mach).elem mir 3 64 e,
      begins (by decide +kernel), fun _ _ => beq_iff_eq⟩, begins (by decide +kernel), by decide +kernel⟩

/-- `vext` and `vins` at the last element, and at the first that is not there. -/
theorem witness_ScalarAndLaneTransfers :
    let f (k : BitVec 16) : WFields := { zeroW with vd := 4, vs2 := 3, imm := k }
    let s := lanes64
    (∃ v : Bool → Word, Begins s .mcount (f 0) ∧ (∀ mir, scalarResult s (f 0) mir .mcount = some (v mir)) ∧ v false = v true)
      ∧ (∃ v : Bool → Word, Begins s .vext (f 31) ∧ (∀ mir, scalarResult s (f 31) mir .vext = some (v mir)) ∧ v false = v true)
      ∧ Begins s .vext (f 32) ∧ Begins s .vins { zeroW with vd := 4, vs1 := 1, s1 := true, imm := 31 }
      ∧ Begins s .vins { zeroW with vd := 4, vs1 := 1, s1 := true, imm := 32 } :=
  ⟨⟨_, begins (by decide +kernel), fun _ => rfl, by decide +kernel⟩, ⟨_, begins (by decide +kernel), fun _ => rfl, by decide +kernel⟩,
    begins (by decide +kernel), begins (by decide +kernel), begins (by decide +kernel)⟩

theorem witness_ReductionsAndScansAccumulate :
    let f : WFields := { zeroW with vd := 4, vs1 := 2, vs2 := 3 }
    let s := lanes64
    (∃ step : Nat → Nat → FRes, Begins s .vredsum f ∧ ∀ a x, reduceStep s f a x .vredsum = some (step a x))
      ∧ (∃ step : Nat → Nat → FRes, Begins s .vfscan f ∧ ∀ a x, reduceStep s f a x .vfscan = some (step a x))
      ∧ Begins s .vfredtree f ∧ SourcesAgree s f :=
  ⟨⟨_, begins (by decide +kernel), fun _ _ => rfl⟩, ⟨_, begins (by decide +kernel), fun _ _ => rfl⟩, begins (by decide +kernel),
    by unfold SourcesAgree; decide +kernel⟩

/-! ### Witnesses: vector memory -/

/-- Elements of n bytes in increasing places from an address of the pool. -/
def linear (base n : Nat) : Places := fun e => some (BitVec.ofNat 64 (base + n * e), spot (base + n * e))

/-- What `translates` asks of a state, wherever its bytes differ from `mach` away from the first leaf. -/
abbrev Mapped (s : State) : Prop := s.h.su.ptroot = 0x10000 ∧ s.dev.extents = [(0, 2 ^ 32)] ∧ s.part s.h.su.part = mach.part 0
  ∧ s.dev.ipmap = mach.dev.ipmap ∧ s.ca.poison = [] ∧ s.h.space.held = []

theorem leaf_stands {s : State} {mem : Memory} (h : s.mem.quad 0x10000 = 0xDF) (e : ∀ x, 0x10000 ≤ x → x < 0x10008 → mem.get x = s.mem.get x) :
    mem.quad 0x10000 = 0xDF := by
  rw [← h]
  unfold Memory.quad Memory.num
  rw [Memory.bytes_congr e]

/-- Stores below the table leave it alone. -/
theorem tables_apart {m : MemForm} {s : State} {f : WFields} {base n : Nat} (hn : m.bytes s f = n) (hb : base + n * s.vl ≤ 0x10000)
    (h : s.mem.quad 0x10000 = 0xDF ∧ Mapped s) (k : m.kind.acc ≠ .fetch) : m.TablesApart s f (linear base n) := by
  intro mem out e va p he ha
  have q : mem.quad 0x10000 = 0xDF := by
    refine leaf_stands h.1 fun x hx _ => out x fun d va' p' hd hp => ?_
    cases hp
    right
    rw [hn]
    have : n * d + n ≤ n * s.vl := by
      rw [← Nat.mul_succ]
      exact Nat.mul_le_mul_left n hd
    show base + n * d + n ≤ x
    omega
  cases ha
  refine translates _ _ ?_ ⟨q, h.2.1, k, h.2.2.1, h.2.2.2⟩
  have : n * e ≤ n * s.vl := Nat.mul_le_mul_left n (Nat.le_of_lt he)
  omega

/-- Two elements of a form whose places are those of `linear` are open, if each is. -/
theorem two_open {m : MemForm} {s : State} {f : WFields} {base n : Nat} (v : s.vl = 2)
    (h : ∀ e, e < 2 → s.activeIn f false e = true ∧ m.elemAddr s f false e = some (BitVec.ofNat 64 (base + n * e), false)
      ∧ m.Open s f (BitVec.ofNat 64 (base + n * e)) (spot (base + n * e))) : m.AllOpen s f (linear base n) := by
  intro e he
  obtain ⟨a, b, c⟩ := h e (v ▸ he)
  exact ⟨fun va p hp => by cases hp; exact ⟨⟨a, false, b, fun x => nomatch x.1⟩, c⟩, fun x => nomatch x⟩

/-- The quad at 0x2008 is poisoned. -/
def poisoned2 : State := { shape 3 2 (put 10 0x2000 mach) with ca := { Caches.zero with poison := [0x401] } }

/-- `vld` of two quads; `vldff` that stops at a poisoned word, and one that does not stop. -/
theorem witness_VectorLoadsRead :
    let f : WFields := { zeroW with vd := 4, vs3 := 10 }
    let m : MemForm := { op := .vld, kind := .load, addr := .unit }
    let c : MemForm := { op := .vldff, kind := .load, addr := .unit, first := true }
    let s := shape 3 2 (put 10 0x2000 mach)
    let u := poisoned2
    (Begins s .vld f ∧ formOf .vld = some m ∧ m.kind = .load ∧ m.Quiet s f ∧ m.AllOpen s f (linear 0x2000 8))
      ∧ (Begins s .vldff f ∧ c.Quiet s f ∧ c.AllOpen s f (linear 0x2000 8) ∧ (spot 0x2008).ns = false)
      ∧ (Begins u .vldff f ∧ c.Quiet u f ∧ 1 < u.vl
        ∧ (∀ va p, linear 0x2000 8 0 = some (va, p) → c.reaches u f 0 va ∧ c.Open u f va p)
        ∧ u.activeIn f false 1 = true ∧ u.activeIn f false 0 = true
        ∧ ∃ va out, c.elemAddr u f false 1 = some (va, out)
          ∧ ∀ p, u.translate u.h.space .load va = .ok p → p.ns = true ∨ p.mt = 1 ∨ u.poisoned p.pa (c.bytes u f) = true) := by
  refine ⟨⟨begins (by decide +kernel), rfl, rfl, quiet (by decide +kernel) (by decide +kernel), two_open (by decide +kernel) ?_⟩,
    ⟨begins (by decide +kernel), quiet (by decide +kernel) (by decide +kernel), two_open (by decide +kernel) ?_, rfl⟩,
    begins (by decide +kernel), quiet (by decide +kernel) (by decide +kernel), by decide +kernel,
    fun va p h => by cases h; exact ⟨⟨by decide +kernel, false, by decide +kernel, fun x => nomatch x.1⟩, memOpen (by decide +kernel)⟩,
    by decide +kernel, by decide +kernel, 0x2008, false, by decide +kernel, fun p h => ?_⟩
  rotate_left 2
  · have t : poisoned2.translate poisoned2.h.space .load 0x2008 = .ok (spot 0x2008) := by decide +kernel
    cases t.symm.trans h
    decide +kernel
  all_goals
    intro e he
    interval_cases e
    all_goals exact ⟨by decide +kernel, by decide +kernel, memOpen (by decide +kernel)⟩

theorem witness_VectorStoresAndAtomicsWrite :
    let f : WFields := { zeroW with vd := 4, vs3 := 10, imm := 0x800 }
    let g : WFields := { zeroW with vs1 := 4, vs2 := 2, vs3 := 10, imm := 1 }
    let m : MemForm := { op := .vst, kind := .store, addr := .unit }
    let c : MemForm := { op := .vamoFadd, kind := .add, addr := .index }
    let s := shape 3 2 (put 10 0x2000 (buffered mach))
    let w := shape 2 2 (lane 2 0x400000000 (put 10 0x2000 mach))
    (Begins s .vst f ∧ formOf .vst = some m ∧ m.kind ≠ .load ∧ m.releases f = true ∧ s.release.2 = true ∧ m.Quiet s.release.1 f
        ∧ m.AllOpen s.release.1 f (linear 0x2000 8) ∧ m.TablesApart s.release.1 f (linear 0x2000 8)
        ∧ (∀ e va p, e < s.release.1.vl → linear 0x2000 8 e = some (va, p) → Unmeasured s.release.1 va (m.bytes s.release.1 f)) ∧ m.loose = false ∧ m.writes = false)
      ∧ (Begins w .vamoFadd g ∧ formOf .vamoFadd = some c ∧ c.kind ≠ .load ∧ c.releases g = false ∧ c.Quiet w g
        ∧ c.AllOpen w g (linear 0x2000 4) ∧ c.TablesApart w g (linear 0x2000 4)
        ∧ ∀ e va p, e < w.vl → linear 0x2000 4 e = some (va, p) → Unmeasured w va (c.bytes w g)) := by
  refine ⟨⟨begins (by decide +kernel), rfl, by decide, by decide +kernel, by decide +kernel, quiet (by decide +kernel) (by decide +kernel),
      two_open (by decide +kernel) ?_, tables_apart (by decide +kernel) (by decide +kernel) (by decide +kernel) (by decide),
      fun e va p he ha => ?_, rfl, rfl⟩,
    ⟨begins (by decide +kernel), rfl, by decide, by decide +kernel, quiet (by decide +kernel) (by decide +kernel),
      two_open (by decide +kernel) ?_, tables_apart (by decide +kernel) (by decide +kernel) (by decide +kernel) (by decide),
      fun e va p he ha => ?_⟩⟩
  · intro e he
    interval_cases e
    all_goals exact ⟨by decide +kernel, by decide +kernel, memOpen (by decide +kernel)⟩
  · cases ha
    rfl
  · intro e he
    interval_cases e
    all_goals exact ⟨by decide +kernel, by decide +kernel, memOpen (by decide +kernel)⟩
  · cases ha
    rfl

/-! ### Witnesses: matrix -/

/-- A descriptor of one element of a type at an address of the pool. -/
def oneElem (type base : Nat) : BitVec 512 :=
  BitVec.ofNat 512 (base + (2 + 16 * type) * 2 ^ 64 + 2 ^ 128 + 2 ^ 160 + 2 ^ 320 + 2 ^ 352)

/-- A tile of one element at 0x2000. -/
def oneTile (type : Nat) : Tile :=
  { desc := oneElem type 0x2000, origin := 0, orient := false, kind := 0, rows := 1, cols := 1, ctype := type, elems := [some 0x2000] }

/-- `mach` with its core's unit and the shape M = N = K = 1, its descriptor d0 one element at 0x2000, and no tile. -/
def unit1 (type : Nat) : State :=
  let s := (shape (0x100 + 3) 1 mach).onMx fun x => { x with tshape := 0x100010001, hold := .core }
  (s.onVec fun x => { x with d := x.d.setIfInBounds 0 (oneElem type 0x2000) }).onUn fun u =>
    { u with matrix := [⟨0, some ⟨0, 0⟩, some ⟨0, 0⟩, []⟩] }

/-- The same with the tiles t0 and t1 of one element each. -/
def tiles1 (type : Nat) : State :=
  (unit1 type).onMx fun x => { x with tiles := (x.tiles.setIfInBounds 0 (some (oneTile type))).setIfInBounds 1 (some (oneTile type)) }

/-- A state with accumulator 0 changed. -/
def accum (f : Accum → Accum) (s : State) : State := s.onMx fun x => { x with acc := x.acc.setIfInBounds 0 (f Accum.zero) }

/-- The window of one element. -/
def oneAt : WindowAt := fun _ _ => some (0x2000, spot 0x2000)

/-- Absent matrix state; a bad request, a release of a busy unit, a sparse K of 23, and a single shape asked of a busy classroom; a release;
and requests that a free unit and a held one meet. -/
theorem witness_SettileGrantsAShape :
    let away := mach.onSu fun su => { su with mxa := true }
    let pinned (s : State) : State := { s with ca := { s.ca with pins := [⟨0x2000, ⟨0, 0⟩, some 0, none⟩] } }
    let taken := mach.onUn fun u => { u with matrix := [{ core := 0, holder := some ⟨0, 1⟩, last := none, waiters := [] }] }
    let room := (pinned (unit1 1)).onMx fun x => { x with tshape := 0x1000100010001 }
    (¬ (away.h.su.sup = true ∨ away.h.su.mxa = false)) ∧ (mach.h.su.sup = true ∨ mach.h.su.mxa = false)
      ∧ BadRequest (2 ^ 53) ∧ (ZeroRequest 0 ∧ Busy (pinned (unit1 1)))
      ∧ (¬ ZeroRequest 0x0010001700010001 ∧ grantedK 0x0010001700010001 = 0)
      ∧ (¬ ZeroRequest 0x0000000100010001 ∧ UnitReady room ∧ room.h.mx.tshape.getLsbD 48 = true ∧ Busy room)
      ∧ (¬ BadRequest 0 ∧ ZeroRequest 0 ∧ ¬ Busy mach)
      ∧ ¬ BadRequest 0x0000000100010001 ∧ grantedK 0x0000000100010001 ≠ 0 ∧ grantedK 0x0010001800010001 ≠ 0 ∧ UnitReady mach
      ∧ UnitReady (unit1 1) ∧ ¬ UnitReady taken ∧ (taken.h.su.sup = true ∨ taken.h.su.mxa = false) ∧ mach.h.mx.tshape.getLsbD 48 = false := by
  unfold BadRequest ZeroRequest Busy UnitReady
  and_intros <;> decide +kernel

theorem witness_TilesPinAndRelease :
    let f : WFields := zeroW
    (Begins (unit1 1) .mtld f ∧ TileQuiet (unit1 1) ∧ WindowOpen (unit1 1) f .load (unit1 1).shape.m (unit1 1).shape.k oneAt)
      ∧ (Begins (unit1 1) .mtld { f with vd := 1 } ∧ WindowOpen (unit1 1) { f with vd := 1 } .load (unit1 1).shape.k (unit1 1).shape.n oneAt)
      ∧ Begins (tiles1 1) .mtrel f := by
  have w : ∀ f : WFields, f.desc = 0 → f.vs3 = 0 → f.orient = false → WindowOpen (unit1 1) f .load 1 1 oneAt := by
    intro f hd hv ho r c hr hc
    obtain rfl : r = 0 := by omega
    obtain rfl : c = 0 := by omega
    refine ⟨fun va p h => ?_, fun h => nomatch h⟩
    cases h
    unfold State.descAt
    rw [hd, hv, ho]
    exact ⟨⟨false, by decide +kernel, by decide⟩, tileOpen (by decide +kernel)⟩
  exact ⟨⟨begins (by decide +kernel), ⟨Alone.watch (by decide +kernel), by decide +kernel, by decide +kernel, by decide +kernel⟩,
    w _ rfl rfl rfl⟩, ⟨begins (by decide +kernel), w _ rfl rfl rfl⟩, begins (by decide +kernel)⟩

theorem witness_AccumulatorsTransfer :
    let f : WFields := zeroW
    let s := unit1 1
    Begins s .maz f ∧ (Begins s .mald f ∧ TileQuiet s ∧ s.h.mx.Formed ∧ WindowOpen s f .load s.shape.m s.shape.n oneAt)
      ∧ Begins s .mast f ∧ WindowOpen s f .store s.shape.m s.shape.n oneAt
      ∧ (∀ i j va p, i < s.shape.m → j < s.shape.n → oneAt i j = some (va, p) → Unmeasured s va (s.descAt f).bytes)
      ∧ ∀ mem : Memory,
        (∀ x, (∀ i j va p, i < s.shape.m → j < s.shape.n → oneAt i j = some (va, p) → x < p.pa ∨ p.pa + (s.descAt f).bytes ≤ x) →
          mem.get x = s.mem.get x) →
        ∀ i j va p, i < s.shape.m → j < s.shape.n → oneAt i j = some (va, p) →
          ({ s with mem := mem } : State).translate s.h.space .store va = .ok p := by
  have w : ∀ acc, acc = .load ∨ acc = .store → WindowOpen (unit1 1) zeroW acc 1 1 oneAt := by
    intro acc ha r c hr hc
    obtain rfl : r = 0 := by omega
    obtain rfl : c = 0 := by omega
    refine ⟨fun va p h => ?_, fun h => nomatch h⟩
    cases h
    rcases ha with rfl | rfl
    · exact ⟨⟨false, by decide +kernel, by decide⟩, tileOpen (by decide +kernel)⟩
    · exact ⟨⟨false, by decide +kernel, by decide⟩, tileOpen (by decide +kernel)⟩
  refine ⟨begins (by decide +kernel), ⟨begins (by decide +kernel),
    ⟨Alone.watch (by decide +kernel), by decide +kernel, by decide +kernel, by decide +kernel⟩, ⟨by decide +kernel, ?_⟩, w _ (.inl rfl)⟩,
    begins (by decide +kernel), w _ (.inr rfl), fun i j va p _ _ h => ?_, fun mem out i j va p _ _ h => ?_⟩
  · intro t x h
    have : (unit1 1).h.mx.tiles = Vector.replicate 8 none := by decide +kernel
    rw [this, Vector.getElem?_replicate] at h
    split at h <;> cases h
  · cases h
    rfl
  · cases h
    refine translates .store 0x2000 (by decide) ⟨leaf_stands (s := unit1 1) (by decide +kernel) fun x hx _ => out x fun _ _ va p _ _ h => ?_,
      by decide +kernel, by decide, show (unit1 1).dev.extents = _ from by decide +kernel, show (unit1 1).part 0 = mach.part 0 from by decide +kernel,
      show (unit1 1).dev.ipmap = mach.dev.ipmap from by decide +kernel, show (unit1 1).ca.poison = [] from by decide +kernel, by decide +kernel⟩
    cases h
    right
    exact Nat.le_trans (by decide +kernel) hx

/-- The entry of a product of the tiles t0 and t1 in a format. -/
def entry1 (fmt : Nat) : LogEntry := ⟨0, 1, none, fmt, 0x100010001, 1, none, none⟩

/-- Without poison, what an entry reads is clean. -/
theorem entry_clean {s : State} (h : s.ca.poison = []) {a b : Nat} {msk : Option Nat} {ra rb : Option (List (Option Nat))} :
    s.TileClean a ∧ s.TileClean b ∧ (∀ m, msk = some m → s.TileClean m)
      ∧ ∀ ps pa, ra = some ps ∨ rb = some ps → some pa ∈ ps → s.poisoned pa 1 = false := by
  have clean (pa n : Nat) : s.poisoned pa n = false := by
    unfold State.poisoned
    rw [h]
    rfl
  exact ⟨fun _ _ _ _ => clean _ _, fun _ _ _ _ => clean _ _, fun _ _ _ _ _ _ => clean _ _, fun _ _ _ _ => clean _ _⟩

theorem entry1_formed : (tiles1 1).EntryFormed (entry1 1) where
  shape := by decide +kernel
  a := ⟨oneTile 1, by decide +kernel⟩
  b := ⟨oneTile 1, by decide +kernel⟩
  msk := fun _ h => nomatch h
  scales := ⟨(fun _ h => nomatch h), fun _ h => nomatch h⟩
  clean := entry_clean (by decide +kernel)

theorem witness_ProductsAccumulate :
    let s := tiles1 1
    let f : WFields := { zeroW with vs2 := 1, imm := 1 }
    let w : State := (tiles1 4).onMx fun x => { x with scb := (x.scb.setIfInBounds 0 0x3000).setIfInBounds 1 0x3100 }
    let g : WFields := { zeroW with vs2 := 1, imm := 4 }
    let at_ (second : Bool) : WindowAt := fun _ _ => if second then some (0x3100, spot 0x3100) else some (0x3000, spot 0x3000)
    let e : LogEntry := ⟨0, 1, none, 4, 0x100010001, 1, some [some 0x3000], some [some 0x3100]⟩
    (Begins s .mmac f ∧ s.EntryFormed (entry1 1) ∧ s.accInjections (s.h.dbg.mmacs + 1) = [])
      ∧ (Begins w .mmacx g ∧ TileQuiet w ∧ w.tile 0 = some (oneTile 4) ∧ w.tile 1 = some (oneTile 4)
        ∧ (∀ second r c, r < 1 → c < 1 →
          (at_ second r c).map Prod.fst = ((descOf (oneElem 4 0x2000)).window 0 false r c).map (fun y =>
            if second then w.h.mx.scb[1] + (y.1 - (descOf (oneElem 4 0x2000)).base).sshiftRight w.h.mx.scs[1].toNat
            else w.h.mx.scb[0] + (y.1 - (descOf (oneElem 4 0x2000)).base).sshiftRight w.h.mx.scs[0].toNat)
          ∧ ∀ va p, at_ second r c = some (va, p) → TileOpen w .load 1 none va p)
        ∧ w.EntryFormed e ∧ w.accInjections (w.h.dbg.mmacs + 1) = []) := by
  refine ⟨⟨begins (by decide +kernel), entry1_formed, by decide +kernel⟩, begins (by decide +kernel),
    ⟨Alone.watch (by decide +kernel), by decide +kernel, by decide +kernel, by decide +kernel⟩, by decide +kernel, by decide +kernel,
    fun second r c hr hc => ?_, ⟨by decide +kernel, ⟨oneTile 4, by decide +kernel⟩, ⟨oneTile 4, by decide +kernel⟩,
      (fun _ h => nomatch h), ⟨fun ps h => ?_, fun ps h => ?_⟩, entry_clean (by decide +kernel)⟩, by decide +kernel⟩
  · obtain rfl : r = 0 := by omega
    obtain rfl : c = 0 := by omega
    cases second
    · exact ⟨by decide +kernel, fun va p h => by cases h; exact tileOpen (by decide +kernel)⟩
    · exact ⟨by decide +kernel, fun va p h => by cases h; exact tileOpen (by decide +kernel)⟩
  · cases h; decide +kernel
  · cases h; decide +kernel

/-- Under the int32 tag a sum is mismatched where it differs. -/
theorem int_col {a : Accum} {sh : Shape} {t j : Nat} (h : a.tag = some .int32) :
    a.BadCol sh t j ↔ a.colSum sh j ≠ wordAt a.sums.col (sh.base + j) := by
  unfold Accum.BadCol Differs
  rw [h]
  rfl
theorem int_row {a : Accum} {sh : Shape} {t i : Nat} (h : a.tag = some .int32) :
    a.BadRow sh t i ↔ a.rowSum sh i ≠ combine a.tag rne sh a.sums.row i := by
  unfold Accum.BadRow Differs
  rw [h]
  rfl

/-- Sums that agree, and a column that lacks 1. -/
def agrees : State := accum (fun a => { a with tag := some .int32 }) (unit1 1)
def lacks : State := accum (fun a => { a with tag := some .int32, sums := { a.sums with col := [1] } }) (unit1 1)

theorem witness_DrainsPassOrFail :
    let bad (s : State) (j : Nat) : Prop := (s.acc 0).BadCol s.shape (s.drainTolerance (s.acc 0)).1 j
    let badRow (s : State) (i : Nat) : Prop := (s.acc 0).BadRow s.shape (s.drainTolerance (s.acc 0)).1 i
    (Begins agrees .mdrain zeroW ∧ (∀ j, j ∈ ([] : List Nat) ↔ j < agrees.shape.n ∧ bad agrees j)
        ∧ ∀ i, i ∈ ([] : List Nat) ↔ i < agrees.shape.m ∧ badRow agrees i)
      ∧ (Begins lacks .mdrain zeroW ∧ ([0] : List Nat).Nodup ∧ (∀ j, j ∈ [0] ↔ j < lacks.shape.n ∧ bad lacks j)
        ∧ ∀ i, i ∈ ([] : List Nat) ↔ i < lacks.shape.m ∧ badRow lacks i) := by
  have one (P : Nat → Prop) (n : Nat) (hn : n = 1) (h : ¬ P 0) : ∀ j, j ∈ ([] : List Nat) ↔ j < n ∧ P j := by
    intro j
    refine ⟨(fun x => nomatch x), fun ⟨a, b⟩ => ?_⟩
    obtain rfl : j = 0 := by omega
    exact absurd b h
  refine ⟨⟨begins (by decide +kernel), one _ _ (by decide +kernel) fun h => absurd ((int_col (by decide +kernel)).mp h) (by decide +kernel),
      one _ _ (by decide +kernel) fun h => absurd ((int_row (by decide +kernel)).mp h) (by decide +kernel)⟩,
    begins (by decide +kernel), by decide, fun j => ?_,
    one _ _ (by decide +kernel) fun h => absurd ((int_row (by decide +kernel)).mp h) (by decide +kernel)⟩
  rw [List.mem_singleton]
  refine ⟨fun h => ?_, fun ⟨a, _⟩ => Nat.lt_one_iff.mp ((by decide +kernel : lacks.shape.n = 1) ▸ a)⟩
  subst h
  exact ⟨by decide +kernel, (int_col (by decide +kernel)).mpr (by decide +kernel)⟩

/-- A fix record at the last row and column that the accumulator has at 32 bits. -/
theorem witness_ChecksumsAreUsed :
    let s := accum (fun a => { a with tag := some .int32, fix := some (127, 511, 5) }) (unit1 1)
    let u := accum (fun a => { a with log := [entry1 1], tag := some .fp32 }) (tiles1 1)
    Begins s .mloc { zeroW with vd := 1, vs3 := 2 }
      ∧ (Begins s .mfix zeroW ∧ (s.acc 0).fix = some (127, 511, 5) ∧ 127 < 8192 / (2 * (s.acc 0).width) ∧ s.shape.base + 511 < 512)
      ∧ (Begins u .mretry zeroW ∧ (u.acc 0).log ≠ [] ∧ ∀ e ∈ (u.acc 0).log, u.EntryFormed e)
      ∧ Begins (shape 3 1 (unit1 1)) .mcksum { zeroW with imm := 3 } ∧ Begins (shape 3 1 (unit1 1)) .mcksum zeroW := by
  refine ⟨begins (by decide +kernel), ⟨begins (by decide +kernel), by decide +kernel, by decide +kernel, by decide +kernel⟩,
    ⟨begins (by decide +kernel), by decide +kernel, fun e he => ?_⟩, begins (by decide +kernel), begins (by decide +kernel)⟩
  have : ((accum (fun a => { a with log := [entry1 1], tag := some .fp32 }) (tiles1 1)).acc 0).log = [entry1 1] := by decide +kernel
  rw [this] at he
  cases List.mem_singleton.mp he
  exact ⟨by decide +kernel, ⟨oneTile 1, by decide +kernel⟩, ⟨oneTile 1, by decide +kernel⟩, (fun _ h => nomatch h),
    ⟨(fun _ h => nomatch h), fun _ h => nomatch h⟩, entry_clean (by decide +kernel)⟩

/-! ### Witnesses: engines, stack, sweeps, images, lanes and convoys -/

/-- A state with quads in memory from an address on. -/
def quads (a : Nat) (ws : List Nat) (s : State) : State := (ws.zipIdx).foldl (fun s w => fill (a + 8 * w.2) 8 w.1 s) s

/-- Nothing of the memory system is busy. -/
abbrev Still (s : State) : Prop := s.ca.pins = [] ∧ s.ca.poison = [] ∧ s.ca.parked = [] ∧ s.ca.pinQueue = [] ∧ s.un.sets = [] ∧ Alone s
  ∧ s.ca.weak = [] ∧ s.h.held = []

/-- A write of runs below the table leaves every translation alone. -/
theorem apart {s : State} {runs : List (Nat × Nat)} {acc : Acc} {a : Nat} (ha : a < 2 ^ 32) (h : s.mem.quad 0x10000 = 0xDF ∧ Mapped s)
    (k : acc ≠ .fetch) (hr : ∀ r ∈ runs, r.1 + r.2 ≤ 0x10000 ∨ 0x10008 ≤ r.1) : Apart s runs acc (BitVec.ofNat 64 a) (spot a) := by
  intro mem out
  refine translates acc a ha ⟨leaf_stands h.1 fun x hx hy => out x fun r hm => ?_, h.2.1, k, h.2.2.1, h.2.2.2⟩
  have := hr r hm
  omega

/-- Lines of the pool are open. -/
theorem lines {s : State} {acc : Acc} {base n : Nat} (ha : base % 64 = 0 ∧ base + 64 * n ≤ 2 ^ 32) (h : s.mem.quad 0x10000 = 0xDF ∧ Mapped s)
    (q : Still s) (w : s.mem.wf) (k : acc ≠ .fetch) : LinesOpen s acc (BitVec.ofNat 64 base) n fun i => spot (base + 64 * i) where
  aligned := by rw [BitVec.toNat_ofNat]; omega
  lines := by
    intro i hi
    rw [← BitVec.ofNat_add]
    obtain ⟨pins, poison, parked, queue, -, -, weak, -⟩ := q
    refine tileOpen ⟨translates acc _ (by omega) ⟨h.1, h.2.1, k, h.2.2.1, h.2.2.2⟩, (by decide : (0 : Nat) ≠ 1), rfl, ?_, ?_,
      ⟨(by decide : (0xDF : Word).toNat ||| 0xC0 = (0xDF : Word).toNat), (by decide : fieldOf 0xDF 57 1 = 0)⟩, ?_, queue, weak⟩
    · unfold State.pinsOn; rw [pins]; rfl
    · unfold State.poisoned; rw [poison]; rfl
    · unfold State.parkedOn; rw [parked]; rfl
  alone := by
    intro _ i _
    unfold Unmeasured Hart.source State.measuredBy
    obtain ⟨-, -, -, -, sets, -⟩ := q
    rw [sets]
    rfl
  quiet := have ⟨_, _, _, _, _, alone, _, unqueued⟩ := q; ⟨alone.watch, unqueued, w⟩

/-- A batch of one record: a copy, a bind, and one of unknown OP. -/
theorem witness_EngineCommandsAreAccepted :
    let f : WFields := { zeroW with vd := 3, vs2 := 2 }
    let s (q0 : Nat) : State := shape 3 8 (lane 2 q0 mach)
    let rec0 (u : State) : BitVec 512 := u.groupRecord 2 0
    let u (q0 : Nat) : State := (s q0).release.1
    let full := (s 0x10001).onCt fun c => { c with pending := [0] }
    let p : State := shape 0x83 8 (lane 2 0 mach)
    (Begins (s 0x10001) .ecmd f ∧ (s 0x10001).release.2 = true ∧ (∀ k, k < 8 → (InBatch (u 0x10001) f k ↔ k = 0)))
      ∧ (quadOf (rec0 (u 0x10001)) 7 = 0 ∧ fieldOf (quadOf (rec0 (u 0x10001)) 0) 0 16 = 1 ∧ copyBad (quadOf (rec0 (u 0x10001))) = false
        ∧ 0 ∉ (u 0x10001).h.ct.pending)
      ∧ (Begins (s 3) .ecmd f ∧ fieldOf (quadOf (rec0 (u 3)) 0) 0 16 = 3 ∧ bindBad (quadOf (rec0 (u 3))) = false)
      ∧ (Begins (s 4) .ecmd f ∧ (u 4).h.live = true ∧ (u 4).remapPending (u 4).h.own true = false ∧ 3 < fieldOf (quadOf (rec0 (u 4)) 0) 0 16)
      ∧ (Begins p .ecmd f ∧ p.h.vec.pm = true ∧ ∀ e, e < p.vl → p.activeIn f false e = p.activeIn f true e
        ∧ (p.activeIn f false e = true → p.elem false f.vs2.toNat p.sew e = p.elem true f.vs2.toNat p.sew e))
      ∧ Begins full .ecmd f ∧ full.release.2 = true ∧ 0 ∈ full.release.1.h.ct.pending := by
  unfold InBatch
  exact ⟨⟨begins (by decide +kernel), by decide +kernel, by decide +kernel⟩, by decide +kernel, ⟨begins (by decide +kernel), by decide +kernel⟩,
    ⟨begins (by decide +kernel), by decide +kernel⟩, ⟨begins (by decide +kernel), by decide +kernel⟩, begins (by decide +kernel), by decide +kernel, by decide +kernel⟩

/-- A mask that names position 0, which is pending or is not. -/
theorem witness_EngineCompletionIsObserved :
    let s := maskReg 2 1 (shape 3 8 mach)
    let b := s.onCt fun c => { c with pending := [0] }
    (Begins s .ewait { zeroW with vs2 := 2 } ∧ Named s 2 0 ∧ ∀ k, k ∉ s.h.ct.pending)
      ∧ (Begins b .ewait { zeroW with vs2 := 2 } ∧ Named b 2 0 ∧ 0 ∈ b.h.ct.pending)
      ∧ Begins b .epoll { zeroW with vd := 1, vs2 := 2 }
      ∧ (let p : State := shape 0x83 8 mach
         Begins p .epoll { zeroW with vd := 1, vs2 := 2 } ∧ p.h.vec.pm = true
          ∧ ∀ k, p.maskBit false 2 (k * p.recordElems) = p.maskBit true 2 (k * p.recordElems)) := by
  unfold Named
  refine ⟨⟨begins (by decide +kernel), by decide +kernel, fun k h => nomatch h⟩, ⟨begins (by decide +kernel), by decide +kernel, by decide +kernel⟩,
    begins (by decide +kernel), begins (by decide +kernel), by decide +kernel, fun k => ?_⟩
  unfold State.maskBit
  rw [show (State.h _).vec.mask 2 = 0 by decide +kernel]
  simp

/-- A hart with a stack of some LIMIT, TOP and DEPTH, whose record is at 0x2000 and whose area is at 0x4000. -/
def stacked (limit top depth : Nat) : State :=
  ((shape 3 8 (quads 0x2000 [0x4000, limit, top, 0, depth, 0, 0, 0] mach)).onCt fun c => { c with stack := some 0x2000 }).onUn fun u =>
    { u with binds := [(⟨0, 0⟩, 0x2000)] }

/-- Pops from an empty stack and from one of one entry; a push of 128 bytes that meets LIMIT, and one that exceeds it by 64. -/
theorem witness_ActivationStackMoves :
    let s := stacked 0x80 0 0
    let at_ (i : Nat) : Place := spot (0x4000 + 64 * i)
    Begins s .aprobe zeroW ∧ TableOpen s .load 0x2000 64 (spot 0x2000) ∧ s.h.ct.stack = some 0x2000
      ∧ (Begins s .apop zeroW ∧ s.quadAt (spot 0x2000) 4 = 0)
      ∧ (let u := stacked 0x80 0x80 1
         Begins u .apop zeroW ∧ TableOpen u .load 0x2000 64 (spot 0x2000) ∧ TableOpen u .atomic 0x2000 64 (spot 0x2000) ∧ u.quadAt (spot 0x2000) 4 ≠ 0
          ∧ TableOpen u .load (u.quadAt (spot 0x2000) 0 + u.quadAt (spot 0x2000) 3) 16 (spot 0x4000))
      ∧ (Begins s .apush zeroW ∧ TableOpen s .atomic 0x2000 64 (spot 0x2000) ∧ (s.quadAt (spot 0x2000) 4).toNat + 1 < 2 ^ 64 ∧ LinesOpen s .store 0x4000 2 at_ ∧ 64 + 64 * ((s.vl * s.sew + 511) / 512) = 128
        ∧ (s.quadAt (spot 0x2000) 2).toNat + 128 ≤ (s.quadAt (spot 0x2000) 1).toNat
        ∧ (∀ i, i < 2 → (at_ i).pa + 64 ≤ (spot 0x2000).pa ∨ (spot 0x2000).pa + 64 ≤ (at_ i).pa)
        ∧ Apart s ((0x2000, 64) :: linesRuns 2 at_) .load 0x2000 (spot 0x2000)
        ∧ (∀ i, i < 2 → Apart s ((0x2000, 64) :: linesRuns 2 at_) .store (0x4000 + BitVec.ofNat 64 (64 * i)) (at_ i)) ∧ s.h.vec.pm = false)
      ∧ (let u := stacked 0x40 0 0
         Begins u .apush zeroW ∧ TableOpen u .load 0x2000 64 (spot 0x2000) ∧ TableOpen u .atomic 0x2000 64 (spot 0x2000) ∧ LinesOpen u .store 0x4000 2 at_ ∧ (u.quadAt (spot 0x2000) 1).toNat < (u.quadAt (spot 0x2000) 2).toNat + 128) := by
  refine ⟨begins (by decide +kernel), tableOpen (by decide +kernel), by decide +kernel, ⟨begins (by decide +kernel), by decide +kernel⟩,
    ⟨begins (by decide +kernel), tableOpen (by decide +kernel), tableOpen (by decide +kernel), by decide +kernel, tableOpen (by decide +kernel)⟩,
    ⟨begins (by decide +kernel), tableOpen (by decide +kernel), by decide +kernel, lines (by decide) (by decide +kernel) (by decide +kernel) (by decide +kernel) (by decide), by decide +kernel,
      by decide +kernel, by decide +kernel, apart (by decide) (by decide +kernel) (by decide) (by decide +kernel), fun i hi => ?_,
      by decide +kernel⟩,
    begins (by decide +kernel), tableOpen (by decide +kernel), tableOpen (by decide +kernel), lines (by decide) (by decide +kernel) (by decide +kernel) (by decide +kernel) (by decide), by decide +kernel⟩
  have := apart (s := stacked 0x80 0 0) (runs := (0x2000, 64) :: linesRuns 2 fun i => spot (0x4000 + 64 * i)) (acc := .store)
    (a := 0x4000 + 64 * i) (by omega) (by decide +kernel) (by decide) (by decide +kernel)
  rw [BitVec.ofNat_add] at this
  exact this

/-- A set record at 0x2000: one member of 64 elements, its planes from 0x4000 on, its rate table at 0x3000, its timetable at 0x3040; q24 to
q28 as given. -/
def setOf (q24 q25 q26 q27 q28 : Nat) : State :=
  let plane (p : Nat) : List Nat := [0x4000 + 0x100 * p, 0x100000100]
  put 1 0x2000 (quads 0x2000 ([1 + 6 * 2 ^ 32 + 4 * 2 ^ 36 + 3 * 2 ^ 40, 0x3000, 0, 0, 0x3040, 0, 0, 0] ++ plane 0 ++ plane 1 ++ plane 2 ++ plane 3
    ++ [0, 0, 0, 0, 0, 0, 0, 0, q24, q25, q26, q27, q28]) mach)

/-- The set that the record at 0x2000 describes, active. -/
def active (vs : List Visit) (s : State) : State :=
  { s with un := { s.un with sets := [{ s.newSet 0x2000 (s.recQuads 0x2000) with pages := [(0, 0, 0xDF)], visits := vs }] } }

/-- A leaf gives an address of a set its place, whatever frames the set keeps. -/
theorem placed {s : State} {r : RatedSet} {va : Word} {a : Nat} (h : (s.setPlace { r with pages := [] } va).map Place.pa = some a)
    (pages : List (Nat × Nat × Word)) : (s.setPlace { r with pages := pages } va).map Place.pa = some a := by
  unfold State.setPlace at h ⊢
  show (match s.walk r.space va with
    | .leaf pte e level => some (placeOf pte e (leafPa pte level va))
    | _ => (pages.find? fun (p : Nat × Nat × Word) => p.1 == va.toNat / 2 ^ 16).map fun (p : Nat × Nat × Word) => placeOf p.2.2 0 (p.2.1 + va.toNat % 2 ^ 16)).map Place.pa = some a
  replace h : (match s.walk r.space va with
    | .leaf pte e level => some (placeOf pte e (leafPa pte level va))
    | _ => none).map Place.pa = some a := h
  split at h
  · exact h
  · cases h

/-- `swbegin` of sweep 2 where 1 is next, and of sweep 1; `swnext` on a record with no sweep, on one with no member left, and on one with a
member; `swend` with no sweep, with a member that is not committed, and with none. -/
theorem witness_SweepsRunTheirCourse :
    let f : WFields := { zeroW with vd := 5, vs1 := 1, vs3 := 3, s1 := true }
    let g : WFields := { zeroW with vd := 5, vs1 := 1, s1 := true }
    let p := spot 0x2000
    let bad := put 3 2 (setOf 0 0 0 0 0)
    let good := put 3 1 (setOf 0 0 0 0 0)
    let fin := active [] (setOf 0 (2 ^ 63 + 1) 1 1 0)
    let more := active [] (setOf 0 (2 ^ 63 + 1) 0 1 0)
    let all := active [] (setOf 0 (2 ^ 63 + 1) 1 1 1)
    (Begins bad .swbegin f ∧ TableOpen bad .load (bad.g 1) 256 p ∧ bad.mem.wf ∧ bad.sweepRefusal p.pa (bad.recQuads p.pa) (bad.g 3) = some 2)
      ∧ (Begins good .swbegin f ∧ TableOpen good .load (good.g 1) 256 p ∧ good.mem.wf
        ∧ good.sweepRefusal p.pa (good.recQuads p.pa) (good.g 3) = none ∧ TableOpen good .atomic (good.g 1) 256 p
        ∧ (let r := good.newSet p.pa (good.recQuads p.pa)
           good.un.sets.find? (fun r => r.recPa == p.pa) = none ∧ r.count = 1 ∧ r.recSq = p.sq ∧ r.root = good.h.su.ptroot
            ∧ (∀ (k : Fin 4) (last : Bool), Translates good (if k = 0 then .load else .atomic) (r.addr k 0 (if last then 2 ^ r.msz - 1 else 0))
                (spot (0x4000 + 0x100 * k.val + if last then 252 else 0)))
            ∧ TableOpen good .load (r.rtab + BitVec.ofNat 64 0) 1 (spot 0x3000)
            ∧ (∀ pages, (good.setPlace { r with pages := pages } (r.rtab + BitVec.ofNat 64 0)).map Place.pa = some (spot 0x3000).pa)
            ∧ (List.range r.count).filter (fun m => (good.g 3).toNat % 2 ^ (good.rateEntry r m % 8) == 0) = [0]
            ∧ TableOpen good .store (good.quadAt p 4 + BitVec.ofNat 64 (4 * 0)) 4 (spot 0x3040)))
      ∧ (Begins good .swnext g ∧ TableOpen good .load (good.g 1) 256 p ∧ fieldOf (good.quadAt p 25) 63 1 = 0)
      ∧ (Begins fin .swnext g ∧ TableOpen fin .load (fin.g 1) 256 p ∧ fieldOf (fin.quadAt p 25) 63 1 ≠ 0
        ∧ (∃ r ∈ fin.un.sets, r.recPa = p.pa) ∧ (fin.quadAt p 27).toNat ≤ (fin.quadAt p 26).toNat)
      ∧ (Begins more .swnext g ∧ TableOpen more .load (more.g 1) 256 p ∧ TableOpen more .atomic (more.g 1) 256 p ∧ fieldOf (more.quadAt p 25) 63 1 ≠ 0
        ∧ (∃ r ∈ more.un.sets, r.recPa = p.pa) ∧ (more.quadAt p 26).toNat < (more.quadAt p 27).toNat
        ∧ TableOpen more .load (more.quadAt p 4 + BitVec.ofNat 64 (4 * (more.quadAt p 26).toNat)) 4 (spot 0x3040))
      ∧ (Begins good .swend g ∧ TableOpen good .load (good.g 1) 256 p ∧ ¬ fieldOf (good.quadAt p 25) 63 1 = 1)
      ∧ (Begins fin .swend g ∧ TableOpen fin .load (fin.g 1) 256 p ∧ fieldOf (fin.quadAt p 25) 63 1 = 1 ∧ fin.quadAt p 28 ≠ fin.quadAt p 27)
      ∧ (Begins all .swend g ∧ TableOpen all .load (all.g 1) 256 p ∧ TableOpen all .atomic (all.g 1) 256 p ∧ fieldOf (all.quadAt p 25) 63 1 = 1
        ∧ all.quadAt p 28 = all.quadAt p 27 ∧ all.release.2 = true ∧ TableOpen all.release.1 .atomic (all.g 1) 256 p) := by
  refine ⟨⟨begins (by decide +kernel), tableOpen (by decide +kernel), by decide +kernel, by decide +kernel⟩,
    ⟨begins (by decide +kernel), tableOpen (by decide +kernel), by decide +kernel, by decide +kernel, tableOpen (by decide +kernel),
      by decide +kernel, by decide +kernel, by decide +kernel, by decide +kernel, fun k last => ?_, tableOpen (by decide +kernel),
      placed (by decide +kernel), by decide +kernel, tableOpen (by decide +kernel)⟩,
    ⟨begins (by decide +kernel), tableOpen (by decide +kernel), by decide +kernel⟩,
    ⟨begins (by decide +kernel), tableOpen (by decide +kernel), by decide +kernel, by decide +kernel, by decide +kernel⟩,
    ⟨begins (by decide +kernel), tableOpen (by decide +kernel), tableOpen (by decide +kernel), by decide +kernel, by decide +kernel, by decide +kernel,
      tableOpen (by decide +kernel)⟩,
    ⟨begins (by decide +kernel), tableOpen (by decide +kernel), by decide +kernel⟩,
    ⟨begins (by decide +kernel), tableOpen (by decide +kernel), by decide +kernel⟩,
    begins (by decide +kernel), tableOpen (by decide +kernel), tableOpen (by decide +kernel), by decide +kernel, by decide +kernel, by decide +kernel,
    tableOpen (by decide +kernel)⟩
  fin_cases k <;> cases last <;> exact transOpen (by decide +kernel)

/-- A hart with the one member of its set open in sweep n, the byte of the rate table, the thresholds, and the change that was measured. -/
def committing (n byte lo hi delta : Nat) : State :=
  let s := fill 0x2010 8 lo (fill 0x2018 8 hi (fill 0x3000 1 byte (setOf 0 (2 ^ 63 + n) 1 1 0)))
  (active [⟨⟨0, 0⟩, 0, n, [], BitVec.ofNat 64 delta⟩] s).onCt fun c => { c with member := some ⟨0x2000, 0x2000, 0, n⟩ }

/-- The set of `committing` with a visit. -/
def setWith (v : Visit) : RatedSet :=
  { recPa := 0x2000, recSq := 0, part := 0, root := 0x10000, base := Vector.ofFn fun p : Fin 4 => BitVec.ofNat 64 (0x4000 + 0x100 * p.val)
    stride := Vector.replicate 4 0x100, msz := 6, count := 1, rtab := 0x3000, pages := [(0, 0, 0xDF)], committed := [], visits := [v] }

theorem value_zero : Fmt.f64.value 0 = .fin false 0 (-1074) := by decide +kernel
theorem value_one : Fmt.f64.value 0x3FF0000000000000 = .fin false (2 ^ 52) (-52) := by decide +kernel

/-- A member whose set is gone; and members with a fixed rate, with a change between the thresholds, above them, and below them (entries 8,
2, 1, and 2 with sweep 8). -/
theorem witness_SweepsRunTheirCourse_commit :
    let f : WFields := { zeroW with vd := 5 }
    let one := 0x3FF0000000000000
    let gone := { committing 1 0 0 0 0 with un := Units.zero }
    let ok (s : State) (r : RatedSet) (v : Visit) : Prop :=
      Begins s .swcommit f ∧ s.h.ct.member = some ⟨0x2000, 0x2000, 0, v.n⟩ ∧ s.drain.vectorPending = false ∧ s.drain.scalarPending = false
        ∧ s.drain.un.sets.find? (fun r => r.recPa == 0x2000) = some r ∧ r.visits.find? (fun v => v.own == s.h.own) = some v
        ∧ TableOpen s.drain .atomic (r.rtab + BitVec.ofNat 64 0) 1 (spot 0x3000) ∧ s.drain.heldAtHome (r.recPa + 224) 8 = false
        ∧ ∀ k ∈ [0, 2, 3, 28], s.drain.poisoned (r.recPa + 8 * k) 8 = false
    let above (a b : Nat) : Prop := (Fmt.f64.value b).below (Fmt.f64.value a)
    (Begins gone .swcommit f ∧ gone.h.ct.member = some ⟨0x2000, 0x2000, 0, 1⟩ ∧ gone.drain.vectorPending = false
        ∧ gone.drain.scalarPending = false ∧ gone.drain.un.sets.find? (fun r => r.recPa == 0x2000) = none)
      ∧ (∃ r v, ok (committing 1 8 0 0 0) r v ∧ (committing 1 8 0 0 0).rateEntry r v.m = 8)
      ∧ (∃ r v, ok (committing 1 2 0 one 0) r v ∧ (committing 1 2 0 one 0).rateEntry r v.m = 2 ∧ ¬ above 0 one ∧ ¬ above 0 0)
      ∧ (∃ r v, ok (committing 1 1 0 0 one) r v ∧ (committing 1 1 0 0 one).rateEntry r v.m = 1 ∧ above one 0)
      ∧ (∃ r v, ok (committing 8 2 one one 0) r v ∧ (committing 8 2 one one 0).rateEntry r v.m = 2 ∧ ¬ above 0 one ∧ above one 0
          ∧ v.n % 2 ^ (2 + 1) = 0) := by
  have z : (FVal.fin false 0 (-1074)).num = 0 := by unfold FVal.num; simp
  have o : (FVal.fin false (2 ^ 52) (-52)).num = 1 := by unfold FVal.num; norm_num
  have up : (Fmt.f64.value 0).below (Fmt.f64.value 0x3FF0000000000000) := by
    rw [value_zero, value_one]
    show (FVal.fin false 0 (-1074)).num < (FVal.fin false (2 ^ 52) (-52)).num
    rw [z, o]
    exact one_pos
  have down : ¬ (Fmt.f64.value 0x3FF0000000000000).below (Fmt.f64.value 0) := by
    rw [value_zero, value_one]
    show ¬ (FVal.fin false (2 ^ 52) (-52)).num < (FVal.fin false 0 (-1074)).num
    rw [z, o]
    exact not_lt.mpr zero_le_one
  have same : ¬ (Fmt.f64.value 0).below (Fmt.f64.value 0) := by
    rw [value_zero]
    exact lt_irrefl _
  refine ⟨⟨begins (by decide +kernel), by decide +kernel, by decide +kernel, by decide +kernel, by decide +kernel⟩,
    ⟨setWith ⟨⟨0, 0⟩, 0, 1, [], 0⟩, ⟨⟨0, 0⟩, 0, 1, [], 0⟩, ?_, ?_⟩,
    ⟨setWith ⟨⟨0, 0⟩, 0, 1, [], 0⟩, ⟨⟨0, 0⟩, 0, 1, [], 0⟩, ?_, ?_, down, same⟩,
    ⟨setWith ⟨⟨0, 0⟩, 0, 1, [], 0x3FF0000000000000⟩, ⟨⟨0, 0⟩, 0, 1, [], 0x3FF0000000000000⟩, ?_, ?_, up⟩,
    ⟨setWith ⟨⟨0, 0⟩, 0, 8, [], 0⟩, ⟨⟨0, 0⟩, 0, 8, [], 0⟩, ?_, ?_, down, up, by decide⟩⟩
  all_goals first
    | exact ⟨begins (by decide +kernel), by decide +kernel, by decide +kernel, by decide +kernel, by decide +kernel, by decide +kernel,
        tableOpen (by decide +kernel), by decide +kernel⟩
    | decide +kernel

/-- Member 1 of a set of COUNT 1; member 0; a set with a sweep open, one whose PUB 1 does not divide by 2, and one that takes the entry. -/
theorem witness_RateEntriesAreReadAndSet :
    let f (k : BitVec 16) : WFields := { zeroW with vd := 5, vs1 := 1, vs3 := 3, s1 := true, imm := k }
    let p := spot 0x2000
    let beyond := put 3 1 (setOf 0 0 0 0 0)
    let opened := setOf 0 (2 ^ 63 + 1) 0 1 0
    let odd := setOf 1 0 0 0 0
    (Begins beyond .rtget (f 0) ∧ Begins beyond .rtset (f 15) ∧ TableOpen beyond .load (beyond.g 1) 256 p
        ∧ fieldOf (beyond.quadAt p 0) 0 32 ≤ (beyond.g 3).toNat)
      ∧ (Begins odd .rtget (f 0) ∧ TableOpen odd .load (odd.g 1) 256 p ∧ (odd.g 3).toNat < fieldOf (odd.quadAt p 0) 0 32
        ∧ TableOpen odd .load (odd.quadAt p 1 + BitVec.ofNat 64 0) 1 (spot 0x3000))
      ∧ (Begins opened .rtset (f 0) ∧ (opened.g 3).toNat < fieldOf (opened.quadAt p 0) 0 32 ∧ fieldOf (opened.quadAt p 25) 63 1 = 1)
      ∧ (Begins odd .rtset (f 1) ∧ fieldOf (odd.quadAt p 25) 63 1 ≠ 1 ∧ (odd.quadAt p 24).toNat % 2 ^ 1 ≠ 0)
      ∧ (Begins odd .rtset (f 8) ∧ (odd.quadAt p 24).toNat % 2 ^ 0 = 0
        ∧ TableOpen odd .atomic (odd.quadAt p 1 + BitVec.ofNat 64 0) 1 (spot 0x3000)) :=
  ⟨⟨begins (by decide +kernel), begins (by decide +kernel), tableOpen (by decide +kernel), by decide +kernel⟩,
    ⟨begins (by decide +kernel), tableOpen (by decide +kernel), by decide +kernel, tableOpen (by decide +kernel)⟩,
    ⟨begins (by decide +kernel), by decide +kernel, by decide +kernel⟩, ⟨begins (by decide +kernel), by decide +kernel, by decide +kernel⟩,
    begins (by decide +kernel), by decide +kernel, tableOpen (by decide +kernel)⟩

/-- A supervisor of a machine in whose memory the bytes of its one image stand at 0x20000. -/
def imaged (x : Image) : State :=
  { put 3 0x20000 (asSup mach) with
    mem := mach.mem.put 0x20000 ((List.range x.size).map (Config.imageByte 0))
    un := { Units.zero with images := [x] } }

theorem imaged_get (x : Image) (i : Nat) :
    (imaged x).mem.get i = if 0x20000 ≤ i ∧ i < 0x20000 + x.size then Config.imageByte 0 (i - 0x20000) else mach.mem.get i := by
  show (mach.mem.put _ _).get i = _
  rw [Memory.get_put (by decide +kernel)]
  simp only [List.length_map, List.length_range]
  split
  · rename_i h
    have : i - 0x20000 < x.size := by omega
    simp [List.getD, List.getElem?_range this]
  · rfl

/-- On the one isle of the partition, a line's bytes are those of its home. -/
theorem imaged_line (x : Image) (a n : Nat) (isle : Nat) (hi : isle = 0) :
    (imaged x).sliceBytes 0 isle false a n = (List.range n).map fun j => (imaged x).mem.get (a + j) := by
  subst hi
  unfold State.sliceBytes
  refine List.map_congr_left fun j _ => ?_
  unfold State.sliceByte
  rw [if_pos]
  have b : ((imaged x).part 0).base.toNat = 0 := by show (mach.part 0).base.toNat = 0; decide +kernel
  have z : ((imaged x).part 0).size.toNat = 0 := by show (mach.part 0).size.toNat = 0; decide +kernel
  unfold State.homeIsle
  dsimp only
  rw [b, z, Nat.pow_zero, Nat.mod_one]

theorem lines_bytes (x : Image) (n : Nat) :
    (imaged x).lineBytes (fun i => spot (0x20000 + 64 * i)) n = (List.range (64 * n)).map fun k => (imaged x).mem.get (0x20000 + k) := by
  induction n with
  | zero => rfl
  | succ n ih =>
    unfold State.lineBytes at ih ⊢
    rw [List.range_succ, List.flatMap_append, ih, Nat.mul_succ, List.range_add, List.map_append]
    congr 1
    rw [List.flatMap_cons, List.flatMap_nil, List.append_nil]
    refine (imaged_line x _ 64 _ (by show (asSup mach).h.hid.isle = 0; decide +kernel)).trans ?_
    rw [List.map_map]
    refine List.map_congr_left fun j _ => ?_
    show (imaged x).mem.get (0x20000 + 64 * n + j) = (imaged x).mem.get (0x20000 + (64 * n + j))
    rw [Nat.add_assoc]

theorem image_stands (x : Image) (h : x.size % 64 = 0) : ImageStands (imaged x) (fun i => spot (0x20000 + 64 * i)) 0 x where
  image := rfl
  bytes := by
    intro i hi
    rw [lines_bytes, show 64 * (x.size / 64) = x.size by omega, List.getElem?_map, List.getElem?_range hi, Option.map_some, imaged_get,
      if_pos ⟨by omega, by omega⟩, Nat.add_sub_cancel_left]
  alone := by
    intro j y hj hy
    have : (imaged x).un.images[j]? = none := List.getElem?_eq_none (by show 1 ≤ j; omega)
    rw [this] at hy
    cases hy

theorem image_lines (x : Image) (n : Nat) (hn : n ≤ 2 ^ 15) :
    LinesOpen (imaged x) .load 0x20000 n fun i => spot (0x20000 + 64 * i) := by
  refine lines (base := 0x20000) ⟨by decide, by omega⟩ ⟨leaf_stands (s := mach) (by decide +kernel) fun a _ ha => ?_, ?_⟩ ?_
    (Memory.wf_put (by decide +kernel) _ _) (by decide)
  · rw [imaged_get, if_neg (by omega)]
  · show Mapped mach
    decide +kernel
  · show Still (put 3 0x20000 { mach with un := { Units.zero with images := [x] } })
    exact ⟨rfl, rfl, rfl, rfl, rfl, ⟨rfl, rfl⟩, rfl, rfl⟩

/-- A core hold, a classroom hold and no hold. -/
def held (x : UnitHold) : Machine.Matrix := { Machine.Matrix.zero with hold := x, tshape := match x with | .classroom => 2 ^ 48 | _ => 0 }

theorem witness_ImagesSaveAndRestore :
    let s := put 3 0x20000 (asSup mach)
    let v := put 1 1 s
    let f : WFields := { zeroW with vd := 2, vs3 := 3, imm := 0 }
    let at_ (i : Nat) : Place := spot (0x20000 + 64 * i)
    (PrivBegins s .vsave f ∧ LinesOpen s .store 0x20000 (512 * s.h.groups / 64) at_)
      ∧ (PrivBegins s .vsaveMsk { zeroW with vs3 := 3, imm := 1 } ∧ LinesOpen s .store 0x20000 (18432 / 64) at_)
      ∧ (PrivBegins s .vsaveMx { zeroW with vs3 := 3, imm := 2 } ∧ LinesOpen s .store 0x20000 (147456 / 64) at_ ∧ s.h.mx.tshape.getLsbD 48 = false)
      ∧ (PrivBegins s .vsaveCtl { zeroW with vs3 := 3, imm := 3 } ∧ LinesOpen s .store 0x20000 (512 / 64) at_)
      ∧ (∀ n i, i < n / 64 → n ≤ 147456 → Apart s (linesRuns (n / 64) at_) .store (0x20000 + BitVec.ofNat 64 (64 * i)) (at_ i))
      ∧ (PrivBegins v .vrest { f with vs1 := 1, s1 := true } ∧ (v.g 1).toNat = 1
        ∧ LinesOpen v .load 0x20000 (8 * min (v.g 1).toNat v.h.groups) at_ ∧ v.ca.chan = [])
      ∧ (PrivBegins s .vrestMsk { zeroW with vs3 := 3, imm := 1 } ∧ LinesOpen s .load 0x20000 288 at_ ∧ s.ca.chan = [])
      ∧ (s.g 3 = 0x20000) := by
  have l (s : State) (acc : Acc) (n : Nat) (hn : n ≤ 2304) (h : s.mem.quad 0x10000 = 0xDF ∧ Mapped s) (q : Still s) (w : s.mem.wf)
      (k : acc ≠ .fetch) : LinesOpen s acc 0x20000 n fun i => spot (0x20000 + 64 * i) :=
    lines (base := 0x20000) ⟨by decide, by omega⟩ h q w k
  refine ⟨⟨⟨by decide +kernel, by decide +kernel⟩, l _ _ _ (by decide +kernel) (by decide +kernel) (by decide +kernel) (by decide +kernel) (by decide)⟩,
    ⟨⟨by decide +kernel, by decide +kernel⟩, l _ _ _ (by decide) (by decide +kernel) (by decide +kernel) (by decide +kernel) (by decide)⟩,
    ⟨⟨by decide +kernel, by decide +kernel⟩, l _ _ _ (by decide) (by decide +kernel) (by decide +kernel) (by decide +kernel) (by decide),
      by decide +kernel⟩,
    ⟨⟨by decide +kernel, by decide +kernel⟩, l _ _ _ (by decide) (by decide +kernel) (by decide +kernel) (by decide +kernel) (by decide)⟩,
    fun n i hi hn => ?_,
    ⟨⟨by decide +kernel, by decide +kernel⟩, by decide +kernel,
      l _ _ _ (by decide +kernel) (by decide +kernel) (by decide +kernel) (by decide +kernel) (by decide), by decide +kernel⟩,
    ⟨⟨by decide +kernel, by decide +kernel⟩, l _ _ _ (by decide) (by decide +kernel) (by decide +kernel) (by decide +kernel) (by decide),
      by decide +kernel⟩, by decide +kernel⟩
  have := apart (s := put 3 0x20000 (asSup mach)) (runs := linesRuns (n / 64) fun i => spot (0x20000 + 64 * i)) (acc := .store)
    (a := 0x20000 + 64 * i) (by omega) (by decide +kernel) (by decide) (fun r hr => by
      obtain ⟨k, _, rfl⟩ := List.mem_map.mp hr
      right
      show 0x10008 ≤ 0x20000 + 64 * k
      omega)
  rw [BitVec.ofNat_add] at this
  exact this

/-- An image of control state, and of matrix state held in each way. -/
theorem witness_ImagesSaveAndRestore_images :
    let at_ (i : Nat) : Place := spot (0x20000 + 64 * i)
    let c : Image := .control Control.zero Events.zero Scalar.zero
    (PrivBegins (imaged c) .vrestCtl { zeroW with vs3 := 3, imm := 3 } ∧ LinesOpen (imaged c) .load 0x20000 8 at_
        ∧ (imaged c).ca.chan = [] ∧ ImageStands (imaged c) at_ 0 c)
      ∧ (∀ hold, let x : Image := .matrix 0 (held hold)
          PrivBegins (imaged x) .vrestMx { zeroW with vs3 := 3, imm := 2 } ∧ LinesOpen (imaged x) .load 0x20000 (x.size / 64) at_
            ∧ (imaged x).ca.chan = [] ∧ ImageStands (imaged x) at_ 0 x ∧ UnitReady (imaged x)
            ∧ ∀ c ∈ roomCores (imaged x).h.hid, ((imaged x).unitAt c).holder = none ∧ ((imaged x).unitAt c).waiters = []) := by
  refine ⟨⟨⟨by decide +kernel, rfl⟩, image_lines _ 8 (by decide), rfl, image_stands _ (by decide +kernel)⟩, fun hold => ?_⟩
  have z : (Image.matrix 0 (held hold)).size % 64 = 0 ∧ (Image.matrix 0 (held hold)).size / 64 ≤ 2 ^ 15 := by cases hold <;> decide +kernel
  exact ⟨⟨by decide +kernel, rfl⟩, image_lines _ _ z.2, rfl, image_stands _ z.1, .inr ⟨rfl, .inl rfl⟩, fun c _ => ⟨rfl, rfl⟩⟩

/-! ### Witnesses: lanes, convoys, wide traps -/

/-- A supervisor that asks for n lane groups. -/
def asking (n : Nat) : State := put 1 (BitVec.ofNat 64 n) (asSup mach)
/-- A hart without groups that asks for n, beside two that hold every group of the core. -/
def crowded (n : Nat) : State :=
  let s := (asking n).onSu fun su => { su with lgMap := 0 }
  { s with others := [{ mach.h with su := { mach.h.su with lgMap := 15 } }, { mach.h with su := { mach.h.su with lgMap := 15 } }] }

/-- A request that the hart holds already, one that grows, requests of 0 and of 3, and one that nothing can meet. -/
theorem witness_LanesAreGranted :
    let f : WFields := { zeroW with vd := 5, vs1 := 1, s1 := true }
    let own (s : State) : List Nat := groupList s.h.su.lgMap
    let more (s : State) : List Nat := (List.range 4).filter fun i =>
      !(own s).contains i && decide ((s.harts.countP fun h => h.hid.core == s.h.hid.core && h.su.lgMap.getLsbD i) < 2)
    let can (s : State) (g : Nat) : Prop := (g = 1 ∨ g = 2 ∨ g = 4) ∧ g ≤ (s.g f.vs1).toNat ∧ g ≤ (own s).length + (more s).length
    (∀ s ∈ [asking 0, asking 1, asking 2, asking 3, asking 4, crowded 1], PrivBegins s .lgrant f)
      ∧ (∀ q, q = 1 ∨ q = 2 ∨ q = 4 → ((asking q).g f.vs1).toNat = q ∧ can (asking q) q ∧ ∀ k, can (asking q) k → k ≤ q)
      ∧ (∀ q, q = 0 ∨ q = 3 → ¬ ((((asking q).g f.vs1).toNat = 1) ∨ (((asking q).g f.vs1).toNat = 2) ∨ ((asking q).g f.vs1).toNat = 4))
      ∧ (∀ k, ¬ can (crowded 1) k) := by
  refine ⟨fun s hs => ?_, fun q hq => ?_, fun q hq => ?_, fun k hk => ?_⟩
  · simp only [List.mem_cons, List.not_mem_nil, or_false] at hs
    rcases hs with rfl | rfl | rfl | rfl | rfl | rfl <;> exact ⟨by decide +kernel, by decide +kernel⟩
  · rcases hq with rfl | rfl | rfl <;>
      exact ⟨by decide +kernel, by decide +kernel, fun k hk => hk.2.1.trans (by decide +kernel)⟩
  · rcases hq with rfl | rfl <;> decide +kernel
  · have := hk.2.2.trans (show _ ≤ 0 by decide +kernel)
    omega

/-- The fields of an add and of a floating add. -/
def addF : WFields := { zeroW with vd := 1, vs1 := 2, vs2 := 3 }
def faddF : WFields := { zeroW with vd := 4, vs1 := 5, vs2 := 1 }
/-- A convoy header of two slots, with the words of its slots after it. -/
def convoyed : State :=
  shape 3 1 (fill 0x1004 8 (packW WOp.vadd.spec.op8 WOp.vadd.spec.func8 addF)
    (fill 0x100C 8 (packW WOp.vfadd.spec.op8 WOp.vfadd.spec.func8 faddF) mach))

/-- A vadd at the pc. -/
def single : State := shape 3 1 (fill 0x1000 8 (packW WOp.vadd.spec.op8 WOp.vadd.spec.func8 addF) mach)

/-- The next slot of a run, by its own value. -/
theorem slot {g0 : Vector Word 32} {step : BitVec 16} {n : Nat} {done : List Slot} {x : Slot} {xs : List Slot} {s t : State} (hv : s.vl = n)
    (hm : s.h.vec.mf = 0)
    (hd : ((semOf x.op).run x.f { slot := done.length, lo := 0, hi := n, fed := n }
      (s.onSc fun sc => { sc with g := g0, srstep := step + BitVec.ofNat 16 (done.countP fun y => y.steps s) })).2 = .done)
    (h : let u := ((semOf x.op).run x.f { slot := done.length, lo := 0, hi := n, fed := n }
        (s.onSc fun sc => { sc with g := g0, srstep := step + BitVec.ofNat 16 (done.countP fun y => y.steps s) })).1
      let v := u.onSc fun sc => { sc with
        g := s.h.sc.g, ldn := s.h.sc.ldn, srstep := if x.steps u then s.h.sc.srstep + 1 else s.h.sc.srstep }
      SlotsRun g0 step n (done ++ [x]) xs (x.dests.foldl (fun w d => w.setG d (u.g d)) v) t) : SlotsRun g0 step n done (x :: xs) s t :=
  ⟨hv, hm, _, Prod.ext rfl hd, h⟩

/-- An integer add that feeds a floating add; an add that is placed; and the queue that then holds it. -/
theorem witness_ConvoysRunTheirSlots :
    let us := codesOf [1, 2, 7, 7, 7, 7]
    let hw := headerWord 0 us
    let ss : List Slot := [⟨.vadd, addF⟩, ⟨.vfadd, faddF⟩]
    convoySlotsM hw 0 us convoyed = .ok (ss, convoyed) ∧ convoyed.convoyFault hw ss = none
      ∧ convoyed.h.vec.vstart = 0 ∧ fieldOf convoyed.h.vec.cpv0 63 1 = 0 ∧ convoyed.h.dbg.run ≠ some true ∧ (∀ x ∈ ss, x.op ≠ .mdrain)
      ∧ (∃ t, SlotsRun convoyed.h.sc.g convoyed.h.sc.srstep convoyed.vl [] ss convoyed t)
      ∧ single.h.loads = [] ∧ ∃ u, single.place = some u ∧ ∃ q, u.h.queue[0]? = some q := by
  refine ⟨?_, by decide +kernel, by decide +kernel, by decide +kernel, by decide +kernel, by decide +kernel, ?_, rfl, ?_⟩
  · have : (match convoySlotsM (headerWord 0 (codesOf [1, 2, 7, 7, 7, 7])) 0 (codesOf [1, 2, 7, 7, 7, 7]) convoyed with
      | .ok x => some x
      | .error _ => none) = some ([⟨.vadd, addF⟩, ⟨.vfadd, faddF⟩], convoyed) := by decide +kernel
    revert this
    cases convoySlotsM (headerWord 0 (codesOf [1, 2, 7, 7, 7, 7])) 0 (codesOf [1, 2, 7, 7, 7, 7]) convoyed <;> intro h
    · cases h
    · exact congrArg Except.ok (Option.some.inj h)
  · exact ⟨_, slot (by decide +kernel) (by decide +kernel) (by decide +kernel) (slot (by decide +kernel) (by decide +kernel) (by decide +kernel) rfl)⟩
  · have : single.place.isSome = true ∧ single.place.map (fun u => u.h.queue.length) = some 1 := by decide +kernel
    obtain ⟨u, hu⟩ := Option.isSome_iff_exists.mp this.1
    refine ⟨u, hu, ?_⟩
    rw [hu] at this
    exact ⟨_, List.getElem?_eq_getElem (Nat.lt_of_lt_of_eq Nat.one_pos (Option.some.inj this.2).symm)⟩

/-- In user mode: a VPRIV class, an absent vector state and an absent matrix state; progress of each kind that cannot be resumed; an illegal
VTYPE, a group that is not aligned, a group over a source, and a rule of the instruction's own; and a fault of the instruction's own. -/
theorem witness_WideTrapsComeInOrder :
    let s := shape 3 4 mach
    let st (f : Vec → Vec) : State := s.onVec f
    let ok (f : WFields) (op : WOp) : Prop := f.defect op = none ∧ isPriv op = false ∧ s.h.su.sup = false ∧ s.h.su.va = false
    (zeroW.defect .vsave = none ∧ isPriv .vsave = true ∧ s.h.su.sup = false ∧ (encodeNat (.vsave zeroW)).isSome)
      ∧ (let a := mach.onSu fun x => { x with va := true, mxa := true }
         addF.defect .vadd = none ∧ isPriv .vadd = false ∧ a.h.su.sup = false ∧ a.h.su.va = true ∧ (encodeNat (.vadd addF)).isSome)
      ∧ (let a := mach.onSu fun x => { x with mxa := true }
         zeroW.defect .mmac = none ∧ isPriv .mmac = false ∧ isMatrix .mmac = true ∧ a.h.su.sup = false ∧ a.h.su.va = false
          ∧ a.h.su.mxa = true ∧ (encodeNat (.mmac zeroW)).isSome)
      ∧ (ok addF .vadd ∧ s.h.su.mxa = false)
      ∧ (fieldOf (st fun x => { x with cpv0 := 2 ^ 63 }).h.vec.cpv0 63 1 = 1
        ∧ (let a := st fun x => { x with vstart := 5 }
           a.vl < a.h.vec.vstart.toNat)
        ∧ (let a := st fun x => { x with vstart := 1 }
           ok addF .vfredtree ∧ a.isI .vfredtree addF = true ∧ a.h.vec.vstart.toNat ≠ 0 ∧ a.h.vec.vstart.toNat ≠ a.vl))
      ∧ ((shape 4 4 mach).h.vec.vill = true
        ∧ alignedRuns (shape (2 ^ 4 + 3) 4 mach).h.vec .vadd addF = false
        ∧ (ok { addF with me := true, vs2 := 1 } .vgather ∧ overlapOk s.h.vec .vgather { addF with vs2 := 1 } = false)
        ∧ (ok zeroW .mmac ∧ (semOf .mmac).illegal s zeroW = true))
      ∧ (let a := put 1 0x2001 s
         let f : WFields := { zeroW with vd := 5, vs1 := 1, vs3 := 3, s1 := true }
         ok f .swbegin ∧ ¬ (fieldOf a.h.vec.cpv0 63 1 = 1 ∨ a.vl < 0) ∧ a.h.vec.vstart = 0
          ∧ ¬ (a.h.vec.vill = true ∨ alignedRuns a.h.vec .swbegin f = false ∨ overlapOk a.h.vec .swbegin f = false
            ∨ (semOf .swbegin).illegal a f = true)
          ∧ ((semOf .swbegin).fault a f 0).isSome) := by
  and_intros <;> decide +kernel

/-! ### Witnesses: traps, status registers, descriptors, watermarks, launches -/

/-- The entries of a fault batch. -/
def entries (n : Nat) : List BatchEntry := (List.range n).map fun k => ⟨BitVec.ofNat 64 (0x2000 * k), 1, 0, true, k, 1⟩

/-- A write of hart 0 that a pin holds. -/
def pinWait (op : HomeOp) : PinWait :=
  { vec := true, pa := 0x5000, va := 0x5000, sq := 0, src := .hart 0 ⟨0, 0⟩ 0x1000 false, root := 0x10000, op := op, org := ⟨0, 0, 0⟩ }
/-- A state in which a pin holds a write of hart 0. -/
def waiting (op : HomeOp) (s : State) : State := { s with ca := { s.ca with pinQueue := [pinWait op] } }
/-- A cause of a code. -/
def cause (code : Nat) : AsyncCause := { code := code, sub := 0, sval := 0, batch := [] }
/-- A state whose hart has causes pending. -/
def pending (cs : List AsyncCause) (s : State) : State := { s with h := { s.h with pend := cs } }

/-- Batches of one entry and of 17, at the last page of the window that holds a whole batch; and a cause that may be taken. -/
theorem witness_TrapEntrySavesTheState :
    let s := mach.onSu fun su => { su with fbase := 0xFFFFFF }
    (∀ n, n = 1 ∨ n = 17 → let t : Trap := { code := 9, batch := entries n }
      (t.code = 9 ∨ t.code = 34) ∧ t.batch.take 16 ≠ []) ∧ ((pending [cause 33] mach).h.queue = [] ∧ (pending [cause 33] mach).h.loads = [] ∧ (pending [cause 33] mach).h.takable = some (cause 33))
      ∧ s.poolOk s.h.su.part (s.h.su.fbase.toNat * 256) = true
      ∧ s.poolOk s.h.su.part (s.h.su.fbase.toNat * 256 + 255) = true ∧ s.mem.wf
      ∧ (∀ (i : Nat) (r : Trace), s.dev.trace[i]? = some r → r.size = 0)
      ∧ (let t : Trap := { code := 8 }
         t.code ≠ 9 ∧ t.code ≠ 34 ∧ t.batch = []) := by
  refine ⟨fun n hn => ?_, by decide +kernel, by decide +kernel, by decide +kernel, by decide +kernel, fun i r hr => ?_, by decide +kernel⟩
  · rcases hn with rfl | rfl <;> exact ⟨.inl rfl, by decide +kernel⟩
  · have all : ∀ r ∈ mach.dev.trace.toList, r.size = 0 := by decide +kernel
    exact all r (Vector.mem_toList_iff.mpr (Vector.mem_of_getElem? hr))

/-- A user in an event handler, which came from 0x2000. -/
def handling : State := mach.onEv fun e => { e with inHandler := true, epc := 0x2000 }

theorem witness_CallsBreaksAndReturns :
    (callOf (.trap 0x123) = some 0x123 ∧ callOf .yield = some 0x010 ∧ mach.h.su.sup = false)
      ∧ ((asSup mach).h.su.sup = true ∧ (0x123 : BitVec 12) ∉ [0x000, 0x001, 0x010, 0x011]) ∧ mach.h.dbg.hen = false ∧ (mach.onDbg fun d => { d with hen := true }).h.dbg.hen = true
      ∧ (handling.h.su.sup = false ∧ handling.h.ev.inHandler = true) ∧ (mach.h.su.sup = false ∧ mach.h.ev.inHandler = false)
      ∧ (mach.h.ev.mask = 0 ∧ handling.h.ev.inHandler = true)
      ∧ (let s := mach.onEv fun e => { e with mask := 1 }
         s.h.ev.mask ≠ 0 ∧ s.h.ev.inHandler = false)
      ∧ (let s := mach.onEv fun e => { e with mask := 12, checksum := [2], reach := [1] }
         s.h.loads = [] ∧ s.h.dbg.run = none ∧ s.h.canDeliver = true ∧ s.insideW = false ∧ s.h.ev.First 3 2)
      ∧ (let s : State := { mach.onDbg (fun d => { d with halted := true }) with dev := { mach.dev with tstate := 1 } }
         s.testAt 0 = true ∧ (s.hartAt 0).dbg.halted = true) := by
  and_intros <;> first
    | decide +kernel
    | exact ⟨by decide +kernel, by decide +kernel, by decide +kernel, by decide +kernel⟩

/-- The first firmware and supervisor registers, the last user register, and the absent states. -/
theorem witness_StatusRegistersReadAndWrite :
    let a := mach.onSu fun x => { x with va := true, mxa := true }
    (statusOf (.rdsr 1 0x200) = some 0x200 ∧ (encodeNat (.rdsr 1 0x200)).isSome)
      ∧ (statusOf (.wrsr 0x100 1) = some 0x100 ∧ (encodeNat (.wrsr 0x100 1)).isSome ∧ mach.h.su.sup = false)
      ∧ (statusOf (.xchsr 1 0x014 1) = some 0x014 ∧ (encodeNat (.xchsr 1 0x014 1)).isSome
        ∧ ¬ (0x200 ≤ 0x014 ∨ (a.h.su.sup = false ∧ 0x100 ≤ 0x014)) ∧ a.h.su.sup = false ∧ a.h.su.va = true ∧ 0x014 ∈ vectorRegs)
      ∧ (statusOf (.rdsr 1 0x016) = some 0x016 ∧ (encodeNat (.rdsr 1 0x016)).isSome
        ∧ ¬ (0x200 ≤ 0x016 ∨ (a.h.su.sup = false ∧ 0x100 ≤ 0x016)) ∧ a.h.su.mxa = true ∧ 0x016 ∈ matrixRegs)
      ∧ StatusOpen mach 0x0FF ∧ StatusOpen a 0x005 ∧ StatusOpen (asSup mach) 0x1FF
      ∧ (keptBits 0x002 = some 0x7FFF ∧ 0x003 ∈ readOnlyRegs ∧ 0x006 ∉ coupledRegs 0x001)
      ∧ (fieldOf (5 : Word) 63 1 = 0 ∧ fieldOf mach.h.vec.cpv0 63 1 = 0)
      ∧ (let stuck (s : State) : Prop := s.h.vec.vstart ≠ 0 ∨ fieldOf s.h.vec.cpv0 63 1 = 1 ∨ s.h.vec.mf ≠ 0
          ∨ ∃ p ∈ s.ca.parked, p.own = s.h.own
         stuck (mach.onVec fun x => { x with vstart := 1 }) ∧ ¬ stuck mach)
      ∧ (StatusWaits (waiting (.add 0 false none 0) mach) 0x005 ∧ StatusOpen (waiting (.add 0 false none 0) mach) 0x005 ∧ ¬ StatusWaits mach 0x005)
      ∧ (let s : State := { mach.onDbg (fun d => { d with halted := true }) with dev := { mach.dev with tstate := 1 } }
         s.testAt s.h.hid = true ∧ s.h.dbg.halted = true ∧ fieldOf (5 : Word) 62 2 = 0 ∧ fieldOf (5 : Word) 0 12 < 0x200) := by
  unfold StatusOpen StatusWaits
  and_intros <;> decide +kernel

/-- A marked hart of four groups, one that may grow to two and not to four, one with all that its launch asked for, and a hart whose core
has none to give. -/
theorem witness_VectorLengthIsGranted :
    let s (lanes lg : Nat) (mark : Option Nat) : State :=
      { mach with h := { mach.h with ct := { mach.h.ct with lanes := lanes }, su := { mach.h.su with lgMap := BitVec.ofNat 4 lg }, mark := mark } }
    let full : State := { s 2 1 none with others := [(s 2 14 none).h, (s 2 14 none).h] }
    let own (s : State) : List Nat := groupList s.h.su.lgMap
    let more (s : State) : List Nat := (List.range 4).filter fun i =>
      !(own s).contains i && decide ((s.harts.countP fun h => h.hid.core == s.h.hid.core && h.su.lgMap.getLsbD i) < 2)
    let can (s : State) (g : Nat) : Prop :=
      (g = 1 ∨ g = 2 ∨ g = 4) ∧ g ≤ s.h.ct.lanes ∧ g ≤ (own s).length + (more s).length ∧ (own s).length < g
    let grows (s : State) : Prop := s.h.mark = none ∧ (own s).length < s.h.ct.lanes ∧ s.firstReady s.h.su.part = none
    (let a := mach.onSu fun x => { x with va := true }
     a.h.su.sup = false ∧ a.h.su.va = true ∧ (encodeNat (.setvl 1 2)).isSome ∧ (encodeNat (.setvlK 1 2)).isSome
      ∧ (encodeNat (.settype 1 2)).isSome)
      ∧ (mach.h.su.va = false ∧ (s 4 15 (some 1)).h.mark = some 1)
      ∧ (grows (s 2 1 none) ∧ can (s 2 1 none) 2 ∧ ∀ k, can (s 2 1 none) k → k ≤ 2)
      ∧ (grows full ∧ ∀ k, ¬ can full k) ∧ ((s 1 1 none).h.mark = none ∧ ¬ grows (s 1 1 none))
      ∧ (let u := waiting (.add 0 false none 0) (s 4 15 (some 1))
         groupsOf (u.grant false).1 ≠ u.h.groups ∧ u.vectorBusy = true ∧ groupsOf (u.grant true).1 = u.h.groups ∧ (s 4 15 (some 1)).vectorBusy = false)
      ∧ PrivBegins (asking 1) .lgrant { zeroW with vd := 5, vs1 := 1, s1 := true } := by
  refine ⟨by decide +kernel, by decide +kernel, ⟨by decide +kernel, by decide +kernel, fun k hk => hk.2.1.trans (by decide +kernel)⟩,
    ⟨by decide +kernel, fun k hk => ?_⟩, by decide +kernel, by decide +kernel, by decide +kernel, by decide +kernel⟩
  have := hk.2.2.1.trans (show _ ≤ 1 by decide +kernel)
  have := hk.2.2.2.trans_le this
  exact absurd this (by decide +kernel)

/-- A hart with watermark 1 bound to a cell at 0x3000, where PUB is 6, with its event enabled or not. -/
def marking (on : Bool) : State :=
  let s := put 1 7 (fill 0x3000 8 6 (buffered mach))
  (s.onCt fun c => { c with wm := c.wm.set 1 0x3000 }).onEv fun e => { e with mask := if on then 8 else 0 }

/-- A machine with a loop table of one level at 0x8000. -/
def tabled : State := fill 0x8000 8 1 mach
/-- A launch record with that table: one that is accepted, one that is refused, for an odd entry address. -/
def launchRec (entry : Nat) : BitVec 512 := BitVec.ofNat 512 (entry + 0x8000 * 2 ^ 64)

/-- PUB at the operand, and one below it; a launch that is accepted, and one that is refused for its odd entry address. -/
theorem witness_DescriptorsMarksAndLaunches :
    let s := marking false
    let p := spot 0x3000
    let cell : Word := 0x3000
    let r := (s.markLeaf s.h.space cell p true).release
    let d := put 1 0xFFFFFF80 mach
    let pub (s : State) : Nat := leNat (((s.markLeaf s.h.space cell p false).settleScalar s.h p.pa 8).scalarBytes
      ((s.markLeaf s.h.space cell p false).settleScalar s.h p.pa 8).h p.pa 8)
    (Granted d .load (d.g 1 + (0x40 : BitVec 12).signExtend 64) 64 (spot 0xFFFFFFC0) ∧ (spot 0xFFFFFFC0).mt ≠ 1
        ∧ d.ownHeld 0xFFFFFFC0 64 = false ∧ d.bufHeld 0xFFFFFFC0 64 = false)
      ∧ (s.wmCell 0 = 0 ∧ (encodeNat (.wmpub 0 1)).isSome ∧ (encodeNat (.wmrd 1 0)).isSome ∧ (encodeNat (.wmwait 0 1)).isSome)
      ∧ (s.wmCell 1 = cell ∧ Granted s .load cell 8 p ∧ p.mt ≠ 1 ∧ s.ownHeld p.pa 8 = false ∧ s.bufHeld p.pa 8 = false)
      ∧ (Granted s .atomic cell 8 p ∧ r.2 = true ∧ r.1.heldAtHome p.pa 8 = false ∧ NoWatch r.1 ∧ Unmeasured r.1 cell 8)
      ∧ ((marking true).wmCell 1 = cell ∧ Granted (marking true) .load cell 8 p ∧ (marking true).ownHeld p.pa 8 = false ∧ (marking true).bufHeld p.pa 8 = false
        ∧ (marking true).h.ev.mask.getLsbD 3 = true)
      ∧ (s.h.ev.mask.getLsbD 3 = false ∧ pub s < (s.g 1).toNat ∧ ((put 1 6 s).g 1).toNat ≤ pub (put 1 6 s))
      ∧ (quadOf (launchRec 0x1000) 7 = 0 ∧ tabled.refusals 0 0x10000 (launchRec 0x1000) = [] ∧ tabled.rg.launches = [])
      ∧ (quadOf (launchRec 0x1001) 7 = 0 ∧ tabled.refusals 0 0x10000 (launchRec 0x1001) = [2])
      ∧ ((marking true).h.live = true ∧ (marking true).h.su.sup = false)
      ∧ ((List.replicate 64 (0 : Byte)).length = 64 ∧ mach.dev.boot.running = true)
      ∧ (d.h.loads = [] ∧ s.h.loads = [] ∧ (marking true).h.loads = [])
      ∧ quadOf (0 : BitVec 512) 1 = 0 ∧ quadOf (0 : BitVec 512) 6 = 0 :=
  ⟨⟨granted (by decide +kernel), by decide +kernel, by decide +kernel⟩, by decide +kernel,
    ⟨by decide +kernel, granted (by decide +kernel), by decide +kernel, by decide +kernel⟩,
    ⟨granted (by decide +kernel), by decide +kernel, by decide +kernel, Alone.watch (by decide +kernel), by unfold Unmeasured; decide +kernel⟩,
    ⟨by decide +kernel, granted (by decide +kernel), by decide +kernel, by decide +kernel⟩,
    by decide +kernel, by decide +kernel, by decide +kernel, by decide +kernel, by decide +kernel⟩

/-! ### Witnesses: the end of a hart, the step, the invariants -/

/-- A command of hart 0 at position 0, with the record of the quads given. -/
def cmd (engine : Engine) (qs : List Nat) : Command :=
  { own := ⟨0, 0⟩, pos := 0, engine := engine, hid := 0
    record := BitVec.ofNat 512 (qs.zipIdx.map fun q => q.1 * 2 ^ (64 * q.2)).sum, root := 0x10000, sup := false, corr := 0, prog := 0
    sched := [], ranks := 0, myRank := 0, held := none, taken := [], copied := [], spoilt := none, token := false, ending := none, weak := [] }
/-- A state with commands. -/
def withCmds (cs : List Command) (s : State) : State := s.onUn fun u => { u with cmds := cs }

/-- The launch of hart 0, cancelled or not. -/
def ours (cancelled : Bool) : Launch :=
  { part := 0, lid := 1, record := 0, root := 0x10000, kinds := [], isleCnt := none, coreCnt := none, cells := [], depCell := none
    producer := none, named := none, placed := true, cancelled := cancelled, fin := false, harts := 1 }
/-- A state with launches. -/
def withLaunches (ls : List Launch) (s : State) : State := { s with rg := { s.rg with launches := ls } }

/-- The value of a computation that has one. -/
theorem gave {ε α : Type} {x : Except ε α} {a : α} (h : x.toOption = some a) : x = .ok a := by
  cases x
  · cases h
  · exact congrArg Except.ok (Option.some.inj h)

/-- A hart with nothing outstanding, with a command, and with a write that a pin holds; an open member; yields of an open launch and of a
cancelled one, in the middle of an instruction and with a pin; cancels of no launch, of an open one and of a cancelled one. -/
theorem witness_HartsEndAndServicesRun :
    let busy := withCmds [cmd (.copy 0) [1]] mach
    let stuck : State := waiting (.store [1]) mach
    let y (c : Bool) : State := put 10 1 (withLaunches [ours c] (asSup mach))
    let mid := (y false).onVec fun x => { x with vstart := 1 }
    let pinned : State := { y false with ca := { (y false).ca with pins := [⟨0x5000, ⟨0, 0⟩, none, none⟩] } }
    let gone (s : State) : Prop := ∃ l ∈ s.rg.launches, l.part = s.h.su.part ∧ l.lid = s.h.su.lid ∧ l.fin = false ∧ l.cancelled = true
    let begun (s : State) : Prop := s.h.vec.vstart ≠ 0 ∨ fieldOf s.h.vec.cpv0 63 1 = 1 ∨ s.h.vec.mf ≠ 0
    let lid (s : State) : BitVec 32 := (s.g 10).setWidth 32
    let svc := put 10 0x6000 (asSup mach)
    let u := (svc.markLeaf svc.h.space (svc.g 10) (spot 0x6000) true).drain
    ((mach.h.ct.member = none ∧ mach.release.2 = true ∧ ¬ ∃ c ∈ mach.release.1.un.cmds, c.own = mach.h.own)
      ∧ (busy.h.ct.member = none ∧ busy.release.2 = true ∧ ∃ c ∈ busy.release.1.un.cmds, c.own = busy.h.own)
      ∧ (stuck.h.ct.member = none ∧ stuck.release.2 = false))
      ∧ (((y true).h.su.sup = true ∧ gone (y true) ∧ ¬ gone (y false) ∧ ¬ begun (y false) ∧ ∀ p ∈ (y false).ca.pins, p.own ≠ (y false).h.own)
      ∧ (mid.h.su.sup = true ∧ ¬ gone mid ∧ begun mid) ∧ (¬ gone pinned ∧ ∃ p ∈ pinned.ca.pins, p.own = pinned.h.own))
      ∧ ((waiting (.add 0 false none 0) (asSup mach)).vectorBusy = true ∧ (y false).vectorBusy = false
      ∧ ((asSup mach).openLaunch 0 (lid (asSup mach))).all Launch.cancelled = true
      ∧ ((y true).openLaunch 0 (lid (y true))).all Launch.cancelled = true)
      ∧ (∃ l, (y false).openLaunch (y false).h.su.part (lid (y false)) = some l ∧ l.cancelled = false)
      ∧ (svc.h.su.sup = true ∧ Granted svc .store (svc.g 10) 4096 (spot 0x6000) ∧ (spot 0x6000).mt ≠ 1 ∧ u.heldAtHome 0x6000 4096 = false
        ∧ NoWatch u ∧ Unmeasured u (svc.g 10) 4096) :=
  ⟨by decide +kernel, by decide +kernel, by decide +kernel, ⟨_, rfl, rfl⟩, by decide +kernel, granted (by decide +kernel), by decide +kernel, by decide +kernel,
    Alone.watch (by decide +kernel), by unfold Unmeasured; decide +kernel⟩

/-- The commit of the open member of a hart. -/
theorem witness_HartsEndAndServicesRun_commit : ∃ x, commitM (committing 1 8 0 0 0) = .ok x := by
  have : (commitM (committing 1 8 0 0 0)).toOption.isSome = true := by decide +kernel
  obtain ⟨x, h⟩ := Option.isSome_iff_exists.mp this
  exact ⟨x, gave h⟩

theorem witness_DecodeAndEncodeAgree :
    encodeNat (.addi 4 0 100) = some 0x06400205 ∧ (Instr.addi 4 0 100).wf = true
      ∧ (0x06400205 < 2 ^ (8 * lengthOf 0x06400205) ∧ decodeWord 0x06400205 = .ok (.plain (.addi 4 0 100))) :=
  ⟨by decide +kernel, by decide +kernel, by decide +kernel, rfl⟩

/-- A queue of n adds. -/
def queued (n : Nat) (s : State) : State :=
  let q : Queued :=
    { slots := [(.vadd, addF)], tick := 0, sc := s.h.sc, vl := 1, vtype := 3, vstart := 0, cpv0 := 0, cpv1 := 0, begun := none, tables := [], ahead := [] }
  { s with h := { s.h with queue := List.replicate n q } }

theorem comes {s : State} (h : s.dev.power = true ∧ s.h.live = true ∧ s.h.dbg.halted = false ∧ (s.h.queue = [] ∧ s.h.loads = [])
    ∧ s.h.dbg.hreq = none ∧ s.turnOf.beforeInstr = none ∧ s.turnOf.eventDue = false ∧ s.h.weak = [] ∧ s.h.bad = []) : Comes s :=
  have ⟨power, live, going, empty, undue, first, calm, sound⟩ := h
  { power, live, going, empty, undue, first, calm, sound }

/-- An instruction at the pc; the parcel 0x0000 there; an event in the agenda; no power; and a full queue and one with room. -/
theorem witness_StepRunsTheDecodedInstruction :
    let s := fill 0x1000 4 0x06400205 mach
    let at_ (k : Nat) : Place := spot (0x1000 + 2 * k)
    let e : State := { mach with agenda := [.event .bootGo] }
    let off : State := { mach with dev := { mach.dev with power := false } }
    let goes (u : State) : Prop := u.h.live = true ∧ u.h.dbg.halted = false ∧ u.stopDue = false ∧ u.h.bad = [] ∧ u.h.weak = []
    (s.agenda = [] ∧ Comes s ∧ fetchInstr s.h.sc.pc s.turnOf.checkReaches = .ok (0x06400205, s.turnOf)
        ∧ decodeWord 0x06400205 = .ok (.plain (.addi 4 0 100)))
      ∧ (mach.agenda = [] ∧ Comes mach ∧ fetchInstr mach.h.sc.pc mach.turnOf.checkReaches = .ok (0, mach.turnOf)
        ∧ decodeWord 0 = .error .zeroParcel ∧ slotCount 0 = none)
      ∧ (NoWatch s ∧ s.mem.wf ∧ s.h.held = []
        ∧ ∀ k, k < lengthOf (s.parcels 0x1000 at_ 1) / 2 → Fetchable s (0x1000 + BitVec.ofNat 64 (2 * k)) (at_ k))
      ∧ (State.reset.agenda = [] ∧ State.reset.dev.power = true ∧ State.reset.h.live = false)
      ∧ (e.agenda = .event .bootGo :: [] ∧ e.dev.power = true ∧ encodeNat .bootGo = none)
      ∧ (∀ turn, ({ mach with agenda := [turn] } : State).dev.power = true ∧ ({ mach with agenda := [turn] } : State).agenda = turn :: [])
      ∧ (off.dev.power = false ∧ ∀ r, off.agenda ≠ .event .deviceReset :: r)
      ∧ (goes ((queued 64 single).switchTo 0) ∧ 64 ≤ ((queued 64 single).switchTo 0).h.queue.length
        ∧ ((queued 64 single).switchTo 0).headW.isSome = true)
      ∧ (goes (single.switchTo 0) ∧ (single.switchTo 0).h.queue.length < 64
        ∧ ∃ v, ((single.switchTo 0).onDbg fun d => { d with stalled := false }).place = some v) := by
  refine ⟨⟨rfl, comes (by decide +kernel), gave (by decide +kernel), rfl⟩,
    ⟨rfl, comes (by decide +kernel), gave (by decide +kernel), rfl, by decide +kernel⟩,
    ⟨Alone.watch (by decide +kernel), by decide +kernel, by decide +kernel, fun k hk => ?_⟩, by decide +kernel, ⟨rfl, by decide +kernel, rfl⟩,
    (fun _ => ⟨rfl, rfl⟩), ⟨rfl, fun r h => nomatch h⟩, by decide +kernel, by decide +kernel, by decide +kernel, Option.isSome_iff_exists.mp (by decide +kernel)⟩
  have : k < 2 := hk.trans_le (by decide +kernel)
  interval_cases k <;>
    exact ⟨by decide +kernel, by decide +kernel, by decide +kernel, by decide +kernel, sound (by decide +kernel) _ _, marked (by decide +kernel) (by decide +kernel) _,
      .inl (by decide +kernel)⟩

/-- What a step that goes on gives. -/
theorem goes {x : Out} (h : (match x with
    | .next _ => true
    | _ => false) = true) : ∃ t, x = .next t := by
  cases x
  · exact ⟨_, rfl⟩
  · cases h
  · cases h

theorem witness_MemoryStaysCanonical : ∃ s t : State, s.mem.wf ∧ step s = .next t ∧ s.mem ≠ [] := by
  obtain ⟨t, h⟩ := goes (x := step mach) (by decide +kernel)
  exact ⟨mach, t, by decide +kernel, h, by decide +kernel⟩

theorem witness_MatrixStateStaysFormed :
    ∃ s t : State, ((∀ h ∈ s.h :: s.others, h.mx.Formed) ∧ ∀ core mx, Image.matrix core mx ∈ s.un.images → mx.Formed) ∧ step s = .next t := by
  obtain ⟨t, h⟩ := goes (x := step mach) (by decide +kernel)
  refine ⟨mach, t, ⟨fun x hx => ?_, fun _ _ hm => nomatch hm⟩, h⟩
  rw [List.mem_singleton.mp hx]
  refine ⟨by decide +kernel, fun k x hk => ?_⟩
  have e : ∀ y ∈ mach.h.mx.tiles.toList, y = none := by decide +kernel
  exact absurd (e _ (Vector.mem_toList_iff.mpr (Vector.mem_of_getElem? hk))) (by simp)

/-! ### Witnesses: steps that no word encodes -/

/-- What an option holds has a property that a check of it finds. -/
theorem some_of {α : Type} {p : α → Prop} [DecidablePred p] {o : Option α} (h : o.any (fun x => decide (p x)) = true) : ∃ x, o = some x ∧ p x := by
  cases o
  · cases h
  · exact ⟨_, rfl, of_decide_eq_true h⟩

/-- Entries that are there; an aligned offset and one that is not; the LROOT of the last partition; and the window before firmware runs. -/
theorem witness_OutsideWritesReachRegisters :
    let stuck (s : State) : Prop := s.h.vec.vstart ≠ 0 ∨ fieldOf s.h.vec.cpv0 63 1 = 1 ∨ s.h.vec.mf ≠ 0 ∨ ∃ p ∈ s.ca.parked, p.own = s.h.own
    (stuck (mach.onVec fun x => { x with vstart := 1 }) ∧ ¬ stuck mach)
      ∧ (∃ old, mach.dev.hdrop[(7 : BitVec 3).toNat]? = some old) ∧ (∃ old, mach.dev.clock[(7 : BitVec 3).toNat]? = some old)
      ∧ (0x704 % 8 ≠ 0 ∧ 0x708 % 8 = 0 ∧ 0x708 = 0x100 * 7 + 8 ∧ ∃ b, mach.rg.parts[7]? = some b)
      ∧ (State.reset.dev.boot.running = false ∧ 0x800 < 0x200000 ∧ 0x200018 ≤ 0x200018)
      ∧ ((0x1FF : BitVec 12).toNat < 0x200 ∧ (mach.hartAt 0).live = true ∧ (mach.hartAt 1).live = false) :=
  ⟨by decide +kernel, ⟨_, rfl⟩, ⟨_, rfl⟩, ⟨by decide, by decide, by decide, _, rfl⟩, by decide +kernel, by decide +kernel⟩

/-- A hart that waits at a tagged load. -/
def loading : State := (fill 0x1000 8 0x1000000016000842 mach).onDbg fun d => { d with stalled := true }

/-- Two elements of a tagged load that waits: its next element is loaded; and the last one, with which it completes. -/
theorem witness_VectorLoadsRead_tagged :
    let s := (shape 3 2 (fill 0x3000 8 0x100000 loading)).onCt fun c => { c with wm := c.wm.set 1 0x3000 }
    let u := s.setVstart 1
    let w := 0x1000000016000842
    let ok (s : State) (f : WFields) : Prop := fetchInstr s.h.sc.pc s = .ok (w, s) ∧ s.h.live = true ∧ s.h.dbg.halted = false
      ∧ s.h.dbg.stalled = true ∧ s.h.queue = [] ∧ WOp.vld.spec.op8 = 0x10 ∧ natField f.imm.toNat 12 4 ≠ 0 ∧ isPriv .vld = false
      ∧ s.singleFault .vld (semOf .vld) f = none ∧ s.isI .vld f = false ∧ fieldOf s.h.vec.cpv0 63 1 = 0 ∧ s.h.vec.vstart.toNat < s.vl
    ∃ f, decodeWord w = .ok (.wide .vld f) ∧ ok s f ∧ ok u f
      ∧ ((semOf .vld).run f { slot := 0, lo := 0, hi := 1, fed := s.vl } s).2 = .part 1 ∧ ((semOf .vld).run f { slot := 0, lo := 1, hi := 2, fed := u.vl } u).2 = .done :=
  ⟨_, rfl, ⟨gave (by decide +kernel), by decide +kernel⟩, ⟨gave (by decide +kernel), by decide +kernel⟩, by decide +kernel, by decide +kernel⟩

/-- No cause and one that waits in supervisor mode; a machine check before a lower code, and the lowest code in user mode; no raised source,
one in supervisor mode, and a checksum fault before a reach; a hart that compares and one that does not; partitions in test state and not;
a halted hart and a running one; the four kinds of DSEL; and a tagged load that waits, one that does not wait, and no load. -/
theorem witness_HartsTakeWhatIsPending :
    let raised := mach.onEv fun e => { e with mask := 12, checksum := [2], reach := [1] }
    let marks := mach.onEv fun e => { e with mask := 8 }
    let stepping := raised.onDbg fun d => { d with run := some false }
    let test : State := { mach with dev := { mach.dev with tstate := 1 } }
    let halted := test.onDbg fun d => { d with halted := true }
    let load := loading
    let inside := (fill 0x1000 8 (packW WOp.vadd.spec.op8 WOp.vadd.spec.func8 addF) mach).onVec fun x => { x with vstart := 1 }
    let compares (s : State) : Prop := s.h.live = true ∧ s.h.su.sup = false ∧ s.h.ev.mask.getLsbD 3 = true
    let waits (s : State) : Prop := s.h.live = true ∧ s.h.dbg.halted = false ∧ s.h.dbg.stalled = true ∧ s.h.queue = []
    let tagged (x : Slot) : Prop := x.op.spec.op8 = 0x10 ∧ natField x.f.imm.toNat 12 4 ≠ 0
    let idle := mach.onDbg fun d => { d with stalled := true }
    (mach.h.takable = none ∧ mach.h.queue = [] ∧ mach.h.loads = [] ∧ (pending [cause 32] (asSup mach)).h.takable = none
        ∧ (pending [cause 32, cause 35] (asSup mach)).h.takable = some (cause 35)
        ∧ (pending [cause 34, cause 33] mach).h.takable = some (cause 33) ∧ (cause 33).code ≠ 35)
      ∧ ((queued 1 (pending [cause 33] mach)).h.queue ≠ [] ∧ (stepping.h.dbg.run ≠ none ∧ stepping.atWait = false))
      ∧ ((∀ code n, ¬ mach.h.ev.First code n) ∧ (asSup raised).h.canDeliver = false ∧ inside.insideW = true)
      ∧ (raised.h.canDeliver = true ∧ raised.h.ev.First 3 2 ∧ raised.h.loads = [] ∧ raised.h.dbg.run = none ∧ raised.insideW = false)
      ∧ (compares (marks.switchTo 0) ∧ ¬ compares (mach.switchTo 0))
      ∧ (mach.testAt 0 = false ∧ test.testAt 0 = true ∧ (test.hartAt 0).dbg.halted = false ∧ (halted.hartAt 0).dbg.halted = true)
      ∧ (fieldOf (0 : Word) 62 2 = 0 ∧ fieldOf (2 ^ 62 : Word) 62 2 = 1 ∧ (fieldOf (2 ^ 63 + 255 * 2 ^ 16 : Word) 62 2 = 2
        ∧ fieldOf (2 ^ 63 + 255 * 2 ^ 16 : Word) 16 14 < 256) ∧ fieldOf (3 * 2 ^ 62 : Word) 62 2 = 3)
      ∧ (waits (load.switchTo 0) ∧ ∃ x, (load.switchTo 0).headW = some x ∧ tagged x)
      ∧ (¬ waits (mach.switchTo 0) ∧ ∀ x, (idle.switchTo 0).headW = some x → ¬ tagged x) := by
  refine ⟨by decide +kernel, by decide +kernel, ⟨fun code n h => ?_, by decide +kernel⟩,
    ⟨by decide +kernel, { enabled := rfl, raised := by decide, lowest := by decide +kernel, order := by decide +kernel }, by decide +kernel⟩, by decide +kernel,
    by decide +kernel, by decide +kernel, ⟨by decide +kernel, ?_⟩, by decide +kernel, fun x hx => ?_⟩
  · have := h.raised
    unfold Events.raised at this
    split at this <;> exact List.not_mem_nil (show n ∈ [] from this)
  · exact some_of (by decide +kernel)
  · have : ((mach.onDbg fun d => { d with stalled := true }).switchTo 0).headW = none := by decide +kernel
    rw [this] at hx
    cases hx

/-- A launch that waits to be placed, and a suspended context whose slot is taken. -/
def fresh : State := (tabled.submit 0 0x10000 (launchRec 0x1000)).1
def out : State :=
  let s := withLaunches [ours false] mach
  let p : Parked := { hid := 0, own := ⟨0, 1⟩, va := 0x2000, data := [1], elem := 0, root := 0x10000, sup := false, pc := 0x1000, col := false
                      level := 1, line := 0x400, reported := true, corr := 0, weak := [] }
  { s with ca := { s.ca with parked := [p] }, rg := { s.rg with suspended :=
    [{ own := ⟨0, 1⟩, lid := 1, prio := 0, lanes := 1, pc := 0x1000, scratch := 0, needG := none, pinned := none, whole := false
       root := 0x10000, parked := some 0, ct := Control.zero, pend := [], mmacs := 0, mirrored := 0 }] } }

/-- A record at the last port; writes that are short, not aligned, beyond the ports, and before boot; no entry, one that is placed, and one
whose slot is taken; a mark that is due and none; launches that are not there, that run, that have ended, and that are cancelled. -/
theorem witness_RegistrarPlacesAndCompletes :
    let good (off : Nat) (data : List Byte) (s : State) : Prop :=
      off % 0x1000 = 0 ∧ data.length = 64 ∧ off < 0x8000 ∧ s.dev.boot.running = true
    let z := List.replicate 64 (0 : Byte)
    let marked : State := { mach with h := { mach.h with mark := some 1 } }
    let due (h : Hart) : Prop := h.live = true ∧ h.mark ≠ none ∧ h.dbg.halted = false
    let ended := withLaunches [{ ours false with harts := 0 }] mach
    (good 0x7000 z mach ∧ ∃ b, mach.rg.parts[0x7000 / 0x1000]? = some b)
      ∧ (¬ good 0x7000 (z.take 63) mach ∧ ¬ good 0x7008 z mach ∧ ¬ good 0x8000 z mach ∧ ¬ good 0 z State.reset)
      ∧ (State.reset.dev.boot.running = false ∧ mach.firstReady 0 = none)
      ∧ (∃ e u, fresh.dev.boot.running = true ∧ fresh.firstReady 0 = some e ∧ fresh.placeEntry e = some u)
      ∧ (∃ e, out.dev.boot.running = true ∧ out.firstReady 0 = some e ∧ out.placeEntry e = none)
      ∧ (due (marked.hartAt 0) ∧ ¬ due (mach.hartAt 0))
      ∧ mach.openLaunch 0 1 = none
      ∧ (∃ l, (withLaunches [ours false] mach).openLaunch 0 1 = some l ∧ ¬ ((l.placed = true ∨ l.cancelled = true) ∧ l.harts = 0)
        ∧ l.cancelled = false)
      ∧ (∃ l, ended.openLaunch 0 1 = some l ∧ (l.placed = true ∨ l.cancelled = true) ∧ l.harts = 0 ∧ quadOf l.record 7 = 0)
      ∧ ((withLaunches [ours true] mach).openLaunch 0 1).all Launch.cancelled = true := by
  refine ⟨⟨by decide +kernel, _, rfl⟩, by decide +kernel, by decide +kernel, ?_, ?_, by decide +kernel, by decide +kernel, ⟨_, rfl, by decide +kernel⟩,
    ⟨_, rfl, by decide +kernel⟩, by decide +kernel⟩
  · obtain ⟨e, he, h⟩ := some_of (p := fun e => (fresh.placeEntry e).isSome = true) (o := fresh.firstReady 0) (by decide +kernel)
    obtain ⟨u, hu⟩ := Option.isSome_iff_exists.mp h
    exact ⟨e, u, by decide +kernel, he, hu⟩
  · obtain ⟨e, he, h⟩ := some_of (p := fun e => out.placeEntry e = none) (o := out.firstReady 0) (by decide +kernel)
    exact ⟨e, by decide +kernel, he, h⟩

/-- A launch that can be placed, one whose harts have ended, one that is open, and a mark that is due. -/
theorem witness_HartsEndAndServicesRun_registrar :
    let marked : State := { mach with h := { mach.h with mark := some 1 } }
    let ended := withLaunches [{ ours false with harts := 0 }] mach
    (fresh.dev.boot.running = true ∧ ∃ l, fresh.firstReady 0 = some (.fresh l) ∧ fresh.plan l ≠ [])
      ∧ ((marked.hartAt 0).live = true ∧ (marked.hartAt 0).mark ≠ none ∧ (marked.hartAt 0).dbg.halted = false)
      ∧ (∃ l, ended.openLaunch 0 1 = some l ∧ (l.placed = true ∨ l.cancelled = true) ∧ l.harts = 0)
      ∧ (∃ l, (withLaunches [ours false] mach).openLaunch 0 1 = some l ∧ l.cancelled = false) := by
  refine ⟨⟨by decide +kernel, ?_⟩, by decide +kernel, ⟨_, rfl, by decide +kernel⟩, ⟨_, rfl, by decide +kernel⟩⟩
  obtain ⟨e, he, h⟩ := some_of (p := fun e => (match e with
    | .fresh l => decide (fresh.plan l ≠ [])
    | .out _ _ => false) = true) (o := fresh.firstReady 0) (by decide +kernel)
  cases e with
  | fresh l => exact ⟨l, he, of_decide_eq_true h⟩
  | out c l => cases h

/-- A record that its port accepts; and a launch that is placed. -/
theorem witness_RegistrarPlacesAndCompletes_ports :
    let s : State := { tabled with rg := { tabled.rg with parts := tabled.rg.parts.set 0 { tabled.rg.parts[0] with lroot := 0x10000 } } }
    let data := leBytes 64 (launchRec 0x1000).toNat
    (0 % 0x1000 = 0 ∧ data.length = 64 ∧ 0 < 0x8000 ∧ s.dev.boot.running = true)
      ∧ (∃ b lid, s.rg.parts[0 / 0x1000]? = some b ∧ s.rg.nextLid[0 / 0x1000]? = some lid ∧ s.refusals 0 b.lroot (recordOf data) = []
        ∧ quadOf (recordOf data) 7 = 0 ∧ ∀ x ∈ s.rg.launches, x.part = 0 → x.lid = lid → x.fin = true)
      ∧ ∃ e l, fresh.firstReady 0 = some e ∧ e = .fresh l ∧ fresh.plan l ≠ [] := by
  refine ⟨by decide +kernel, ⟨_, _, rfl, rfl, by decide +kernel, by decide +kernel, by decide +kernel⟩, ?_⟩
  obtain ⟨l, h, p⟩ := witness_HartsEndAndServicesRun_registrar.1.2
  exact ⟨_, l, h, rfl, p⟩

/-! ### Witnesses: engines and collectives -/

/-- The record of a copy of n elements of 8 bytes. -/
def copyRec (src dst n : Nat) : List Nat := [1 + 2 ^ 16 + 3 * 2 ^ 32, src, dst, n, 0, 0, 0, 0]
/-- The command of such a copy. -/
def copyCmd (src dst n : Nat) : Command := cmd (.copy 0) (copyRec src dst n)
/-- A copy whose nest block is at an address. -/
def nestCmd (va : Nat) : Command := cmd (.copy 0) [1 + 3 * 2 ^ 16 + 3 * 2 ^ 32, 0x2000, 0x3000, 2 ^ 32 + 1, 0, 0, va, 0]
/-- A command that binds the record at an address. -/
def bindCmd (va : Nat) : Command := cmd (.spill 0) [3, va, 0, 0, 0, 0, 0, 0]
/-- A state whose hart 0 has one command. -/
def has (c : Command) : State := withCmds [c] mach

/-- No command, one that a fault holds, one at its end and one that goes on; a bind that waited, while another context bound its record or not;
and a command with a wrong bit in its words. -/
theorem witness_EnginesPerformCommands :
    let c := copyCmd 0x2000 0x3000 1
    let e : Command := { c with ending := some ⟨1, 0, 0, none⟩ }
    let b : Command := { bindCmd 0x2000 with ending := some ⟨1, 0, 0, some (some 0x2000)⟩ }
    let waits (va : Nat) : Command := { c with held := some (BitVec.ofNat 64 va) }
    let cmpl (va : Nat) : Command := cmd (.copy 0) [1, 0, 0, 0, 0, 0, 0, va]
    let marred : Command := { c with weak := [0] }
    let other : State := (has b).onUn fun u => { u with binds := [(⟨0, 1⟩, 0x2000)] }
    let pinned : State := { has (cmpl 0x7000) with ca := { mach.ca with pins := [⟨0x7000, ⟨0, 1⟩, none, none⟩] } }
    (mach.command ⟨0, 0⟩ (0 : BitVec 8).toNat = none
        ∧ ((has (waits 0x2000)).command ⟨0, 0⟩ (0 : BitVec 8).toNat = some (waits 0x2000) ∧ (waits 0x2000).held ≠ none)
        ∧ ((has e).command ⟨0, 0⟩ (0 : BitVec 8).toNat = some e ∧ e.weak = [] ∧ e.held = none ∧ e.ending = some ⟨1, 0, 0, none⟩)
        ∧ (other.command ⟨0, 0⟩ (0 : BitVec 8).toNat = some b ∧ other.boundElsewhere b 0x2000 = true ∧ (has b).boundElsewhere b 0x2000 = false)
        ∧ ((has marred).command marred.own marred.pos = some marred ∧ ∃ x, (has marred).dev.tele[marred.hid.isle]? = some x))
      ∧ (mach.remapPending c.own true = false ∧ mach.cmplState c = .ok ∧ c.q 7 = 0)
      ∧ ((cmpl 0x7000).q 7 ≠ 0 ∧ ((cmpl 0x7000).q 7).toNat % 16 = 0 ∧ EngineOpen mach (cmpl 0x7000) .store ((cmpl 0x7000).q 7) 16 (spot 0x7000)
        ∧ NoWatch mach ∧ mach.mem.wf)
      ∧ (pinned.command ⟨0, 0⟩ 0 = some (cmpl 0x7000) ∧ pinned.cmplState (cmpl 0x7000) = .wait)
      ∧ mach.cmplState (cmpl 0x80000000000) = .absent 0x80000000000 1
      ∧ (∃ x, mach.translate (waits 0x80000000000).space .load 0x80000000000 = .error x ∧ x.code = 9)
      ∧ ∀ x, mach.translate (waits 0x2000).space .load 0x2000 ≠ .error x := by
  refine ⟨⟨by decide +kernel, by decide +kernel, by decide +kernel, by decide +kernel, by decide +kernel, _, rfl⟩, by decide +kernel,
    ⟨by decide, by decide, engineOpen (by decide +kernel), Alone.watch (by decide +kernel), by decide +kernel⟩,
    by decide +kernel, by decide +kernel, ⟨{ code := 9, sub := 1, level := 1, entry := 0x10010 }, by decide +kernel, rfl⟩, fun x h => ?_⟩
  have e : mach.translate ⟨0, 0x10000, false, []⟩ .load 0x2000 = .ok (spot 0x2000) := by decide +kernel
  cases e.symm.trans h

/-- A copy at the position of hart 0. -/
abbrev Copies (s : State) (c : Command) : Prop :=
  s.command ⟨0, 0⟩ (0 : BitVec 8).toNat = some c ∧ c.engine = .copy 0 ∧ c.held = none ∧ c.ending = none ∧ c.weak = []

/-- A copy of one element whose source is to be read, whose destination is to be written, and all of whose elements are written; and nest
blocks that are absent, that fault, that are poisoned, that are bad, and that are formed. -/
theorem witness_EnginesPerformCommands_copies :
    let c := copyCmd 0x2000 0x3000 1
    let read : Command := { c with taken := [(0, 5, false)] }
    let done : Command := { c with copied := [0] }
    let ps : List (Word × Word) := [(0x2000, 0x3000)]
    let moves (c : Command) : List CopyMove := copyMoves ((has c).copyPlaces c ps) c
    let nest (va : Nat) : State := has (nestCmd va)
    let bad : State := quads 0x4000 [2 ^ 32] (nest 0x4000)
    let good : State := quads 0x4000 [1] (nest 0x4000)
    let spoilt : State := { nest 0x4000 with ca := { (nest 0x4000).ca with poison := [0x800] } }
    let found (s : State) (va : Nat) : Reach := s.reach (nestCmd va).space 8 (quadAddrs ((nestCmd va).q 6) 8) [] false
    let given (s : State) : State × List Word × Option Word := s.engineQuads (nestCmd 0x4000) 0x4000 8
    (Copies (has c) c ∧ fieldOf (c.q 0) 16 8 < 3 ∧ copyPairs c.q [] = ps ∧ moves c = [.take 0] ∧ c.copied = [] ∧ c.taken = []
        ∧ EngineOpen (has c) c .load 0x2000 8 (spot 0x2000) ∧ NoWatch (has c))
      ∧ (Copies (has read) read ∧ moves read = [.put 0 (5, false)] ∧ read.copied = [] ∧ read.taken = [(0, 5, false)] ∧ read.spoilt = none ∧ read.q 7 = 0
        ∧ EngineOpen (has read) read .store 0x3000 8 (spot 0x3000) ∧ NoWatch (has read) ∧ (has read).mem.wf ∧ (has read).outstanding = [])
      ∧ (Copies (has done) done ∧ moves done = [])
      ∧ (Copies (nest 0x80000000000) (nestCmd 0x80000000000) ∧ 3 ≤ fieldOf ((nestCmd 0).q 0) 16 8
        ∧ ∃ xs, found (nest 0x80000000000) 0x80000000000 = .absent xs)
      ∧ found (nest 0x40000000000) 0x40000000000 = .fault 0x40000000000
      ∧ (found spoilt 0x4000 = .ok ∧ (given spoilt).2.2 = some 0x4000)
      ∧ (found bad 0x4000 = .ok ∧ (given bad).2.2 = none ∧ nestBad 3 (given bad).2.1 = true)
      ∧ (found good 0x4000 = .ok ∧ (given good).2.2 = none ∧ nestBad 3 (given good).2.1 = false) := by
  refine ⟨⟨by decide +kernel, by decide, by decide +kernel, by decide +kernel, rfl, rfl, engineOpen (by decide +kernel),
      Alone.watch (by decide +kernel)⟩,
    ⟨by decide +kernel, by decide +kernel, rfl, rfl, rfl, by decide, engineOpen (by decide +kernel), Alone.watch (by decide +kernel),
      by decide +kernel, rfl⟩,
    by decide +kernel, ⟨by decide +kernel, by decide, ?_⟩, by decide +kernel, by decide +kernel, by decide +kernel, by decide +kernel⟩
  exact ⟨(List.range 8).map fun i => (BitVec.ofNat 64 (0x80000000000 + 8 * i), 1, false), by decide +kernel⟩

/-- Elements of a copy: a read whose value an earlier element has and one that reads memory; a write that a later element has made void and one
that has not; a value that was poisoned; and addresses that are absent, that fault, and that a pin holds. -/
theorem witness_EnginesPerformCommands_elements :
    let chain : List (Word × Word) := [(0x2000, 0x3000), (0x3000, 0x4000)]
    let twice : List (Word × Word) := [(0x2000, 0x3000), (0x2008, 0x3000)]
    let c := copyCmd 0x2000 0x3000 1
    let held : Command := { c with taken := [(0, 5, false)] }
    let pair : Command := { copyCmd 0x2000 0x3000 2 with taken := [(0, 5, true)], copied := [1] }
    let first : Command := { copyCmd 0x2000 0x3000 2 with taken := [(0, 5, true)] }
    let pinned : State := { has c with ca := { (has c).ca with pins := [⟨0x3000, ⟨0, 1⟩, none, none⟩] } }
    let reads (p : Word) : Reach := (has c).reach c.space 8 [(p, false)] [] false
    let writes (s : State) (p : Word) : Reach := s.reach c.space 8 [(p, true)] [] false
    let void (s : State) (c : Command) : Prop := ∃ j ∈ c.copied, 0 < j
      ∧ ((s.copyPlaces c twice).getD j (none, none)).2 = ((s.copyPlaces c twice).getD 0 (none, none)).2
    ((has held).command held.own held.pos = some held ∧ copyFrom ((has held).copyPlaces held chain) held 1 1 = .inr (5, false)
        ∧ copyFrom ((has c).copyPlaces c chain) c 1 1 = .inl 0 ∧ chain[0]? = some (0x2000, 0x3000))
      ∧ (reads 0x80000000000 = .absent [(0x80000000000, 1, false)] ∧ reads 0x40000000000 = .fault 0x40000000000)
      ∧ (EngineOpen (has c) c .load 0x2000 8 (spot 0x2000) ∧ NoWatch (has c))
      ∧ (writes (has c) 0x80000000000 = .absent [(0x80000000000, 1, true)] ∧ writes (has c) 0x40000000000 = .fault 0x40000000000
        ∧ writes pinned 0x3000 = .wait)
      ∧ (twice[0]? = some (0x2000, 0x3000) ∧ void (has pair) pair ∧ ¬ void (has first) first
        ∧ (has first).command first.own first.pos = some first ∧ first.copied.length + 1 < twice.length ∧ first.spoilt = none ∧ pair.q 7 = 0)
      ∧ EngineOpen (has first) first .store 0x3000 8 (spot 0x3000) ∧ EngineOpen (has pair) pair .store 0x3000 8 (spot 0x3000)
      ∧ NoWatch (has first) ∧ (has first).mem.wf :=
  ⟨by decide +kernel, by decide +kernel, ⟨engineOpen (by decide +kernel), Alone.watch (by decide +kernel)⟩, by decide +kernel, by decide +kernel,
    engineOpen (by decide +kernel), engineOpen (by decide +kernel), Alone.watch (by decide +kernel), by decide +kernel⟩

/-- A copy of two elements, the second of which reads what the first writes: what it may do in each state of its progress. -/
theorem test_copy_moves :
    let c := copyCmd 0x2000 0x3000 2
    let xs : List (Option Nat × Option Nat) := [(some 0x2000, some 0x3000), (some 0x3000, some 0x2000)]
    copyMoves xs c = [.take 0, .take 1] ∧ copyMoves xs { c with taken := [(1, 7, false)] } = [.take 0]
      ∧ copyMoves xs { c with taken := [(0, 5, false), (1, 7, false)] } = [.put 0 (5, false), .put 1 (7, false)]
      ∧ copyFrom xs { c with taken := [(0, 5, false)] } 1 1 = .inr (5, false) := by decide +kernel

/-- An unbind, a bind of an absent page, of device space and of a record; one that is poisoned; and one that another context has bound. -/
theorem witness_EnginesPerformCommands_binds :
    let at_ (va : Nat) (s : State) : Prop := s.command ⟨0, 0⟩ (0 : BitVec 8).toNat = some (bindCmd va) ∧ (bindCmd va).engine = .spill 0
      ∧ (bindCmd va).held = none ∧ (bindCmd va).ending = none ∧ (bindCmd va).weak = []
    let binds (va : Nat) : State := withCmds [bindCmd va] (stacked 0x80 0 0)
    let other := (binds 0x2000).onUn fun u => { u with binds := [(⟨0, 1⟩, 0x2000)] }
    let spoilt : State := { binds 0x2000 with ca := { (binds 0x2000).ca with poison := [0x400] } }
    let there (va : Nat) (p : Place) (s : State) : Prop := at_ va s ∧ (bindCmd va).q 1 ≠ 0
      ∧ s.translate (bindCmd va).space .load ((bindCmd va).q 1) = .ok p
    let ready (s : State) : Prop := s.reach (bindCmd 0x2000).space 8 (quadAddrs ((bindCmd 0x2000).q 1) 8) [] false = .ok
    let r (s : State) := s.engineQuads (bindCmd 0x2000) ((bindCmd 0x2000).q 1) 8
    let taken (s : State) : Prop := stackBad ((bindCmd 0x2000).q 1) (r s).2.1 = true ∨ ∃ b ∈ s.un.binds, b.2 = 0x2000 ∧ b.1 ≠ ⟨0, 0⟩
    (at_ 0 (binds 0) ∧ (bindCmd 0).q 1 = 0)
      ∧ (at_ 0x80000000000 (binds 0x80000000000)
        ∧ ∃ x, (binds 0x80000000000).translate (bindCmd 0x80000000000).space .load ((bindCmd 0x80000000000).q 1) = .error x ∧ x.code = 9)
      ∧ (there 0x40000000000 (port 0) (binds 0x40000000000) ∧ (port 0).mt ≠ 0)
      ∧ (there 0x2000 (spot 0x2000) (binds 0x2000) ∧ (spot 0x2000).mt = 0 ∧ ready (binds 0x2000) ∧ (r (binds 0x2000)).2.2 = none ∧ ¬ taken (binds 0x2000))
      ∧ (there 0x2000 (spot 0x2000) spoilt ∧ ready spoilt ∧ (r spoilt).2.2 = some 0x2000)
      ∧ (there 0x2000 (spot 0x2000) other ∧ ready other ∧ (r other).2.2 = none ∧ taken other) := by
  refine ⟨by decide +kernel, ⟨by decide +kernel, { code := 9, sub := 1, level := 1, entry := 0x10010 }, by decide +kernel, rfl⟩, by decide +kernel,
    by decide +kernel, by decide +kernel, by decide +kernel⟩
/-- A collective command of rank 0 whose one step is with rank 1, with the TIMEOUT given. -/
def coll (sop link len timeout : Nat) : Command :=
  { cmd (.collective 0) [2, 0x2000, 0x3000, 0x8000, 1, timeout * 2 ^ 32 + 7, 0, 0] with
    sched := [(BitVec.ofNat 64 (sop + 16 + link * 2 ^ 16), BitVec.ofNat 64 len)], ranks := 2 }
/-- The command of rank 1, in another context of the isle, whose one step is with rank 0. -/
def mate (sop : Nat) : Command :=
  { coll sop 0xFF 0 0 with own := ⟨0, 1⟩, myRank := 1, sched := [(BitVec.ofNat 64 (sop + 0xFF * 2 ^ 16), 0)] }
/-- The step of `coll`. -/
def collStep (sop link len : Nat) : Step := { sop := sop, peer := 1, link := link, win := 0, off := 0, len := len }
/-- A state with commands, and with its first port lost or not. -/
def joint (lost : Bool) (cs : List Command) : State :=
  let s := withCmds cs mach
  { s with dev := { s.dev with port := s.dev.port.set 0 { locked := true, replays := 0, lost := lost } } }
/-- A receive window of a command for its peer. -/
def window (own : CtxRef) (peer : Nat) (full : Option (Nat × List Byte)) : Window :=
  { own := own, pos := 0, isle := 0, win := 0, peer := peer, len := 1, size := 8, full := full }
/-- A state with a window. -/
def withWindow (w : Window) (s : State) : State := s.onUn fun u => { u with windows := [w] }

/-- The port 17 with a word from rank 1 that its window is there, or with its token, and port p in a given state. -/
def heard (token : Bool) (s : State) : State :=
  let w : PeerWord := ⟨17, 7, 1, 0⟩
  let d := s.dev
  { s.onUn (fun u => if token then { u with tokens := [w] } else { u with ready := [w] }) with
    dev := { d with port := d.port.set 17 { locked := true, replays := 0, lost := false } } }
/-- A machine whose port 17 has no lock. -/
def dark : State := { mach with dev := { mach.dev with port := mach.dev.port.set 17 { locked := false, replays := 0, lost := false } } }
/-- A collective command with a second step like its first, in a set of ranks that contribute. -/
def coll2 (sop link len timeout mask : Nat) : Command :=
  { cmd (.collective 0) [2, 0x2000, 0x3000, 0x8000, mask, timeout * 2 ^ 32 + 7, 0, 0] with
    sched := List.replicate 2 (BitVec.ofNat 64 (sop + 16 + link * 2 ^ 16), BitVec.ofNat 64 len), ranks := 2 }
/-- A state in which hart 0 has that command. -/
def going (sop link len timeout mask : Nat) : State := joint false [coll2 sop link len timeout mask]
/-- A state whose peer has a window for it. -/
def roomy : State := withWindow (window ⟨0, 1⟩ 0 none) (joint false [coll2 0 0xFF 1 0 1, mate 1])

/-- A hart 0 with a window of its command for rank 1, empty or with data. -/
def waits (full : Option (Nat × List Byte)) (s : State) : State := withWindow (window ⟨0, 0⟩ 1 full) s
/-- A machine whose straits link between isles 0 and 1 is lost. -/
def severed (c : Command) : State :=
  { joint false [c] with dev := { mach.dev with straits := [((0, 1), { locked := false, replays := 0, lost := true })] } }
/-- Eight bytes of data. -/
def eight : List Byte := [1, 2, 3, 4, 5, 6, 7, 8]
/-- The command at the position of hart 0 and its current step. -/
abbrev AtStep (s : State) (c : Command) (x : Step) : Prop := s.currentStep ⟨0, 0⟩ 0 = some (c, x) ∧ c.weak = []
/-- It has a step after that one, and no link of it is lost. -/
abbrev Passes (s : State) (c : Command) (x : Step) : Prop :=
  AtStep s c x ∧ c.prog + 1 < c.sched.length ∧ c.taken = [] ∧ c.copied = [] ∧ c.spoilt = none ∧ s.lostStep c = none
    ∧ (x.sop ≠ 3 → s.linkLost c x = false)

/-- A held command whose page is there; an unbind; and a copy of one element, to be read and to be written. -/
theorem witness_EngineCompletionIsObserved_units :
    let held : Command := { copyCmd 0x2000 0x3000 1 with held := some 0x2000 }
    let c := copyCmd 0x2000 0x3000 1
    let read : Command := { c with taken := [(0, 5, false)] }
    ((has held).command ⟨0, 0⟩ (0 : BitVec 8).toNat = some held ∧ held.held = some 0x2000
        ∧ (has held).translate held.space .load 0x2000 = .ok (spot 0x2000))
      ∧ ((has (bindCmd 0)).command ⟨0, 0⟩ (0 : BitVec 8).toNat = some (bindCmd 0) ∧ (bindCmd 0).engine = .spill 0 ∧ (bindCmd 0).held = none
        ∧ (bindCmd 0).ending = none ∧ (bindCmd 0).q 1 = 0 ∧ (bindCmd 0).q 7 = 0 ∧ (has (bindCmd 0)).remapPending ⟨0, 0⟩ true = false)
      ∧ (Copies (has c) c ∧ fieldOf (c.q 0) 16 8 < 3 ∧ copyPairs c.q [] = [(0x2000, 0x3000)] ∧ c.copied = [] ∧ c.taken = []
        ∧ EngineOpen (has c) c .load 0x2000 8 (spot 0x2000) ∧ NoWatch (has c))
      ∧ (Copies (has read) read ∧ fieldOf (read.q 0) 16 8 < 3 ∧ copyPairs read.q [] = [(0x2000, 0x3000)] ∧ read.copied = []
        ∧ read.taken = [(0, 5, false)] ∧ read.spoilt = none ∧ read.q 7 = 0 ∧ EngineOpen (has read) read .store 0x3000 8 (spot 0x3000)
        ∧ NoWatch (has read) ∧ (has read).mem.wf ∧ (has read).outstanding = []) :=
  ⟨by decide +kernel, by decide +kernel,
    ⟨by decide +kernel, by decide, by decide +kernel, rfl, rfl, engineOpen (by decide +kernel), Alone.watch (by decide +kernel)⟩,
    by decide +kernel, by decide, by decide +kernel, rfl, rfl, rfl, by decide, engineOpen (by decide +kernel), Alone.watch (by decide +kernel),
    by decide +kernel, rfl⟩

/-- A step of each kind that goes on to the next; a wait that is too long; and an abort of a collective. -/
theorem witness_EngineCompletionIsObserved_steps :
    let fill_ := going 3 0xFF 1 0 0
    let recv (sop : Nat) : State := waits (some (1, eight)) (going sop 0xFF 1 0 1)
    let sent : Command := { coll2 4 17 0 0 1 with token := true }
    let late := going 1 0xFF 1 9 1
    (Passes fill_ (coll2 3 0xFF 1 0 0) (collStep 3 0xFF 1) ∧ ((coll2 3 0xFF 1 0 0).q 4).getLsbD 0 = false
        ∧ EngineOpen fill_ (coll2 3 0xFF 1 0 0) .store 0x3000 8 (spot 0x3000) ∧ NoWatch fill_ ∧ fill_.mem.wf)
      ∧ (∀ sop, sop = 1 ∨ sop = 2 → Passes (recv sop) (coll2 sop 0xFF 1 0 1) (collStep sop 0xFF 1)
        ∧ ((recv sop).takeIn (coll2 sop 0xFF 1 0 1) (collStep sop 0xFF 1) none).arrived (coll2 sop 0xFF 1 0 1) (collStep sop 0xFF 1) = some (1, eight)
        ∧ EngineOpen (recv sop) (coll2 sop 0xFF 1 0 1) .store 0x3000 8 (spot 0x3000)
        ∧ EngineOpen (recv sop) (coll2 sop 0xFF 1 0 1) .load 0x3000 8 (spot 0x3000) ∧ NoWatch (recv sop) ∧ (recv sop).mem.wf)
      ∧ (Passes roomy (coll2 0 0xFF 1 0 1) (collStep 0 0xFF 1) ∧ (coll2 0 0xFF 1 0 1).isleOf 0xFF = some 0
        ∧ roomy.peerWindow (coll2 0 0xFF 1 0 1) (collStep 0 0xFF 1) 0 = some (window ⟨0, 1⟩ 0 none)
        ∧ EngineOpen roomy (coll2 0 0xFF 1 0 1) .load 0x3000 8 (spot 0x3000) ∧ NoWatch roomy)
      ∧ (let u := heard true (joint false [sent])
         Passes u sent (collStep 4 17 0) ∧ sent.isleOf 17 = none ∧ sent.token = true ∧ sent.word (collStep 4 17 0) ∈ u.un.tokens)
      ∧ (Passes late (coll2 1 0xFF 1 9 1) (collStep 1 0xFF 1) ∧ (collStep 1 0xFF 1).receives = true ∧ fieldOf ((coll2 1 0xFF 1 9 1).q 5) 32 32 ≠ 0
        ∧ late.windowFull (coll2 1 0xFF 1 9 1) (collStep 1 0xFF 1) = none ∧ (coll2 1 0xFF 1 9 1).q 7 = 0 ∧ late.outstanding = []
        ∧ (coll2 1 0xFF 1 9 1).hid.isle = (0 : BitVec 3).toNat ∧ ∀ d ∈ late.un.cmds, d.collid = (coll2 1 0xFF 1 9 1).collid → d.q 7 = 0)
      ∧ ((17 : BitVec 5).toNat < 18 ∧ (dark.linkOf (.causeway 17)).dead = true) := by
  refine ⟨⟨by decide +kernel, by decide +kernel, engineOpen (by decide +kernel), Alone.watch (by decide +kernel), by decide +kernel⟩, fun sop h => ?_,
    ⟨by decide +kernel, rfl, by decide +kernel, engineOpen (by decide +kernel), Alone.watch (by decide +kernel)⟩,
    by decide +kernel, by decide +kernel, by decide +kernel⟩
  rcases h with rfl | rfl <;>
    exact ⟨by decide +kernel, by decide +kernel, engineOpen (by decide +kernel), engineOpen (by decide +kernel), Alone.watch (by decide +kernel),
      by decide +kernel⟩

/-- A causeway port that a step names is lost, a straits link of the current step is lost, and no link is lost; and the kinds of step. -/
theorem witness_CollectivesFollowTheirSchedule :
    let named (s : State) (c : Command) : Prop := ∃ y ∈ c.remaining, y.sop ≠ 3 ∧ y.link ≤ 17 ∧ s.linkLost c y = true
    let lost (s : State) (c : Command) (x : Step) : Prop := x.sop ≠ 3 ∧ s.linkLost c x = true
    let port := coll 1 0 1 0
    let across := coll 1 0x21 1 0
    (AtStep (joint true [port]) port (collStep 1 0 1) ∧ named (joint true [port]) port)
      ∧ (AtStep (severed across) across (collStep 1 0x21 1) ∧ ¬ named (severed across) across ∧ lost (severed across) across (collStep 1 0x21 1))
      ∧ (∀ sop, sop ≤ 4 → AtStep (joint false [coll sop 0 1 0]) (coll sop 0 1 0) (collStep sop 0 1)
        ∧ ¬ named (joint false [coll sop 0 1 0]) (coll sop 0 1 0) ∧ ¬ lost (joint false [coll sop 0 1 0]) (coll sop 0 1 0) (collStep sop 0 1)) := by
  refine ⟨by decide +kernel, by decide +kernel, fun sop h => ?_⟩
  interval_cases sop <;> decide +kernel

/-- A step that writes its chunk: with an element left, its last or not, and with none left; and addresses that are there, that are absent, that
fault, and that a pin holds. -/
theorem witness_CollectivesFollowTheirSchedule_writes :
    let one := coll 3 0xFF 1 0
    let two := coll 3 0xFF 2 0
    let done : Command := { one with copied := [0] }
    let from_ (src dst : Nat) : Command := { one with record := (cmd (.collective 0) [2, src, dst, 0x8000, 1, 7, 0, 0]).record }
    let found (s : State) (c : Command) (x : Step) : Reach := s.reach c.space c.elemBytes (c.workAddrs x (c.work x []) 0) [] false
    let left (c : Command) (x : Step) : Prop := ∃ e, e < x.len ∧ e ∉ c.copied
    (AtStep (joint false [done]) done (collStep 3 0xFF 1) ∧ (∀ e, e < 1 → e ∈ done.copied) ∧ 1 ≤ done.copied.length)
      ∧ (AtStep (joint false [one]) one (collStep 3 0xFF 1) ∧ left one (collStep 3 0xFF 1) ∧ found (joint false [one]) one (collStep 3 0xFF 1) = .ok)
      ∧ (AtStep (joint false [two]) two (collStep 3 0xFF 2) ∧ left two (collStep 3 0xFF 2) ∧ (two.copied.length + 1 < (collStep 3 0xFF 2).len)
        ∧ found (joint false [two]) two (collStep 3 0xFF 2) = .ok)
      ∧ found mach (from_ 0x80000000000 0x3000) (collStep 3 0xFF 1) = .absent [(0x80000000000, 1, false)]
      ∧ found mach (from_ 0x2000 0x40000000000) (collStep 3 0xFF 1) = .fault 0x40000000000
      ∧ found { mach with ca := { mach.ca with pins := [⟨0x3000, ⟨0, 1⟩, none, none⟩] } } one (collStep 3 0xFF 1) = .wait :=
  ⟨⟨by decide +kernel, by decide, by decide⟩, ⟨by decide +kernel, ⟨0, by decide⟩, by decide +kernel⟩,
    ⟨by decide +kernel, ⟨1, by decide⟩, by decide, by decide +kernel⟩, by decide +kernel, by decide +kernel, by decide +kernel⟩

/-- Data that has not come, that is of another length, and that fits, from a window of the isle and from a port. -/
theorem witness_CollectivesFollowTheirSchedule_receives :
    let gave (s : State) (c : Command) (x : Step) (inc : Option (List Byte)) : Option (Nat × List Byte) := (s.takeIn c x inc).arrived c x
    ∀ sop, sop = 1 ∨ sop = 2 →
      let near := coll sop 0xFF 1 0
      let far := coll sop 0 1 0
      let s := waits none (joint false [far])
      (AtStep (joint false [near]) near (collStep sop 0xFF 1) ∧ gave (joint false [near]) near (collStep sop 0xFF 1) none = none)
        ∧ (AtStep s far (collStep sop 0 1) ∧ gave s far (collStep sop 0 1) none = none
          ∧ gave s far (collStep sop 0 1) (some (eight ++ eight)) = some (2, eight ++ eight)
          ∧ gave s far (collStep sop 0 1) (some eight) = some (1, eight))
        ∧ gave (waits (some (1, eight)) (joint false [near])) near (collStep sop 0xFF 1) none = some (1, eight) := by
  intro _ sop h
  rcases h with rfl | rfl <;> decide +kernel

/-- A send whose peer has no window, and one that has; one to a port that may not go, and one that may; with elements to be read, the last or not,
and with all of them read, poisoned or not; and a chunk that is absent, and one that faults. -/
theorem witness_CollectivesFollowTheirSchedule_sends :
    let c := coll 0 0xFF 1 0
    let read : Command := { c with taken := [(0, 5, false)] }
    let spoilt : Command := { read with spoilt := some (0, 0x3000) }
    let port := coll 0 17 1 0
    let room (c : Command) : State := withWindow (window ⟨0, 1⟩ 0 none) (joint false [c, mate 1])
    let x := collStep 0 0xFF 1
    let up (s : State) : Prop := port.word (collStep 0 17 1) ∈ s.un.ready ∧ s.portUp 17 = true
    let reads (s : State) (c : Command) (va : Word) : Reach := s.reach c.space c.elemBytes [(va, false)] [] false
    let left (c : Command) (n : Nat) : Prop := ∃ j, j < n ∧ ∀ y ∈ c.taken, y.1 ≠ j
    (AtStep (joint false [c]) c x ∧ c.isleOf 0xFF = some 0 ∧ (joint false [c]).peerWindow c x 0 = none)
      ∧ (AtStep (room c) c x ∧ (room c).peerWindow c x 0 = some (window ⟨0, 1⟩ 0 none) ∧ left c 1 ∧ left { c with taken := [] } 2
        ∧ reads (room c) c (c.chunk (c.q 2) x 0) = .ok)
      ∧ (AtStep (room read) read x ∧ (room read).peerWindow read x 0 = some (window ⟨0, 1⟩ 0 none) ∧ (∀ j, j < 1 → ∃ y ∈ read.taken, y.1 = j)
        ∧ 1 ≤ read.taken.length ∧ read.spoilt = none)
      ∧ (AtStep (room spoilt) spoilt x ∧ 1 ≤ spoilt.taken.length ∧ spoilt.spoilt = some (0, 0x3000))
      ∧ (reads mach c 0x80000000000 = .absent [(0x80000000000, 1, false)] ∧ reads mach c 0x40000000000 = .fault 0x40000000000)
      ∧ (AtStep (joint false [port]) port (collStep 0 17 1) ∧ port.isleOf 17 = none ∧ ¬ up (joint false [port])
        ∧ AtStep (heard false (joint false [port])) port (collStep 0 17 1) ∧ up (heard false (joint false [port]))) :=
  ⟨by decide +kernel, ⟨by decide +kernel, by decide +kernel, ⟨0, by decide⟩, ⟨1, by decide⟩, by decide +kernel⟩, by decide +kernel, by decide +kernel,
    by decide +kernel, by decide +kernel⟩

/-- A token over a port that does not meet its peer's, and one that does; and two ranks of an isle at their token, one of them elsewhere, and one
ended. Waits that are too long or not; aborts that end a rank and that find none; a port that is lost and one that is not; and steps that are done,
with a next step, with none, and poisoned. -/
theorem witness_CollectivesFollowTheirSchedule_rest :
    let c := coll 4 0 0 0
    let out : Command := { coll 4 17 0 0 with token := true }
    let pair (d : Command) : State := joint false [coll 4 0xFF 0 0, d]
    let meets_ (d : Command) (y : Step) : Prop := y.sop = 4 ∧ y.peer = (coll 4 0xFF 0 0).myRank ∧ y.win = (collStep 4 0xFF 0).win ∧ d.ending = none
      ∧ ¬ (d.own = (coll 4 0xFF 0 0).own ∧ d.pos = (coll 4 0xFF 0 0).pos)
    let over_ : Command := { mate 4 with ending := some ⟨2, 0x2000, 0, none⟩ }
    let late (s : State) (c : Command) (x : Step) : Prop := x.receives = true ∧ fieldOf (c.q 5) 32 32 ≠ 0 ∧ s.windowFull c x = none
    let taking (s : State) (d : Command) : Prop :=
      d ∈ s.un.cmds ∧ d.hid.isle = (0 : BitVec 3).toNat ∧ d.collid = 7 ∧ d.prog < d.sched.length ∧ d.ending = none
    let spoilt : Command := { coll2 3 0xFF 1 0 1 with spoilt := some (0, 0x2000) }
    (AtStep (joint false [c]) c (collStep 4 0 0) ∧ c.isleOf 0 = none ∧ c.word (collStep 4 0 0) ∉ (joint false [c]).un.tokens)
      ∧ (AtStep (heard true (joint false [out])) out (collStep 4 17 0) ∧ out.word (collStep 4 17 0) ∈ (heard true (joint false [out])).un.tokens)
      ∧ (∀ d : Command, d = mate 4 ∨ d = mate 1 ∨ d = over_ → AtStep (pair d) (coll 4 0xFF 0 0) (collStep 4 0xFF 0)
        ∧ (pair d).rankAt (coll 4 0xFF 0 0) 0 1 = some d ∧ ∃ y, d.remaining.head? = some y ∧ (meets_ d y ↔ d = mate 4))
      ∧ (late (joint false [coll 1 0xFF 1 9]) (coll 1 0xFF 1 9) (collStep 1 0xFF 1)
        ∧ ¬ late (waits (some (1, eight)) (joint false [coll 1 0xFF 1 9])) (coll 1 0xFF 1 9) (collStep 1 0xFF 1))
      ∧ (taking (joint false [c]) c ∧ ∀ d, ¬ taking mach d)
      ∧ ((coll 4 17 0 0).q 7 = 0 ∧ (∃ y ∈ (coll 4 17 0 0).remaining, y.sop ≠ 3 ∧ y.link = (17 : BitVec 5).toNat)
        ∧ (17 : BitVec 5).toNat < 18 ∧ (dark.linkOf (.causeway 17)).dead = true ∧ (withCmds [coll 4 17 0 0] dark).outstanding = []
        ∧ 18 ≤ (18 : BitVec 5).toNat ∧ ((heard true mach).linkOf (.causeway 17)).dead = false)
      ∧ ((going 1 0xFF 1 0 1).command ⟨0, 0⟩ 0 = some (coll2 1 0xFF 1 0 1) ∧ (coll2 1 0xFF 1 0 1).prog + 1 < (coll2 1 0xFF 1 0 1).sched.length
        ∧ (joint false [c]).command ⟨0, 0⟩ 0 = some c ∧ c.sched.length ≤ c.prog + 1 ∧ c.q 7 = 0 ∧ (joint false [c]).remapPending c.own true = false
        ∧ (joint false [spoilt]).command ⟨0, 0⟩ 0 = some spoilt ∧ spoilt.spoilt = some (0, 0x2000)) := by
  refine ⟨by decide +kernel, by decide +kernel, fun d h => ?_, by decide +kernel, ⟨by decide +kernel, fun d h => nomatch h.1⟩, by decide +kernel,
    by decide +kernel⟩
  rcases h with rfl | rfl | rfl <;> exact ⟨by decide +kernel, by decide +kernel, _, rfl, by decide +kernel⟩

/-- One element of a chunk: from its source, and with the element in place. -/
theorem witness_CollectivesFollowTheirSchedule_elements :
    let c := coll 3 0xFF 1 0
    let x := collStep 3 0xFF 1
    let y := collStep 2 0xFF 1
    (EngineOpen mach c .store (c.chunk (c.q 2) x 0) c.elemBytes (spot 0x3000) ∧ NoWatch mach ∧ mach.mem.wf)
      ∧ ((c.work x []).source = some 0x2000 ∧ (c.work x []).inPlace = false
        ∧ EngineOpen mach c .load (c.chunk 0x2000 x 0) c.elemBytes (spot 0x2000))
      ∧ ((c.work y []).source = none ∧ (c.work y []).inPlace = true ∧ EngineOpen mach c .load (c.chunk (c.q 2) y 0) c.elemBytes (spot 0x3000)) :=
  ⟨⟨engineOpen (by decide +kernel), Alone.watch (by decide +kernel), by decide +kernel⟩,
    ⟨by decide +kernel, by decide +kernel, engineOpen (by decide +kernel)⟩, by decide +kernel, by decide +kernel, engineOpen (by decide +kernel)⟩

/-- The first poisoned source is that of the lowest element. -/
theorem test_first_spoilt :
    let c : Command := { coll 3 0xFF 3 0 with spoilt := some (1, 0x2008) }
    c.spoiltBy 0 (some 0x2000) = some (0, 0x2000) ∧ c.spoiltBy 2 (some 0x2010) = some (1, 0x2008) ∧ c.spoiltBy 0 none = some (1, 0x2008) := by
  decide +kernel

/-! ### Witnesses: the memory system and the package -/

/-- A machine whose partition 0 has isles 0 and 1. -/
def two : State := { mach with rg := { mach.rg with parts := mach.rg.parts.set 0 { mach.rg.parts[0] with size := 1 } } }
/-- A machine with a line copied to isle 1, of which a change is under way. -/
def told : State := { two with ca := { two.ca with chan := [⟨0, 1, 0x2000, 64, none⟩], visitor := [⟨1, 0x2000, 0, false, List.replicate 64 1⟩] } }
/-- A machine with a parked store. -/
def parkedAt (va : Nat) : State :=
  { mach with ca := { mach.ca with parked := [⟨0, ⟨0, 0⟩, BitVec.ofNat 64 va, [1, 2, 3, 4], 0, 0x10000, false, 0x1000, false, 1, 0x400, true, 0, []⟩] } }
/-- A machine that moves the blocks of a region, of which some have moved. -/
def moving (left : Nat) (moved : List Nat) : State :=
  { mach with dev := { mach.dev with hmig := BitVec.ofNat 64 (2 ^ 63 + left), moved := moved } }

/-- The error of a computation that fails. -/
theorem fails {ε α : Type} {p : ε → Prop} [DecidablePred p] {x : Except ε α} (h : (match x with
    | .error e => decide (p e)
    | .ok _ => false) = true) : ∃ e, x = .error e ∧ p e := by
  cases x
  · exact ⟨_, rfl, of_decide_eq_true h⟩
  · cases h

/-- An entry that has arrived in full and none; a parked store whose page is there, one whose page is missing, and one of a bad entry; a
write that waits for no pin and one that waits; a copy that a change covers; a row line and a column line from another isle, and a core's
line from its own; a partition in use and one that is not; the first host address and the last pool address; a region with a block left, with
one that is the last, and with none; and the kinds of injection in test state. -/
theorem witness_MemorySystemMovesOn :
    let p : Popped := ⟨0, 1, 3, 0, false⟩
    let pop := (stacked 0x80 0x80 1).onCt fun c => { c with popped := some p }
    let due (s : State) (h : Hart) (p : Popped) : Prop := s.hartOf ⟨0, 0⟩ = some h ∧ h.ct.popped = some p ∧ p.arrived = false
      ∧ ∃ pa, s.boundRecord ⟨0, 0⟩ = some pa ∧ s.poisoned pa 8 = false ∧ s.entryInFlight ⟨0, 0⟩ (s.mem.quad pa) p = false
    let sp : Space := ⟨0, 0x10000, false, []⟩
    let line : BitVec 52 := 0x10000
    let wait : PinWait := pinWait (.store [1])
    let add : PinWait := pinWait (.add 0 false none 0)
    let queued (w : PinWait) (s : State) : State := { s with ca := { s.ca with pinQueue := [w] } }
    let pinned : State := { mach with ca := { mach.ca with pins := [⟨0x5000, ⟨0, 1⟩, none, none⟩] } }
    let here (w : PinWait) : Bool := w.pa / 64 * 64 == (0x5000 : BitVec 52).toNat / 64 * 64
    let blocks : List Nat := (List.range 512).map fun i => blockOf 0 0 i / 2048
    let test : State := { mach with dev := { mach.dev with tstate := 0x80 } }
    due pop pop.h p ∧ (∀ h p, ¬ due mach h p)
      ∧ ((parkedAt 0x2000).ca.parked = [(parkedAt 0x2000).ca.parked.head (by decide +kernel)]
        ∧ (∀ e ∈ (parkedAt 0x2000).ca.parked, e.col = false ∧ e.weak = []) ∧ 0x400 = line.toNat / 64
        ∧ (parkedAt 0x2000).translate sp .store 0x2000 = .ok (spot 0x2000) ∧ (spot 0x2000).mt ≠ 1 ∧ Marked (parkedAt 0x2000) sp 0x2000 (spot 0x2000) true
        ∧ (parkedAt 0x2000).pinsOn 0x2000 4 = [] ∧ (parkedAt 0x2000).ca.pinQueue = [] ∧ NoWatch (parkedAt 0x2000) ∧ (parkedAt 0x2000).mem.wf
        ∧ (parkedAt 0x2000).measuredBy sp (.hart 0 ⟨0, 0⟩ 0x1000 false) 0x2000 4 = [])
      ∧ (∃ x, (parkedAt 0x80000000000).translate sp .store 0x80000000000 = .error x ∧ x.code = 9)
      ∧ (∃ x, (parkedAt 0x40000000000000).translate sp .store 0x40000000000000 = .error x ∧ x.code ≠ 9)
      ∧ (mach.ca.parked = [] ∧ mach.ca.pinQueue.find? here = none)
      ∧ (∀ w, w = wait ∨ w = add → (queued w mach).ca.pinQueue.find? here = some w ∧ (queued w mach).pinsOn 0x5000 w.op.size = []
        ∧ (queued w mach).poisoned 0x5000 w.op.size = false
        ∧ NoWatch (queued w mach) ∧ (queued w mach).mem.wf
        ∧ (queued w mach).measuredBy ⟨(w.src.own.map fun o => o.part).getD 0, w.root, false, []⟩ w.src w.va ((queued w mach).opBytes w.pa w.op).1.length = []
        ∧ (queued w pinned).ca.pinQueue.find? here = some w ∧ (queued w pinned).pinsOn 0x5000 w.op.size ≠ [])
      ∧ (let mine (i : Inval) : Bool := i.isle == 1 && i.home == 0
         mach.ca.chan.find? mine = none ∧ told.ca.chan.find? mine = some ⟨0, 1, 0x2000, 64, none⟩)
      ∧ (let w : State := queued add { mach with ca := { mach.ca with poison := [0xA00] } }
         w.ca.pinQueue.find? here = some add ∧ w.pinsOn 0x5000 add.op.size = [] ∧ add.op.isAdd = true ∧ w.poisoned 0x5000 add.op.size = true
          ∧ add.src.own = some ⟨0, 0⟩ ∧ w.hartOf ⟨0, 0⟩ = some w.h)
      ∧ (two.partOf 1 = some 0 ∧ two.copyable 0 0x2000 = true ∧ 0x2000 % 64 = 0 ∧ two.homeIsle 0 0x2000 ≠ 1)
      ∧ (columnTop 1 0x2000 = true ∧ columnTop 1 0x2001 = false ∧ two.partOf 2 = none)
      ∧ (two.partOf 0 = some 0 ∧ coreIsle 255 = 0 ∧ two.homeIsle 0 0x2000 = 0)
      ∧ (∃ b, mach.rg.parts[(1 : BitVec 3).toNat]? = some b ∧ b.used = false) ∧ (∃ b, mach.rg.parts[(0 : BitVec 3).toNat]? = some b ∧ b.used = true)
      ∧ (rangeType (2 ^ 51) = some 2 ∧ rangeType (2 ^ 51 + 2 ^ 48 - 64) = some 2 ∧ rangeType (2 ^ 51 + 2 ^ 48) ≠ some 2)
      ∧ (let left (s : State) : List Nat := ((s.dev.dropSources (fieldOf s.dev.hmig 60 3)).flatMap fun x =>
           (List.range 512).map fun i => blockOf x (fieldOf s.dev.hmig 32 22) i).filter fun b => !s.dev.moved.contains (b / 2048)
         let stuck : State := { moving 1 (blocks.drop 1) with ca := { mach.ca with pins := [⟨2048 * blocks.headD 0, ⟨0, 0⟩, none, none⟩] } }
         fieldOf mach.dev.hmig 63 1 = 0 ∧ fieldOf (moving 2 []).dev.hmig 63 1 = 1
        ∧ (∃ b ∈ left (moving 2 []), (moving 2 []).pinsOn b 2048 = []) ∧ 1 < (left (moving 2 [])).length
        ∧ (fieldOf (moving 2 blocks).dev.hmig 63 1 = 1 ∧ left (moving 2 blocks) = [])
        ∧ (fieldOf stuck.dev.hmig 63 1 = 1 ∧ left stuck ≠ [] ∧ ∀ b ∈ left stuck, stuck.pinsOn b 2048 ≠ []))
      ∧ (let w : State := { mach with ca := { mach.ca with weak := [0x400] } }
         0x2000 / 8 ∈ w.ca.weak ∧ 0x2000 / 8 ∉ mach.ca.weak ∧ 0x2000 / 8 ∉ mach.ca.poison ∧ w.ca.weak.Nodup)
      ∧ (mach.dev.tstate.getLsbD 7 = false ∧ test.dev.tstate.getLsbD (7 : BitVec 3).toNat = true
        ∧ ((BitVec.ofNat 256 (4 * 2 ^ 24)).extractLsb' 24 8).toNat = 4
        ∧ ((BitVec.ofNat 256 (3 * 2 ^ 24 + 0x2000 * 2 ^ 192)).extractLsb' 24 8).toNat = 3) := by
  refine ⟨⟨by decide +kernel, by decide +kernel, rfl, ⟨0x2000, by decide +kernel⟩⟩, fun h p d => ?_,
    ⟨rfl, by decide +kernel, by decide +kernel, by decide +kernel, by decide +kernel, marked (by decide +kernel) (by decide +kernel) _, by decide +kernel, by decide +kernel,
      Alone.watch (by decide +kernel), by decide +kernel, by decide +kernel⟩,
    ⟨{ code := 9, sub := 1, level := 1, entry := 0x10010 }, by decide +kernel, rfl⟩, ?_, by decide +kernel, fun w hw => ?_, by decide +kernel,
    by decide +kernel, by decide +kernel, by decide +kernel, by decide +kernel, ⟨_, rfl, rfl⟩, ⟨_, rfl, rfl⟩, by decide +kernel,
    by decide +kernel, by decide +kernel, by decide +kernel⟩
  · have e : mach.hartOf ⟨0, 0⟩ = some mach.h := by decide +kernel
    have x := Option.some.inj (e.symm.trans d.1)
    have y : mach.h.ct.popped = none := by decide +kernel
    rw [← x, y] at d
    exact absurd d.2.1 (by simp)
  · exact fails (by decide +kernel)
  · rcases hw with rfl | rfl <;>
      exact ⟨by decide +kernel, by decide +kernel, by decide +kernel, Alone.watch (by decide +kernel), by decide +kernel, by decide +kernel, by decide +kernel,
        by decide +kernel⟩

/-- The first 64 bytes of the header of an image without a body, of version 1. -/
def imageHead : List Byte := leBytes 4 0x31485647 ++ leBytes 4 1 ++ leBytes 8 0 ++ sha384 []
/-- That image, its signature fields zero. -/
def image : List Byte := imageHead ++ List.replicate 1984 0
/-- A machine before boot, with that image at the start of host memory, and the rollback floor 1. -/
def bootable (len : Nat) : State :=
  { State.reset with
    mem := Memory.put [] (2 ^ 51) imageHead
    dev := { State.reset.dev with boot := { State.reset.dev.boot with imgLen := BitVec.ofNat 64 len, floor := some 1 } } }

theorem image_formed : ¬ ((image.take 2048).length < 2048 ∨ leNat ((image.take 2048).take 4) ≠ 0x31485647
    ∨ leNat (((image.take 2048).drop 8).take 8) ≠ (image.drop 2048).length ∨ ¬ (((image.take 2048).drop 64).take 64).all (· == 0)
    ∨ ¬ ((image.take 2048).drop 1676).all (· == 0) ∨ ((image.take 2048).drop 16).take 48 ≠ sha384 (image.drop 2048)) := by
  decide +kernel

/-- The image is accepted where its two signatures verify, which is a value of Config. -/
theorem image_accepted (v : ecdsaVerifies Config.ecdsaKey ((image.take 2048).take 128) (((image.take 2048).drop 128).take 96) = true
    ∧ lmsVerifies Config.lmsKey ((image.take 2048).take 128) (((image.take 2048).drop 224).take 1452) = true) :
    verifyImage image 1 = .ok 1 := by
  have n : BitVec.ofNat 32 (leNat (((image.take 2048).drop 4).take 4)) = 1 := by decide +kernel
  unfold verifyImage
  dsimp only
  rw [if_neg image_formed, if_neg (by simp [v.1]), if_neg (by simp [v.2]), n, if_neg (by decide)]

/-- A machine whose port 17 has replayed a flit fifteen times. -/
def worn : State := { mach with dev := { mach.dev with port := mach.dev.port.set 17 { locked := true, replays := 15, lost := false } } }

/-- The limits of the ports and of the trace ring; an image that is read and accepted where its signatures verify, one that is too short, and
one that is too long; firmware that may load and may not; a limit that lowers the ratio and one that does not; and floors that rise and do not. -/
theorem witness_PackageStartsAndRuns :
    let ready (fw : FwLoad) (s : State) : Prop := s.dev.boot.running = false ∧ s.dev.boot.verified = true ∧ partsOk fw.parts = true
    let fw : FwLoad :=
      { parts := [(0, ⟨3, 0, [(0, 4)], 0x3FFFF⟩)], ipmap := [0x101], stvec := [0x4000], fwr := [0x80], scrub := [0], watts := [3600], reserve := [0]
        extents := [(0, 2 ^ 32)] }
    let up : State := { State.reset with dev := { State.reset.dev with boot := { State.reset.dev.boot with verified := true } } }
    let ring : Trace := { base := 0x8000, size := 64, twr := 32, trd := 0, last := none, dropped := 0, full := 0 }
    let traced : State := { mach with dev := { mach.dev with trace := mach.dev.trace.set 0 ring } }
    (∀ p, Link.causeway 17 = .causeway p → p.toNat < 18)
      ∧ ((mach.linkOf (.causeway 17)).replays < 15 ∧ 15 ≤ (worn.linkOf (.causeway 17)).replays ∧ (worn.linkOf (.causeway 17)).lost = false)
      ∧ ((mach.linkOf (.straits 0 1)).dead = false ∧ (((after (.lockLost (.straits 0 1)) mach).linkOf (.straits 0 1)).dead = true))
      ∧ ((bootable 2048).dev.boot.go = false ∧ (bootable 2048).dev.boot.floorNow = 1
        ∧ (bootable 2048).readImage (bootable 2048).dev.boot.imgAddr (bootable 2048).dev.boot.imgLen.toNat = .ok image)
      ∧ ((bootable 2047).dev.boot.go = false ∧ ∃ img, (bootable 2047).readImage 0 2047 = .ok img ∧ verifyImage img 1 = .error 4)
      ∧ ((bootable (2 ^ 24 + 1)).readImage 0 (2 ^ 24 + 1) = .error 4)
      ∧ (ready fw up ∧ ready { fw with parts := [(0, ⟨3, 4, [], 0⟩)] } up
        ∧ ¬ ready { fw with parts := [(0, ⟨0, 2, [], 0⟩), (1, ⟨1, 2, [], 0⟩)] } up ∧ ¬ ready fw State.reset)
      ∧ (let s : State := { bootable 2048 with dev := { (bootable 2048).dev with boot := { (bootable 2048).dev.boot with running := true } } }
         s.dev.boot.running = true ∧ s.readImage ((0 : BitVec 52).setWidth 64) 2048 = .ok image ∧ s.dev.boot.floorNow = 1)
      ∧ (∃ old, mach.dev.clock[(0 : BitVec 3).toNat]? = some old ∧ 255 < old.hw ∧ ¬ 256 < old.hw)
      ∧ (traced.dev.trace[(0 : BitVec 3).toNat]? = some ring ∧ ring.size ≠ 0 ∧ ring.Sound ∧ ring.Ring 0x803F ∧ ¬ ring.Ring 0x8040)
      ∧ (mach.dev.boot.running = true ∧ State.reset.dev.boot.running = false) := by
  refine ⟨fun p h => ?_, by decide +kernel, by decide +kernel, ⟨rfl, rfl, gave (by decide +kernel)⟩, ⟨rfl, ?_⟩, rfl, by decide +kernel,
    ⟨rfl, gave (by decide +kernel), rfl⟩, ⟨_, rfl, by decide +kernel⟩, ⟨by decide +kernel, by decide +kernel, by unfold Trace.Sound; decide +kernel,
      ⟨63, by decide +kernel⟩, fun ⟨i, hi, he⟩ => ?_⟩, by decide +kernel⟩
  · cases h
    decide
  · have e : ((bootable 2047).readImage 0 2047).toOption = some (image.take 2047) := by decide +kernel
    refine ⟨_, gave e, ?_⟩
    unfold verifyImage
    dsimp only
    rw [if_pos (.inl (by decide +kernel))]
  · have h1 : i < 64 := hi
    have h2 : 0x8040 = (0x8000 + i) % 2 ^ 52 := he
    omega

/-! ### One step each

The expected values are worked out by hand from the rules named. -/

/-- R154: a 32-bit sum is sign-extended. -/
theorem test_addw_wraps : (after (.add 3 1 2 true) (put 1 0x7FFFFFFF (put 2 1 mach))).g 3 = 0xFFFFFFFF80000000 := by decide +kernel
/-- R155: the most negative dividend by -1. -/
theorem test_div_overflow : (after (.div 3 1 2 false) (put 1 0x8000000000000000 (put 2 (-1) mach))).g 3 = 0x8000000000000000 := by decide +kernel
/-- R155: a remainder by zero is the dividend, with its sign. -/
theorem test_rem_zero : (after (.rem 3 1 2 true) (put 1 0xFFFFFFFF mach)).g 3 = -1 := by decide +kernel
/-- R153: a write of g0 is discarded, and LDN names it. -/
theorem test_write_g0 : (after (.addi 0 0 5) (put 1 1 (mach.onSc fun sc => { sc with ldn := 7 }))).g 0 = 0
    ∧ (after (.addi 0 0 5) (mach.onSc fun sc => { sc with ldn := 7 })).h.sc.ldn = 0 := by decide +kernel
/-- R161: a signed byte load. -/
theorem test_ldB_signed : (after (.ldB 3 1 0) (put 1 0x2000 (fill 0x2000 1 0x80 mach))).g 3 = 0xFFFFFFFFFFFFFF80 := by decide +kernel
/-- R162: an atomic add gives the old value and stores the sum. -/
theorem test_amoadd : let t := after (.amoAdd 3 1 2 true false false) (put 1 0x2000 (put 2 3 (fill 0x2000 8 (2 ^ 64 - 1) mach)))
    t.g 3 = 0xFFFFFFFFFFFFFFFF ∧ t.mem.num 0x2000 8 = 2 := by decide +kernel
/-- R166: a branch taken backwards, and one that falls through. -/
theorem test_beq : (after (.bEq 1 2 0xFFF) mach).h.sc.pc = 0xFFE ∧ (after (.bNe 1 2 0xFFF) mach).h.sc.pc = 0x1004 := by decide +kernel
/-- R167: a link and a transfer. -/
theorem test_jalr : (after (.jalr 1 2 8) (put 2 0x2000 mach)).h.sc.pc = 0x2008 ∧ (after (.jalr 1 2 8) (put 2 0x2000 mach)).g 1 = 0x1004 := by
  decide +kernel
/-- R170: 1.0 + 1.0 is 2.0, and a third of 1 is inexact. -/
theorem test_fadd_fdiv : (after (.fadd 3 1 1 0 false) (put 1 0x3FF0000000000000 mach)).g 3 = 0x4000000000000000
    ∧ (after (.fdiv 3 1 2 0 false) (put 1 0x3FF0000000000000 (put 2 0x4008000000000000 mach))).g 3 = 0x3FD5555555555555
    ∧ (after (.fdiv 3 1 2 0 false) (put 1 0x3FF0000000000000 (put 2 0x4008000000000000 mach))).h.sc.fflags = 1 := by decide +kernel
/-- R170: a quotient by zero is infinite and sets DZ. -/
theorem test_fdiv_zero : (after (.fdiv 3 1 0 0 false) (put 1 0xBFF0000000000000 mach)).g 3 = 0xFFF0000000000000
    ∧ (after (.fdiv 3 1 0 0 false) (put 1 0xBFF0000000000000 mach)).h.sc.fflags = 8 := by decide +kernel
/-- R186, R188: VL is the least of AVL and VLMAX, which is 64 elements of 64 bits for one group. -/
theorem test_setvl : (after (.setvl 3 1) (put 1 100 (shape 3 0 mach))).g 3 = 64 ∧ (after (.setvl 3 1) (put 1 63 (shape 3 0 mach))).g 3 = 63 := by
  decide +kernel
/-- R192, R198: an integer add of two elements of 8 bits wraps, and the tail from VL on is zeroed. -/
theorem test_vadd : natField ((after (.vadd { zeroW with vd := 1, vs1 := 2, vs2 := 3 }) (lane 1 0x550000 (lane 2 0x0302FF (lane 3 0x010101
    (shape 0 2 mach))))).h.vec.reg 1).toNat 0 24 = 0x000300 := by decide +kernel
/-- R206: a sum starts from element 0 of its first source. -/
theorem test_vredsum : natField ((after (.vredsum { zeroW with vd := 1, vs1 := 2, vs2 := 3 }) (lane 2 10 (lane 3 0x04030201
    (shape 0 4 mach)))).h.vec.reg 1).toNat 0 8 = 20 := by decide +kernel
/-- R176, R345: `trap` saves the next address and the status, and goes to the vector base. -/
theorem test_trap : let t := after (.trap 0x123) mach
    t.h.su.sepc = 0x1004 ∧ t.h.su.scause = 16 ∧ t.h.su.sval = 0x123 ∧ t.h.su.sup = true ∧ t.h.sc.pc = 0x4000 := by decide +kernel
/-- R335: a supervisor register is out of reach in user mode. -/
theorem test_rdsr_privileged : (after (.rdsr 3 0x102) mach).h.su.scause = 2 ∧ (after (.rdsr 3 0x102) mach).h.sc.pc = 0x4000 := by decide +kernel

/-! ### Witnesses: elements that fault, are held, or park -/

/-- With nothing in the third leaf of `mach`, the first address beyond the second has no page. -/
theorem absent {s : State} {sp : Space} (acc : Acc) (h : s.mem.quad 0x10010 = 0 ∧ sp.root = 0x10000 ∧ s.dev.extents = [(0, 2 ^ 32)]
      ∧ s.part sp.part = mach.part 0 ∧ s.dev.ipmap = mach.dev.ipmap ∧ s.ca.poison = [] ∧ sp.held = []) :
    s.translate sp acc 0x80000000000 = .error { code := 9, sub := 1, level := 1, entry := 0x10010 } := by
  obtain ⟨quad, root, extents, part, ways, poison, held⟩ := h
  have index : tableIndex 1 0x80000000000 = 2 := by decide +kernel
  have frame : frameOf 0x10000 = 0x10000 := by decide +kernel
  have empty : fieldOf 0 0 1 = 0 := by decide +kernel
  have whole : s.poisoned 0x10010 8 = false := by
    unfold State.poisoned
    rw [poison]
    rfl
  unfold State.translate
  rw [if_neg (by decide +kernel)]
  unfold State.walk State.walkFrom
  dsimp only
  rw [root, index, frame, held, pooled _ (by decide) ⟨extents, part, ways⟩, whole, quad, empty]
  rfl

/-- A hart with one element at the first address that has no page. -/
def gap : State := shape 3 1 (put 10 0x80000000000 mach)
/-- That element. -/
def lone : Missing := ⟨0, 0x80000000000, 1, 0x10010⟩
/-- No element has a place. -/
def nowhere : Places := fun _ => none

theorem gap_apart {m : MemForm} {s : State} {f : WFields} (h : s.mem.quad 0x10010 = 0 ∧ Mapped s) :
    m.TablesApart s f nowhere ∧ m.MissingApart s f nowhere [0x80000000000] := by
  obtain ⟨quad, root, extents, part, ways, poison, held⟩ := h
  refine ⟨(fun _ _ _ _ _ _ x => nomatch x), fun mem ws out sub _ va hva => ?_⟩
  cases List.mem_singleton.mp hva
  have none_ : ws = [] := List.eq_nil_iff_forall_not_mem.mpr fun w hw => by
    have := sub w hw
    rw [poison] at this
    cases this
  have same : mem.quad 0x10010 = 0 := by
    rw [← quad]
    unfold Memory.quad Memory.num
    rw [Memory.bytes_congr fun x _ _ => out x fun _ _ _ _ y => nomatch y]
  have before := absent (s := s) (sp := s.h.space) m.kind.acc ⟨quad, root, extents, part, ways, poison, held⟩
  have later := absent (s := { s with mem := mem, ca := { s.ca with poison := ws } }) (sp := s.h.space) m.kind.acc
    ⟨same, root, extents, part, ways, none_, held⟩
  exact later.trans before.symm

theorem gap_holds {m : MemForm} {s : State} {f : WFields} (v : s.vl = 1) (h : s.mem.quad 0x10010 = 0 ∧ Mapped s)
    (r : m.reaches s f 0 0x80000000000 ∧ m.Absent s f 0x80000000000 1 0x10010 ∧ s.parkedOn 0x80000000000 = false) :
    m.Holds s f nowhere [lone] where
  order := List.pairwise_singleton _ _
  each := by
    intro x hx
    cases List.mem_singleton.mp hx
    exact ⟨v ▸ Nat.one_pos, r.1, rfl, r.2.1, r.2.2⟩
  rest := fun e he n => absurd (by rw [v] at he; exact (Nat.lt_one_iff.mp he).symm : lone.e = e) (n lone (List.mem_singleton.mpr rfl))
  pages := fun _ _ _ _ x => nomatch x
  apart := fun _ => gap_apart h

/-- A load's one element at an address that is not canonical, and at one that has no page, in compatibility mode and in native mode. -/
theorem witness_VectorLoadsRead_faults :
    let f : WFields := { zeroW with vd := 4, vs3 := 10 }
    let m : MemForm := { op := .vld, kind := .load, addr := .unit }
    let bad := shape 3 1 (put 10 0x40000000000000 mach)
    let old := gap.onSu fun x => { x with compat := true }
    (Begins bad .vld f ∧ formOf .vld = some m ∧ m.kind = .load ∧ m.Quiet bad f ∧ m.LowestFault bad f nowhere 0 0x40000000000000
        ∧ m.Faults bad f 0x40000000000000 { code := 5, val := 0x40000000000000 })
      ∧ (Begins old .vld f ∧ m.Quiet old f ∧ m.LowestFault old f nowhere 0 0x80000000000 ∧ m.Absent old f 0x80000000000 1 0x10010
        ∧ old.h.su.compat = true ∧ old.parkedOn 0x80000000000 = false)
      ∧ Begins gap .vld f ∧ m.Quiet gap f ∧ gap.h.su.compat = false ∧ [lone] ≠ [] ∧ m.Holds gap f nowhere [lone] := by
  have below (s : State) (v : s.vl = 1) (e : Nat) : ¬ (0 < e ∧ e < s.vl) := by omega
  refine ⟨⟨begins (by decide +kernel), rfl, rfl, quiet (by decide +kernel) (by decide +kernel),
      ⟨by decide +kernel, ⟨by decide +kernel, false, by decide +kernel, fun x => nomatch x.1⟩, rfl, (fun _ x => nomatch x),
        fun _ e a b => absurd ⟨a, b⟩ (below _ (by decide +kernel) e)⟩, .inl ⟨by decide +kernel, rfl⟩⟩,
    ⟨begins (by decide +kernel), quiet (by decide +kernel) (by decide +kernel),
      ⟨by decide +kernel, ⟨by decide +kernel, false, by decide +kernel, fun x => nomatch x.1⟩, rfl, (fun _ x => nomatch x),
        fun _ e a b => absurd ⟨a, b⟩ (below _ (by decide +kernel) e)⟩, ⟨by decide +kernel, by decide +kernel, 1, by decide +kernel⟩, rfl, by decide +kernel⟩,
    begins (by decide +kernel), quiet (by decide +kernel) (by decide +kernel), rfl, by decide, gap_holds (by decide +kernel) (by decide +kernel)
      ⟨⟨by decide +kernel, false, by decide +kernel, fun x => nomatch x.1⟩, ⟨by decide +kernel, by decide +kernel, 1, by decide +kernel⟩,
        by decide +kernel⟩⟩

/-- A store and an atomic likewise; a store whose element parks in an empty replay queue, and one that finds the queue of its core full of another
context's entries. -/
theorem witness_VectorStoresAndAtomicsWrite_faults :
    let f : WFields := { zeroW with vd := 4, vs3 := 10 }
    let g : WFields := { zeroW with vs1 := 4, vs2 := 2, vs3 := 10, imm := 1 }
    let m : MemForm := { op := .vst, kind := .store, addr := .unit }
    let c : MemForm := { op := .vamoFadd, kind := .add, addr := .index }
    let bad := shape 3 1 (put 10 0x40000000000000 mach)
    let old := gap.onSu fun x => { x with compat := true }
    let atom := shape 2 1 (put 10 0x80000000000 mach)
    let parked : Parked := { hid := 0, own := ⟨0, 1⟩, va := 0x80000000008, data := leBytes 8 1, elem := 0, root := 0x10000, sup := false, pc := 0x1000
                             col := false, level := 1, line := 0x400, reported := false, corr := 0, weak := [] }
    let full : State := { gap with ca := { gap.ca with parked := List.replicate 512 parked } }
    let begun (s : State) : Prop := Begins s .vst f ∧ m.releases f = false ∧ m.Quiet s f ∧ m.loose = false
      ∧ ∀ e va p, e < s.vl → nowhere e = some (va, p) → Unmeasured s va (m.bytes s f)
    (formOf .vst = some m ∧ m.kind = .store ∧ begun bad ∧ m.LowestFault bad f nowhere 0 0x40000000000000
        ∧ m.TablesApart bad f nowhere ∧ m.MissingApart bad f nowhere [0x40000000000000]
        ∧ m.Faults bad f 0x40000000000000 { code := 5, val := 0x40000000000000 })
      ∧ (begun old ∧ m.LowestFault old f nowhere 0 0x80000000000 ∧ m.TablesApart old f nowhere ∧ m.MissingApart old f nowhere [0x80000000000]
        ∧ m.Absent old f 0x80000000000 1 0x10010 ∧ old.h.su.compat = true ∧ old.parkedOn 0x80000000000 = false)
      ∧ (Begins atom .vamoFadd g ∧ formOf .vamoFadd = some c ∧ c.kind ≠ .store ∧ c.Quiet atom g ∧ atom.h.su.compat = false
        ∧ c.Holds atom g nowhere [lone])
      ∧ (begun gap ∧ gap.h.su.compat = false ∧ m.Parks gap f nowhere [lone]
        ∧ [lone].length ≤ 512 - gap.ca.parked.countP fun p => p.hid.core == gap.h.hid.core)
      ∧ begun full ∧ full.h.su.compat = false ∧ m.Parks full f nowhere [lone]
        ∧ ([lone] : List Missing)[512 - full.ca.parked.countP fun p => p.hid.core == full.h.hid.core]? = some lone := by
  have below (s : State) (v : s.vl = 1) (e : Nat) : ¬ (0 < e ∧ e < s.vl) := by omega
  have parks {m : MemForm} {s : State} {f : WFields} (h : m.Holds s f nowhere [lone]) (k : m.kind ≠ .load) : m.Parks s f nowhere [lone] :=
    ⟨h.order, fun x hx => let y := h.each x hx; ⟨y.1, y.2.1, y.2.2.1, .inl y.2.2.2.1⟩, h.rest, h.pages, h.apart k⟩
  refine ⟨⟨rfl, rfl, ⟨begins (by decide +kernel), by decide +kernel, quiet (by decide +kernel) (by decide +kernel), rfl, fun _ _ _ _ x => nomatch x⟩,
      ⟨by decide +kernel, ⟨by decide +kernel, false, by decide +kernel, fun x => absurd x.1 (by decide)⟩, rfl, (fun _ x => nomatch x),
        fun _ e a b => absurd ⟨a, b⟩ (below _ (by decide +kernel) e)⟩, (fun _ _ _ _ _ _ x => nomatch x),
      fun _ _ _ _ _ va h => ?_, .inl ⟨by decide +kernel, rfl⟩⟩,
    ⟨⟨begins (by decide +kernel), by decide +kernel, quiet (by decide +kernel) (by decide +kernel), rfl, fun _ _ _ _ x => nomatch x⟩,
      ⟨by decide +kernel, ⟨by decide +kernel, false, by decide +kernel, fun x => absurd x.1 (by decide)⟩, rfl, (fun _ x => nomatch x),
        fun _ e a b => absurd ⟨a, b⟩ (below _ (by decide +kernel) e)⟩, (gap_apart (by decide +kernel)).1, (gap_apart (by decide +kernel)).2,
      ⟨by decide +kernel, by decide +kernel, 1, by decide +kernel⟩, rfl, by decide +kernel⟩,
    ⟨begins (by decide +kernel), rfl, by decide, quiet (by decide +kernel) (by decide +kernel), rfl, gap_holds (by decide +kernel) (by decide +kernel)
      ⟨⟨by decide +kernel, false, by decide +kernel, fun x => absurd x.1 (by decide)⟩, ⟨by decide +kernel, by decide +kernel, 1, by decide +kernel⟩,
        by decide +kernel⟩⟩,
    ⟨⟨begins (by decide +kernel), by decide +kernel, quiet (by decide +kernel) (by decide +kernel), rfl, fun _ _ _ _ x => nomatch x⟩, rfl,
      parks (gap_holds (by decide +kernel) (by decide +kernel) ⟨⟨by decide +kernel, false, by decide +kernel, fun x => absurd x.1 (by decide)⟩,
        ⟨by decide +kernel, by decide +kernel, 1, by decide +kernel⟩, by decide +kernel⟩) (by decide), by decide +kernel⟩,
    ⟨begins (by decide +kernel), by decide +kernel, quiet (by decide +kernel) (by decide +kernel), rfl, fun _ _ _ _ x => nomatch x⟩, rfl,
      parks (gap_holds (by decide +kernel) (by decide +kernel) ⟨⟨by decide +kernel, false, by decide +kernel, fun x => absurd x.1 (by decide)⟩,
        ⟨by decide +kernel, by decide +kernel, 1, by decide +kernel⟩, by decide +kernel⟩) (by decide), congrArg ([lone][·]?) (show _ = 0 by decide +kernel)⟩
  cases List.mem_singleton.mp h
  unfold State.translate
  rw [if_pos (by decide), if_pos (by decide)]

/-- A hart with a descriptor of one fp32 element at an address, in rate mode 1. -/
def rated (base : Nat) (s : State) : State :=
  shape 2 1 (s.onVec fun x => { x with d := x.d.setIfInBounds 0 (oneElem 1 base + BitVec.ofNat 512 (2 ^ 76)) })

/-- A rate-mode load of an element of a member, and of one that no member covers. -/
theorem witness_VectorLoadsRead_rate :
    let f : WFields := { zeroW with vd := 4 }
    let m : MemForm := { op := .vldd, kind := .load, addr := .desc }
    let ok (s : State) (base : Nat) : Prop := Begins s .vldd f ∧ (s.descAt f).rate ≠ 0 ∧ NoWatch s ∧ s.ca.chan = [] ∧ s.h.dbg.prof = 0
      ∧ s.h.held = [] ∧ m.AllOpen s f (linear base 4)
      ∧ ∀ e va p r k, e < s.vl → linear base 4 e = some (va, p) → s.memberAt va = some (r, k) →
        (s.rateValue (s.descAt f).rate r k ((r.element k va).getD 0)).2 = false
    ok (rated 0x4000 (active [] (setOf 0 0 0 0 0))) 0x4000 ∧ ok (rated 0x5000 (active [] (setOf 0 0 0 0 0))) 0x5000 := by
  have all (s : State) (base : Nat) (v : s.vl = 1) (c : (s.memberAt (BitVec.ofNat 64 base)).all fun x =>
      !(s.rateValue (s.descAt { zeroW with vd := 4 }).rate x.1 x.2 ((x.1.element x.2 (BitVec.ofNat 64 base)).getD 0)).2) :
      ∀ e va p r k, e < s.vl → linear base 4 e = some (va, p) → s.memberAt va = some (r, k) →
        (s.rateValue (s.descAt { zeroW with vd := 4 }).rate r k ((r.element k va).getD 0)).2 = false := by
    intro e va p r k he hp hm
    rw [v] at he
    obtain rfl : e = 0 := by omega
    cases hp
    rw [Nat.mul_zero, Nat.add_zero] at hm ⊢
    rw [hm] at c
    simpa using c
  have opens (s : State) (base : Nat) (v : s.vl = 1) (a : s.activeIn { zeroW with vd := 4 } false 0 = true
      ∧ ({ op := .vldd, kind := .load, addr := .desc } : MemForm).elemAddr s { zeroW with vd := 4 } false 0 = some (BitVec.ofNat 64 base, false))
      (c : ({ op := .vldd, kind := .load, addr := .desc } : MemForm).Open s { zeroW with vd := 4 } (BitVec.ofNat 64 base) (spot base)) :
      ({ op := .vldd, kind := .load, addr := .desc } : MemForm).AllOpen s { zeroW with vd := 4 } (linear base 4) := by
    intro e he
    rw [v] at he
    obtain rfl : e = 0 := by omega
    exact ⟨fun va p hp => by cases hp; exact ⟨⟨a.1, false, a.2, fun x => nomatch x.1⟩, c⟩, fun x => nomatch x⟩
  exact ⟨⟨begins (by decide +kernel), by decide +kernel, Alone.watch (by decide +kernel), rfl, rfl, by decide +kernel,
      opens _ _ (by decide +kernel) (by decide +kernel) (memOpen (by decide +kernel)), all _ _ (by decide +kernel) (by decide +kernel)⟩,
    begins (by decide +kernel), by decide +kernel, Alone.watch (by decide +kernel), rfl, rfl, by decide +kernel,
    opens _ _ (by decide +kernel) (by decide +kernel) (memOpen (by decide +kernel)), all _ _ (by decide +kernel) (by decide +kernel)⟩

end Sys2Proof.Tests
end

section
/-! SUPPORT. What R155, R171 and R172 speak of: division at both widths, the order that `compareV` decides, and what a floating instruction
without a rounding field leaves. -/

namespace Sys2Proof.Machine

/-! ### Division (R155) -/

theorem exec_div (d a b : Reg) (w : Bool) (s : State) : exec (.div d a b w) s = writeReg 4 d (atWidth quoS w (s.g a) (s.g b)) s := rfl
theorem exec_divu (d a b : Reg) (w : Bool) (s : State) : exec (.divu d a b w) s = writeReg 4 d (atWidth quoU w (s.g a) (s.g b)) s := rfl
theorem exec_rem (d a b : Reg) (w : Bool) (s : State) : exec (.rem d a b w) s = writeReg 4 d (atWidth remS w (s.g a) (s.g b)) s := rfl
theorem exec_remu (d a b : Reg) (w : Bool) (s : State) : exec (.remu d a b w) s = writeReg 4 d (atWidth remU w (s.g a) (s.g b)) s := rfl

/-- Writing a register delivers any value that the written one equals. -/
theorem writeReg_of_eq (len : Nat) (d : Reg) {v u : Word} (s : State) (h : v = u) : ∃ t, writeReg len d v s = .next t ∧ WroteReg s t d u len :=
  h ▸ writeReg_spec len d v s

theorem bitVec_toInt_neg_one {n : Nat} (hn : 0 < n) : (-1 : BitVec n).toInt = -1 :=
  (congrArg BitVec.toInt BitVec.neg_one_eq_allOnes).trans (by rw [BitVec.toInt_allOnes, if_pos hn])

theorem bitVec_neg_one_ne_zero {n : Nat} (hn : 0 < n) : (-1 : BitVec n) ≠ 0 := fun h => by
  have h := congrArg BitVec.toInt h
  rw [bitVec_toInt_neg_one hn] at h
  simp at h

/-- The quotient of the most negative number by -1 wraps back to it. -/
theorem quoS_extreme {n : Nat} (hn : 0 < n) : quoS n (BitVec.intMin n) (-1) = BitVec.intMin n :=
  (if_neg (bitVec_neg_one_ne_zero hn)).trans BitVec.intMin_sdiv_neg_one

/-- -1 divides every number. -/
theorem remS_neg_one {n : Nat} (hn : 0 < n) (a : BitVec n) : remS n a (-1) = 0 :=
  (if_neg (bitVec_neg_one_ne_zero hn)).trans (BitVec.srem_zero_of_dvd (bitVec_toInt_neg_one hn ▸ Int.neg_dvd.mpr (one_dvd _)))

/-- Two operations that agree where a relation of the operands holds agree at either width, where the relation holds at that width. -/
theorem atWidth_congr (P : (n : Nat) → BitVec n → BitVec n → Prop) {f g : (n : Nat) → BitVec n → BitVec n → BitVec n}
    (h : ∀ n x y, 0 < n → P n x y → f n x y = g n x y) {w : Bool} {a b : Word} (hP : if w then P 32 (low32 a) (low32 b) else P 64 a b) :
    atWidth f w a b = atWidth g w a b := by
  cases w with
  | true => exact congrArg (BitVec.signExtend 64) (h 32 _ _ (by decide) hP)
  | false => exact h 64 a b (by decide) hP

theorem quoS_zero (n : Nat) (a : BitVec n) : quoS n a 0 = BitVec.allOnes n := if_pos rfl
theorem quoU_zero (n : Nat) (a : BitVec n) : quoU n a 0 = BitVec.allOnes n := if_pos rfl
theorem remS_zero (n : Nat) (a : BitVec n) : remS n a 0 = a := if_pos rfl
theorem remU_zero (n : Nat) (a : BitVec n) : remU n a 0 = a := if_pos rfl

theorem atWidth_allOnes (w : Bool) (a b : Word) : atWidth (fun n _ _ => BitVec.allOnes n) w a b = -1 := by cases w <;> rfl

/-- A quotient that is all ones for a zero divisor at any width is -1 at either width (R155). -/
theorem atWidth_quotient_zero {f : (n : Nat) → BitVec n → BitVec n → BitVec n} (h : ∀ n x, f n x 0 = BitVec.allOnes n) {w : Bool} {a b : Word}
    (hb : if w then low32 b = 0 else b = 0) : atWidth f w a b = -1 :=
  (atWidth_congr (fun _ _ y => y = 0) (fun n x _ _ e => e ▸ h n x) hb).trans (atWidth_allOnes w a b)

/-- A remainder that is the dividend for a zero divisor at any width is the dividend at either width (R155). -/
theorem atWidth_remainder_zero {f : (n : Nat) → BitVec n → BitVec n → BitVec n} (h : ∀ n x, f n x 0 = x) {w : Bool} {a b : Word}
    (hb : if w then low32 b = 0 else b = 0) : atWidth f w a b = if w then (low32 a).signExtend 64 else a :=
  atWidth_congr (g := fun _ x _ => x) (fun _ _ y => y = 0) (fun n x _ _ e => e ▸ h n x) hb

section
variable {w : Bool} {a b : Word} (h : if w then low32 a = BitVec.intMin 32 ∧ low32 b = -1 else a = BitVec.intMin 64 ∧ b = -1)
include h

theorem atWidth_quoS_extreme : atWidth quoS w a b = if w then (low32 a).signExtend 64 else a :=
  atWidth_congr (g := fun _ x _ => x) (fun n x y => x = BitVec.intMin n ∧ y = -1) (fun _ _ _ hn e => e.1 ▸ e.2 ▸ quoS_extreme hn) h

theorem atWidth_remS_extreme : atWidth remS w a b = 0 := by
  rw [atWidth_congr (g := fun _ _ _ => 0) (fun n x y => x = BitVec.intMin n ∧ y = -1) (fun _ _ _ hn e => e.2 ▸ remS_neg_one hn _) h]
  cases w <;> rfl

end

/-- Settles O2, from the special cases of quotient and remainder at any width. -/
theorem divisionHasItsSpecialCases : Obligations.DivisionHasItsSpecialCases := by
  unfold Obligations.DivisionHasItsSpecialCases
  intro d a b w s zero extreme self
  refine ⟨by decide +kernel, by decide +kernel, ?completes, ?_, ?_, ?_, ?_, ?_, ?_⟩
  case completes =>
    rintro i (rfl | rfl | rfl | rfl)
    · exact ⟨_, _, exec_div d a b w s, wroteReg_setG_advance s d _ 4⟩
    · exact ⟨_, _, exec_divu d a b w s, wroteReg_setG_advance s d _ 4⟩
    · exact ⟨_, _, exec_rem d a b w s, wroteReg_setG_advance s d _ 4⟩
    · exact ⟨_, _, exec_remu d a b w s, wroteReg_setG_advance s d _ 4⟩
  · exact fun z => writeReg_of_eq 4 d s (atWidth_quotient_zero quoS_zero z)
  · exact fun z => writeReg_of_eq 4 d s (atWidth_quotient_zero quoU_zero z)
  · exact fun z => writeReg_of_eq 4 d s (atWidth_remainder_zero remS_zero z)
  · exact fun z => writeReg_of_eq 4 d s (atWidth_remainder_zero remU_zero z)
  · exact fun x => writeReg_of_eq 4 d s (atWidth_quoS_extreme x)
  · exact fun x => writeReg_of_eq 4 d s (atWidth_remS_extreme x)

/-! ### The order of values (R48, R171, R172) -/

/-- The number that an exact dyadic is. -/
noncomputable def Dy.num (x : Dy) : ℚ := x.v * (2 : ℚ) ^ x.e

theorem Dy.num_neg_iff (x : Dy) : x.num < 0 ↔ x.v < 0 := by
  have pos : (0 : ℚ) < 2 ^ x.e := by positivity
  simp [Dy.num, mul_neg_iff, pos, pos.not_gt]

/-- Aligning a dyadic to a lower exponent keeps its number. -/
theorem num_aligned (v : Int) {e m : Int} (h : m ≤ e) : Dy.num ⟨v * 2 ^ (e - m).toNat, m⟩ = Dy.num ⟨v, e⟩ := by
  have split : (2 : ℚ) ^ e = 2 ^ (e - m).toNat * 2 ^ m := by
    rw [← zpow_natCast, ← zpow_add₀ two_ne_zero, Int.toNat_of_nonneg (by omega), Int.sub_add_cancel]
  simp only [Dy.num]
  push_cast
  rw [split, mul_assoc]

theorem Dy.num_add (x y : Dy) : (x.add y).num = x.num + y.num := by
  have sum (v w e : Int) : Dy.num ⟨v + w, e⟩ = Dy.num ⟨v, e⟩ + Dy.num ⟨w, e⟩ := by simp only [Dy.num, Int.cast_add, add_mul]
  exact (sum _ _ _).trans (congrArg₂ _ (num_aligned _ (min_le_left _ _)) (num_aligned _ (min_le_right _ _)))

theorem num_dyOf (n : Bool) (m : Nat) (e : Int) : (dyOf n m e).num = (FVal.fin n m e).num := by
  cases n <;> simp [dyOf, Dy.num, FVal.num]

/-- The difference of two finite values, over the lower of their exponents. -/
def finDiff (n1 : Bool) (m1 : Nat) (e1 : Int) (n2 : Bool) (m2 : Nat) (e2 : Int) : Int :=
  ((dyOf n1 m1 e1).add ⟨-(dyOf n2 m2 e2).v, e2⟩).v

section
variable {n1 : Bool} {m1 : Nat} {e1 : Int} {n2 : Bool} {m2 : Nat} {e2 : Int}

theorem finDiff_neg_iff : finDiff n1 m1 e1 n2 m2 e2 < 0 ↔ (FVal.fin n1 m1 e1).num < (FVal.fin n2 m2 e2).num := by
  have neg : Dy.num ⟨-(dyOf n2 m2 e2).v, e2⟩ = -(dyOf n2 m2 e2).num := by
    rw [Dy.num, Int.cast_neg, neg_mul]
    rfl
  rw [finDiff, ← Dy.num_neg_iff, Dy.num_add, neg, num_dyOf, num_dyOf, ← sub_eq_add_neg, sub_neg]

theorem finDiff_swap : finDiff n2 m2 e2 n1 m1 e1 = -finDiff n1 m1 e1 n2 m2 e2 := by
  simp only [finDiff, Dy.add, dyOf, min_comm e2 e1]
  ring

/-- The zeros in the order of R171, -0 below +0. -/
theorem compareV_zeros : compareV true (.fin n1 0 e1) (.fin n2 0 e2) = if n1 then (if n2 then 0 else -1) else if n2 then 1 else 0 := by
  simp [compareV, FVal.isInf, Dy.add, dyOf]

/-- Finite values, but for two zeros where the zeros are ordered, compare by the sign of their difference. -/
theorem compareV_fin {zeros : Bool} (h : ¬ (zeros = true ∧ m1 = 0 ∧ m2 = 0)) :
    compareV zeros (.fin n1 m1 e1) (.fin n2 m2 e2) = (finDiff n1 m1 e1 n2 m2 e2).sign :=
  if_neg fun c => h c.2

end

theorem FVal.not_nan_of_below {x y : FVal} (h : x.below y) : x.isNan = false ∧ y.isNan = false := by
  match x, y, h with
  | .inf _, .inf _, _ | .inf _, .fin .., _ | .fin .., .inf _, _ | .fin .., .fin .., _ => exact ⟨rfl, rfl⟩

section
variable {x y : FVal} (hx : x.isNan = false) (hy : y.isNan = false)
include hx hy

/-- Exchanging the operands turns the comparison round. -/
theorem compareV_swap (zeros : Bool) : compareV zeros y x = -compareV zeros x y := by
  match x, y with
  | .inf n, .inf m => cases n <;> cases m <;> rfl
  | .inf n, .fin .. | .fin .., .inf n => cases n <;> rfl
  | .fin n1 m1 e1, .fin n2 m2 e2 =>
    by_cases h : zeros = true ∧ m1 = 0 ∧ m2 = 0
    · obtain ⟨rfl, rfl, rfl⟩ := h
      rw [compareV_zeros, compareV_zeros]
      cases n1 <;> cases n2 <;> rfl
    · rw [compareV_fin h, compareV_fin fun c => h ⟨c.1, c.2.2, c.2.1⟩, finDiff_swap, Int.sign_neg]

theorem compareV_neg_iff_below : compareV false x y < 0 ↔ x.below y := by
  match x, y with
  | .inf n, .inf m => cases n <;> cases m <;> simp [compareV, FVal.isInf, FVal.below]
  | .inf n, .fin .. | .fin .., .inf n => cases n <;> simp [compareV, FVal.isInf, FVal.below]
  | .fin n1 m1 e1, .fin n2 m2 e2 =>
    rw [compareV_fin fun c => Bool.false_ne_true c.1, Int.sign_neg_iff, finDiff_neg_iff]
    rfl

theorem compareV_eq_zero_iff_same : compareV false x y = 0 ↔ x.same y := by
  have less := compareV_neg_iff_below hx hy
  have greater := compareV_neg_iff_below hy hx
  rw [compareV_swap hx hy] at greater
  rw [FVal.same, ← less, ← greater]
  simp only [hx, hy, true_and]
  omega

/-- Ordering the zeros changes the comparison of two zeros alone, as it changes the order: -0 comes before +0. -/
theorem compareV_neg_iff_before : compareV true x y < 0 ↔ x.before y := by
  have below := compareV_neg_iff_below hx hy
  match x, y with
  | .inf _, .inf _ | .inf _, .fin .. | .fin .., .inf _ =>
    exact below.trans (or_iff_left fun ⟨_, _, hx, hy⟩ => by cases hx <;> cases hy).symm
  | .fin n1 m1 e1, .fin n2 m2 e2 =>
    by_cases h : m1 = 0 ∧ m2 = 0
    · obtain ⟨rfl, rfl⟩ := h
      rw [compareV_zeros]
      cases n1 <;> cases n2 <;> simp [FVal.before, FVal.below, FVal.num]
    · rw [compareV_fin fun c => Bool.false_ne_true c.1] at below
      rw [compareV_fin fun c => h c.2, below, FVal.before, or_iff_left]
      rintro ⟨e, f, hx, hy⟩
      cases hx
      cases hy
      exact h ⟨rfl, rfl⟩

theorem compareV_pos_iff_before : 0 < compareV true x y ↔ y.before x := by
  rw [← compareV_neg_iff_before hy hx, compareV_swap hx hy, neg_lt_zero]

end

/-! ### `fmin`, `fmax` and `fcmp` on codes (R171, R172) -/

section
variable (f : Fmt) (max : Bool) (a b : Nat)

theorem Fmt.minmax_flags : (f.minmax max a b).2 = if (f.value a).isSig ∨ (f.value b).isSig then 16 else 0 := by
  unfold Fmt.minmax
  dsimp only
  split
  · simp only [Bool.or_eq_true]
  · split <;> simp only [Bool.or_eq_true]

variable {f a b}

theorem Fmt.minmax_nans (hx : (f.value a).isNan) (hy : (f.value b).isNan) : (f.minmax max a b).1 = f.nan := by
  simp [Fmt.minmax, hx, hy]

theorem Fmt.minmax_nan_left (hx : (f.value a).isNan) (hy : ¬ (f.value b).isNan) : (f.minmax max a b).1 = b % 2 ^ f.width := by
  simp [Fmt.minmax, hx, hy]

theorem Fmt.minmax_nan_right (hx : ¬ (f.value a).isNan) (hy : (f.value b).isNan) : (f.minmax max a b).1 = a % 2 ^ f.width := by
  simp [Fmt.minmax, hx, hy]

/-- The greater of two numbers is neither before the other; the first, when none is. -/
theorem Fmt.max_numbers (hx : ¬ (f.value a).isNan) (hy : ¬ (f.value b).isNan) :
    ((f.minmax true a b).1 = a % 2 ^ f.width ∧ ¬ (f.value a).before (f.value b))
      ∨ ((f.minmax true a b).1 = b % 2 ^ f.width ∧ ¬ (f.value b).before (f.value a)) := by
  rw [Bool.not_eq_true] at hx hy
  rw [← compareV_neg_iff_before hx hy, ← compareV_pos_iff_before hx hy]
  by_cases h : 0 ≤ compareV true (f.value a) (f.value b)
  · exact .inl ⟨by simp [Fmt.minmax, hx, hy, h], by omega⟩
  · exact .inr ⟨by simp [Fmt.minmax, hx, hy, h], by omega⟩

theorem Fmt.min_numbers (hx : ¬ (f.value a).isNan) (hy : ¬ (f.value b).isNan) :
    ((f.minmax false a b).1 = a % 2 ^ f.width ∧ ¬ (f.value b).before (f.value a))
      ∨ ((f.minmax false a b).1 = b % 2 ^ f.width ∧ ¬ (f.value a).before (f.value b)) := by
  rw [Bool.not_eq_true] at hx hy
  rw [← compareV_neg_iff_before hx hy, ← compareV_pos_iff_before hx hy]
  by_cases h : compareV true (f.value a) (f.value b) ≤ 0
  · exact .inl ⟨by simp [Fmt.minmax, hx, hy, h], by omega⟩
  · exact .inr ⟨by simp [Fmt.minmax, hx, hy, h], by omega⟩

end

/-- A relation that holds of numbers alone, and that a test decides on numbers, is decided by the test with its check for NaN. -/
theorem not_nan_and_iff {x y : FVal} {p r : Prop} [Decidable p] (numbers : r → x.isNan = false ∧ y.isNan = false)
    (h : x.isNan = false → y.isNan = false → (p ↔ r)) : (!(x.isNan || y.isNan) && decide p) = true ↔ r := by
  rw [Bool.and_eq_true, Bool.not_eq_true', Bool.or_eq_false_iff, decide_eq_true_iff]
  exact ⟨fun ⟨⟨hx, hy⟩, hp⟩ => (h hx hy).mp hp, fun hr => ⟨numbers hr, (h (numbers hr).1 (numbers hr).2).mpr hr⟩⟩

section
variable (f : Fmt) (a b : Nat)

theorem Fmt.cmp_eq_iff : (f.cmp 0 a b).1 = true ↔ (f.value a).same (f.value b) :=
  not_nan_and_iff (fun h => ⟨h.1, h.2.1⟩) compareV_eq_zero_iff_same

theorem Fmt.cmp_lt_iff : (f.cmp 1 a b).1 = true ↔ (f.value a).below (f.value b) :=
  not_nan_and_iff FVal.not_nan_of_below compareV_neg_iff_below

theorem Fmt.cmp_le_iff : (f.cmp 2 a b).1 = true ↔ (f.value a).below (f.value b) ∨ (f.value a).same (f.value b) :=
  not_nan_and_iff (fun h => h.elim FVal.not_nan_of_below fun h => ⟨h.1, h.2.1⟩) fun hx hy => by
    rw [le_iff_lt_or_eq, compareV_neg_iff_below hx hy, compareV_eq_zero_iff_same hx hy]

theorem Fmt.cmp_eq_flags : (f.cmp 0 a b).2 = if (f.value a).isSig ∨ (f.value b).isSig then 16 else 0 := by
  simp only [Fmt.cmp, Bool.or_eq_true]

theorem Fmt.cmp_lt_flags : (f.cmp 1 a b).2 = if (f.value a).isNan ∨ (f.value b).isNan then 16 else 0 := by
  simp only [Fmt.cmp, Bool.or_eq_true]

theorem Fmt.cmp_le_flags : (f.cmp 2 a b).2 = if (f.value a).isNan ∨ (f.value b).isNan then 16 else 0 := by
  simp only [Fmt.cmp, Bool.or_eq_true]

end

/-! ### Delivering a floating result (R170) -/

/-- What delivering a floating result and completing leaves. -/
theorem wroteFloat_putFloat_advance (s : State) (d : Reg) (r : FRes) : WroteFloat s ((s.putFloat d r).advance 4) d r where
  value := by rw [State.g_advance, State.putFloat, State.g_orFlags, State.g_setG, if_pos rfl]
  others := fun x hx => by rw [State.g_advance, State.putFloat, State.g_orFlags, State.g_setG, if_neg hx]
  ldn := rfl
  flags := rfl
  pc := ⟨rfl, rfl, rfl, rfl⟩
  rest := ⟨rfl, rfl, rfl, rfl, rfl, rfl, rfl, rfl⟩
  scalar := rfl

/-- A floating instruction without a rounding field delivers its result. -/
theorem fpPlain_spec (d : Reg) (r : FRes) (s : State) : ∃ t, fpPlain d r s = .next t ∧ WroteFloat s t d r :=
  ⟨_, rfl, wroteFloat_putFloat_advance s d r⟩

theorem exec_minmax (max : Bool) (d a b : Reg) (single : Bool) (s : State) :
    exec (if max then .fmax d a b single else .fmin d a b single) s
      = fpPlain d ((scalarFmt single).minmax max (s.g a).toNat (s.g b).toNat) s := by
  cases max <;> rfl

theorem bit01_eq_one_iff (c : Bool) : bit01 c = 1 ↔ c = true := by cases c <;> decide

theorem bit01_le_one (c : Bool) : bit01 c ≤ 1 := by cases c <;> decide

/-- `fcmp` delivers 1 or 0 by the relation that its condition decides, with the flags of the comparison. -/
theorem exec_fcmp_spec {d a b : Reg} (cond : BitVec 3) {single : Bool} (s : State) {flags : Nat} {relation : Prop}
    (hf : ((scalarFmt single).cmp cond.toNat (s.g a).toNat (s.g b).toNat).2 = flags)
    (hr : ((scalarFmt single).cmp cond.toNat (s.g a).toNat (s.g b).toNat).1 = true ↔ relation) :
    ∃ t r, exec (.fcmp d a b cond single) s = .next t ∧ WroteFloat s t d (r, flags) ∧ (r = 1 ↔ relation) ∧ r ≤ 1 := by
  subst hf
  obtain ⟨t, ht, wrote⟩ := fpPlain_spec d (bit01 ((scalarFmt single).cmp cond.toNat (s.g a).toNat (s.g b).toNat).1, _) s
  exact ⟨t, _, ht, wrote, (bit01_eq_one_iff _).trans hr, bit01_le_one _⟩

/-- Settles O12, by the four cases of NaN operands, the order being that of `compareV` with ordered zeros. -/
theorem minMaxFollowTheOrder : Obligations.MinMaxFollowTheOrder := by
  unfold Obligations.MinMaxFollowTheOrder
  intro d a b single max s F x y first second
  obtain ⟨t, ht, wrote⟩ := fpPlain_spec d (F.minmax max (s.g a).toNat (s.g b).toNat) s
  refine ⟨t, (F.minmax max (s.g a).toNat (s.g b).toNat).1, (exec_minmax max d a b single s).trans ht, ?_,
    F.minmax_nans max, F.minmax_nan_left max, F.minmax_nan_right max, fun hx hy => ?_⟩
  · rwa [← F.minmax_flags max]
  · cases max
    · exact F.min_numbers hx hy
    · exact F.max_numbers hx hy

/-- Settles O13, by what each relation of `fcmp` decides and the flags it sets. -/
theorem comparesFollowTheRelation : Obligations.ComparesFollowTheRelation := by
  unfold Obligations.ComparesFollowTheRelation
  intro d a b single s x y anySig anyNan
  let F := scalarFmt single
  exact ⟨exec_fcmp_spec 0 s (F.cmp_eq_flags _ _) (F.cmp_eq_iff _ _), exec_fcmp_spec 1 s (F.cmp_lt_flags _ _) (F.cmp_lt_iff _ _),
    exec_fcmp_spec 2 s (F.cmp_le_flags _ _) (F.cmp_le_iff _ _)⟩

end Sys2Proof.Machine
end
